-- ==== Sys2Proof/Word.lean ====
section
/-! DEFINITION. The word types of the block: bytes, 32-bit bus words and 64-bit register values
(spec/00_scope.md R10, spec/20_memory.md R85). -/

namespace Sys2Proof

/-- One byte of the aperture. -/
abbrev Byte := BitVec 8

/-- One 32-bit bus word, the only access size (R87). -/
abbrev Word := BitVec 32

/-- The bits of a binary64 or u64 value, two words with bits [31:0] at the lower offset (R85). -/
abbrev Bits64 := BitVec 64

end Sys2Proof
end

