-- ==== Sys2Proof/Syntax.lean ====
section
/-! DEFINITION. The commands of the block (spec/30_encoding.md R112, one constructor per row of
spec/opcode_table.json), the four fields of a command word (R110), and what a word decodes to (R116). -/

namespace Sys2Proof

/-- A command. Its only operands are the flags of R113; all else is in registers and memories (R111). -/
inductive Instr where
  /-- OPC 0x00 (R140). -/
  | nop
  /-- OPC 0x01 (R141). -/
  | checkLayout
  /-- OPC 0x02 (R142). -/
  | initTaps
  /-- OPC 0x03, F0 = SEED (R180). -/
  | sync (seed : Bool)
  /-- OPC 0x04, F0 = SEED (R220). -/
  | equalize (seed : Bool)
  /-- OPC 0x05, F0 = SEED (R225). -/
  | recover (seed : Bool)
  /-- OPC 0x06, F0 = SYNCED, F1 = ACC (R260). -/
  | estimate (synced acc : Bool)
  /-- OPC 0x07 (R143). -/
  | accClear
  deriving DecidableEq, Repr

/-- Why a command word is illegal, in the order of the checks of R114. -/
inductive IllegalSub where
  /-- Sub-code 1: OPC >= 0x08. -/
  | unknownOpcode
  /-- Sub-code 2: RSV != 0. -/
  | reservedBits
  /-- Sub-code 3: a flag the opcode does not have. -/
  | undefinedFlag
  deriving DecidableEq, Repr

/-- What a command word decodes to (R116): a command, or ILLEGAL with its sub-code. -/
inductive Decoded where
  | legal (i : Instr)
  | illegal (sub : IllegalSub)
  deriving DecidableEq, Repr

/-- The fields of a command word (R110). -/
structure CommandWord where
  /-- [7:0] -/
  opc : BitVec 8
  /-- [8] -/
  f0 : Bool
  /-- [9] -/
  f1 : Bool
  /-- [31:10] -/
  rsv : BitVec 22
  deriving DecidableEq, Repr

/-- The field values that stand for a command (R112, R113). -/
def Instr.fields : Instr → CommandWord
  | .nop => ⟨0x00, false, false, 0⟩
  | .checkLayout => ⟨0x01, false, false, 0⟩
  | .initTaps => ⟨0x02, false, false, 0⟩
  | .sync seed => ⟨0x03, seed, false, 0⟩
  | .equalize seed => ⟨0x04, seed, false, 0⟩
  | .recover seed => ⟨0x05, seed, false, 0⟩
  | .estimate synced acc => ⟨0x06, synced, acc, 0⟩
  | .accClear => ⟨0x07, false, false, 0⟩

end Sys2Proof
end

