-- ==== Sys2Proof/WellFormed.lean ====
section
/-! DEFINITION. When the fields of a command word are a legal command (spec/30_encoding.md R112, R114): the
three checks of R114, none of which may hold. Every term of `Instr` is well formed, because its operands are
single flags; the checks refuse field values, not terms of `Instr`. -/

namespace Sys2Proof

/-- The opcodes that have flag F0 (R112): SYNC, EQUALIZE, RECOVER and ESTIMATE. -/
def hasF0 (opc : BitVec 8) : Bool := opc == 0x03 || opc == 0x04 || opc == 0x05 || opc == 0x06

/-- The one opcode that has flag F1 (R112): ESTIMATE. -/
def hasF1 (opc : BitVec 8) : Bool := opc == 0x06

/-- Check 1 of R114: the opcode is assigned. -/
def CommandWord.opcodeKnown (c : CommandWord) : Bool := decide (c.opc.toNat < 0x08)

/-- Check 2 of R114: the reserved bits are 0. -/
def CommandWord.reservedZero (c : CommandWord) : Bool := c.rsv == 0

/-- Check 3 of R114: no flag is set that the opcode does not have. -/
def CommandWord.flagsDefined (c : CommandWord) : Bool :=
  (!c.f0 || hasF0 c.opc) && (!c.f1 || hasF1 c.opc)

/-- A command word is legal when none of the conditions of R114 holds. -/
def CommandWord.wellFormed (c : CommandWord) : Bool :=
  c.opcodeKnown && c.reservedZero && c.flagsDefined

/-- A command is well formed when its fields are a legal command word. -/
def Instr.wellFormed (i : Instr) : Bool := i.fields.wellFormed

end Sys2Proof
end

