-- ==== Sys2Proof/Decode.lean ====
section
/-! DEFINITION. Decoding, a total function of the 32-bit word (spec/30_encoding.md R116), and the encoder
written from the field layout of R110 and the opcode map of R112. -/

namespace Sys2Proof

/-- The fields of a word (R110). -/
def CommandWord.ofWord (w : Word) : CommandWord :=
  { opc := w.extractLsb' 0 8
    f0 := w.getLsbD 8
    f1 := w.getLsbD 9
    rsv := w.extractLsb' 10 22 }

/-- The word with these fields (R110). -/
def CommandWord.toWord (c : CommandWord) : Word :=
  c.rsv ++ (BitVec.ofBool c.f1 ++ (BitVec.ofBool c.f0 ++ c.opc))

/-- The `case opc of` of R116, for a known opcode and RSV = 0. -/
def decodeOpcode (opc : Nat) (f0 f1 : Bool) : Decoded :=
  match opc with
  | 0x00 => if f0 || f1 then .illegal .undefinedFlag else .legal .nop
  | 0x01 => if f0 || f1 then .illegal .undefinedFlag else .legal .checkLayout
  | 0x02 => if f0 || f1 then .illegal .undefinedFlag else .legal .initTaps
  | 0x03 => if f1 then .illegal .undefinedFlag else .legal (.sync f0)
  | 0x04 => if f1 then .illegal .undefinedFlag else .legal (.equalize f0)
  | 0x05 => if f1 then .illegal .undefinedFlag else .legal (.recover f0)
  | 0x06 => .legal (.estimate f0 f1)
  | 0x07 => if f0 || f1 then .illegal .undefinedFlag else .legal .accClear
  | _ => .illegal .unknownOpcode

/-- R116: the opcode is tested before the reserved bits, and those before the flags (R114). -/
def decode (w : Word) : Decoded :=
  let c := CommandWord.ofWord w
  if 0x08 ≤ c.opc.toNat then .illegal .unknownOpcode
  else if c.rsv ≠ 0 then .illegal .reservedBits
  else decodeOpcode c.opc.toNat c.f0 c.f1

/-- The word of a command (R110, R112, R120). -/
def encode (i : Instr) : Word := i.fields.toWord

/-- The instruction this decoder reads from the word `w` of `nbits` bits, as spec/opcode_table.json numbers
them; none where the word is ILLEGAL. -/
def decodeTableWord (nbits w : Nat) : Option Instr :=
  match decode (BitVec.ofNat 32 (w % 2 ^ nbits)) with
  | .legal i => some i
  | .illegal _ => none

end Sys2Proof
end

