-- ==== Sys2Proof/Machine/Errors.lean ====
section
/-! DEFINITION. The errors a command can report (spec/60_exceptions.md R281 to R285) and the checks of
validation (spec/40_control.md R137), with their numbers. -/

namespace Sys2Proof.Machine

/-- The checks of R137, by the names of its table. -/
inductive Check where
  | frameLenZero
  | pilotLenZero
  | pilotGtFrame
  | pilotBlockOverrun
  | modeMismatch
  | modesRange
  | frameTooLong
  | pilotTooLong
  | pilotZeroEnergy
  | osRange
  | tapsInvalid
  | sampleLenRange
  | muInvalid
  | thresholdInvalid
  | aggModeReserved
  | weightInvalid
  | tapLimitInvalid
  | divFactorInvalid
  | constSizeRange
  | constZeroPower
  | rotOrderRange
  | estWindow
  | refLenRange
  | refShort
  | noOverlap
  | frameOutOfBuffer
  deriving DecidableEq, Repr

/-- The check's number (R137). -/
def Check.number : Check → Nat
  | .frameLenZero => 1
  | .pilotLenZero => 2
  | .pilotGtFrame => 3
  | .pilotBlockOverrun => 4
  | .modeMismatch => 5
  | .modesRange => 6
  | .frameTooLong => 7
  | .pilotTooLong => 8
  | .pilotZeroEnergy => 9
  | .osRange => 10
  | .tapsInvalid => 11
  | .sampleLenRange => 12
  | .muInvalid => 13
  | .thresholdInvalid => 14
  | .aggModeReserved => 15
  | .weightInvalid => 16
  | .tapLimitInvalid => 17
  | .divFactorInvalid => 18
  | .constSizeRange => 19
  | .constZeroPower => 20
  | .rotOrderRange => 21
  | .estWindow => 22
  | .refLenRange => 23
  | .refShort => 24
  | .noOverlap => 25
  | .frameOutOfBuffer => 26

/-- The causes of SYNC_FAILURE (R282). -/
inductive SyncFailure where
  | emptyWindow
  | nonfinite
  | belowThreshold
  | interimDiverged
  deriving DecidableEq, Repr

/-- The sub-code of a SYNC_FAILURE (R282). -/
def SyncFailure.sub : SyncFailure → Nat
  | .emptyWindow => 1
  | .nonfinite => 2
  | .belowThreshold => 3
  | .interimDiverged => 4

/-- The causes of DIVERGENCE (R283). -/
inductive DivergenceKind where
  | tapLimit
  | tapNonfinite
  | powerHigh
  | powerLow
  | powerNonfinite
  deriving DecidableEq, Repr

/-- The sub-code of a DIVERGENCE (R283). -/
def DivergenceKind.sub : DivergenceKind → Nat
  | .tapLimit => 1
  | .tapNonfinite => 2
  | .powerHigh => 3
  | .powerLow => 4
  | .powerNonfinite => 5

/-- DIV_WHERE.KIND: 0 tap test, 1 power test (R62, R283). -/
def DivergenceKind.code : DivergenceKind → Nat
  | .tapLimit => 0
  | .tapNonfinite => 0
  | .powerHigh => 1
  | .powerLow => 1
  | .powerNonfinite => 1

/-- The sub-code of an illegal word (R114, R285). -/
def illegalSubCode : IllegalSub → Nat
  | .unknownOpcode => 1
  | .reservedBits => 2
  | .undefinedFlag => 3

/-- An error a command completes with (R281). -/
inductive CmdError where
  | syncFailure (f : SyncFailure)
  | divergence (k : DivergenceKind)
  | invalidLayout (c : Check)
  | illegalCommand (sub : IllegalSub)
  | aborted
  deriving DecidableEq, Repr

/-- ERR.CODE (R281). -/
def CmdError.code : CmdError → Nat
  | .syncFailure _ => 1
  | .divergence _ => 2
  | .invalidLayout _ => 3
  | .illegalCommand _ => 4
  | .aborted => 5

/-- ERR.SUB (R282 to R285, R292). -/
def CmdError.sub : CmdError → Nat
  | .syncFailure f => f.sub
  | .divergence k => k.sub
  | .invalidLayout c => c.number
  | .illegalCommand x => illegalSubCode x
  | .aborted => 1

end Sys2Proof.Machine
end

