-- ==== Sys2Proof/Machine/Arith.lean ====
section
/-! DEFINITION. The number system of the engines: IEEE 754 binary64 (spec/00_scope.md R13, R14, R17, R18) and
the complex operations written over it (R15).

Every finite binary64 value is an integer multiple of 2^-1074, so a finite value is held as a sign and the Nat
`k` of its magnitude `k * 2^-1074`. An operation is computed exactly on integers and rounded once by
`F64.round`. One `nan` stands for every NaN, because no rule tests a payload (R18); its bits are chosen when it
is stored (log entry 2). -/

namespace Sys2Proof.Machine

/-- A binary64 value (R14). -/
inductive F64 where
  /-- not a number, of any payload -/
  | nan
  /-- an infinity; `neg` is its sign -/
  | inf (neg : Bool)
  /-- the value `k * 2^-1074`, negated if `neg` -/
  | fin (neg : Bool) (k : Nat)
  deriving DecidableEq, Repr, Inhabited

namespace F64

/-- The unit: 1.0 is `one * 2^-1074`. -/
@[irreducible] def one : Nat := 2 ^ 1074

/-- Magnitudes from `limit * 2^-1074` = 2^1024 on are infinite (R14). -/
@[irreducible] def limit : Nat := 2 ^ 2098

/-- `+0.0` -/
def zero : F64 := fin false 0

/-- `1.0` -/
def oneVal : F64 := fin false one

/-! ## Rounding -/

/-- The quotient `n / d` rounded to the nearest integer, ties to even. -/
def divNearestEven (n d : Nat) : Nat :=
  let q := n / d
  let r := n % d
  if d < 2 * r then q + 1
  else if 2 * r = d then q + q % 2
  else q

/-- How many low bits of the magnitude `n / d` (in units of 2^-1074) lie below its last representable place: a
significand has 53 bits, and subnormals are kept (R14). -/
def roundShift (n d : Nat) : Nat := (n / d).log2 - 52

/-- The binary64 value nearest to `(-1)^neg * (n / d) * 2^-1074`, ties to even; overflow gives an infinity
(R14). -/
def round (neg : Bool) (n d : Nat) : F64 :=
  let sh := roundShift n d
  let k := divNearestEven n (d * 2 ^ sh) * 2 ^ sh
  if limit ≤ k then inf neg else fin neg k

/-! ## Bits (R14) -/

/-- The value of 64 bits: sign 63, biased exponent 62:52, fraction 51:0. -/
def ofBits (b : Bits64) : F64 :=
  let neg := b.getLsbD 63
  let e := b.toNat / 2 ^ 52 % 2 ^ 11
  let f := b.toNat % 2 ^ 52
  if e = 2047 then (if f = 0 then inf neg else nan)
  else if e = 0 then fin neg f
  else fin neg ((2 ^ 52 + f) * 2 ^ (e - 1))

/-- Bits from sign, biased exponent and fraction. -/
def packBits (neg : Bool) (e f : Nat) : Bits64 :=
  BitVec.ofNat 64 ((if neg then 2 ^ 63 else 0) + e * 2 ^ 52 + f)

/-- The NaN pattern that free bits stand for: exponent all ones and a nonzero fraction. Every NaN pattern is
one of these (R18, 93 U6). -/
def nanPattern (b : Bits64) : Bits64 :=
  let f := b.toNat % 2 ^ 52
  packBits (b.getLsbD 63) 2047 (if f = 0 then 1 else f)

/-- The bits of a value; `free` supplies the bits of a NaN (R18). -/
def toBits (free : Bits64) : F64 → Bits64
  | nan => nanPattern free
  | inf neg => packBits neg 2047 0
  | fin neg k =>
    if k < 2 ^ 52 then packBits neg 0 k
    else
      let sh := k.log2 - 52
      packBits neg (sh + 1) (k / 2 ^ sh - 2 ^ 52)

/-! ## Arithmetic (R14, R15) -/

/-- Negation is exact. -/
def neg : F64 → F64
  | nan => nan
  | inf s => inf (!s)
  | fin s k => fin (!s) k

/-- The signed integer of a finite value, in units of 2^-1074. -/
def signed (s : Bool) (k : Nat) : Int := if s then -(k : Int) else (k : Int)

/-- `a + b`. An exact zero sum is `-0.0` only when both operands are `-0.0`. -/
def add : F64 → F64 → F64
  | nan, _ => nan
  | _, nan => nan
  | inf s, inf t => if s = t then inf s else nan
  | inf s, fin _ _ => inf s
  | fin _ _, inf t => inf t
  | fin s k, fin t l =>
    let z := signed s k + signed t l
    if z = 0 then fin (s && t && (k == 0)) 0
    else round (decide (z < 0)) z.natAbs 1

/-- `a - b` -/
def sub (a b : F64) : F64 := add a (neg b)

/-- `a * b` -/
def mul : F64 → F64 → F64
  | nan, _ => nan
  | _, nan => nan
  | inf s, inf t => inf (s ^^ t)
  | inf s, fin t l => if l = 0 then nan else inf (s ^^ t)
  | fin s k, inf t => if k = 0 then nan else inf (s ^^ t)
  | fin s k, fin t l => round (s ^^ t) (k * l) one

/-- `a / b`: 0/0 is NaN, and x/0 for nonzero x an infinity of the sign of the quotient (R14). -/
def div : F64 → F64 → F64
  | nan, _ => nan
  | _, nan => nan
  | inf _, inf _ => nan
  | inf s, fin t _ => inf (s ^^ t)
  | fin s _, inf t => fin (s ^^ t) 0
  | fin s k, fin t l =>
    if l = 0 then (if k = 0 then nan else inf (s ^^ t))
    else round (s ^^ t) (k * one) l

/-- `real(n)` of a count, exact below 2^53 (R17). -/
def ofNat (n : Nat) : F64 := round false (n * one) 1

/-! ## Comparisons, false when an operand is NaN (R17) -/

/-- `a < b` -/
def lt : F64 → F64 → Bool
  | nan, _ => false
  | _, nan => false
  | inf s, inf t => s && !t
  | inf s, fin _ _ => s
  | fin _ _, inf t => !t
  | fin s k, fin t l => decide (signed s k < signed t l)

/-- `a = b`; `+0.0` and `-0.0` are equal. -/
def eqv : F64 → F64 → Bool
  | nan, _ => false
  | _, nan => false
  | inf s, inf t => s == t
  | inf _, fin _ _ => false
  | fin _ _, inf _ => false
  | fin s k, fin t l => decide (signed s k = signed t l)

/-- `a > b` -/
def gt (a b : F64) : Bool := lt b a

/-- `a <= b` -/
def le (a b : F64) : Bool := lt a b || eqv a b

/-- `a >= b` -/
def ge (a b : F64) : Bool := le b a

/-- `isFinite(a)` -/
def isFinite : F64 → Bool
  | fin _ _ => true
  | _ => false

/-- `a is NaN` -/
def isNaN : F64 → Bool
  | nan => true
  | _ => false

end F64

/-! ## Complex values (R15) -/

/-- A complex value (R13). -/
structure Cplx where
  re : F64
  im : F64
  deriving DecidableEq, Repr, Inhabited

namespace Cplx

/-- `ZERO = (+0.0, +0.0)` -/
def zero : Cplx := ⟨F64.zero, F64.zero⟩

/-- `ONE = (1.0, +0.0)` -/
def one : Cplx := ⟨F64.oneVal, F64.zero⟩

/-- `a + b` -/
def add (a b : Cplx) : Cplx := ⟨a.re.add b.re, a.im.add b.im⟩

/-- `a - b` -/
def sub (a b : Cplx) : Cplx := ⟨a.re.sub b.re, a.im.sub b.im⟩

/-- `a * b`: four products, then one subtraction and one addition, each rounded. -/
def mul (a b : Cplx) : Cplx :=
  ⟨(a.re.mul b.re).sub (a.im.mul b.im), (a.re.mul b.im).add (a.im.mul b.re)⟩

/-- `conj(a)` -/
def conj (a : Cplx) : Cplx := ⟨a.re, a.im.neg⟩

/-- `s .* a` -/
def scale (s : F64) (a : Cplx) : Cplx := ⟨s.mul a.re, s.mul a.im⟩

/-- `a ./ s` -/
def divReal (a : Cplx) (s : F64) : Cplx := ⟨a.re.div s, a.im.div s⟩

/-- `abs2(a)` -/
def abs2 (a : Cplx) : F64 := (a.re.mul a.re).add (a.im.mul a.im)

/-- A complex value is finite when both parts are (R17). -/
def isFinite (a : Cplx) : Bool := a.re.isFinite && a.im.isFinite

end Cplx

end Sys2Proof.Machine
end

