-- ==== Sys2Proof/Config.lean ====
section
/-! DEFINITION. What is fixed for one instance of the block: its synthesis-time parameters
(spec/00_scope.md R6), the aperture's base address (R9), and the free value the spec calls "any value"
(spec/93_implementation_defined.md U1 to U4, U6). -/

namespace Sys2Proof.Config

/-! ## Instance parameters (R6); log entry 21 -/

/-- `M_MAX`: the most modes. -/
abbrev mMax : Nat := 2
/-- `OS_MAX`: the largest oversampling factor. -/
abbrev osMax : Nat := 8
/-- `S_MAX`: SAMPLE depth per mode. -/
abbrev sMax : Nat := 65536
/-- `L_MAX`: OUT depth per mode, the longest frame. -/
abbrev lMax : Nat := 16384
/-- `P_MAX`: PILOT depth per mode. -/
abbrev pMax : Nat := 4096
/-- `R_MAX`: REF depth per mode. -/
abbrev rMax : Nat := 16384
/-- `N_MAX`: the most taps of one filter. -/
abbrev nMax : Nat := 63
/-- `Q_MAX`: CONST depth. -/
abbrev qMax : Nat := 1024
/-- `ROT_MAX`: rotation table depth. -/
abbrev rotMax : Nat := 8

/-! ## The platform's parameter (R9, decision D12); log entry 14 -/

/-- Which multiple of 2^24 the platform chose for `BASE`. Uninterpreted: nothing proves a value of it. -/
opaque basePage : Nat

/-- `BASE`, an integer multiple of 2^24 (R9). Every address of the model is an offset from it. -/
def base : Nat := basePage * 2 ^ 24

/-- The platform address of an offset of the aperture (R9, R82). -/
def busAddress (offset : BitVec 24) : Nat := base + offset.toNat

/-! ## The free value; log entry 1 -/

/-- "Any value": the word that draw number `draw` gives the location at byte offset `loc`. It has no body,
so a claim about it holds for every value it could have. -/
opaque anyWord (draw loc : Nat) : Word

end Sys2Proof.Config
end

