-- ==== Sys2Proof/Machine/State.lean ====
section
/-! DEFINITION. The state of the block as plain data (spec/10_state.md), what its host and reset pin do next,
the reasons a step can stop, and the state right after the power-on reset (R74). -/

namespace Sys2Proof.Machine

/-! ## Parts of the state -/

/-- The states of the synchronizer (R174); STATUS.SYNC_STATE shows their code. -/
inductive SyncState where
  | idle
  | coarse
  | refine
  | converged
  | failed
  | iterLimit
  deriving DecidableEq, Repr

/-- The stored fields of STATUS (R34). BUSY is not among them: it shows `engine` (R73). -/
structure Status where
  /-- [1] SYNC_VALID -/
  syncValid : Bool
  /-- [2] EQ_VALID -/
  eqValid : Bool
  /-- [3] EST_VALID -/
  estValid : Bool
  /-- [4] CONF_INF -/
  confInf : Bool
  /-- [5] SNR_INF -/
  snrInf : Bool
  /-- [10:8] SYNC_STATE -/
  syncState : SyncState
  deriving DecidableEq, Repr

/-- ERR (R36). -/
structure Err where
  /-- [7:0] CODE -/
  code : BitVec 8
  /-- [15:8] SUB -/
  sub : BitVec 8
  deriving DecidableEq, Repr

/-- IRQ_STATUS (R37). -/
structure IrqStatus where
  /-- [0] DONE -/
  done : Bool
  /-- [1] ERROR -/
  error : Bool
  /-- [2] WR_IGNORED -/
  wrIgnored : Bool
  /-- [3] CMD_REJECTED -/
  cmdRejected : Bool
  deriving DecidableEq, Repr

/-- The bits of a stored complex value: two binary64 values (R59). -/
structure CplxBits where
  re : Bits64
  im : Bits64
  deriving DecidableEq, Repr

/-- The configuration registers (R40 to R59), each field at its own width. Written values are stored exactly,
legal or not (R39). -/
structure ConfigRegs where
  layoutModes : BitVec 3
  streamModes : BitVec 3
  os : BitVec 8
  frameLen : Word
  pilotLen : Word
  pilotPos : Word
  sampleLen : Word
  numTaps : BitVec 8
  searchStart : Word
  searchLen : Word
  iterations : BitVec 8
  refineHalf : BitVec 16
  threshold : Bits64
  aggMode : BitVec 2
  /-- AGG_WEIGHT[t][r] (R53) -/
  aggWeight : Vector (Vector Bits64 4) 4
  /-- MU[t] (R54) -/
  mu : Vector Bits64 4
  tapLimit : Bits64
  divFactor : Bits64
  constSize : BitVec 16
  rotOrder : BitVec 4
  frameOffset : Word
  estStart : Word
  estLen : Word
  refLen : Word
  delayMax : BitVec 16
  /-- ROT[q] (R59) -/
  rot : Vector CplxBits 8
  deriving DecidableEq, Repr

/-- The SYNC results (R60, R61). -/
structure SyncResults where
  offset : Word
  iters : Word
  candStart : Word
  candCount : Word
  peak : Bits64
  floor : Bits64
  conf : Bits64
  coarseOffset : Word
  /-- CHEST[t][r] (R61) -/
  chest : Vector (Vector CplxBits 4) 4
  deriving DecidableEq, Repr

/-- The EQ results (R62). -/
structure EqResults where
  divMag : Bits64
  divSymbol : Word
  divWhere : Word
  /-- OUT_POWER[t] -/
  outPower : Vector Bits64 4
  deriving DecidableEq, Repr

/-- The PERF results (R63). -/
structure PerfResults where
  errors : Word
  symbols : Word
  ser : Bits64
  sigpow : Bits64
  errpow : Bits64
  snr : Bits64
  best : Word
  delay : Word
  deriving DecidableEq, Repr

/-- The accumulators (R64). -/
structure Accumulators where
  errors : Bits64
  symbols : Bits64
  sigpow : Bits64
  errpow : Bits64
  frames : Word
  deriving DecidableEq, Repr

/-- The bytes of the seven memories (R66 to R72) at their offsets of R84: addresses strictly rising. An
unlisted address has not been written since power-on and has no value (R104; log entry 4). -/
abbrev Memory := List Host.Cell

/-- One entry of a memory (R66 to R72), by its indices. -/
inductive Entry where
  | sample (r n : Nat)
  | pilot (t k : Nat)
  | ref (t k : Nat)
  | out (t k : Nat)
  | tap (t r j : Nat)
  | const (q : Nat)
  | corr (i : Nat)
  deriving DecidableEq, Repr

/-- The engine (R73): IDLE, or RUNNING what the accepted word decodes to (R130). -/
inductive Engine where
  | idle
  | running (c : Decoded)
  deriving DecidableEq, Repr

/-! ## The host's side -/

/-- The kind of a bus request (R81). -/
inductive AccessKind where
  | read
  | write
  deriving DecidableEq, Repr

/-- A bus request (R81). -/
structure Request where
  kind : AccessKind
  /-- byte offset from BASE -/
  addr : BitVec 24
  wdata : Word
  wstrb : BitVec 4
  deriving DecidableEq, Repr

/-- The response code of a transaction (R81). -/
inductive Resp where
  | okay
  | slverr
  deriving DecidableEq, Repr

/-- The response of a transaction (R81). No rule gives `rdata` a value for a write, so a write's response
holds none (log entry 11). -/
inductive Response where
  | read (rdata : Word) (resp : Resp)
  | write (resp : Resp)
  deriving DecidableEq, Repr

/-- Who moves in one step (R133, R310, R331; log entry 3). -/
inductive Turn where
  /-- the host performs its next pending transaction -/
  | host
  /-- the engine runs its command -/
  | engine
  /-- pin `rst_n` goes to this level -/
  | rstN (level : Bool)
  deriving DecidableEq, Repr

/-! ## The state -/

/-- The state of the block (R30) and of what acts on it. -/
structure State where
  /-- CTRL.IRQ_EN (R33) -/
  irqEn : Bool
  /-- STATUS but for BUSY (R34) -/
  status : Status
  /-- CMD, the last accepted command word (R35) -/
  cmd : Word
  /-- ERR (R36) -/
  err : Err
  /-- IRQ_STATUS (R37) -/
  irqStatus : IrqStatus
  /-- the configuration registers (R40 to R59) -/
  cfg : ConfigRegs
  /-- the SYNC results (R60, R61) -/
  syncRes : SyncResults
  /-- the EQ results (R62) -/
  eqRes : EqResults
  /-- the PERF results (R63) -/
  perfRes : PerfResults
  /-- the accumulators (R64) -/
  acc : Accumulators
  /-- the memories (R66 to R72) -/
  mem : Memory
  /-- the engine (R73) -/
  engine : Engine
  /-- abort_req (R73) -/
  abortReq : Bool
  /-- MODEL'S OWN: the level of pin `rst_n` (R80, R310; log entry 12) -/
  rstN : Bool
  /-- MODEL'S OWN: the host's pending transactions, oldest first (R94; log entry 3) -/
  requests : List Request
  /-- MODEL'S OWN: whose turn comes next (R133; log entry 3) -/
  schedule : List Turn
  /-- MODEL'S OWN: what the host's last transaction answered (R81; log entry 11) -/
  response : Option Response
  /-- MODEL'S OWN: the number of the next draw of free values (log entry 1) -/
  draws : Nat
  deriving DecidableEq, Repr

/-! ## Why a step can stop -/

/-- The faults of the model. -/
inductive Fault where
  /-- `UninitRead` (R104, R288; 93 U5): raised by a command whose rule reads a memory entry with a word that
  has not been written since power-on. Safe: the model stops where the hardware goes on with unknown bits. -/
  | uninitRead (entry : Entry)
  deriving DecidableEq, Repr

/-- The refusals of the model. -/
inductive Refusal where
  /-- The command has no meaning in the model yet: raised by no arm of this model. Safe: the model stops. -/
  | notModelled (mnemonic : String)
  deriving DecidableEq, Repr

/-! ## Reset (R74) -/

/-- ZERO as bits: (+0.0, +0.0) (R15). -/
def CplxBits.zero : CplxBits := ⟨0, 0⟩

/-- STATUS after reset (R74). -/
def Status.reset : Status := ⟨false, false, false, false, false, .idle⟩

/-- Every configuration register resets to 0 (R74). -/
def ConfigRegs.reset : ConfigRegs :=
  { layoutModes := 0, streamModes := 0, os := 0, frameLen := 0, pilotLen := 0, pilotPos := 0
    sampleLen := 0, numTaps := 0, searchStart := 0, searchLen := 0, iterations := 0, refineHalf := 0
    threshold := 0, aggMode := 0, aggWeight := Vector.replicate 4 (Vector.replicate 4 0)
    mu := Vector.replicate 4 0, tapLimit := 0, divFactor := 0, constSize := 0, rotOrder := 0
    frameOffset := 0, estStart := 0, estLen := 0, refLen := 0, delayMax := 0
    rot := Vector.replicate 8 CplxBits.zero }

/-- Every SYNC result resets to 0 (R74). -/
def SyncResults.reset : SyncResults :=
  { offset := 0, iters := 0, candStart := 0, candCount := 0, peak := 0, floor := 0, conf := 0
    coarseOffset := 0, chest := Vector.replicate 4 (Vector.replicate 4 CplxBits.zero) }

/-- Every EQ result resets to 0 (R74). -/
def EqResults.reset : EqResults :=
  { divMag := 0, divSymbol := 0, divWhere := 0, outPower := Vector.replicate 4 0 }

/-- Every PERF result resets to 0 (R74). -/
def PerfResults.reset : PerfResults := ⟨0, 0, 0, 0, 0, 0, 0, 0⟩

/-- The accumulators at 0: after reset (R74), and after ACC_CLEAR (R143). -/
def Accumulators.zero : Accumulators := ⟨0, 0, 0, 0, 0⟩

/-- The block right after the hard reset at power-on (R74, R311, R312): every register at its reset value, no
memory entry written. The model's own fields start empty, with `rst_n` released (log entry 20). -/
def State.reset : State :=
  { irqEn := false
    status := Status.reset
    cmd := 0
    err := ⟨0, 0⟩
    irqStatus := ⟨false, false, false, false⟩
    cfg := ConfigRegs.reset
    syncRes := SyncResults.reset
    eqRes := EqResults.reset
    perfRes := PerfResults.reset
    acc := Accumulators.zero
    mem := []
    engine := .idle
    abortReq := false
    rstN := true
    requests := []
    schedule := []
    response := none
    draws := 0 }

end Sys2Proof.Machine
end

