-- ==== Sys2Proof/Machine/Flags.lean ====
section
/-! DEFINITION. The flags of the block: STATUS and its valid bits (spec/10_state.md R34, spec/40_control.md
R135), ERR and IRQ_STATUS as words (R36, R37), and the interrupt output (spec/60_exceptions.md R289). -/

namespace Sys2Proof.Machine

/-- Bit `n` of a word as a number: the word with that bit set when `b`. -/
def bitAt (n : Nat) (b : Bool) : Word := if b then BitVec.ofNat 32 (2 ^ n) else 0

/-! ## STATUS (R34) -/

/-- The code STATUS shows for a synchronizer state (R174). -/
def SyncState.code : SyncState → Nat
  | .idle => 0
  | .coarse => 1
  | .refine => 2
  | .converged => 3
  | .failed => 4
  | .iterLimit => 5

/-- The state with a code, taken modulo the six states (the codes 6 and 7 are never produced, R34). -/
def SyncState.ofCode (n : Nat) : SyncState :=
  match n % 6 with
  | 0 => .idle
  | 1 => .coarse
  | 2 => .refine
  | 3 => .converged
  | 4 => .failed
  | _ => .iterLimit

/-- STATUS as a word (R34). -/
def Status.word (st : Status) (busy : Bool) : Word :=
  bitAt 0 busy ||| bitAt 1 st.syncValid ||| bitAt 2 st.eqValid ||| bitAt 3 st.estValid |||
    bitAt 4 st.confInf ||| bitAt 5 st.snrInf ||| BitVec.ofNat 32 (st.syncState.code * 2 ^ 8)

/-- A STATUS whose fields are free, made from a free word (R97; log entry 5). -/
def Status.free (w : Word) : Status :=
  { syncValid := w.getLsbD 1, eqValid := w.getLsbD 2, estValid := w.getLsbD 3, confInf := w.getLsbD 4
    snrInf := w.getLsbD 5, syncState := SyncState.ofCode (w.toNat / 2 ^ 8) }

/-! ## ERR and IRQ_STATUS (R36, R37) -/

/-- ERR as a word (R36). -/
def Err.word (e : Err) : Word := (e.sub ++ e.code).setWidth 32

/-- IRQ_STATUS as a word (R37). -/
def IrqStatus.word (q : IrqStatus) : Word :=
  bitAt 0 q.done ||| bitAt 1 q.error ||| bitAt 2 q.wrIgnored ||| bitAt 3 q.cmdRejected

/-- A host write of IRQ_STATUS: a 1 clears its bit, a 0 leaves it (R37, R290). -/
def IrqStatus.acknowledge (q : IrqStatus) (w : Word) : IrqStatus :=
  { done := q.done && !w.getLsbD 0
    error := q.error && !w.getLsbD 1
    wrIgnored := q.wrIgnored && !w.getLsbD 2
    cmdRejected := q.cmdRejected && !w.getLsbD 3 }

namespace State

/-- STATUS.BUSY: 1 exactly when the engine is RUNNING (R34, R73). -/
def busy (s : State) : Bool :=
  match s.engine with
  | .idle => false
  | .running _ => true

/-- The interrupt output: IRQ_EN and a set bit of IRQ_STATUS[3:0] (R289). -/
def irq (s : State) : Bool :=
  s.irqEn && (s.irqStatus.done || s.irqStatus.error || s.irqStatus.wrIgnored || s.irqStatus.cmdRejected)

/-- STATUS.SYNC_STATE <- x -/
def setSyncState (x : SyncState) (s : State) : State := { s with status := { s.status with syncState := x } }

/-- STATUS.SYNC_VALID <- b -/
def setSyncValid (b : Bool) (s : State) : State := { s with status := { s.status with syncValid := b } }

/-- STATUS.EQ_VALID <- b -/
def setEqValid (b : Bool) (s : State) : State := { s with status := { s.status with eqValid := b } }

/-- STATUS.EST_VALID <- b -/
def setEstValid (b : Bool) (s : State) : State := { s with status := { s.status with estValid := b } }

/-- STATUS.CONF_INF <- b -/
def setConfInf (b : Bool) (s : State) : State := { s with status := { s.status with confInf := b } }

/-- STATUS.SNR_INF <- b -/
def setSnrInf (b : Bool) (s : State) : State := { s with status := { s.status with snrInf := b } }

/-- The valid bits a command sets to 0 right after acceptance (R135); an abort leaves them 0 (R292). -/
def clearValid (c : Decoded) (s : State) : State :=
  match c with
  | .legal (.sync _) => s.setSyncValid false
  | .legal (.equalize _) => s.setEqValid false
  | .legal (.recover _) => (s.setSyncValid false).setEqValid false
  | .legal (.estimate _ _) => s.setEstValid false
  | .legal .nop => s
  | .legal .checkLayout => s
  | .legal .initTaps => s
  | .legal .accClear => s
  | .illegal _ => s

end State

end Sys2Proof.Machine
end

