-- ==== Sys2Proof/Machine/Memory.lean ====
section
/-! DEFINITION. The memories as one list of bytes in canonical form (spec/20_memory.md R84, R85; log entry 4)
and the offsets of their entries (R82, R84). -/

namespace Sys2Proof.Machine

namespace Memory

/-- Canonical form: addresses strictly rising. An unlisted address has no value, so no byte is excluded. -/
def wf : Memory → Bool
  | [] => true
  | [_] => true
  | c :: d :: rest => decide (c.1 < d.1) && wf (d :: rest)

/-- What the byte at `a` holds; none when it has not been written since power-on (R104). -/
def read : Memory → Nat → Option Byte
  | [], _ => none
  | (b, v) :: rest, a => bif Nat.beq a b then some v else read rest a

/-- Write one byte, keeping the addresses rising. -/
def write : Memory → Nat → Byte → Memory
  | [], a, v => [(a, v)]
  | (b, w) :: rest, a, v =>
    if a < b then (a, v) :: (b, w) :: rest
    else if a = b then (a, v) :: rest
    else (b, w) :: write rest a v

/-- Byte `i` of a word, the byte at offset `i` from it (R85). -/
def wordByte (w : Word) (i : Nat) : Byte := w.extractLsb' (8 * i) 8

/-- A word from the bytes at rising offsets (R85). -/
def wordOf (b0 b1 b2 b3 : Byte) : Word := b3 ++ (b2 ++ (b1 ++ b0))

/-- The word at `a`; none when one of its bytes has not been written (R104). -/
def readWord (m : Memory) (a : Nat) : Option Word :=
  match read m a, read m (a + 1), read m (a + 2), read m (a + 3) with
  | some b0, some b1, some b2, some b3 => some (wordOf b0 b1 b2 b3)
  | _, _, _, _ => none

/-- Write a word, little-endian (R85). -/
def writeWord (m : Memory) (a : Nat) (w : Word) : Memory :=
  write (write (write (write m a (wordByte w 0)) (a + 1) (wordByte w 1)) (a + 2) (wordByte w 2))
    (a + 3) (wordByte w 3)

/-- A 64-bit value from its two words (R85). -/
def joinWords (lo hi : Word) : Bits64 := hi ++ lo

/-- Word [31:0] of a 64-bit value. -/
def loWord (b : Bits64) : Word := b.extractLsb' 0 32

/-- Word [63:32] of a 64-bit value. -/
def hiWord (b : Bits64) : Word := b.extractLsb' 32 32

/-- The 64-bit value at `a`. -/
def readBits64 (m : Memory) (a : Nat) : Option Bits64 :=
  match readWord m a, readWord m (a + 4) with
  | some lo, some hi => some (joinWords lo hi)
  | _, _ => none

/-- Write a 64-bit value, low word first (R85). -/
def writeBits64 (m : Memory) (a : Nat) (b : Bits64) : Memory :=
  writeWord (writeWord m a (loWord b)) (a + 4) (hiWord b)

/-- Give the `n` words from `base` on the words `f` gives for their offsets. -/
def fillWords (f : Nat → Word) : Memory → Nat → Nat → Memory
  | m, _, 0 => m
  | m, base, n + 1 => fillWords f (writeWord m base (f base)) (base + 4) n

end Memory

/-! ## The address map (R82, R84) -/

namespace Entry

/-- The byte offset of word 0 of an entry (R84). -/
def offset : Entry → Nat
  | .sample r n => 0x400000 + r * 0x100000 + 16 * n
  | .pilot t k => 0x800000 + t * 0x40000 + 16 * k
  | .ref t k => 0x900000 + t * 0x40000 + 16 * k
  | .out t k => 0xA00000 + t * 0x40000 + 16 * k
  | .tap t r j => 0xB00000 + (4 * t + r) * 0x1000 + 16 * j
  | .const q => 0xB10000 + 16 * q
  | .corr i => 0xC00000 + 8 * i

/-- When an entry is implemented in this instance (R84). -/
def implemented : Entry → Bool
  | .sample r n => decide (r < Config.mMax) && decide (n < Config.sMax)
  | .pilot t k => decide (t < Config.mMax) && decide (k < Config.pMax)
  | .ref t k => decide (t < Config.mMax) && decide (k < Config.rMax)
  | .out t k => decide (t < Config.mMax) && decide (k < Config.lMax)
  | .tap t r j => decide (t < Config.mMax) && decide (r < Config.mMax) && decide (j < Config.nMax)
  | .const q => decide (q < Config.qMax)
  | .corr i => decide (i < Config.sMax)

/-- How many bytes an entry has: CORR entries are real, the others complex (R84). -/
def size : Entry → Nat
  | .corr _ => 8
  | _ => 16

/-- CORR is the one memory the host may not write (R72, R82). -/
def hostWritable : Entry → Bool
  | .corr _ => false
  | _ => true

/-- The entry of a memory region that an offset lies in (R82, R84), implemented or not; none outside the
memory regions. -/
def ofOffset (a : Nat) : Option Entry :=
  if 0x400000 ≤ a ∧ a < 0x800000 then
    some (.sample ((a - 0x400000) / 0x100000) ((a - 0x400000) % 0x100000 / 16))
  else if 0x800000 ≤ a ∧ a < 0x900000 then
    some (.pilot ((a - 0x800000) / 0x40000) ((a - 0x800000) % 0x40000 / 16))
  else if 0x900000 ≤ a ∧ a < 0xA00000 then
    some (.ref ((a - 0x900000) / 0x40000) ((a - 0x900000) % 0x40000 / 16))
  else if 0xA00000 ≤ a ∧ a < 0xB00000 then
    some (.out ((a - 0xA00000) / 0x40000) ((a - 0xA00000) % 0x40000 / 16))
  else if 0xB00000 ≤ a ∧ a < 0xB10000 then
    some (.tap ((a - 0xB00000) / 0x1000 / 4) ((a - 0xB00000) / 0x1000 % 4) ((a - 0xB00000) % 0x1000 / 16))
  else if 0xB10000 ≤ a ∧ a < 0xB20000 then some (.const ((a - 0xB10000) / 16))
  else if 0xC00000 ≤ a ∧ a < 0xC80000 then some (.corr ((a - 0xC00000) / 8))
  else none

end Entry

end Sys2Proof.Machine
end

