-- ==== Sys2Proof/Machine/Registers.lean ====
section
/-! DEFINITION. The register page (spec/10_state.md R31 to R64; spec/20_memory.md R83): which register is at
which offset, who may write it, what it reads, and how its bits are stored. A 64-bit or complex register is
named word by word, because the host reads and writes words (R91). -/

namespace Sys2Proof.Machine

/-- The word of a 64-bit register: the low word is at the lower offset (R85). -/
inductive Half where
  | lo
  | hi
  deriving DecidableEq, Repr

/-- A word of a register of R31 to R64. -/
inductive Reg where
  | id | version
  | capModes | capTaps | capSmax | capLmax | capPmax | capRmax | capQmax
  | ctrl | status | cmd | err | irqStatus
  | layoutModes | streamModes | os | frameLen | pilotLen | pilotPos | sampleLen | numTaps
  | searchStart | searchLen | iterations | refineHalf
  | threshold (h : Half)
  | aggMode
  | aggWeight (t r : Fin 4) (h : Half)
  | mu (t : Fin 4) (h : Half)
  | tapLimit (h : Half)
  | divFactor (h : Half)
  | constSize | rotOrder | frameOffset | estStart | estLen | refLen | delayMax
  | syncOffset | syncIters | syncCandStart | syncCandCount
  | syncPeak (h : Half)
  | syncFloor (h : Half)
  | syncConf (h : Half)
  | coarseOffset
  | divMag (h : Half)
  | divSymbol | divWhere
  | outPower (t : Fin 4) (h : Half)
  | estErrors | estSymbols
  | estSer (h : Half)
  | estSigpow (h : Half)
  | estErrpow (h : Half)
  | estSnr (h : Half)
  | estBest | estDelay
  | accErrors (h : Half)
  | accSymbols (h : Half)
  | accSigpow (h : Half)
  | accErrpow (h : Half)
  | accFrames
  | chestRe (t r : Fin 4) (h : Half)
  | chestIm (t r : Fin 4) (h : Half)
  | rotRe (q : Fin 8) (h : Half)
  | rotIm (q : Fin 8) (h : Half)
  deriving DecidableEq, Repr

/-- How a host write of a register acts (the access types of 10_state.md section 1). -/
inductive Access where
  /-- RO: ignored -/
  | readOnly
  /-- RW: a configuration register, stored -/
  | config
  /-- CTRL (R33) -/
  | control
  /-- CMD (R35) -/
  | command
  /-- W1C (R37) -/
  | clearOnes
  deriving DecidableEq, Repr

namespace Half

/-- The distance of a word from its register's offset. -/
def off : Half → Nat
  | .lo => 0
  | .hi => 4

/-- The word an offset inside a 64-bit value names. -/
def ofOff (a : Nat) : Half := if a / 4 % 2 = 0 then .lo else .hi

/-- That word of a 64-bit value. -/
def get (h : Half) (b : Bits64) : Word :=
  match h with
  | .lo => Memory.loWord b
  | .hi => Memory.hiWord b

/-- The 64-bit value with that word replaced; the other word keeps its bits (R324). -/
def set (h : Half) (w : Word) (b : Bits64) : Bits64 :=
  match h with
  | .lo => Memory.joinWords w (Memory.hiWord b)
  | .hi => Memory.joinWords (Memory.loWord b) w

end Half

namespace Reg

/-- The offset of a register word (R31 to R64). -/
def offset : Reg → Nat
  | id => 0x000
  | version => 0x004
  | capModes => 0x008
  | capTaps => 0x00C
  | capSmax => 0x010
  | capLmax => 0x014
  | capPmax => 0x018
  | capRmax => 0x01C
  | capQmax => 0x020
  | ctrl => 0x040
  | status => 0x044
  | cmd => 0x048
  | err => 0x04C
  | irqStatus => 0x050
  | layoutModes => 0x100
  | streamModes => 0x104
  | os => 0x108
  | frameLen => 0x10C
  | pilotLen => 0x110
  | pilotPos => 0x114
  | sampleLen => 0x118
  | numTaps => 0x11C
  | searchStart => 0x120
  | searchLen => 0x124
  | iterations => 0x128
  | refineHalf => 0x12C
  | threshold h => 0x130 + h.off
  | aggMode => 0x138
  | aggWeight t r h => 0x140 + 8 * (4 * t.val + r.val) + h.off
  | mu t h => 0x1C0 + 8 * t.val + h.off
  | tapLimit h => 0x1E0 + h.off
  | divFactor h => 0x1E8 + h.off
  | constSize => 0x1F0
  | rotOrder => 0x1F4
  | frameOffset => 0x1F8
  | estStart => 0x1FC
  | estLen => 0x200
  | refLen => 0x204
  | delayMax => 0x208
  | syncOffset => 0x300
  | syncIters => 0x304
  | syncCandStart => 0x308
  | syncCandCount => 0x30C
  | syncPeak h => 0x310 + h.off
  | syncFloor h => 0x318 + h.off
  | syncConf h => 0x320 + h.off
  | coarseOffset => 0x328
  | divMag h => 0x330 + h.off
  | divSymbol => 0x338
  | divWhere => 0x33C
  | outPower t h => 0x340 + 8 * t.val + h.off
  | estErrors => 0x360
  | estSymbols => 0x364
  | estSer h => 0x368 + h.off
  | estSigpow h => 0x370 + h.off
  | estErrpow h => 0x378 + h.off
  | estSnr h => 0x380 + h.off
  | estBest => 0x388
  | estDelay => 0x38C
  | accErrors h => 0x390 + h.off
  | accSymbols h => 0x398 + h.off
  | accSigpow h => 0x3A0 + h.off
  | accErrpow h => 0x3A8 + h.off
  | accFrames => 0x3B0
  | chestRe t r h => 0x400 + 16 * (4 * t.val + r.val) + h.off
  | chestIm t r h => 0x408 + 16 * (4 * t.val + r.val) + h.off
  | rotRe q h => 0x500 + 16 * q.val + h.off
  | rotIm q h => 0x508 + 16 * q.val + h.off

/-- The registers at fixed offsets, each 64-bit one by its low word. -/
def fixed : List Reg :=
  [id, version, capModes, capTaps, capSmax, capLmax, capPmax, capRmax, capQmax] ++
  [ctrl, status, cmd, err, irqStatus] ++
  [layoutModes, streamModes, os, frameLen, pilotLen, pilotPos, sampleLen, numTaps] ++
  [searchStart, searchLen, iterations, refineHalf, threshold .lo, threshold .hi, aggMode] ++
  [tapLimit .lo, tapLimit .hi, divFactor .lo, divFactor .hi, constSize, rotOrder, frameOffset] ++
  [estStart, estLen, refLen, delayMax] ++
  [syncOffset, syncIters, syncCandStart, syncCandCount, syncPeak .lo, syncPeak .hi] ++
  [syncFloor .lo, syncFloor .hi, syncConf .lo, syncConf .hi, coarseOffset] ++
  [divMag .lo, divMag .hi, divSymbol, divWhere] ++
  [estErrors, estSymbols, estSer .lo, estSer .hi, estSigpow .lo, estSigpow .hi] ++
  [estErrpow .lo, estErrpow .hi, estSnr .lo, estSnr .hi, estBest, estDelay] ++
  [accErrors .lo, accErrors .hi, accSymbols .lo, accSymbols .hi] ++
  [accSigpow .lo, accSigpow .hi, accErrpow .lo, accErrpow .hi, accFrames]

/-- The register word at an offset of the register page; none is a reserved register (R38, R83). -/
def ofOffset (a : Nat) : Option Reg :=
  if a % 4 ≠ 0 then none
  else if 0x140 ≤ a ∧ a < 0x1C0 then
    let i := (a - 0x140) / 8
    some (aggWeight (Fin.ofNat 4 (i / 4)) (Fin.ofNat 4 i) (Half.ofOff a))
  else if 0x1C0 ≤ a ∧ a < 0x1E0 then some (mu (Fin.ofNat 4 ((a - 0x1C0) / 8)) (Half.ofOff a))
  else if 0x340 ≤ a ∧ a < 0x360 then some (outPower (Fin.ofNat 4 ((a - 0x340) / 8)) (Half.ofOff a))
  else if 0x400 ≤ a ∧ a < 0x500 then
    let i := (a - 0x400) / 16
    if a / 8 % 2 = 0 then some (chestRe (Fin.ofNat 4 (i / 4)) (Fin.ofNat 4 i) (Half.ofOff a))
    else some (chestIm (Fin.ofNat 4 (i / 4)) (Fin.ofNat 4 i) (Half.ofOff a))
  else if 0x500 ≤ a ∧ a < 0x580 then
    let q := (a - 0x500) / 16
    if a / 8 % 2 = 0 then some (rotRe (Fin.ofNat 8 q) (Half.ofOff a))
    else some (rotIm (Fin.ofNat 8 q) (Half.ofOff a))
  else fixed.find? (fun r => r.offset == a)

/-- The access type of a register (R31 to R64). -/
def access : Reg → Access
  | ctrl => .control
  | cmd => .command
  | irqStatus => .clearOnes
  | layoutModes | streamModes | os | frameLen | pilotLen | pilotPos | sampleLen | numTaps => .config
  | searchStart | searchLen | iterations | refineHalf | threshold _ | aggMode => .config
  | aggWeight _ _ _ | mu _ _ | tapLimit _ | divFactor _ | constSize | rotOrder | frameOffset => .config
  | estStart | estLen | refLen | delayMax | rotRe _ _ | rotIm _ _ => .config
  | _ => .readOnly

/-- The bits of a register that are not res0, where it has res0 bits (R36, R62, R63; 93 V10). -/
def mask : Reg → Word
  | err => 0x0000FFFF
  | divWhere => 0x0001FFFF
  | estBest => 0x0000FFFF
  | _ => 0xFFFFFFFF

/-- What a host read of the register returns when it returns the stored value (R31 to R64; res0 fields read 0,
R39, R89). -/
def read (s : State) : Reg → Word
  | id => 0x50434F52
  | version => 0x00010000
  | capModes => BitVec.ofNat 32 (Config.rotMax * 2 ^ 16 + Config.osMax * 2 ^ 8 + Config.mMax)
  | capTaps => BitVec.ofNat 32 Config.nMax
  | capSmax => BitVec.ofNat 32 Config.sMax
  | capLmax => BitVec.ofNat 32 Config.lMax
  | capPmax => BitVec.ofNat 32 Config.pMax
  | capRmax => BitVec.ofNat 32 Config.rMax
  | capQmax => BitVec.ofNat 32 Config.qMax
  | ctrl => bitAt 0 s.irqEn
  | status => s.status.word s.busy
  | cmd => s.cmd
  | err => s.err.word
  | irqStatus => s.irqStatus.word
  | layoutModes => s.cfg.layoutModes.setWidth 32
  | streamModes => s.cfg.streamModes.setWidth 32
  | os => s.cfg.os.setWidth 32
  | frameLen => s.cfg.frameLen
  | pilotLen => s.cfg.pilotLen
  | pilotPos => s.cfg.pilotPos
  | sampleLen => s.cfg.sampleLen
  | numTaps => s.cfg.numTaps.setWidth 32
  | searchStart => s.cfg.searchStart
  | searchLen => s.cfg.searchLen
  | iterations => s.cfg.iterations.setWidth 32
  | refineHalf => s.cfg.refineHalf.setWidth 32
  | threshold h => h.get s.cfg.threshold
  | aggMode => s.cfg.aggMode.setWidth 32
  | aggWeight t r h => h.get s.cfg.aggWeight[t][r]
  | mu t h => h.get s.cfg.mu[t]
  | tapLimit h => h.get s.cfg.tapLimit
  | divFactor h => h.get s.cfg.divFactor
  | constSize => s.cfg.constSize.setWidth 32
  | rotOrder => s.cfg.rotOrder.setWidth 32
  | frameOffset => s.cfg.frameOffset
  | estStart => s.cfg.estStart
  | estLen => s.cfg.estLen
  | refLen => s.cfg.refLen
  | delayMax => s.cfg.delayMax.setWidth 32
  | syncOffset => s.syncRes.offset
  | syncIters => s.syncRes.iters
  | syncCandStart => s.syncRes.candStart
  | syncCandCount => s.syncRes.candCount
  | syncPeak h => h.get s.syncRes.peak
  | syncFloor h => h.get s.syncRes.floor
  | syncConf h => h.get s.syncRes.conf
  | coarseOffset => s.syncRes.coarseOffset
  | divMag h => h.get s.eqRes.divMag
  | divSymbol => s.eqRes.divSymbol
  | divWhere => s.eqRes.divWhere
  | outPower t h => h.get s.eqRes.outPower[t]
  | estErrors => s.perfRes.errors
  | estSymbols => s.perfRes.symbols
  | estSer h => h.get s.perfRes.ser
  | estSigpow h => h.get s.perfRes.sigpow
  | estErrpow h => h.get s.perfRes.errpow
  | estSnr h => h.get s.perfRes.snr
  | estBest => s.perfRes.best
  | estDelay => s.perfRes.delay
  | accErrors h => h.get s.acc.errors
  | accSymbols h => h.get s.acc.symbols
  | accSigpow h => h.get s.acc.sigpow
  | accErrpow h => h.get s.acc.errpow
  | accFrames => s.acc.frames
  | chestRe t r h => h.get s.syncRes.chest[t][r].re
  | chestIm t r h => h.get s.syncRes.chest[t][r].im
  | rotRe q h => h.get s.cfg.rot[q].re
  | rotIm q h => h.get s.cfg.rot[q].im

end Reg

/-! ## Storing a configuration register (R39: the bits of its fields are stored exactly) -/

namespace ConfigRegs

/-- The configuration registers with word `w` written to register `r`; another register stores nothing here. -/
def store (c : ConfigRegs) (w : Word) : Reg → ConfigRegs
  | .layoutModes => { c with layoutModes := w.setWidth 3 }
  | .streamModes => { c with streamModes := w.setWidth 3 }
  | .os => { c with os := w.setWidth 8 }
  | .frameLen => { c with frameLen := w }
  | .pilotLen => { c with pilotLen := w }
  | .pilotPos => { c with pilotPos := w }
  | .sampleLen => { c with sampleLen := w }
  | .numTaps => { c with numTaps := w.setWidth 8 }
  | .searchStart => { c with searchStart := w }
  | .searchLen => { c with searchLen := w }
  | .iterations => { c with iterations := w.setWidth 8 }
  | .refineHalf => { c with refineHalf := w.setWidth 16 }
  | .threshold h => { c with threshold := h.set w c.threshold }
  | .aggMode => { c with aggMode := w.setWidth 2 }
  | .aggWeight t r h =>
    { c with aggWeight := c.aggWeight.set t (c.aggWeight[t].set r (h.set w c.aggWeight[t][r])) }
  | .mu t h => { c with mu := c.mu.set t (h.set w c.mu[t]) }
  | .tapLimit h => { c with tapLimit := h.set w c.tapLimit }
  | .divFactor h => { c with divFactor := h.set w c.divFactor }
  | .constSize => { c with constSize := w.setWidth 16 }
  | .rotOrder => { c with rotOrder := w.setWidth 4 }
  | .frameOffset => { c with frameOffset := w }
  | .estStart => { c with estStart := w }
  | .estLen => { c with estLen := w }
  | .refLen => { c with refLen := w }
  | .delayMax => { c with delayMax := w.setWidth 16 }
  | .rotRe q h => { c with rot := c.rot.set q ⟨h.set w c.rot[q].re, c.rot[q].im⟩ }
  | .rotIm q h => { c with rot := c.rot.set q ⟨c.rot[q].re, h.set w c.rot[q].im⟩ }
  | _ => c

end ConfigRegs

end Sys2Proof.Machine
end

