-- ==== Sys2Proof/Machine/Operands.lean ====
section
/-! DEFINITION. The operands of the commands: the symbols the rules use for configuration registers (spec/
40_control.md R137, spec/41_sync.md, spec/43_performance.md), the memory entries a rule reads (spec/00_scope.md
R12), index lists, and sums in the order of R16. -/

namespace Sys2Proof.Machine

/-- A computation of the engine: a value, or the model fault of a read (R104, R288). -/
abbrev Eng (α : Type) := Except Fault α

/-! ## Index lists and sums (R16) -/

/-- The index pairs of a double sum, the first index slowest (R16). -/
def pairs (m n : Nat) : List (Nat × Nat) :=
  (List.range m).flatMap fun i => (List.range n).map fun j => (i, j)

/-- The index triples of the tap loops: t slowest, then r, then j (R209). -/
def triples (m n : Nat) : List (Nat × Nat × Nat) :=
  (List.range m).flatMap fun t => (pairs m n).map fun rj => (t, rj)

/-- A real sum: an accumulator from +0.0 that adds the terms in order, one rounding each (R16). -/
def sumReal {α : Type} (l : List α) (f : α → Eng F64) : Eng F64 :=
  l.foldlM (fun a x => do pure (a.add (← f x))) F64.zero

/-- A complex sum in the same order (R16). -/
def sumCplx {α : Type} (l : List α) (f : α → Eng Cplx) : Eng Cplx :=
  l.foldlM (fun a x => do pure (a.add (← f x))) Cplx.zero

namespace State

/-! ## Configuration registers as the rules name them -/

/-- M = LAYOUT_MODES -/
def modes (s : State) : Nat := s.cfg.layoutModes.toNat
/-- STREAM_MODES -/
def streamModes (s : State) : Nat := s.cfg.streamModes.toNat
/-- OS -/
def os (s : State) : Nat := s.cfg.os.toNat
/-- L_F = FRAME_LEN -/
def frameLen (s : State) : Nat := s.cfg.frameLen.toNat
/-- L_P = PILOT_LEN -/
def pilotLen (s : State) : Nat := s.cfg.pilotLen.toNat
/-- P_OFF = PILOT_POS -/
def pilotPos (s : State) : Nat := s.cfg.pilotPos.toNat
/-- S = SAMPLE_LEN -/
def sampleLen (s : State) : Nat := s.cfg.sampleLen.toNat
/-- N = NUM_TAPS -/
def numTaps (s : State) : Nat := s.cfg.numTaps.toNat
/-- SEARCH_START -/
def searchStart (s : State) : Nat := s.cfg.searchStart.toNat
/-- SEARCH_LEN -/
def searchLen (s : State) : Nat := s.cfg.searchLen.toNat
/-- I = ITERATIONS -/
def iterations (s : State) : Nat := s.cfg.iterations.toNat
/-- h = REFINE_HALF -/
def refineHalf (s : State) : Nat := s.cfg.refineHalf.toNat
/-- THR = THRESHOLD -/
def threshold (s : State) : F64 := F64.ofBits s.cfg.threshold
/-- AGG_MODE -/
def aggMode (s : State) : Nat := s.cfg.aggMode.toNat
/-- AGG_WEIGHT[t][r]; indices are below 4 -/
def aggWeight (s : State) (t r : Nat) : F64 :=
  F64.ofBits ((s.cfg.aggWeight.getD t (Vector.replicate 4 0)).getD r 0)
/-- MU[t]; t is below 4 -/
def mu (s : State) (t : Nat) : F64 := F64.ofBits (s.cfg.mu.getD t 0)
/-- TAP_LIMIT -/
def tapLimit (s : State) : F64 := F64.ofBits s.cfg.tapLimit
/-- DIV_FACTOR -/
def divFactor (s : State) : F64 := F64.ofBits s.cfg.divFactor
/-- Q = CONST_SIZE -/
def constSize (s : State) : Nat := s.cfg.constSize.toNat
/-- R = ROT_ORDER -/
def rotOrder (s : State) : Nat := s.cfg.rotOrder.toNat
/-- d = FRAME_OFFSET -/
def frameOffset (s : State) : Nat := s.cfg.frameOffset.toNat
/-- ES = EST_START -/
def estStart (s : State) : Nat := s.cfg.estStart.toNat
/-- EL = EST_LEN -/
def estLen (s : State) : Nat := s.cfg.estLen.toNat
/-- RL = REF_LEN -/
def refLen (s : State) : Nat := s.cfg.refLen.toNat
/-- DM = DELAY_MAX -/
def delayMax (s : State) : Nat := s.cfg.delayMax.toNat

/-- The value of stored complex bits. -/
def cplxOf (b : CplxBits) : Cplx := ⟨F64.ofBits b.re, F64.ofBits b.im⟩

/-- ROT[q]; q is below 8 -/
def rot (s : State) (q : Nat) : Cplx := cplxOf (s.cfg.rot.getD q CplxBits.zero)

/-- c, the centre tap index, (N - 1) / 2 (R201) -/
def centre (s : State) : Nat := (s.numTaps - 1) / 2

/-- The sample index of frame symbol k of a frame that starts at sample d (R20), exact (R11). -/
def symbolSample (s : State) (d k : Nat) : Nat := d + s.os * k

/-- dmax = S - 1 - OS*(P_OFF + L_P - 1) (R164), negative when the pilot span does not fit -/
def dmax (s : State) : Int :=
  (s.sampleLen : Int) - 1 - (s.os : Int) * ((s.pilotPos : Int) + (s.pilotLen : Int) - 1)

/-! ## Reading a memory entry (R12) -/

/-- An entry as the engine reads it: the stored bits; `UninitRead` when a word of it has not been written
(R104, R288). -/
def readCplx (s : State) (e : Entry) : Eng Cplx :=
  match s.mem.readBits64 e.offset, s.mem.readBits64 (e.offset + 8) with
  | some re, some im => .ok (cplxOf ⟨re, im⟩)
  | _, _ => .error (.uninitRead e)

/-- PILOT[t][k'] -/
def pilot (s : State) (t k : Nat) : Eng Cplx := s.readCplx (.pilot t k)
/-- REF[t][k] -/
def refSym (s : State) (t k : Nat) : Eng Cplx := s.readCplx (.ref t k)
/-- OUT[t][k] -/
def outSym (s : State) (t k : Nat) : Eng Cplx := s.readCplx (.out t k)
/-- TAP[t][r][j] -/
def tap (s : State) (t r j : Nat) : Eng Cplx := s.readCplx (.tap t r j)
/-- CONST[q] -/
def point (s : State) (q : Nat) : Eng Cplx := s.readCplx (.const q)

/-- xs(r, n): a sample at an index outside the buffer is ZERO, and is not read (R162). -/
def sampleAt (s : State) (r : Nat) (n : Int) : Eng Cplx :=
  if 0 ≤ n ∧ n ≤ (s.sampleLen : Int) - 1 then s.readCplx (.sample r n.toNat) else .ok Cplx.zero

end State

end Sys2Proof.Machine
end

