-- ==== Sys2Proof/Machine/WriteSet.lean ====
section
/-! DEFINITION. The write set of each command: the registers and memory entries its rule may write
(spec/40_control.md R140 to R144, spec/41_sync.md R180, spec/42_equalizer.md R220 and R225, spec/
43_performance.md R260). A busy read of it returns any value (R97), and an abort or a reset leaves it with any
value (R292, R314). Index ranges are cut at the implemented depth, because no other entry exists (log entry 9). -/

namespace Sys2Proof.Machine

/-- Both words of a 64-bit register. -/
def bothHalves (f : Half → Reg) : List Reg := [f .lo, f .hi]

/-- Both words of every element t < M of an array of 64-bit registers. -/
def perMode (m : Nat) (f : Fin 4 → Half → Reg) : List Reg :=
  (List.range (min m 4)).flatMap fun t => bothHalves (f (Fin.ofNat 4 t))

namespace State

/-- CHEST[0..M-1][0..M-1], word by word. -/
def chestRegs (m : Nat) : List Reg :=
  (List.range (min m 4)).flatMap fun t => (List.range (min m 4)).flatMap fun r =>
    bothHalves (.chestRe (Fin.ofNat 4 t) (Fin.ofNat 4 r)) ++
      bothHalves (.chestIm (Fin.ofNat 4 t) (Fin.ofNat 4 r))

/-- DIV_MAG, DIV_SYMBOL and DIV_WHERE. -/
def divRegs : List Reg := bothHalves .divMag ++ [.divSymbol, .divWhere]

/-- The registers, but for STATUS, in SYNC's write set (R180). -/
def syncRegs (s : State) : List Reg :=
  [.syncOffset, .syncIters, .syncCandStart, .syncCandCount] ++ bothHalves .syncPeak ++
    bothHalves .syncFloor ++ bothHalves .syncConf ++ [.coarseOffset, .frameOffset] ++ chestRegs s.modes ++
    (if 1 ≤ s.iterations then divRegs else [])

/-- The registers, but for STATUS, in EQUALIZE's write set (R220). -/
def equalizeRegs (s : State) : List Reg := perMode s.modes .outPower ++ divRegs

/-- The accumulators (R64). -/
def accRegs : List Reg :=
  bothHalves .accErrors ++ bothHalves .accSymbols ++ bothHalves .accSigpow ++ bothHalves .accErrpow ++
    [.accFrames]

/-- The registers, but for STATUS, in ESTIMATE's write set (R260). -/
def estimateRegs (acc : Bool) : List Reg :=
  [.estErrors, .estSymbols] ++ bothHalves .estSer ++ bothHalves .estSigpow ++ bothHalves .estErrpow ++
    bothHalves .estSnr ++ [.estBest, .estDelay] ++ (if acc then accRegs else [])

/-- The registers, but for STATUS, in a command's write set. -/
def writeSetRegs (s : State) : Decoded → List Reg
  | .legal .nop => []
  | .legal .checkLayout => []
  | .legal .initTaps => []
  | .legal (.sync _) => s.syncRegs
  | .legal (.equalize _) => s.equalizeRegs
  | .legal (.recover _) => s.syncRegs ++ s.equalizeRegs
  | .legal (.estimate _ acc) => estimateRegs acc
  | .legal .accClear => accRegs
  | .illegal _ => []

/-- STATUS with the fields of the command's write set taken from `f` (R180, R220, R225, R260). -/
def writeSetStatus (st f : Status) : Decoded → Status
  | .legal (.sync _) => { st with syncValid := f.syncValid, confInf := f.confInf, syncState := f.syncState }
  | .legal (.equalize _) => { st with eqValid := f.eqValid }
  | .legal (.recover _) =>
    { st with syncValid := f.syncValid, confInf := f.confInf, syncState := f.syncState, eqValid := f.eqValid }
  | .legal (.estimate _ _) => { st with estValid := f.estValid, snrInf := f.snrInf }
  | .legal .nop => st
  | .legal .checkLayout => st
  | .legal .initTaps => st
  | .legal .accClear => st
  | .illegal _ => st

/-- TAP[0..m-1][0..m-1][0..n-1] as ranges: the offset of the first word, and the number of words. -/
def tapRanges (m n : Nat) : List (Nat × Nat) :=
  (pairs (min m Config.mMax) (min m Config.mMax)).map fun (t, r) =>
    ((Entry.tap t r 0).offset, 4 * min n Config.nMax)

/-- CORR[0..S-1] as a range. -/
def corrRanges (s : State) : List (Nat × Nat) := [((Entry.corr 0).offset, 2 * min s.sampleLen Config.sMax)]

/-- OUT[0..M-1][0..L_F-1] as ranges. -/
def outRanges (s : State) : List (Nat × Nat) :=
  (List.range (min s.modes Config.mMax)).map fun t => ((Entry.out t 0).offset, 4 * min s.frameLen Config.lMax)

/-- The memory ranges in SYNC's write set (R180): TAP only when I >= 1. -/
def syncRanges (s : State) : List (Nat × Nat) :=
  s.corrRanges ++ (if 1 ≤ s.iterations then tapRanges s.modes s.numTaps else [])

/-- The memory ranges in EQUALIZE's write set (R220). -/
def equalizeRanges (s : State) : List (Nat × Nat) := tapRanges s.modes s.numTaps ++ s.outRanges

/-- The memory words in a command's write set, as ranges of words. -/
def writeSetRanges (s : State) : Decoded → List (Nat × Nat)
  | .legal .nop => []
  | .legal .checkLayout => []
  | .legal .initTaps => tapRanges Config.mMax Config.nMax
  | .legal (.sync _) => s.syncRanges
  | .legal (.equalize _) => s.equalizeRanges
  | .legal (.recover _) => s.syncRanges ++ s.equalizeRanges
  | .legal (.estimate _ _) => []
  | .legal .accClear => []
  | .illegal _ => []

/-- Is the register word in the running command's write set? -/
def inWriteSetReg (s : State) (r : Reg) : Bool :=
  match s.engine with
  | .idle => false
  | .running c => (s.writeSetRegs c).contains r

/-- Is the memory word at this offset in the running command's write set? -/
def inWriteSetMem (s : State) (a : Nat) : Bool :=
  match s.engine with
  | .idle => false
  | .running c => (s.writeSetRanges c).any fun (base, n) => decide (base ≤ a) && decide (a < base + 4 * n)

end State

end Sys2Proof.Machine
end

