-- ==== Sys2Proof/Machine/Ops.lean ====
section
/-! DEFINITION. The shared operations over registers and memories: storing a result, drawing free values, and
the life cycle of a command: acceptance (spec/40_control.md R130), completion and `raise` (R132, the block's
counterpart of taking an exception, spec/60_exceptions.md R291), abort (R292) and the resets (spec/
70_reset_and_hazards.md R311 to R314). The counterpart of returning from an exception is the host's
acknowledge, `IrqStatus.acknowledge` in Flags.lean (R290, R291). -/

namespace Sys2Proof.Machine

namespace State

/-! ## Storing results -/

/-- The free bits of the 64-bit location at an offset (log entry 1). -/
def freeBits (s : State) (loc : Nat) : Bits64 :=
  Memory.joinWords (Config.anyWord s.draws loc) (Config.anyWord s.draws (loc + 4))

/-- The bits stored for `v` at an offset: a NaN's bits are free (R18, 93 U6; log entry 2). -/
def realBits (s : State) (loc : Nat) (v : F64) : Bits64 := v.toBits (s.freeBits loc)

/-- The bits stored for a complex value at an offset. -/
def cplxBits (s : State) (loc : Nat) (z : Cplx) : CplxBits := ⟨s.realBits loc z.re, s.realBits (loc + 8) z.im⟩

/-- MEM[...] <- z, for a complex entry (R12). -/
def putCplx (e : Entry) (z : Cplx) (s : State) : State :=
  { s with
    mem := (s.mem.writeBits64 e.offset (s.realBits e.offset z.re)).writeBits64 (e.offset + 8)
      (s.realBits (e.offset + 8) z.im) }

/-- CORR[i] <- v (R72). -/
def putCorr (i : Nat) (v : F64) (s : State) : State :=
  { s with mem := s.mem.writeBits64 (Entry.corr i).offset (s.realBits (Entry.corr i).offset v) }

/-- An integer written to a u32 register; it fits by R147. -/
def word (n : Nat) : Word := BitVec.ofNat 32 n

/-! ## Free values (log entry 1) -/

/-- Give a result register or FRAME_OFFSET the word `w`; its res0 bits stay 0 (R89). -/
def putReg (w : Word) (s : State) : Reg → State
  | .syncOffset => { s with syncRes := { s.syncRes with offset := w } }
  | .syncIters => { s with syncRes := { s.syncRes with iters := w } }
  | .syncCandStart => { s with syncRes := { s.syncRes with candStart := w } }
  | .syncCandCount => { s with syncRes := { s.syncRes with candCount := w } }
  | .syncPeak h => { s with syncRes := { s.syncRes with peak := h.set w s.syncRes.peak } }
  | .syncFloor h => { s with syncRes := { s.syncRes with floor := h.set w s.syncRes.floor } }
  | .syncConf h => { s with syncRes := { s.syncRes with conf := h.set w s.syncRes.conf } }
  | .coarseOffset => { s with syncRes := { s.syncRes with coarseOffset := w } }
  | .chestRe t r h =>
    let z := s.syncRes.chest[t][r]
    { s with syncRes := { s.syncRes with
        chest := s.syncRes.chest.set t (s.syncRes.chest[t].set r ⟨h.set w z.re, z.im⟩) } }
  | .chestIm t r h =>
    let z := s.syncRes.chest[t][r]
    { s with syncRes := { s.syncRes with
        chest := s.syncRes.chest.set t (s.syncRes.chest[t].set r ⟨z.re, h.set w z.im⟩) } }
  | .divMag h => { s with eqRes := { s.eqRes with divMag := h.set w s.eqRes.divMag } }
  | .divSymbol => { s with eqRes := { s.eqRes with divSymbol := w } }
  | .divWhere => { s with eqRes := { s.eqRes with divWhere := w &&& Reg.divWhere.mask } }
  | .outPower t h =>
    { s with eqRes := { s.eqRes with outPower := s.eqRes.outPower.set t (h.set w s.eqRes.outPower[t]) } }
  | .estErrors => { s with perfRes := { s.perfRes with errors := w } }
  | .estSymbols => { s with perfRes := { s.perfRes with symbols := w } }
  | .estSer h => { s with perfRes := { s.perfRes with ser := h.set w s.perfRes.ser } }
  | .estSigpow h => { s with perfRes := { s.perfRes with sigpow := h.set w s.perfRes.sigpow } }
  | .estErrpow h => { s with perfRes := { s.perfRes with errpow := h.set w s.perfRes.errpow } }
  | .estSnr h => { s with perfRes := { s.perfRes with snr := h.set w s.perfRes.snr } }
  | .estBest => { s with perfRes := { s.perfRes with best := w &&& Reg.estBest.mask } }
  | .estDelay => { s with perfRes := { s.perfRes with delay := w } }
  | .accErrors h => { s with acc := { s.acc with errors := h.set w s.acc.errors } }
  | .accSymbols h => { s with acc := { s.acc with symbols := h.set w s.acc.symbols } }
  | .accSigpow h => { s with acc := { s.acc with sigpow := h.set w s.acc.sigpow } }
  | .accErrpow h => { s with acc := { s.acc with errpow := h.set w s.acc.errpow } }
  | .accFrames => { s with acc := { s.acc with frames := w } }
  | .frameOffset => { s with cfg := s.cfg.store w .frameOffset }
  | _ => s

/-- One draw for every register word of a list (93 U2). -/
def drawRegs (rs : List Reg) (s : State) : State :=
  rs.foldl (fun t r => t.putReg (Config.anyWord s.draws r.offset) r) s

/-- One draw for every memory word of some ranges (93 U2, U3). -/
def drawMem (ranges : List (Nat × Nat)) (s : State) : State :=
  { s with mem := ranges.foldl (fun m (base, n) => m.fillWords (Config.anyWord s.draws) base n) s.mem }

/-- One draw for the STATUS fields in a command's write set (93 U2; log entry 5). -/
def drawStatus (c : Decoded) (s : State) : State :=
  { s with status :=
      writeSetStatus s.status (Status.free (Config.anyWord s.draws Reg.status.offset)) c }

/-- The next draw is a new one. -/
def nextDraw (s : State) : State := { s with draws := s.draws + 1 }

/-! ## The life cycle of a command -/

/-- Acceptance of the word written to CMD (R130). -/
def accept (w : Word) (s : State) : State :=
  { s with cmd := w, err := ⟨0, 0⟩, abortReq := false, engine := .running (decode w) }

/-- The completion of R132, with the code and sub-code it writes to ERR. What the command stored used up one
draw. -/
def completeWith (code sub : Nat) (s : State) : State :=
  { s with
    err := ⟨BitVec.ofNat 8 code, BitVec.ofNat 8 sub⟩
    engine := .idle
    abortReq := false
    irqStatus := { s.irqStatus with done := true, error := s.irqStatus.error || code != 0 }
    draws := s.draws + 1 }

/-- `complete()` (R12, R132) -/
def complete (s : State) : State := s.completeWith 0 0

/-- `raise <Error>(sub)` (R12, R132) -/
def raise (e : CmdError) (s : State) : State := s.completeWith e.code e.sub

/-- The engine step of a command that was aborted (R292). -/
def abortCommand (c : Decoded) (s : State) : State :=
  ((((s.drawRegs (s.writeSetRegs c)).drawMem (s.writeSetRanges c)).drawStatus c).clearValid c).raise .aborted

/-- Every register at its reset value, engine IDLE, abort_req 0; memories, pin, host and draws as they are
(R311, R313). -/
def resetRegisters (s : State) : State :=
  { State.reset with
    mem := s.mem
    rstN := s.rstN
    requests := s.requests
    schedule := s.schedule
    response := s.response
    draws := s.draws }

/-- A reset of either kind. One that ends a running command leaves the memory entries of its write set with any
value (R314). -/
def resetBlock (s : State) : State :=
  match s.engine with
  | .idle => s.resetRegisters
  | .running c => ((s.drawMem (s.writeSetRanges c)).nextDraw).resetRegisters

end State

/-! ## What the rule of a command ends in -/

/-- How the body of a rule ends: in a state to complete from, with the error it raised, if any. -/
abbrev Ending := State × Option CmdError

/-- The outcome of a rule: its fault, or the completion of R132 with its error. -/
def finish (r : Eng Ending) : Host.Outcome State Fault Refusal :=
  match r with
  | .error f => .fault f
  | .ok (s, none) => .next s.complete
  | .ok (s, some e) => .next (s.raise e)

end Sys2Proof.Machine
end

