-- ==== Sys2Proof/Machine/HostPort.lean ====
section
/-! DEFINITION. The host port: one bus transaction as one atomic step of the host (spec/20_memory.md R81 to
R104), with the writes that have side effects (R93): CMD (spec/40_control.md R130, R131), CTRL (spec/10_state.md
R33, spec/60_exceptions.md R292, spec/70_reset_and_hazards.md R313) and IRQ_STATUS (R290). -/

namespace Sys2Proof.Machine

/-- What an aligned offset of the aperture names (R82 to R84). -/
inductive Target where
  /-- not decoded, or a memory entry this instance does not implement (R82, R84) -/
  | hole
  /-- a word of the register page; none is a reserved register (R83) -/
  | register (r : Option Reg)
  /-- a word of an implemented memory entry -/
  | entry (e : Entry)
  deriving DecidableEq, Repr

/-- The target of an offset (R82 to R84). -/
def Target.ofOffset (a : Nat) : Target :=
  if a < 0x1000 then .register (Reg.ofOffset a)
  else
    match Entry.ofOffset a with
    | none => .hole
    | some e => if e.implemented then .entry e else .hole

namespace State

/-! ## Reads (R93, R97, R104): no read has a side effect on the block -/

/-- The word a read of a register returns. While BUSY = 1 a register of the write set and ERR return any value,
and STATUS returns BUSY = 1 with its other fields any value (R97; res0 bits read 0, log entry 5). -/
def busRegWord (s : State) (r : Reg) : Word :=
  let free := Config.anyWord s.draws r.offset
  if s.busy && r == .status then (Status.free free).word true
  else if s.busy && (r == .err || s.inWriteSetReg r) then free &&& r.mask
  else r.read s

/-- The word a read of a memory word returns: any value in the write set of a running command (R97) and where a
byte has not been written since power-on (R104), else the stored word (R101). -/
def busMemWord (s : State) (a : Nat) : Word :=
  let free := Config.anyWord s.draws a
  if s.inWriteSetMem a then free
  else match s.mem.readWord a with
    | some w => w
    | none => free

/-- The word a read of a target returns; a reserved register reads 0 (R38). A hole is not reached (R88). -/
def busReadWord (s : State) (a : Nat) : Target → Word
  | .hole => 0
  | .register none => 0
  | .register (some r) => s.busRegWord r
  | .entry _ => s.busMemWord a

/-! ## Writes -/

/-- A CTRL write (R33): SOFT_RESET alone is acted on when set (R313); else IRQ_EN is stored, and ABORT while
BUSY sets abort_req (R292). -/
def writeCtrl (w : Word) (s : State) : State :=
  if w.getLsbD 2 then s.resetBlock
  else { s with irqEn := w.getLsbD 0, abortReq := s.abortReq || (s.busy && w.getLsbD 1) }

/-- A CMD write: accepted while idle (R130), rejected while BUSY (R131). -/
def writeCmd (w : Word) (s : State) : State :=
  if s.busy then { s with irqStatus := { s.irqStatus with cmdRejected := true } } else s.accept w

/-- An ignored write of a busy block (R96). -/
def ignoreWrite (s : State) : State := { s with irqStatus := { s.irqStatus with wrIgnored := true } }

/-- A write of a register by its access type (R33 to R39, R89, R96). -/
def writeReg (w : Word) (r : Reg) (s : State) : State :=
  match r.access with
  | .readOnly => s
  | .control => s.writeCtrl w
  | .command => s.writeCmd w
  | .clearOnes => { s with irqStatus := s.irqStatus.acknowledge w }
  | .config => if s.busy then s.ignoreWrite else { s with cfg := s.cfg.store w r }

/-- A write of a memory word: CORR is read-only (R89), the other memories are ignored while BUSY (R96). -/
def writeEntry (a : Nat) (w : Word) (e : Entry) (s : State) : State :=
  if !e.hostWritable then s
  else if s.busy then s.ignoreWrite
  else { s with mem := s.mem.writeWord a w }

/-- A write of a target; a reserved register ignores it (R38). A hole is not reached (R88). -/
def busWrite (a : Nat) (w : Word) (s : State) : Target → State
  | .hole => s
  | .register none => s
  | .register (some r) => s.writeReg w r
  | .entry e => s.writeEntry a w e

/-! ## One transaction -/

/-- A SLVERR response: no effect, and a read returns 0 (R86 to R88). -/
def slverr (k : AccessKind) (s : State) : State :=
  { s with response := some (match k with
      | .read => .read 0 .slverr
      | .write => .write .slverr) }

/-- One transaction with the checks in the order of R90: alignment, strobes of a write, hole, then the access
(whose BUSY rule for writes stands in `writeReg` and `writeEntry`). -/
def transact (q : Request) (s : State) : State :=
  let a := q.addr.toNat
  if a % 4 ≠ 0 then s.slverr q.kind
  else if q.kind = .write ∧ q.wstrb ≠ 0b1111 then s.slverr q.kind
  else if Target.ofOffset a = .hole then s.slverr q.kind
  else
    match q.kind with
    | .read =>
      { s with response := some (.read (s.busReadWord a (Target.ofOffset a)) .okay), draws := s.draws + 1 }
    | .write => { s.busWrite a q.wdata (Target.ofOffset a) with response := some (.write .okay) }

end State

end Sys2Proof.Machine
end

