-- ==== Sys2Proof/Machine/Agents.lean ====
section
/-! DEFINITION. The moves of the agents around a command's rule (spec/40_control.md R133, spec/
70_reset_and_hazards.md R310, R331): the host's next transaction, the reset pin, and whose turn it is. -/

namespace Sys2Proof.Machine

namespace State

/-- Pin `rst_n` goes to a level (R310): assertion is the hard reset (R311, R314); release lets the port answer
again. -/
def movePin (level : Bool) (s : State) : State :=
  if level then { s with rstN := true } else { s.resetBlock with rstN := false }

/-- The host's turn: its oldest pending transaction. While rst_n = 0 the access gets no response and the host
waits (R310, 93 U11). -/
def hostMove (s : State) : State :=
  if !s.rstN then s
  else
    match s.requests with
    | [] => s
    | q :: rest => ({ s with requests := rest }).transact q

/-- Whose turn it is, and the state with that turn taken off the schedule. When the schedule is used up, a
RUNNING engine moves (weak fairness, R331), and an idle one leaves the turn to the host. -/
def nextTurn (s : State) : Turn × State :=
  match s.schedule with
  | t :: rest => (t, { s with schedule := rest })
  | [] => (if s.busy then .engine else .host, s)

/-- The host's next transactions: the model's stand-in for a program on the host. -/
def withRequests (qs : List Request) (s : State) : State := { s with requests := qs }

/-- `s` with the word `w` accepted as a command (R130), the pin released, and the engine's turn next. -/
def issue (w : Word) (s : State) : State :=
  { s.accept w with rstN := true, schedule := .engine :: s.schedule }

end State

end Sys2Proof.Machine
end

