-- ==== Sys2Proof/Machine/Validate.lean ====
section
/-! DEFINITION. Validation (spec/40_control.md R136 to R139): the pilot energy, the constellation power, when
each check fails, and the check set of each command. -/

namespace Sys2Proof.Machine

namespace State

/-- Ep[t], the pilot energy (R139). -/
def pilotEnergy (s : State) (t : Nat) : Eng F64 :=
  sumReal (List.range s.pilotLen) fun k => do pure (← s.pilot t k).abs2

/-- P_c, the expected constellation power (R211). -/
def constPower (s : State) : Eng F64 := do
  let p ← sumReal (List.range s.constSize) fun q => do pure (← s.point q).abs2
  pure (p.div (F64.ofNat s.constSize))

/-- For some t in the list, `bad t` (log entry 8: in the list's order, up to the first). -/
def someMode (bad : Nat → Eng Bool) : List Nat → Eng Bool
  | [] => .ok false
  | t :: rest => do if ← bad t then pure true else someMode bad rest

/-! ## Delays and pair sets (R245, R246); check 25 reads them -/

/-- The delay set (R245), ascending. -/
def delaySet (s : State) (synced : Bool) : List Int :=
  if synced then [0]
  else (List.range (2 * s.delayMax + 1)).map fun (i : Nat) => (i : Int) - (s.delayMax : Int)

/-- The pair set of a delay (R246): every k of the window whose reference index is in range, ascending. -/
def pairSet (s : State) (delta : Int) : List Nat :=
  ((List.range s.estLen).map fun i => s.estStart + i).filter fun (k : Nat) =>
    decide (0 ≤ (k : Int) + delta) && decide ((k : Int) + delta ≤ (s.refLen : Int) - 1)

/-! ## The checks -/

/-- When a check fails (R137). -/
def checkFails (s : State) : Check → Eng Bool
  | .frameLenZero => .ok (decide (s.frameLen = 0))
  | .pilotLenZero => .ok (decide (s.pilotLen = 0))
  | .pilotGtFrame => .ok (decide (s.pilotLen > s.frameLen))
  | .pilotBlockOverrun => .ok (decide (s.pilotPos + s.pilotLen > s.frameLen))
  | .modeMismatch => .ok (decide (s.streamModes ≠ s.modes))
  | .modesRange => .ok (decide (s.modes = 0) || decide (s.modes > Config.mMax))
  | .frameTooLong => .ok (decide (s.frameLen > Config.lMax))
  | .pilotTooLong => .ok (decide (s.pilotLen > Config.pMax))
  | .pilotZeroEnergy =>
    someMode (fun t => do
      let ep ← s.pilotEnergy t
      pure (!(ep.isFinite && ep.gt F64.zero))) (List.range s.modes)
  | .osRange => .ok (decide (s.os = 0) || decide (s.os > Config.osMax))
  | .tapsInvalid => .ok (decide (s.numTaps = 0) || decide (s.numTaps % 2 = 0) || decide (s.numTaps > Config.nMax))
  | .sampleLenRange => .ok (decide (s.sampleLen = 0) || decide (s.sampleLen > Config.sMax))
  | .muInvalid => .ok ((List.range s.modes).any fun t => !((s.mu t).isFinite && (s.mu t).gt F64.zero))
  | .thresholdInvalid => .ok (s.threshold.isNaN || s.threshold.lt F64.zero)
  | .aggModeReserved => .ok (decide (s.aggMode = 3))
  | .weightInvalid =>
    .ok (decide (s.aggMode = 2) && (pairs s.modes s.modes).any fun (t, r) =>
      !((s.aggWeight t r).isFinite && (s.aggWeight t r).ge F64.zero))
  | .tapLimitInvalid => .ok (s.tapLimit.isNaN || s.tapLimit.le F64.zero)
  | .divFactorInvalid => .ok (s.divFactor.isNaN || s.divFactor.lt F64.oneVal)
  | .constSizeRange => .ok (decide (s.constSize = 0) || decide (s.constSize > Config.qMax))
  | .constZeroPower => do
    let pc ← s.constPower
    pure (!(pc.isFinite && pc.gt F64.zero))
  | .rotOrderRange => .ok (decide (s.rotOrder = 0) || decide (s.rotOrder > Config.rotMax))
  | .estWindow => .ok (decide (s.estLen = 0) || decide (s.estStart + s.estLen > s.frameLen))
  | .refLenRange => .ok (decide (s.refLen = 0) || decide (s.refLen > Config.rMax))
  | .refShort => .ok (decide (s.estStart + s.estLen > s.refLen))
  | .noOverlap => .ok ((s.delaySet false).all fun delta => (s.pairSet delta).isEmpty)
  | .frameOutOfBuffer =>
    .ok (decide ((s.frameOffset : Int) + (s.os : Int) * ((s.frameLen : Int) - 1) > (s.sampleLen : Int) - 1))

/-- The first check of a set that fails (R136); a check after it is not evaluated. -/
def firstFailing (s : State) : List Check → Eng (Option Check)
  | [] => .ok none
  | c :: rest => do if ← s.checkFails c then pure (some c) else firstFailing s rest

/-- `validate(set)`, then the rest of the rule: at the first failing check the command raises
INVALID_LAYOUT (R136). -/
def validated (cs : List Check) (body : State → Eng Ending) (s : State) : Eng Ending := do
  match ← s.firstFailing cs with
  | some c => pure (s, some (.invalidLayout c))
  | none => body s

end State

/-! ## The check sets (R138) -/

/-- Checks 1 to 9. -/
def layoutChecks : List Check :=
  [.frameLenZero, .pilotLenZero, .pilotGtFrame, .pilotBlockOverrun, .modeMismatch, .modesRange, .frameTooLong,
    .pilotTooLong, .pilotZeroEnergy]

/-- INIT_TAPS: 6, 11. -/
def initTapsChecks : List Check := [.modesRange, .tapsInvalid]

/-- SYNC: without 11, 13 and 17 when I = 0. -/
def syncChecks (iterations : Nat) : List Check :=
  if iterations = 0 then
    layoutChecks ++ [.osRange, .sampleLenRange, .thresholdInvalid, .aggModeReserved, .weightInvalid]
  else
    layoutChecks ++ [.osRange, .tapsInvalid, .sampleLenRange, .muInvalid, .thresholdInvalid, .aggModeReserved,
      .weightInvalid, .tapLimitInvalid]

/-- EQUALIZE: 1 to 13, 17 to 20, 26. -/
def equalizeChecks : List Check :=
  layoutChecks ++ [.osRange, .tapsInvalid, .sampleLenRange, .muInvalid, .tapLimitInvalid, .divFactorInvalid,
    .constSizeRange, .constZeroPower, .frameOutOfBuffer]

/-- RECOVER, before its SYNC part: 1 to 20. -/
def recoverChecks : List Check :=
  layoutChecks ++ [.osRange, .tapsInvalid, .sampleLenRange, .muInvalid, .thresholdInvalid, .aggModeReserved,
    .weightInvalid, .tapLimitInvalid, .divFactorInvalid, .constSizeRange, .constZeroPower]

/-- ESTIMATE: 1, 6, 7, 19, 21, 22, 23, then 24 when synced, else 25. -/
def estimateChecks (synced : Bool) : List Check :=
  [.frameLenZero, .modesRange, .frameTooLong, .constSizeRange, .rotOrderRange, .estWindow, .refLenRange] ++
    (if synced then [.refShort] else [.noOverlap])

end Sys2Proof.Machine
end

