-- ==== Sys2Proof/Machine/Equalize.lean ====
section
/-! DEFINITION. The equalizer: the filter bank, its adaptation, the divergence tests, the interim training pass
and EQUALIZE (spec/42_equalizer.md R200 to R220). -/

namespace Sys2Proof.Machine

/-- A divergence (R212): where, of which kind, after which symbol, and the value that failed. -/
structure Divergence where
  t : Nat
  r : Nat
  j : Nat
  kind : DivergenceKind
  symbol : Nat
  value : F64
  deriving DecidableEq, Repr

/-- DIV_WHERE: t [3:0], r [7:4], j [15:8], KIND [16] (R62). -/
def Divergence.whereWord (d : Divergence) : Word :=
  BitVec.ofNat 32 (d.t % 2 ^ 4 + d.r % 2 ^ 4 * 2 ^ 4 + d.j % 2 ^ 8 * 2 ^ 8 + d.kind.code * 2 ^ 16)

namespace State

/-! ## The filter bank -/

/-- y(W, t, n) with the taps in TAP: one sum over r, then j (R202; log entry 7). -/
def firOutput (s : State) (n : Int) (t : Nat) : Eng Cplx :=
  sumCplx (pairs s.modes s.numTaps) fun (r, j) => do
    let w ← s.tap t r j
    let x ← s.sampleAt r (n + (j : Int) - (s.centre : Int))
    pure (w.mul x)

/-- y[0..M-1] (R202). -/
def outputs (s : State) (n : Int) : Eng (List Cplx) := (List.range s.modes).mapM (s.firOutput n)

/-- WriteIdentity() (R205). -/
def writeIdentity (s : State) : State :=
  (triples s.modes s.numTaps).foldl
    (fun x (t, r, j) =>
      x.putCplx (.tap t r j) (if t = r ∧ j = s.centre then Cplx.one else Cplx.zero)) s

/-- dec(z): the index of the nearest constellation point, ties to the smallest (R206). -/
def decideIndex (s : State) (z : Cplx) : Eng Nat := do
  let p0 ← s.point 0
  let best ← ((List.range s.constSize).drop 1).foldlM
    (fun ((b, db) : Nat × F64) q => do
      let p ← s.point q
      let dq := (z.sub p).abs2
      pure (if dq.lt db then (q, dq) else (b, db)))
    (0, (z.sub p0).abs2)
  pure best.1

/-! ## One symbol -/

/-- The update of every tap of the bank for one symbol (R203): each from its own old value, e[t] and the
samples (R204). -/
def adapt (n : Int) (es : List Cplx) (s : State) : Eng State :=
  (triples s.modes s.numTaps).foldlM
    (fun x (t, r, j) => do
      let w ← x.tap t r j
      let v ← x.sampleAt r (n + (j : Int) - (s.centre : Int))
      pure (x.putCplx (.tap t r j) (w.add (Cplx.scale (s.mu t) ((es.getD t Cplx.zero).mul v.conj))))) s

/-- The tap test over a list of taps, the first that fails (R209). -/
def tapTestOver (s : State) (k : Nat) : List (Nat × Nat × Nat) → Eng (Option Divergence)
  | [] => .ok none
  | (t, r, j) :: rest => do
    let w ← s.tap t r j
    if !w.isFinite then pure (some ⟨t, r, j, .tapNonfinite, k, w.abs2⟩)
    else if w.abs2.gt s.tapLimit then pure (some ⟨t, r, j, .tapLimit, k, w.abs2⟩)
    else tapTestOver s k rest

/-- The tap test after symbol k: t slowest, then r, then j (R209). -/
def tapTest (s : State) (k : Nat) : Eng (Option Divergence) := s.tapTestOver k (triples s.modes s.numTaps)

/-- The context registers of a divergence (R212). -/
def recordDivergence (d : Divergence) (s : State) : State :=
  { s with eqRes := { s.eqRes with
      divMag := s.realBits (Reg.divMag .lo).offset d.value
      divSymbol := word d.symbol
      divWhere := d.whereWord } }

/-- e[t] = target[t] - y[t], then the updates, then the tap test, for symbol k at centre sample n
(R203, R204, R209). -/
def learn (n : Int) (k : Nat) (ys targets : List Cplx) (s : State) : Eng (State × Option Divergence) := do
  let es := List.zipWith Cplx.sub targets ys
  let s1 ← s.adapt n es
  let d ← s1.tapTest k
  pure (s1, d)

/-! ## The interim training pass (R214) -/

/-- The symbols of TrainPilots in order; at a divergence its context is written and the pass stops. -/
def trainLoop (d : Nat) : List Nat → State → Eng (State × Bool)
  | [], s => .ok (s, true)
  | k :: rest, s => do
    let n : Int := (s.symbolSample d k : Nat)
    let ys ← s.outputs n
    let targets ← (List.range s.modes).mapM fun t => s.pilot t (k - s.pilotPos)
    let (s1, dv) ← s.learn n k ys targets
    match dv with
    | some v => pure (s1.recordDivergence v, false)
    | none => trainLoop d rest s1

/-- TrainPilots(d) (R214): true when no tap diverged. -/
def trainPilots (d : Nat) (s : State) : Eng (State × Bool) :=
  s.trainLoop d ((List.range s.pilotLen).map fun k => s.pilotPos + k)

/-! ## A frame -/

/-- The order K of a frame's symbols: the pilot block, the payload after it, the payload before it (R207). -/
def symbolOrder (s : State) : List Nat :=
  ((List.range s.pilotLen).map fun k => s.pilotPos + k) ++
    ((List.range (s.frameLen - (s.pilotPos + s.pilotLen))).map fun k => s.pilotPos + s.pilotLen + k) ++
    List.range s.pilotPos

/-- The target of output mode t at frame symbol k (R208). -/
def target (s : State) (k t : Nat) (y : Cplx) : Eng Cplx :=
  if s.pilotPos ≤ k ∧ k < s.pilotPos + s.pilotLen then s.pilot t (k - s.pilotPos)
  else do s.point (← s.decideIndex y)

/-- OUT[t][k] <- y[t] for every t < M (R213). -/
def writeOutputs (k : Nat) (ys : List Cplx) (s : State) : State :=
  ys.zipIdx.foldl (fun x (y, t) => x.putCplx (.out t k) y) s

/-- The symbols of EqualizeBody in order (R220); none when no tap diverged. -/
def equalizeLoop (d : Nat) : List Nat → State → Eng Ending
  | [], s => .ok (s, none)
  | k :: rest, s => do
    let n : Int := (s.symbolSample d k : Nat)
    let ys ← s.outputs n
    let s1 := s.writeOutputs k ys
    let targets ← ys.zipIdx.mapM fun (y, t) => s1.target k t y
    let (s2, dv) ← s1.learn n k ys targets
    match dv with
    | some v => pure (s2.recordDivergence v, some (.divergence v.kind))
    | none => equalizeLoop d rest s2

/-- P_out[t], ascending k (R210). -/
def outputPower (s : State) (t : Nat) : Eng F64 := do
  let p ← sumReal (List.range s.frameLen) fun k => do pure (← s.outSym t k).abs2
  pure (p.div (F64.ofNat s.frameLen))

/-- OUT_POWER[t] <- v -/
def putOutPower (t : Nat) (v : F64) (s : State) : State :=
  { s with eqRes := { s.eqRes with
      outPower := s.eqRes.outPower.setIfInBounds t
        (s.realBits (Reg.outPower (Fin.ofNat 4 t) .lo).offset v) } }

/-- The power test of one mode: the sub-code order is 5, 3, 4 (R210, R286). -/
def powerFailure (s : State) (pc p : F64) : Option DivergenceKind :=
  if !p.isFinite then some .powerNonfinite
  else if p.gt (s.divFactor.mul pc) then some .powerHigh
  else if (p.mul s.divFactor).lt pc then some .powerLow
  else none

/-- The first mode that fails the power test (R210). -/
def powerTestOver (s : State) (pc : F64) : List (F64 × Nat) → Option Divergence
  | [] => none
  | (p, t) :: rest =>
    match s.powerFailure pc p with
    | some kind => some ⟨t, 0, 0, kind, s.frameLen, p⟩
    | none => powerTestOver s pc rest

/-- PowerTest() (R210): OUT_POWER is written for every t before any test. -/
def powerTest (s : State) : Eng Ending := do
  let pc ← s.constPower
  let ps ← (List.range s.modes).mapM s.outputPower
  let s1 := ps.zipIdx.foldl (fun x (p, t) => x.putOutPower t p) s
  match s1.powerTestOver pc ps.zipIdx with
  | some v => pure (s1.recordDivergence v, some (.divergence v.kind))
  | none => pure (s1, none)

/-- EqualizeBody(seed) (R220). -/
def equalizeBody (seed : Bool) (s : State) : Eng Ending := do
  let s0 := if seed then s else s.writeIdentity
  let (s1, e1) ← s0.equalizeLoop s.frameOffset s.symbolOrder
  match e1 with
  | some e => pure (s1, some e)
  | none =>
    let (s2, e2) ← s1.powerTest
    match e2 with
    | some e => pure (s2, some e)
    | none => pure (s2.setEqValid true, none)

end State

/-- EQUALIZE (R220). -/
def execEqualize (seed : Bool) (s : State) : Host.Outcome State Fault Refusal :=
  finish ((s.clearValid (.legal (.equalize seed))).validated equalizeChecks (State.equalizeBody seed))

end Sys2Proof.Machine
end

