-- ==== Sys2Proof/Machine/Estimate.lean ====
section
/-! DEFINITION. The performance estimator, its accumulators and ESTIMATE (spec/43_performance.md R240 to
R270). -/

namespace Sys2Proof.Machine

/-- An alignment (R240): a delay, a mode permutation with its number, and a rotation index. -/
structure Alignment where
  delta : Int
  perm : List Nat
  permIndex : Nat
  rot : Nat
  deriving DecidableEq, Repr

/-- The score of an alignment (R247). -/
structure Score where
  err : Nat
  sym : Nat
  sig : F64
  ep : F64
  deriving DecidableEq, Repr

/-- The permutations of a list, in lexicographic order of positions; `n` is its length. -/
def permsOf : (n : Nat) → List Nat → List (List Nat)
  | 0, _ => [[]]
  | n + 1, l => l.flatMap fun x => (permsOf n (l.erase x)).map fun p => x :: p

/-- The M! permutations of 0..M-1 in lexicographic order (R243). -/
def perms (m : Nat) : List (List Nat) := permsOf m (List.range m)

/-- When a later score replaces the best one (R248). -/
def Score.better (a b : Score) : Bool :=
  decide (a.err * b.sym < b.err * a.sym) || (decide (a.err * b.sym = b.err * a.sym) && a.ep.lt b.ep)

namespace State

/-- Score(delta, pi, q) (R247). -/
def scoreOf (s : State) (al : Alignment) : Eng Score :=
  ((List.range s.modes).flatMap fun t => (s.pairSet al.delta).map fun k => (t, k)).foldlM
    (fun sc (t, k) => do
      let o ← s.outSym (al.perm.getD t 0) k
      let z := (s.rot al.rot).mul o
      let ref ← s.refSym t ((k : Int) + al.delta).toNat
      let dz ← s.decideIndex z
      let ds ← s.decideIndex ref
      pure
        { err := if dz ≠ ds then sc.err + 1 else sc.err
          sym := sc.sym + 1
          sig := sc.sig.add ref.abs2
          ep := sc.ep.add (z.sub ref).abs2 })
    ⟨0, 0, F64.zero, F64.zero⟩

/-- The alignments in enumeration order: delays outermost, those with an empty pair set skipped, then
permutations, then rotations (R246, R248). -/
def alignments (s : State) (synced : Bool) : List Alignment :=
  (s.delaySet synced).flatMap fun delta =>
    if (s.pairSet delta).isEmpty then []
    else (perms s.modes).zipIdx.flatMap fun (p, i) =>
      (List.range s.rotOrder).map fun q => ⟨delta, p, i, q⟩

/-- The best alignment of a list after `best`: a later one replaces it only when it is better (R248). -/
def bestAlignment (s : State) :
    List Alignment → Option (Score × Alignment) → Eng (Option (Score × Alignment))
  | [], best => .ok best
  | al :: rest, best => do
    let sc ← s.scoreOf al
    match best with
    | none => bestAlignment s rest (some (sc, al))
    | some (bs, ba) =>
      if sc.better bs then bestAlignment s rest (some (sc, al)) else bestAlignment s rest (some (bs, ba))

/-- EST_SNR and SNR_INF (R251). -/
def writeSnr (sig ep : F64) (s : State) : State :=
  if ep.eqv F64.zero then ({ s with perfRes := { s.perfRes with snr := 0 } }).setSnrInf true
  else
    ({ s with perfRes := { s.perfRes with
        snr := s.realBits (Reg.estSnr .lo).offset (sig.div ep) } }).setSnrInf false

/-- The EST_* results of the best alignment (R249, R250, R63). EST_BEST has q in [7:0] and the permutation in [15:8]
as R63 places them, against R260's braces read by R10 (DEDUCED, log entry 23). -/
def writeEstimate (sc : Score) (al : Alignment) (s : State) : State :=
  { s with perfRes := { s.perfRes with
      errors := word sc.err
      symbols := word sc.sym
      ser := s.realBits (Reg.estSer .lo).offset ((F64.ofNat sc.err).div (F64.ofNat sc.sym))
      sigpow := s.realBits (Reg.estSigpow .lo).offset sc.sig
      errpow := s.realBits (Reg.estErrpow .lo).offset sc.ep
      best := word (al.permIndex % 2 ^ 8 * 2 ^ 8 + al.rot % 2 ^ 8)
      delay := BitVec.ofInt 32 al.delta } }

/-- Accumulate(err, sym, sig, ep) (R270). -/
def accumulate (sc : Score) (s : State) : State :=
  { s with acc :=
      { errors := s.acc.errors + BitVec.ofNat 64 sc.err
        symbols := s.acc.symbols + BitVec.ofNat 64 sc.sym
        sigpow := s.realBits (Reg.accSigpow .lo).offset ((F64.ofBits s.acc.sigpow).add sc.sig)
        errpow := s.realBits (Reg.accErrpow .lo).offset ((F64.ofBits s.acc.errpow).add sc.ep)
        frames := s.acc.frames + 1 } }

/-- ESTIMATE after validation (R260). Validation leaves an alignment to score (R249), so the case of none, which
is check 25's own, is never reached (log entry 17). -/
def estimateBody (synced acc : Bool) (s : State) : Eng Ending := do
  match ← s.bestAlignment (s.alignments synced) none with
  | none => pure (s, some (.invalidLayout .noOverlap))
  | some (sc, al) =>
    let s1 := (s.writeEstimate sc al).writeSnr sc.sig sc.ep
    let s2 := if acc then s1.accumulate sc else s1
    pure (s2.setEstValid true, none)

end State

/-- ESTIMATE (R260). -/
def execEstimate (synced acc : Bool) (s : State) : Host.Outcome State Fault Refusal :=
  finish ((s.clearValid (.legal (.estimate synced acc))).validated (estimateChecks synced)
    (State.estimateBody synced acc))

end Sys2Proof.Machine
end

