-- ==== Sys2Proof/Machine/Housekeeping.lean ====
section
/-! DEFINITION. The housekeeping commands NOP, CHECK_LAYOUT, INIT_TAPS and ACC_CLEAR (spec/40_control.md R140
to R143) and the completion of an illegal word (R144). -/

namespace Sys2Proof.Machine

/-- NOP (R140): `complete()`. -/
def execNop (s : State) : Host.Outcome State Fault Refusal := finish (.ok (s, none))

/-- CHECK_LAYOUT (R141): `validate({1,...,9}); complete()`. -/
def execCheckLayout (s : State) : Host.Outcome State Fault Refusal :=
  finish (s.validated layoutChecks fun t => .ok (t, none))

/-- The writes of INIT_TAPS (R142): ZERO to every implemented TAP entry, then ONE to TAP[t][t][c] for t < M. -/
def initTapsWrites (s : State) : State :=
  let cleared := (triples Config.mMax Config.nMax).foldl
    (fun x (t, r, j) => x.putCplx (.tap t r j) Cplx.zero) s
  (List.range s.modes).foldl (fun x t => x.putCplx (.tap t t s.centre) Cplx.one) cleared

/-- INIT_TAPS (R142). -/
def execInitTaps (s : State) : Host.Outcome State Fault Refusal :=
  finish (s.validated initTapsChecks fun t => .ok (initTapsWrites t, none))

/-- ACC_CLEAR (R143). -/
def execAccClear (s : State) : Host.Outcome State Fault Refusal :=
  finish (.ok ({ s with acc := Accumulators.zero }, none))

/-- An illegal word (R144): `raise ILLEGAL_COMMAND(sub)`. -/
def illegalWord (sub : IllegalSub) (s : State) : Host.Outcome State Fault Refusal :=
  finish (.ok (s, some (.illegalCommand sub)))

end Sys2Proof.Machine
end

