-- ==== Sys2Proof/Machine/Sync.lean ====
section
/-! DEFINITION. The pilot correlator and SYNC (spec/41_sync.md R160 to R180). -/

namespace Sys2Proof.Machine

/-- What a search found (R167): the offset d*, its metric and the noise floor. -/
structure Found where
  offset : Nat
  peak : F64
  floor : F64
  deriving DecidableEq, Repr

namespace State

/-! ## Correlation -/

/-- c_raw[t][r](d) (R163). -/
def rawCorr (s : State) (d t r : Nat) : Eng Cplx :=
  sumCplx (List.range s.pilotLen) fun k => do
    let p ← s.pilot t k
    let x ← s.sampleAt r (s.symbolSample d (s.pilotPos + k) : Nat)
    pure (p.conj.mul x)

/-- c_eq[t][u](d), with the taps in TAP (R172). -/
def eqCorr (s : State) (d t u : Nat) : Eng Cplx :=
  sumCplx (List.range s.pilotLen) fun k => do
    let p ← s.pilot t k
    let y ← s.firOutput (s.symbolSample d (s.pilotPos + k) : Nat) u
    pure (p.conj.mul y)

/-- The larger of two metrics in MAX mode; NaN when either is NaN (R166). -/
def maxReal (a b : F64) : F64 := if a.isNaN || b.isNaN then F64.nan else if a.lt b then b else a

/-- agg(c) by AGG_MODE, over the matrix `c t r` (R166; log entry 7). -/
def aggregate (s : State) (c : Nat → Nat → Eng Cplx) : Eng F64 :=
  if s.aggMode = 1 then do
    let vs ← (pairs s.modes s.modes).mapM fun (t, r) => do pure (← c t r).abs2
    match vs with
    | [] => pure F64.zero
    | v :: rest => pure (rest.foldl maxReal v)
  else if s.aggMode = 2 then
    sumReal (pairs s.modes s.modes) fun (t, r) => do pure ((s.aggWeight t r).mul (← c t r).abs2)
  else sumReal (pairs s.modes s.modes) fun (t, r) => do pure (← c t r).abs2

/-- E_raw(d) (R166). -/
def rawMetric (s : State) (d : Nat) : Eng F64 := s.aggregate (s.rawCorr d)

/-- E_eq(d) (R172). -/
def eqMetric (s : State) (d : Nat) : Eng F64 := s.aggregate (s.eqCorr d)

/-! ## Search, floor, detection -/

/-- The last coarse candidate (R165); the first is SEARCH_START. -/
def coarseHi (s : State) : Int :=
  if s.searchLen = 0 then s.dmax else min ((s.searchStart : Int) + (s.searchLen : Int) - 1) s.dmax

/-- The index of the best finite metric, ties to the smallest (R167). -/
def bestIndex (es : List F64) : Option (Nat × F64) :=
  es.zipIdx.foldl
    (fun best (e, i) =>
      match best with
      | none => if e.isFinite then some (i, e) else none
      | some (b, eb) => if e.isFinite && e.gt eb then some (i, e) else some (b, eb)) none

/-- Floor(e, lo, d*) with d* = lo + best: the mean of the finite metrics at least OS samples away (R168). -/
def noiseFloor (s : State) (es : List F64) (best : Nat) : F64 :=
  let (sum, n) := es.zipIdx.foldl
    (fun ((a, n) : F64 × Nat) (e, i) =>
      if e.isFinite && decide (s.os ≤ ((i : Int) - (best : Int)).natAbs) then (a.add e, n + 1) else (a, n))
    (F64.zero, 0)
  if n = 0 then F64.zero else sum.div (F64.ofNat n)

/-- Confidence(peak, floor) (R170). -/
def confidence (peak floor : F64) (s : State) : State :=
  if floor.gt F64.zero then
    ({ s with syncRes := { s.syncRes with
        conf := s.realBits (Reg.syncConf .lo).offset (peak.div floor) } }).setConfInf false
  else ({ s with syncRes := { s.syncRes with conf := 0 } }).setConfInf true

/-- The registers of a search that chose no candidate (R167). -/
def searchFailed (lo : Nat) (s : State) : State :=
  ({ s with syncRes := { s.syncRes with offset := word lo, peak := 0, floor := 0, conf := 0 } }).setConfInf false

/-- CORR[i] <- e[i] for every candidate (R167). -/
def writeCorr (es : List F64) (s : State) : State := es.zipIdx.foldl (fun x (e, i) => x.putCorr i e) s

/-- Search(E, lo, hi) (R167): the state with the diagnostic registers written, and what it found. -/
def search (metric : Nat → Eng F64) (lo : Nat) (hi : Int) (s : State) :
    Eng (State × Except SyncFailure Found) := do
  let count := (hi - (lo : Int) + 1).toNat
  let s1 := { s with syncRes := { s.syncRes with candStart := word lo, candCount := word count } }
  if count = 0 then pure (s1.searchFailed lo, .error .emptyWindow)
  else
    let es ← (List.range count).mapM fun i => metric (lo + i)
    let s2 := s1.writeCorr es
    match bestIndex es with
    | none => pure (s2.searchFailed lo, .error .nonfinite)
    | some (best, peak) =>
      let floor := s.noiseFloor es best
      let s3 := { s2 with syncRes := { s2.syncRes with
        offset := word (lo + best)
        peak := s.realBits (Reg.syncPeak .lo).offset peak
        floor := s.realBits (Reg.syncFloor .lo).offset floor } }
      pure (s3.confidence peak floor, .ok ⟨lo + best, peak, floor⟩)

/-- Is a search result detected (R169)? -/
def detected (s : State) (f : Found) : Bool :=
  f.peak.isFinite && f.peak.gt F64.zero && f.peak.gt (s.threshold.mul f.floor)

/-! ## The SYNC part of SYNC and RECOVER -/

/-- SYNC_ITERS <- i -/
def setSyncIters (i : Nat) (s : State) : State := { s with syncRes := { s.syncRes with iters := word i } }

/-- `fail(sub)` of R180. -/
def syncFail (f : SyncFailure) (s : State) : Ending := (s.setSyncState .failed, some (.syncFailure f))

/-- The refinement iterations from number `i` on, `left` of them, from estimate `d` (R171 to R175, R180). `final` is
the state the synchronizer ends in when no iteration is left. -/
def refine (seed : Bool) :
    (left i d : Nat) → (final : SyncState) → State → Eng (State × Except SyncFailure (Nat × SyncState))
  | 0, _, d, final, s => .ok (s, .ok (d, final))
  | left + 1, i, d, _, s => do
    let s0 := (s.setSyncState .refine).setSyncIters i
    let s1 := if seed then s0 else s0.writeIdentity
    let (s2, trained) ← s1.trainPilots d
    if !trained then pure (s2, .error .interimDiverged)
    else
      let (s3, r) ← s2.search s2.eqMetric (d - s.refineHalf) (min ((d : Int) + (s.refineHalf : Int)) s.dmax)
      match r with
      | .error f => pure (s3, .error f)
      | .ok f =>
        if !s3.detected f then pure (s3, .error .belowThreshold)
        else if f.offset = d then pure (s3, .ok (d, .converged))
        else refine seed left (i + 1) f.offset .iterLimit s3

/-- CHEST[t][r] <- z -/
def putChest (t r : Nat) (z : Cplx) (s : State) : State :=
  { s with syncRes := { s.syncRes with
      chest := s.syncRes.chest.setIfInBounds t
        ((s.syncRes.chest.getD t (Vector.replicate 4 CplxBits.zero)).setIfInBounds r
          (s.cplxBits (Reg.chestRe (Fin.ofNat 4 t) (Fin.ofNat 4 r) .lo).offset z)) } }

/-- The coarse channel estimate at offset d (R176). -/
def writeChest (d : Nat) (s : State) : Eng State :=
  (pairs s.modes s.modes).foldlM
    (fun x (t, r) => do
      let c ← s.rawCorr d t r
      let ep ← s.pilotEnergy t
      pure (x.putChest t r (c.divReal ep))) s

/-- The results of a success at offset d (R177). -/
def syncSucceed (d : Nat) (final : SyncState) (s : State) : Eng Ending := do
  let s1 ← s.writeChest d
  let s2 := { s1 with cfg := { s1.cfg with frameOffset := word d } }
  pure ((s2.setSyncState final).setSyncValid true, none)

/-- SyncBody(seed) (R180, R225): SYNC from "SYNC_STATE <- COARSE" to "SYNC_VALID <- 1". SYNC_ITERS is 0 for the
coarse pass also when its search fails (R178, R282; log entry 6). -/
def syncBody (seed : Bool) (s : State) : Eng Ending := do
  let s0 := (s.setSyncState .coarse).setSyncIters 0
  let (s1, r) ← s0.search s0.rawMetric s.searchStart s.coarseHi
  match r with
  | .error f => pure (s1.syncFail f)
  | .ok f =>
    let s2 := { s1 with syncRes := { s1.syncRes with coarseOffset := word f.offset } }
    if !s2.detected f then pure (s2.syncFail .belowThreshold)
    else
      let (s3, r3) ← s2.refine seed s.iterations 1 f.offset .converged
      match r3 with
      | .error f3 => pure (s3.syncFail f3)
      | .ok (d, final) => s3.syncSucceed d final

end State

/-- SYNC (R180). -/
def execSync (seed : Bool) (s : State) : Host.Outcome State Fault Refusal :=
  finish ((s.clearValid (.legal (.sync seed))).validated (syncChecks s.iterations) (State.syncBody seed))

end Sys2Proof.Machine
end

