-- ==== Sys2Proof/Machine/Recover.lean ====
section
/-! DEFINITION. RECOVER: SYNC, then EQUALIZE at the offset found, as one command (spec/42_equalizer.md R225). -/

namespace Sys2Proof.Machine

/-- What RECOVER does after validation (R225): check 26 is made with the offset the SYNC part wrote. -/
def State.recoverBody (seed : Bool) (s : State) : Eng Ending := do
  let (s1, e) ← s.syncBody seed
  match e with
  | some e => pure (s1, some e)
  | none => s1.validated [.frameOutOfBuffer] (State.equalizeBody seed)

/-- RECOVER (R225). -/
def execRecover (seed : Bool) (s : State) : Host.Outcome State Fault Refusal :=
  finish ((s.clearValid (.legal (.recover seed))).validated recoverChecks (State.recoverBody seed))

end Sys2Proof.Machine
end

