-- ==== Sys2Proof/Machine/Dispatch.lean ====
section
/-! DEFINITION. One arm per command: the rule each runs as the engine's one step (spec/40_control.md R133). -/

namespace Sys2Proof.Machine

def exec (i : Instr) (s : State) : Host.Outcome State Fault Refusal :=
  match i with
  | .nop => Sys2Proof.Machine.execNop s
  | .checkLayout => Sys2Proof.Machine.execCheckLayout s
  | .initTaps => Sys2Proof.Machine.execInitTaps s
  | .sync seed => Sys2Proof.Machine.execSync seed s
  | .equalize seed => Sys2Proof.Machine.execEqualize seed s
  | .recover seed => Sys2Proof.Machine.execRecover seed s
  | .estimate synced acc => Sys2Proof.Machine.execEstimate synced acc s
  | .accClear => Sys2Proof.Machine.execAccClear s

end Sys2Proof.Machine
end

