-- ==== Sys2Proof/Machine/Step.lean ====
section
/-! DEFINITION. One step of the machine: the agent whose turn it is moves (spec/40_control.md R133, spec/
70_reset_and_hazards.md R310, R331). -/

namespace Sys2Proof.Machine

/-- The engine's turn (R133): a running command runs its whole rule; an abort request comes before decoding, and
an illegal word before any rule (R286). An idle engine does nothing. -/
def engineMove (s : State) : Host.Outcome State Fault Refusal :=
  match s.engine with
  | .idle => .next s
  | .running c =>
    if s.abortReq then .next (s.abortCommand c)
    else
      match c with
      | .legal i => exec i s
      | .illegal sub => illegalWord sub s

/-- One step: the agent whose turn it is moves. -/
def step (s : State) : Host.Outcome State Fault Refusal :=
  match s.nextTurn with
  | (.host, t) => .next t.hostMove
  | (.rstN level, t) => .next (t.movePin level)
  | (.engine, t) => engineMove t

/-- The block fetches no instruction (R100): a command is the word accepted in CMD. This is `s` with the word `w`
of `nbits` bits accepted (R130), so that the next step is the engine's and runs it (log entry 13). -/
def State.withFetchWord (s : State) (nbits w : Nat) : State := s.issue (BitVec.ofNat 32 (w % 2 ^ nbits))

end Sys2Proof.Machine
end

