-- ==== Sys2Proof/Machine/HostAsm.lean ====
section
/-! DEFINITION. The host assembly notation (spec/30_encoding.md R118 to R120): what each operation sends to the
bus. It has no hardware effect of its own (decision D23). -/

namespace Sys2Proof.Machine

/-- An operation of a host program (R118, R119). -/
inductive HostOp where
  /-- `WR <off>, <v32>` -/
  | wr (off : Nat) (v : Word)
  /-- `RD <off>` -/
  | rd (off : Nat)
  /-- `CMD <mnemonic> [flags]` -/
  | cmd (i : Instr)
  /-- `WR64 <off>, <real>`, with the bits of the real -/
  | wr64 (off : Nat) (v : Bits64)
  /-- `WRC <entry>, <re>, <im>`, with the bits of the reals -/
  | wrc (e : Entry) (z : CplxBits)
  /-- `WAIT`, whose poll number `polls + 1` reads BUSY = 0: how often it polls depends on the interleaving -/
  | wait (polls : Nat)
  /-- `RUN <mnemonic> [flags]`, with the polls of its WAIT -/
  | run (i : Instr) (polls : Nat)
  /-- `EXPECT <off>, <v32>` -/
  | expect (off : Nat) (v : Word)
  /-- `EXPECT64 <off>, <real>` -/
  | expect64 (off : Nat) (v : Bits64)
  deriving DecidableEq, Repr

/-- `(WRITE, off, v32, 0b1111)` (R118) -/
def writeRequest (off : Nat) (v : Word) : Request := ⟨.write, BitVec.ofNat 24 off, v, 0b1111⟩

/-- `(READ, off, -, -)` (R118) -/
def readRequest (off : Nat) : Request := ⟨.read, BitVec.ofNat 24 off, 0, 0⟩

/-- The two writes of a 64-bit value, low word first (R119). -/
def write64Requests (off : Nat) (v : Bits64) : List Request :=
  [writeRequest off (Memory.loWord v), writeRequest (off + 4) (Memory.hiWord v)]

/-- The bus requests of an operation (R118, R119). -/
def HostOp.requests : HostOp → List Request
  | .wr off v => [writeRequest off v]
  | .rd off => [readRequest off]
  | .cmd i => [writeRequest Reg.cmd.offset (encode i)]
  | .wr64 off v => write64Requests off v
  | .wrc e z => write64Requests e.offset z.re ++ write64Requests (e.offset + 8) z.im
  | .wait polls => List.replicate (polls + 1) (readRequest Reg.status.offset)
  | .run i polls =>
    writeRequest Reg.cmd.offset (encode i) :: List.replicate (polls + 1) (readRequest Reg.status.offset)
  | .expect off _ => [readRequest off]
  | .expect64 off _ => [readRequest off, readRequest (off + 4)]

/-- The bus requests of a host program (R118). -/
def hostProgram (ops : List HostOp) : List Request := ops.flatMap HostOp.requests

end Sys2Proof.Machine
end

