-- ==== Sys2Proof/Safety.lean ====
section
/-! DEFINITION. What counts as a safe run of the block, and the predicates the claims are stated with: the inputs
a command needs written (spec/60_exceptions.md R288, spec/70_reset_and_hazards.md R315), the invariant of the
step, the entries memory may list (spec/20_memory.md R103), and the magnitudes binary64 can hold (spec/
00_scope.md R14). -/

namespace Sys2Proof.Machine

/-! ## Numbers -/

/-- A magnitude (in units of 2^-1074) with a 53-bit significand (R14). -/
def Representable (k : Nat) : Prop := ∃ m e, m < 2 ^ 53 ∧ k = m * 2 ^ e

/-- A value binary64 can hold: NaN, an infinity, or a representable magnitude below 2^1024 (R14). -/
def F64.Valid : F64 → Prop
  | .nan => True
  | .inf _ => True
  | .fin _ k => Representable k ∧ k < F64.limit

/-- A complex value with parts binary64 can hold. -/
def Cplx.Valid (a : Cplx) : Prop := a.re.Valid ∧ a.im.Valid

/-- The rational number of a finite value; 0 for NaN and the infinities (R14). -/
def F64.toRat : F64 → ℚ
  | .nan => 0
  | .inf _ => 0
  | .fin neg k => (F64.signed neg k : ℚ) / 2 ^ 1074

/-- `r` is the exact number `x` rounded once: to the nearest value of 53 significant bits, ties to an even
significand, and to an infinity from the midpoint beyond the largest finite value on (R14). The sign of a zero that
stands for an exact 0 is left open here. -/
def F64.RoundOf (x : ℚ) (r : F64) : Prop :=
  match r with
  | .nan => False
  | .inf neg => 2 ^ 1024 - 2 ^ 970 ≤ |x| ∧ (neg = true ↔ x < 0)
  | .fin neg k =>
    |x| < 2 ^ 1024 - 2 ^ 970 ∧ r.Valid ∧ (x ≠ 0 → (neg = true ↔ x < 0)) ∧
    ∀ b m, Representable m →
      |r.toRat - x| ≤ |(F64.fin b m).toRat - x| ∧
      (m ≠ k → |r.toRat - x| = |(F64.fin b m).toRat - x| → ∃ c e : Nat, k = 2 * c * 2 ^ e ∧ 2 * c ≤ 2 ^ 53)

/-- The sum of R16 of real terms: an accumulator from +0.0, one rounding for each term. -/
def realSum (xs : List F64) : F64 := xs.foldl F64.add F64.zero

/-- The sum of R16 of complex terms. -/
def cplxSum (zs : List Cplx) : Cplx := zs.foldl Cplx.add Cplx.zero

/-- The terms of a double sum, the first index slowest (R16). -/
def terms {α : Type} (m n : Nat) (f : Nat → Nat → α) : List α :=
  (List.range m).flatMap fun i => (List.range n).map (f i)

/-- Numerically equal complex values (the signs of zeros aside). -/
def Cplx.eqv (a b : Cplx) : Bool := a.re.eqv b.re && a.im.eqv b.im

/-- The quarter turns 1, -1, i and -i, the exact rotations R272 names; the signs of zero parts aside. -/
def Cplx.IsQuarterTurn (z : Cplx) : Prop :=
  let one := F64.oneVal
  z.eqv ⟨one, F64.zero⟩ = true ∨ z.eqv ⟨one.neg, F64.zero⟩ = true ∨ z.eqv ⟨F64.zero, one⟩ = true ∨
    z.eqv ⟨F64.zero, one.neg⟩ = true

/-! ## Safe runs -/

/-- A run is safe when no step of it ends in a fault or a refusal. -/
def SafeFrom (s : State) : Prop := ∀ k, ∃ t, Host.Core.run Sys2Proof.core k s = .next t

/-! ## Written inputs (R288, R315 step 4) -/

namespace State

/-- Every word of a complex entry has been written since power-on. -/
def isWritten (s : State) (e : Entry) : Bool :=
  (s.mem.readBits64 e.offset).isSome && (s.mem.readBits64 (e.offset + 8)).isSome

/-- PILOT[0..M-1][0..L_P-1] is written. -/
def pilotsWritten (s : State) : Prop := ∀ t k, t < s.modes → k < s.pilotLen → s.isWritten (.pilot t k) = true

/-- SAMPLE[0..M-1][0..S-1] is written. -/
def samplesWritten (s : State) : Prop := ∀ r n, r < s.modes → n < s.sampleLen → s.isWritten (.sample r n) = true

/-- TAP[0..M-1][0..M-1][0..N-1] is written. -/
def tapsWritten (s : State) : Prop :=
  ∀ t r j, t < s.modes → r < s.modes → j < s.numTaps → s.isWritten (.tap t r j) = true

/-- CONST[0..Q-1] is written. -/
def constWritten (s : State) : Prop := ∀ q, q < s.constSize → s.isWritten (.const q) = true

/-- OUT[0..M-1][ES..ES+EL-1] is written. -/
def outsWritten (s : State) : Prop :=
  ∀ t k, t < s.modes → s.estStart ≤ k → k < s.estStart + s.estLen → s.isWritten (.out t k) = true

/-- REF[0..M-1][0..RL-1] is written. -/
def refsWritten (s : State) : Prop := ∀ t k, t < s.modes → k < s.refLen → s.isWritten (.ref t k) = true

/-- The memory inputs of a command are written (R315 step 4, and the operands of each command's rule). -/
def inputsWritten (s : State) : Instr → Prop
  | .nop => True
  | .checkLayout => s.pilotsWritten
  | .initTaps => True
  | .sync seed => s.pilotsWritten ∧ s.samplesWritten ∧ (seed = true → 1 ≤ s.iterations → s.tapsWritten)
  | .equalize seed =>
    s.pilotsWritten ∧ s.samplesWritten ∧ s.constWritten ∧ (seed = true → s.tapsWritten)
  | .recover seed =>
    s.pilotsWritten ∧ s.samplesWritten ∧ s.constWritten ∧ (seed = true → s.tapsWritten)
  | .estimate _ _ => s.constWritten ∧ s.outsWritten ∧ s.refsWritten
  | .accClear => True

/-! ## The invariant of the step -/

/-- The pairs of ERR.CODE and ERR.SUB the rules write (R281 to R285; 93 V9). -/
def errLegal (e : Err) : Bool :=
  (e.code == 0 && e.sub == 0) ||
  (e.code == 1 && decide (1 ≤ e.sub.toNat) && decide (e.sub.toNat ≤ 4)) ||
  (e.code == 2 && decide (1 ≤ e.sub.toNat) && decide (e.sub.toNat ≤ 5)) ||
  (e.code == 3 && decide (1 ≤ e.sub.toNat) && decide (e.sub.toNat ≤ 26)) ||
  (e.code == 4 && decide (1 ≤ e.sub.toNat) && decide (e.sub.toNat ≤ 3)) ||
  (e.code == 5 && e.sub == 1)

/-- What every step keeps. -/
structure Inv (s : State) : Prop where
  /-- the memory is in canonical form -/
  memWf : Memory.wf s.mem = true
  /-- a RUNNING engine runs what CMD decodes to, and ERR is 0 since acceptance (R130, R131) -/
  running : ∀ c, s.engine = .running c → c = decode s.cmd ∧ s.err = ⟨0, 0⟩
  /-- abort_req is 0 while IDLE (R73, R132) -/
  idle : s.engine = .idle → s.abortReq = false
  /-- the engine is IDLE while rst_n = 0 (R310, R311) -/
  held : s.rstN = false → s.engine = .idle
  /-- ERR holds a pair the rules write (93 V9) -/
  err : errLegal s.err = true
  /-- the res0 bits of DIV_WHERE are 0 (R62) -/
  divWhere : s.eqRes.divWhere &&& ~~~ Reg.divWhere.mask = 0
  /-- the res0 bits of EST_BEST are 0 (R63) -/
  estBest : s.perfRes.best &&& ~~~ Reg.estBest.mask = 0

/-- Memory lists bytes of implemented entries only (R84, R88, R103). -/
def memImplemented (s : State) : Prop :=
  ∀ c ∈ s.mem, ∃ e, Entry.ofOffset c.1 = some e ∧ e.implemented = true

/-! ## What the rules say of addresses, checks and channels, in their own words -/

/-- The identity bank of R205 at one tap. -/
def identityTap (s : State) (t r j : Nat) : Cplx :=
  if t = r ∧ j = (s.numTaps - 1) / 2 then Cplx.one else Cplx.zero

/-- The taps of the bank hold the identity of R205. -/
def tapsIdentity (s : State) : Prop :=
  ∀ t r j, t < s.modes → r < s.modes → j < s.numTaps → s.tap t r j = .ok (s.identityTap t r j)

/-- The check set of a command, before it computes (R138). -/
def checkSet (s : State) : Instr → List Check
  | .nop => []
  | .checkLayout => layoutChecks
  | .initTaps => initTapsChecks
  | .sync _ => syncChecks s.iterations
  | .equalize _ => equalizeChecks
  | .recover _ => recoverChecks
  | .estimate synced _ => estimateChecks synced
  | .accClear => []

/-- The command passes validation, up to RECOVER's check 26 (R136, R225). -/
def passes (s : State) (i : Instr) : Prop := ∀ c ∈ s.checkSet i, s.checkFails c = .ok false

/-- SAMPLE[t][d + OS*k], the sample of frame symbol k for a frame at offset d (R20). -/
def symbolValue (s : State) (d t k : Nat) : Eng Cplx := s.readCplx (.sample t (d + s.os * k))

/-- The mean power of the frame's symbol samples of mode t, in the order of R210. -/
def receivedPower (s : State) (d t : Nat) : Eng F64 := do
  let p ← sumReal (List.range s.frameLen) fun k => do pure (← s.symbolValue d t k).abs2
  pure (p.div (F64.ofNat s.frameLen))

/-- The noiseless, unrotated, undispersed channel of R226 for a frame at offset d: every sample is finite, the
sample of every pilot symbol is its pilot value, and the sample of every payload symbol is the constellation
point decided for it. The taps of the identity bank and the received power lie within the divergence limits. -/
structure Noiseless (s : State) (d : Nat) : Prop where
  samples : ∀ r n, r < s.modes → n < s.sampleLen →
    ∃ x, s.readCplx (.sample r n) = .ok x ∧ x.isFinite = true
  pilots : ∀ t k, t < s.modes → k < s.pilotLen →
    ∃ p x, s.pilot t k = .ok p ∧ s.symbolValue d t (s.pilotPos + k) = .ok x ∧ p.eqv x = true
  payload : ∀ t k, t < s.modes → k < s.frameLen → (k < s.pilotPos ∨ s.pilotPos + s.pilotLen ≤ k) →
    ∃ q p x, s.symbolValue d t k = .ok x ∧ s.decideIndex x = .ok q ∧ s.point q = .ok p ∧ p.eqv x = true
  tapLimit : F64.oneVal.gt s.tapLimit = false
  power : ∀ t, t < s.modes → ∃ p pc, s.receivedPower d t = .ok p ∧ s.constPower = .ok pc ∧
    s.powerFailure pc p = none

/-- The metrics a noise floor is taken over: the finite ones at least OS samples away from candidate `b` (R168). -/
def farMetrics (s : State) (es : List F64) (b : Nat) : List F64 :=
  (es.zipIdx.filter fun (e, i) => e.isFinite && decide (s.os ≤ ((i : Int) - (b : Int)).natAbs)).map (·.1)

/-- The mean of the far metrics, in ascending order, or +0.0 when there is none (R168). -/
def meanFloor (s : State) (es : List F64) (b : Nat) : F64 :=
  if s.farMetrics es b = [] then F64.zero
  else ((s.farMetrics es b).foldl F64.add F64.zero).div (F64.ofNat (s.farMetrics es b).length)

/-- Candidate `b` is the first of the greatest finite metrics (R167). -/
structure FirstMaximum (es : List F64) (b : Nat) (peak : F64) : Prop where
  value : es[b]? = some peak
  finite : peak.isFinite = true
  greatest : ∀ (j : Nat) (e : F64), es[j]? = some e → e.isFinite = true → e.gt peak = false
  first : ∀ (j : Nat) (e : F64), j < b → es[j]? = some e → e.isFinite = true → peak.gt e = true

/-- The coarse search of SYNC has the metrics `es`, of which candidate `b` is chosen and detected (R165 to
R169). -/
structure CoarseFinds (s : State) (es : List F64) (b : Nat) (peak : F64) : Prop where
  count : es.length = (s.coarseHi - (s.searchStart : Int) + 1).toNat
  metrics : ∀ (i : Nat) (e : F64), es[i]? = some e → s.rawMetric (s.searchStart + i) = .ok e
  best : FirstMaximum es b peak
  positive : peak.gt F64.zero = true
  threshold : peak.gt (s.threshold.mul (s.meanFloor es b)) = true

/-- A tap that passes the tap test (R209). -/
def tapPasses (s : State) (t r j : Nat) : Prop :=
  ∃ w : Cplx, s.tap t r j = .ok w ∧ w.isFinite = true ∧ w.abs2.gt s.tapLimit = false

/-- Every tap that the scan of the tap test visits before tap (t, r, j) passes: t slowest, then r, then j (R209). -/
def earlierTapsPass (s : State) (t r j : Nat) : Prop :=
  ∀ t' r' j', t' < s.modes → r' < s.modes → j' < s.numTaps →
    (t' < t ∨ (t' = t ∧ (r' < r ∨ (r' = r ∧ j' < j)))) → s.tapPasses t' r' j'

/-- One refinement iteration of SYNC (R171): the estimate it starts from, the memory its training leaves (of which
only TAP has changed), the metrics of its search, and the index and metric of the candidate chosen. -/
structure Refinement where
  start : Nat
  mem : Memory
  metrics : List F64
  best : Nat
  peak : F64
  deriving DecidableEq, Repr

/-- The first candidate of a refinement search, max(0, d - h) (R173). -/
def refineStart (s : State) (d : Nat) : Nat := d - s.refineHalf

/-- The offset an iteration finds (R167, R173). -/
def foundBy (s : State) (x : Refinement) : Nat := s.refineStart x.start + x.best

/-- What R171 to R173 and R169 say of one iteration: from the identity, or with SEED from the taps in `m`, training
on the pilots at `x.start` leaves `x.mem`; with those taps the candidates from max(0, d - h) to min(d + h, dmax) have
the metrics `x.metrics`; their first maximum is detected. -/
structure Iterates (s : State) (seed : Bool) (m : Memory) (x : Refinement) : Prop where
  trained :
    (if seed = true then { s with mem := m } else State.writeIdentity { s with mem := m }).trainPilots x.start =
      .ok ({ s with mem := x.mem }, true)
  count : (x.metrics.length : Int) =
    min ((x.start : Int) + (s.refineHalf : Int)) s.dmax - (s.refineStart x.start : Int) + 1
  metric : ∀ (i : Nat) (e : F64), x.metrics[i]? = some e →
    State.eqMetric { s with mem := x.mem } (s.refineStart x.start + i) = .ok e
  best : FirstMaximum x.metrics x.best x.peak
  positive : x.peak.gt F64.zero = true
  threshold : x.peak.gt (s.threshold.mul (s.meanFloor x.metrics x.best)) = true

/-- Iterations that follow one another from estimate `d` and taps in `m`: each starts from the estimate and the taps
the one before it left, and only the last may find the estimate it started from (R175, R179). -/
def Refines (s : State) (seed : Bool) : Nat → Memory → List Refinement → Prop
  | _, _, [] => True
  | d, m, x :: rest =>
    x.start = d ∧ s.Iterates seed m x ∧ (rest ≠ [] → s.foundBy x ≠ d) ∧ Refines s seed (s.foundBy x) x.mem rest

/-- Rotating OUT by table entry g maps the table onto itself, and every product it forms with a symbol of the window
is exact: ROT[q] * (ROT[g] * x) is ROT[p] * x as a number, where ROT[p] = ROT[q] * ROT[g] (R272). -/
def RotatesExactly (s : State) (g : Nat) : Prop :=
  let turned (q p : Nat) : Prop :=
    (s.rot p).eqv ((s.rot q).mul (s.rot g)) = true ∧
    ∀ t k x, t < s.modes → s.estStart ≤ k → k < s.estStart + s.estLen → s.outSym t k = .ok x →
      ((s.rot q).mul ((s.rot g).mul x)).eqv ((s.rot p).mul x) = true
  (∀ q, q < s.rotOrder → ∃ p, p < s.rotOrder ∧ turned q p) ∧
  ∀ p, p < s.rotOrder → ∃ q, q < s.rotOrder ∧ turned q p

/-- The byte at `a` lies in one of the word ranges. -/
def inRanges (ranges : List (Nat × Nat)) (a : Nat) : Prop :=
  ∃ p ∈ ranges, p.1 ≤ a ∧ a < p.1 + 4 * p.2

end State

/-- The number of the first condition of R114 that makes a word illegal; 0 when none holds. -/
def illegalCheck (w : Word) : Nat :=
  let opc := w.toNat % 2 ^ 8
  if 0x08 ≤ opc then 1
  else if w.toNat / 2 ^ 10 ≠ 0 then 2
  else if (w.getLsbD 8 = true ∧ (opc < 0x03 ∨ opc = 0x07)) ∨ (w.getLsbD 9 = true ∧ opc ≠ 0x06) then 3
  else 0

/-- The offsets of the configuration registers' words (R40 to R59): 0x100 to 0x208 but for the reserved 0x13C,
and the ROT table. -/
def configOffset (a : Nat) : Prop :=
  a % 4 = 0 ∧ ((0x100 ≤ a ∧ a < 0x20C ∧ a ≠ 0x13C) ∨ (0x500 ≤ a ∧ a < 0x580))

/-- The offsets the aperture decodes (R82, R84): the register page, and every word of an implemented entry. -/
def decodedOffset (a : Nat) : Prop :=
  a < 0x1000 ∨ ∃ e w, Entry.implemented e = true ∧ 4 * w < e.size ∧ a = e.offset + 4 * w

/-- The bits of a configuration register's fields (R40 to R59); the others are res0. -/
def Reg.fieldMask : Reg → Word
  | .layoutModes => 0x7
  | .streamModes => 0x7
  | .os => 0xFF
  | .numTaps => 0xFF
  | .iterations => 0xFF
  | .refineHalf => 0xFFFF
  | .aggMode => 0x3
  | .constSize => 0xFFFF
  | .rotOrder => 0xF
  | .delayMax => 0xFFFF
  | _ => 0xFFFFFFFF

end Sys2Proof.Machine
end

