-- ==== Sys2Proof/Certificates/Slice0/Obligations.lean ====
section
/-! DEFINITION. The statements for the provers, in the order of the spec's files: encoding, the host port, the life
cycle of a command, each command, the numbers, and the rules over every command. -/

open Sys2Proof Sys2Proof.Machine

/-! ## Encoding (spec/30_encoding.md) -/

/-- R116, R120, R112: decoding and encoding agree on every word and every command, the encoder's commands are well
formed, and a well-formed field value is the fields of a command. -/
def Obligations.DecodeAndEncodeAgree : Prop :=
  (∀ (w : Word) (i : Instr), decode w = .legal i ↔ w = encode i) ∧
  (∀ i : Instr, i.wellFormed = true ∧ decodeTableWord 32 (encode i).toNat = some i) ∧
  ∀ c : CommandWord, CommandWord.ofWord c.toWord = c ∧ (c.wellFormed = true ↔ ∃ i : Instr, i.fields = c)

/-- R116: the decoder's pseudocode, with the fields of R110 taken by arithmetic on the word. -/
def Obligations.DecodeFollowsTheCaseOfR116 : Prop :=
  ∀ w : Word,
    let opc := w.toNat % 2 ^ 8
    let f0 := w.toNat / 2 ^ 8 % 2
    let f1 := w.toNat / 2 ^ 9 % 2
    let rsv := w.toNat / 2 ^ 10
    decode w =
      if 0x08 ≤ opc then .illegal .unknownOpcode
      else if rsv ≠ 0 then .illegal .reservedBits
      else if opc = 0x00 then (if f0 + f1 ≠ 0 then .illegal .undefinedFlag else .legal .nop)
      else if opc = 0x01 then (if f0 + f1 ≠ 0 then .illegal .undefinedFlag else .legal .checkLayout)
      else if opc = 0x02 then (if f0 + f1 ≠ 0 then .illegal .undefinedFlag else .legal .initTaps)
      else if opc = 0x03 then (if f1 ≠ 0 then .illegal .undefinedFlag else .legal (.sync (f0 == 1)))
      else if opc = 0x04 then (if f1 ≠ 0 then .illegal .undefinedFlag else .legal (.equalize (f0 == 1)))
      else if opc = 0x05 then (if f1 ≠ 0 then .illegal .undefinedFlag else .legal (.recover (f0 == 1)))
      else if opc = 0x06 then .legal (.estimate (f0 == 1) (f1 == 1))
      else if f0 + f1 ≠ 0 then .illegal .undefinedFlag
      else .legal .accClear

/-- R120: the words of every command with every legal flag combination. -/
def Obligations.CommandWordTable : Prop :=
  decode 0x00000000 = .legal .nop ∧
  decode 0x00000001 = .legal .checkLayout ∧
  decode 0x00000002 = .legal .initTaps ∧
  decode 0x00000003 = .legal (.sync false) ∧ decode 0x00000103 = .legal (.sync true) ∧
  decode 0x00000004 = .legal (.equalize false) ∧ decode 0x00000104 = .legal (.equalize true) ∧
  decode 0x00000005 = .legal (.recover false) ∧ decode 0x00000105 = .legal (.recover true) ∧
  decode 0x00000006 = .legal (.estimate false false) ∧ decode 0x00000106 = .legal (.estimate true false) ∧
  decode 0x00000206 = .legal (.estimate false true) ∧ decode 0x00000306 = .legal (.estimate true true) ∧
  decode 0x00000007 = .legal .accClear

/-- R114, R144: a word with a failing condition is accepted like any other, CMD reads it back, and the engine's turn
completes it with ILLEGAL_COMMAND and the number of the first condition that holds, changing nothing else. -/
def Obligations.IllegalWordIsAcceptedAndReported : Prop :=
  ∀ (s : State) (w : Word), s.engine = .idle → illegalCheck w ≠ 0 →
    let a := s.transact (writeRequest 0x048 w)
    a.response = some (.write .okay) ∧ a.busy = true ∧ Reg.cmd.read a = w ∧
    engineMove a = .next
      { a with
        err := ⟨4, BitVec.ofNat 8 (illegalCheck w)⟩
        engine := .idle
        abortReq := false
        irqStatus := { a.irqStatus with done := true, error := true }
        draws := a.draws + 1 }

/-! ## Steps (R133, R94, R310, R331) -/

/-- The engine's turn runs what was accepted: an abort request first, then an illegal word, then the command
(R133, R286), and an idle engine does nothing. A word placed by `withFetchWord` is run by the next step (the
model's own convention, log entry 13). -/
def Obligations.StepRunsTheAcceptedCommand : Prop :=
  (∀ (s t : State) (i : Instr), s.nextTurn = (.engine, t) → t.engine = .running (.legal i) → t.abortReq = false →
    step s = exec i t) ∧
  (∀ (s t : State) (x : IllegalSub), s.nextTurn = (.engine, t) → t.engine = .running (.illegal x) →
    t.abortReq = false → step s = .next (t.raise (.illegalCommand x))) ∧
  (∀ (s t : State) (c : Decoded), s.nextTurn = (.engine, t) → t.engine = .running c → t.abortReq = true →
    step s = .next (t.abortCommand c)) ∧
  (∀ s t : State, s.nextTurn = (.engine, t) → t.engine = .idle → step s = .next t) ∧
  ∀ (s : State) (w : Word) (i : Instr), decode w = .legal i →
    step (s.withFetchWord 32 w.toNat) = exec i { s.accept w with rstN := true }

/-- R94, R310: on the host's turn its oldest pending transaction is performed, whole; while `rst_n` is low the
host waits (log entry 12). -/
def Obligations.HostTransactionsAreDoneInOrder : Prop :=
  (∀ (s t : State) (q : Request) (rest : List Request), s.nextTurn = (.host, t) → t.rstN = true →
    t.requests = q :: rest → step s = .next (State.transact q { t with requests := rest })) ∧
  (∀ s t : State, s.nextTurn = (.host, t) → (t.rstN = false ∨ t.requests = []) → step s = .next t) ∧
  ∀ (s t : State) (q : Request), t = s.transact q → t.requests = s.requests ∧ t.response ≠ none

/-- R331 (and R133's weak fairness, as log entry 3 makes it): a command in the engine completes, is ended by a
reset, or stops at an unwritten entry before the schedule is used up and one more step. -/
def Obligations.RunningCommandEndsWithinTheSchedule : Prop :=
  ∀ (s : State) (c : Decoded), s.engine = .running c →
    ∃ n, n ≤ s.schedule.length + 1 ∧
      ((∃ t : State, Host.Core.run Sys2Proof.core n s = .next t ∧ t.engine = .idle) ∨
        ∃ e, Host.Core.run Sys2Proof.core n s = .fault (Fault.uninitRead e))

/-! ## The host port (spec/20_memory.md) -/

/-- R86, R87, R88, R90: a misaligned access, a write without all strobes and an access to a hole get SLVERR and have
no effect, a read returning 0; every other access gets OKAY. -/
def Obligations.SlverrAccessHasNoEffect : Prop :=
  ∀ (s : State) (q : Request),
    let bad := q.addr.toNat % 4 ≠ 0 ∨ (q.kind = .write ∧ q.wstrb ≠ 0b1111) ∨ ¬ decodedOffset q.addr.toNat
    (bad → q.kind = .read → s.transact q = { s with response := some (.read 0 .slverr) }) ∧
    (bad → q.kind = .write → s.transact q = { s with response := some (.write .slverr) }) ∧
    (¬ bad → q.kind = .read → ∃ v, (s.transact q).response = some (.read v .okay)) ∧
    (¬ bad → q.kind = .write → (s.transact q).response = some (.write .okay))

/-- R93, first sentence: no read has a side effect. (The response and the draw counter are the model's own.) -/
def Obligations.ReadHasNoSideEffect : Prop :=
  ∀ (s : State) (q : Request), q.kind = .read →
    s.transact q = { s with response := (s.transact q).response, draws := (s.transact q).draws }

/-- R97, last clause, and R83, R85, R101: an idle block's registers and memory words read as stored. -/
def Obligations.IdleReadReturnsTheStoredValue : Prop :=
  ∀ s : State, s.engine = .idle →
    (∀ r : Reg, (s.transact (readRequest r.offset)).response = some (.read (r.read s) .okay)) ∧
    ∀ (e : Entry) (i : Nat) (w : Word), e.implemented = true → 4 * i < e.size →
      s.mem.readWord (e.offset + 4 * i) = some w →
      (s.transact (readRequest (e.offset + 4 * i))).response = some (.read w .okay)

/-- R38: a reserved register reads 0 and ignores writes, with an OKAY response, whether or not the block is busy. -/
def Obligations.ReservedRegisterReadsZeroAndIgnoresWrites : Prop :=
  ∀ (s : State) (a : Nat) (w : Word), a < 0x1000 → a % 4 = 0 → (∀ r : Reg, r.offset ≠ a) →
    (s.transact (readRequest a)).response = some (.read 0 .okay) ∧
    s.transact (writeRequest a w) = { s with response := some (.write .okay) }

/-- R89 and R96, last paragraph: a write to a read-only register, a reserved register or CORR has no effect at any
time: the register page but for the configuration registers, CTRL, CMD and IRQ_STATUS, and the CORR words. -/
def Obligations.ReadOnlyTargetsIgnoreWrites : Prop :=
  ∀ (s : State) (a : Nat) (w : Word), a % 4 = 0 →
    ((a < 0x1000 ∧ ¬ configOffset a ∧ a ≠ 0x040 ∧ a ≠ 0x048 ∧ a ≠ 0x050) ∨ (0xC00000 ≤ a ∧ a < 0xC80000)) →
    s.transact (writeRequest a w) = { s with response := some (.write .okay) }

/-- R39: while the block is idle a written configuration register reads back its fields' bits exactly, its reserved
bits read 0, and no other register or memory changes. A CTRL write without SOFT_RESET, idle or busy, stores IRQ_EN,
sets abort_req when it has ABORT while BUSY (R33, R292), and changes nothing else; CTRL reads back IRQ_EN alone. -/
def Obligations.ConfigurationWriteIsStoredExactly : Prop :=
  (∀ (s : State) (r : Reg) (w : Word), s.engine = .idle → configOffset r.offset →
    let t := s.transact (writeRequest r.offset w)
    t = { s with cfg := t.cfg, response := some (.write .okay) } ∧
    r.read t = w &&& r.fieldMask ∧ ∀ q : Reg, q ≠ r → q.read t = q.read s) ∧
  ∀ (s : State) (w : Word), w.getLsbD 2 = false →
    let t := s.transact (writeRequest 0x040 w)
    t = { s with
      irqEn := w.getLsbD 0
      abortReq := s.abortReq || (s.busy && w.getLsbD 1)
      response := some (.write .okay) } ∧
    Reg.ctrl.read t = w &&& 1

/-- R101, R85: a written memory word reads back, byte i of the word at offset i, and every other byte, every
register and the engine are as before. -/
def Obligations.MemoryWriteReadsBackLittleEndian : Prop :=
  ∀ (s : State) (e : Entry) (i : Nat) (w : Word), s.engine = .idle → e.implemented = true → e.hostWritable = true →
    4 * i < e.size →
    let a := e.offset + 4 * i
    let t := s.transact (writeRequest a w)
    t = { s with mem := t.mem, response := some (.write .okay) } ∧
    t.mem.readWord a = some w ∧
    (∀ j, j < 4 → t.mem.read (a + j) = some (BitVec.ofNat 8 (w.toNat / 2 ^ (8 * j)))) ∧
    ∀ b, (b < a ∨ a + 4 ≤ b) → t.mem.read b = s.mem.read b

/-- R96: while BUSY a write to a configuration register or to a memory the host may write is ignored, gets OKAY and
sets WR_IGNORED; writes to CTRL and IRQ_STATUS act, a write to CMD is rejected, and writes to read-only registers,
reserved registers and CORR have no effect and do not set WR_IGNORED. -/
def Obligations.BusyWritesAreIgnoredAndFlagged : Prop :=
  ∀ (s : State) (c : Decoded) (w : Word), s.engine = .running c →
    (∀ a, (configOffset a ∨ ∃ e i, Entry.implemented e = true ∧ e.hostWritable = true ∧ 4 * i < e.size ∧
        a = e.offset + 4 * i) →
      s.transact (writeRequest a w) =
        { s with irqStatus := { s.irqStatus with wrIgnored := true }, response := some (.write .okay) }) ∧
    (w.getLsbD 2 = false →
      s.transact (writeRequest 0x040 w) =
        { s with irqEn := w.getLsbD 0, abortReq := s.abortReq || w.getLsbD 1, response := some (.write .okay) }) ∧
    (w.getLsbD 2 = true →
      s.transact (writeRequest 0x040 w) = { s.resetBlock with response := some (.write .okay) }) ∧
    s.transact (writeRequest 0x050 w) =
      { s with irqStatus := s.irqStatus.acknowledge w, response := some (.write .okay) } ∧
    s.transact (writeRequest 0x048 w) =
      { s with irqStatus := { s.irqStatus with cmdRejected := true }, response := some (.write .okay) } ∧
    ∀ a, a % 4 = 0 →
      ((a < 0x1000 ∧ ¬ configOffset a ∧ a ≠ 0x040 ∧ a ≠ 0x048 ∧ a ≠ 0x050) ∨ (0xC00000 ≤ a ∧ a < 0xC80000)) →
      s.transact (writeRequest a w) = { s with response := some (.write .okay) }

/-- R97: while BUSY, STATUS shows BUSY = 1; a register outside the write set, but for STATUS and ERR, and a written
memory word outside it read as stored; every other word is the model's free value (log entries 1 and 5). -/
def Obligations.BusyReadsAreExactOutsideTheWriteSet : Prop :=
  ∀ (s : State) (c : Decoded), s.engine = .running c →
    (∃ v : Word, (s.transact (readRequest 0x044)).response = some (.read v .okay) ∧ v.getLsbD 0 = true) ∧
    (∀ r : Reg, r ≠ .status → r ≠ .err → r ∉ s.writeSetRegs c →
      (s.transact (readRequest r.offset)).response = some (.read (r.read s) .okay)) ∧
    (∀ r : Reg, r ≠ .status → (r = .err ∨ r ∈ s.writeSetRegs c) →
      (s.transact (readRequest r.offset)).response =
        some (.read (Config.anyWord s.draws r.offset &&& r.mask) .okay)) ∧
    (∀ (e : Entry) (i : Nat) (w : Word), e.implemented = true → 4 * i < e.size →
      ¬ State.inRanges (s.writeSetRanges c) (e.offset + 4 * i) → s.mem.readWord (e.offset + 4 * i) = some w →
      (s.transact (readRequest (e.offset + 4 * i))).response = some (.read w .okay)) ∧
    ∀ (e : Entry) (i : Nat), e.implemented = true → 4 * i < e.size →
      State.inRanges (s.writeSetRanges c) (e.offset + 4 * i) →
      (s.transact (readRequest (e.offset + 4 * i))).response =
        some (.read (Config.anyWord s.draws (e.offset + 4 * i)) .okay)

/-! ## Interrupt (spec/60_exceptions.md R289, R290) -/

/-- R290, R289: each 1 written to IRQ_STATUS clears its bit, each 0 leaves it, ERR and all else stay, at any time;
irq is high exactly when IRQ_EN and one of the four bits are set. -/
def Obligations.AcknowledgeClearsTheBitsWrittenOne : Prop :=
  (∀ (s : State) (w : Word),
    let t := s.transact (writeRequest 0x050 w)
    t = { s with irqStatus := t.irqStatus, response := some (.write .okay) } ∧
    Reg.irqStatus.read t = Reg.irqStatus.read s &&& ~~~w) ∧
  ∀ s : State, s.irq = true ↔ (Reg.ctrl.read s).getLsbD 0 = true ∧ Reg.irqStatus.read s &&& 0xF ≠ 0

/-! ## Reset (spec/70_reset_and_hazards.md) -/

/-- R74: the reset state: the constants, 0 in every other register, the engine IDLE, no abort request, and no memory
entry with a value. -/
def Obligations.ResetValues : Prop :=
  Reg.id.read State.reset = 0x50434F52 ∧ Reg.version.read State.reset = 0x00010000 ∧
  Reg.capModes.read State.reset = 0x00080802 ∧ Reg.capTaps.read State.reset = 63 ∧
  Reg.capSmax.read State.reset = 65536 ∧ Reg.capLmax.read State.reset = 16384 ∧
  Reg.capPmax.read State.reset = 4096 ∧ Reg.capRmax.read State.reset = 16384 ∧
  Reg.capQmax.read State.reset = 1024 ∧
  (∀ r : Reg, r.offset = 0x040 ∨ r.offset = 0x044 ∨ r.offset = 0x048 ∨ r.offset = 0x04C ∨ r.offset = 0x050 ∨
    0x100 ≤ r.offset → r.read State.reset = 0) ∧
  State.reset.engine = .idle ∧ State.reset.abortReq = false ∧ ∀ a, State.reset.mem.read a = none

/-- R313, R314: a CTRL write with SOFT_RESET, idle or busy, leaves every register at its reset value and the engine
IDLE with no abort request; it keeps every memory byte outside the write set of a command it ends, and what was
written stays written. -/
def Obligations.SoftResetEndsTheCommandAndKeepsMemory : Prop :=
  ∀ (s : State) (w : Word), w.getLsbD 2 = true →
    let t := s.transact (writeRequest 0x040 w)
    t.response = some (.write .okay) ∧ (∀ r : Reg, r.read t = r.read State.reset) ∧
    t.engine = .idle ∧ t.abortReq = false ∧
    (t.rstN, t.requests, t.schedule) = (s.rstN, s.requests, s.schedule) ∧
    (s.engine = .idle → t.mem = s.mem) ∧
    (∀ c, s.engine = .running c → ∀ a, ¬ State.inRanges (s.writeSetRanges c) a → t.mem.read a = s.mem.read a) ∧
    ∀ a, s.mem.read a ≠ none → t.mem.read a ≠ none

/-- R311, R310, R314: the step that asserts `rst_n` does the same, and holds the host off until it is released. -/
def Obligations.HardResetSetsEveryRegister : Prop :=
  (∀ s t : State, s.nextTurn = (.rstN false, t) →
    ∃ u, step s = .next u ∧ u.rstN = false ∧ (∀ r : Reg, r.read u = r.read State.reset) ∧
      u.engine = .idle ∧ u.abortReq = false ∧ u.irq = false ∧ u.requests = t.requests ∧
      (s.engine = .idle → u.mem = s.mem) ∧
      (∀ c, s.engine = .running c → ∀ a, ¬ State.inRanges (s.writeSetRanges c) a → u.mem.read a = s.mem.read a) ∧
      ∀ a, s.mem.read a ≠ none → u.mem.read a ≠ none) ∧
  ∀ s t : State, s.nextTurn = (.rstN true, t) → step s = .next { t with rstN := true }

/-! ## The life cycle of a command (spec/40_control.md) -/

/-- R130: a CMD write while BUSY = 0 is acceptance, and IRQ_STATUS and all else stay. -/
def Obligations.CmdWriteWhileIdleIsAccepted : Prop :=
  ∀ (s : State) (w : Word), s.engine = .idle →
    s.transact (writeRequest 0x048 w) =
      { s with
        cmd := w
        err := ⟨0, 0⟩
        abortReq := false
        engine := .running (decode w)
        response := some (.write .okay) }

/-- R131: a CMD write while BUSY = 1 sets CMD_REJECTED and does nothing else. -/
def Obligations.CmdWriteWhileBusyIsRejected : Prop :=
  ∀ (s : State) (c : Decoded) (w : Word), s.engine = .running c →
    s.transact (writeRequest 0x048 w) =
      { s with irqStatus := { s.irqStatus with cmdRejected := true }, response := some (.write .okay) }

/-- R132: every turn of a running engine that goes on completes the command: BUSY = 0, no abort request, DONE set,
ERROR set exactly on a nonzero code (else as it was), and the two other event bits, CMD, IRQ_EN and the host's side
as before. -/
def Obligations.EveryCommandCompletesOnce : Prop :=
  ∀ (s t : State) (c : Decoded), s.engine = .running c → engineMove s = .next t →
    t.busy = false ∧ t.engine = .idle ∧ t.abortReq = false ∧ t.irqStatus.done = true ∧
    t.irqStatus.error = (s.irqStatus.error || t.err.code != 0) ∧
    (t.err.code = 0 → t.err.sub = 0) ∧
    t.irqStatus.wrIgnored = s.irqStatus.wrIgnored ∧ t.irqStatus.cmdRejected = s.irqStatus.cmdRejected ∧
    (t.cmd, t.irqEn, t.rstN, t.requests, t.schedule, t.response) =
      (s.cmd, s.irqEn, s.rstN, s.requests, s.schedule, s.response)

/-- R134, R133: a host step that leaves the block busy leaves the command, every configuration register, every memory
and every result as they are. -/
def Obligations.HostCannotTouchARunningCommand : Prop :=
  ∀ s t u : State, s.busy = true → s.nextTurn = (.host, t) → step s = .next u → u.busy = true →
    u = { t with
      irqEn := u.irqEn
      irqStatus := u.irqStatus
      abortReq := u.abortReq
      requests := u.requests
      response := u.response
      draws := u.draws }

/-- R135: what each command that goes on leaves in the valid bits: set exactly on its own success, cleared when its
own command starts, and left alone by every other command. RECOVER leaves SYNC_VALID set when only its EQUALIZE part
fails. -/
def Obligations.ValidBitsAreSetOnlyBySuccess : Prop :=
  ∀ (i : Instr) (s t : State), exec i s = .next t →
    match i with
    | .sync _ => t.status.syncValid = (t.err.code == 0) ∧ t.status.eqValid = s.status.eqValid ∧
        t.status.estValid = s.status.estValid
    | .equalize _ => t.status.eqValid = (t.err.code == 0) ∧ t.status.syncValid = s.status.syncValid ∧
        t.status.estValid = s.status.estValid
    | .recover _ => t.status.eqValid = (t.err.code == 0) ∧
        t.status.syncValid = (t.err.code == 0 || t.err.code == 2 || (t.err.code == 3 && t.err.sub == 26)) ∧
        t.status.estValid = s.status.estValid
    | .estimate _ _ => t.status.estValid = (t.err.code == 0) ∧ t.status.syncValid = s.status.syncValid ∧
        t.status.eqValid = s.status.eqValid
    | .nop => t.status = s.status
    | .checkLayout => t.status = s.status
    | .initTaps => t.status = s.status
    | .accClear => t.status = s.status

/-- R136: the first check of its set that fails is reported as INVALID_LAYOUT with its number, and besides the
completion and the valid bits of R135 nothing is written. -/
def Obligations.FirstFailingCheckIsReported : Prop :=
  ∀ (i : Instr) (s : State) (before after : List Check) (c : Check), s.checkSet i = before ++ c :: after →
    (∀ b ∈ before, s.checkFails b = .ok false) → s.checkFails c = .ok true →
    exec i s = .next
      { s.clearValid (.legal i) with
        err := ⟨3, BitVec.ofNat 8 c.number⟩
        engine := .idle
        abortReq := false
        irqStatus := { s.irqStatus with done := true, error := true }
        draws := s.draws + 1 }

/-- R138: the check set of each command by number, in evaluation order. -/
def Obligations.CheckSetsOfTheCommands : Prop :=
  ∀ s : State,
    let numbers (i : Instr) := (s.checkSet i).map Check.number
    numbers .nop = [] ∧ numbers .accClear = [] ∧
    numbers .checkLayout = [1, 2, 3, 4, 5, 6, 7, 8, 9] ∧ numbers .initTaps = [6, 11] ∧
    (∀ seed, s.iterations = 0 → numbers (.sync seed) = [1, 2, 3, 4, 5, 6, 7, 8, 9, 10, 12, 14, 15, 16]) ∧
    (∀ seed, 1 ≤ s.iterations →
      numbers (.sync seed) = [1, 2, 3, 4, 5, 6, 7, 8, 9, 10, 11, 12, 13, 14, 15, 16, 17]) ∧
    (∀ seed, numbers (.equalize seed) = [1, 2, 3, 4, 5, 6, 7, 8, 9, 10, 11, 12, 13, 17, 18, 19, 20, 26]) ∧
    (∀ seed, numbers (.recover seed) =
      [1, 2, 3, 4, 5, 6, 7, 8, 9, 10, 11, 12, 13, 14, 15, 16, 17, 18, 19, 20]) ∧
    (∀ acc, numbers (.estimate true acc) = [1, 6, 7, 19, 21, 22, 23, 24]) ∧
    ∀ acc, numbers (.estimate false acc) = [1, 6, 7, 19, 21, 22, 23, 25]

/-! ## Housekeeping commands (R140 to R143) -/

/-- R140, R143: NOP completes and does nothing else; ACC_CLEAR sets the accumulators to 0 and completes. -/
def Obligations.NopAndAccClearComplete : Prop :=
  ∀ s : State,
    exec .nop s = .next
      { s with
        err := ⟨0, 0⟩
        engine := .idle
        abortReq := false
        irqStatus := { s.irqStatus with done := true }
        draws := s.draws + 1 } ∧
    exec .accClear s = .next
      { s with
        acc := ⟨0, 0, 0, 0, 0⟩
        err := ⟨0, 0⟩
        engine := .idle
        abortReq := false
        irqStatus := { s.irqStatus with done := true }
        draws := s.draws + 1 }

/-- R141: CHECK_LAYOUT completes with code 0 and writes nothing else when none of the conditions 1 to 9 holds. -/
def Obligations.CheckLayoutAcceptsAValidLayout : Prop :=
  ∀ s : State,
    1 ≤ s.frameLen → 1 ≤ s.pilotLen → s.pilotPos + s.pilotLen ≤ s.frameLen → s.streamModes = s.modes →
    1 ≤ s.modes → s.modes ≤ 2 → s.frameLen ≤ 16384 → s.pilotLen ≤ 4096 →
    (∀ t, t < s.modes → ∃ ep : F64, s.pilotEnergy t = .ok ep ∧ ep.isFinite = true ∧ ep.gt F64.zero = true) →
    exec .checkLayout s = .next
      { s with
        err := ⟨0, 0⟩
        engine := .idle
        abortReq := false
        irqStatus := { s.irqStatus with done := true }
        draws := s.draws + 1 }

/-- R142: INIT_TAPS with M and N legal writes ONE to TAP[t][t][(N-1)/2] for t < M and ZERO to every other implemented
tap, and nothing else but its completion. -/
def Obligations.InitTapsWritesTheIdentityBank : Prop :=
  ∀ s : State, 1 ≤ s.modes → s.modes ≤ 2 → s.numTaps % 2 = 1 → s.numTaps ≤ 63 →
    ∃ t : State, exec .initTaps s = .next t ∧
      t = { s with
        mem := t.mem
        err := ⟨0, 0⟩
        engine := .idle
        abortReq := false
        irqStatus := { s.irqStatus with done := true }
        draws := s.draws + 1 } ∧
      (∀ i r j, i < 2 → r < 2 → j < 63 →
        t.tap i r j = .ok (if i = r ∧ i < s.modes ∧ j = (s.numTaps - 1) / 2 then Cplx.one else Cplx.zero)) ∧
      ∀ a, (∀ i r j, i < 2 → r < 2 → j < 63 → a < (Entry.tap i r j).offset ∨ (Entry.tap i r j).offset + 16 ≤ a) →
        t.mem.read a = s.mem.read a

/-! ## SYNC (spec/41_sync.md) -/

/-- R167: the candidate a search chooses is the first of the greatest finite metrics, and it chooses none exactly
when no metric is finite. -/
def Obligations.SearchChoosesTheFirstMaximum : Prop :=
  ∀ es : List F64,
    (∀ b peak, State.bestIndex es = some (b, peak) ↔ State.FirstMaximum es b peak) ∧
    (State.bestIndex es = none ↔ ∀ e ∈ es, F64.isFinite e = false)

/-- R168: the noise floor is the mean, in ascending order, of the finite metrics at least OS samples away from the
peak, or +0.0 when there is none. -/
def Obligations.NoiseFloorIsTheMeanOfFarMetrics : Prop :=
  ∀ (s : State) (es : List F64) (b : Nat), s.noiseFloor es b = s.meanFloor es b

/-- R166: with AGG_MODE = 0 the aggregate is the sum of the squared magnitudes of the matrix, with 2 the sum of their
products with the weights, each sum one accumulator with t slowest (log entry 7); with 1 it is NaN when some entry has
a NaN magnitude, and else the largest squared magnitude, one of the entries' own. -/
def Obligations.AggregateFollowsItsMode : Prop :=
  (∀ (s : State) (c : Nat → Nat → Eng Cplx) (z : Nat → Nat → Cplx),
    (∀ t r, t < s.modes → r < s.modes → c t r = .ok (z t r)) →
    (s.aggMode = 0 → s.aggregate c = .ok (realSum (terms s.modes s.modes fun t r => (z t r).abs2))) ∧
    (s.aggMode = 2 → s.aggregate c =
      .ok (realSum (terms s.modes s.modes fun t r => (s.aggWeight t r).mul (z t r).abs2)))) ∧
  ∀ (s : State) (c : Nat → Nat → Eng Cplx) (v : F64), s.aggMode = 1 → 1 ≤ s.modes → s.aggregate c = .ok v →
    (∀ t r, t < s.modes → r < s.modes → ∃ z : Cplx, c t r = .ok z ∧ (z.abs2.isNaN = true → v.isNaN = true) ∧
      z.abs2.gt v = false) ∧
    ∃ t r z, t < s.modes ∧ r < s.modes ∧ c t r = .ok z ∧ v = Cplx.abs2 z

/-- R163 to R170, R176, R177, R180: SYNC with I = 0 on a valid configuration whose coarse search finds a detected
candidate: every register it writes, and its frame. First R163's correlation (the pilot conjugated, the sample at
d + OS*(P_OFF + k')), R139's pilot energy and R166's metric over the pilots and samples themselves. (SYNC_STATE,
SYNC_VALID and CONF_INF are the only STATUS bits it writes; TAP and every byte outside CORR[0..count-1] are unchanged.) -/
def Obligations.CoarseSyncWritesTheOffsetFound : Prop :=
  (∀ (s : State) (d t r : Nat) (p x : Nat → Cplx),
    (∀ k, k < s.pilotLen → s.pilot t k = .ok (p k) ∧
      s.sampleAt r (d + s.os * (s.pilotPos + k) : Nat) = .ok (x k)) →
    s.rawCorr d t r = .ok (cplxSum ((List.range s.pilotLen).map fun k => (p k).conj.mul (x k)))) ∧
  (∀ (s : State) (t : Nat) (p : Nat → Cplx), (∀ k, k < s.pilotLen → s.pilot t k = .ok (p k)) →
    s.pilotEnergy t = .ok (realSum ((List.range s.pilotLen).map fun k => (p k).abs2))) ∧
  (∀ (s : State) (d : Nat), s.rawMetric d = s.aggregate fun t r => s.rawCorr d t r) ∧
  ∀ (s : State) (seed : Bool) (es : List F64) (b : Nat) (peak : F64), s.iterations = 0 → s.passes (.sync seed) →
    s.CoarseFinds es b peak →
    let lo := s.searchStart
    let floor := s.meanFloor es b
    ∃ t : State, exec (.sync seed) s = .next t ∧
      t = { s with
        status := t.status
        syncRes := t.syncRes
        cfg := { s.cfg with frameOffset := BitVec.ofNat 32 (lo + b) }
        mem := t.mem
        err := ⟨0, 0⟩
        engine := .idle
        abortReq := false
        irqStatus := { s.irqStatus with done := true }
        draws := s.draws + 1 } ∧
      t.status = { s.status with syncValid := true, syncState := .converged, confInf := !floor.gt F64.zero } ∧
      t.syncRes.offset.toNat = lo + b ∧ t.syncRes.coarseOffset.toNat = lo + b ∧ t.frameOffset = lo + b ∧
      t.syncRes.iters = 0 ∧ t.syncRes.candStart.toNat = lo ∧ t.syncRes.candCount.toNat = es.length ∧
      F64.ofBits t.syncRes.peak = peak ∧ F64.ofBits t.syncRes.floor = floor ∧
      F64.ofBits t.syncRes.conf = (if floor.gt F64.zero then peak.div floor else F64.zero) ∧
      (∀ i j : Fin 4, i.val < s.modes → j.val < s.modes →
        ∃ c ep, s.rawCorr (lo + b) i j = .ok c ∧ s.pilotEnergy i = .ok ep ∧
          State.cplxOf t.syncRes.chest[i][j] = c.divReal ep) ∧
      (∀ i j : Fin 4, s.modes ≤ i.val ∨ s.modes ≤ j.val → t.syncRes.chest[i][j] = s.syncRes.chest[i][j]) ∧
      (∀ (i : Nat) (e : F64), es[i]? = some e →
        (t.mem.readBits64 (0xC00000 + 8 * i)).map F64.ofBits = some e) ∧
      ∀ a, (a < 0xC00000 ∨ 0xC00000 + 8 * es.length ≤ a) → t.mem.read a = s.mem.read a

/-- R174, R175, R177, R178, R282: how a SYNC that passes validation ends. A success leaves CONVERGED or, after all I
iterations, ITER_LIMIT, with FRAME_OFFSET = SYNC_OFFSET. A failure is SYNC_FAILURE 1 to 4 with SYNC_STATE = FAILED,
FRAME_OFFSET and CHEST kept, and the first two sub-codes leave the zero results. SYNC_ITERS never exceeds I (that it
is 0 after a failed coarse search is log entry 6). -/
def Obligations.SyncEndsConvergedAtLimitOrFailed : Prop :=
  ∀ (s t : State) (seed : Bool), s.passes (.sync seed) → exec (.sync seed) s = .next t →
    t.syncRes.iters.toNat ≤ s.iterations ∧
    ((t.err = ⟨0, 0⟩ ∧ t.status.syncValid = true ∧
        (t.status.syncState = .converged ∨
          (t.status.syncState = .iterLimit ∧ t.syncRes.iters.toNat = s.iterations ∧ 1 ≤ s.iterations)) ∧
        t.cfg = { s.cfg with frameOffset := t.syncRes.offset }) ∨
      (∃ k : Nat, 1 ≤ k ∧ k ≤ 4 ∧ t.err = ⟨1, BitVec.ofNat 8 k⟩ ∧ t.status.syncValid = false ∧
        t.status.syncState = .failed ∧ t.cfg = s.cfg ∧ t.syncRes.chest = s.syncRes.chest ∧
        (k = 1 → t.syncRes.iters = 0 ∧ t.syncRes.candCount = 0 ∧ t.syncRes.offset = s.cfg.searchStart) ∧
        (k = 1 ∨ k = 2 → t.syncRes.offset = t.syncRes.candStart ∧ t.syncRes.peak = 0 ∧ t.syncRes.floor = 0 ∧
          t.syncRes.conf = 0 ∧ t.status.confInf = false) ∧
        (k = 4 → 1 ≤ t.syncRes.iters.toNat)))

/-- R173, R175 and a corner case of R180: with I >= 1 and REFINE_HALF = 0 a successful SYNC converged in iteration
1, at the coarse offset. -/
def Obligations.ZeroRefineHalfConvergesAtOnce : Prop :=
  ∀ (s t : State) (seed : Bool), 1 ≤ s.iterations → s.refineHalf = 0 → s.passes (.sync seed) →
    exec (.sync seed) s = .next t → t.err = ⟨0, 0⟩ →
    t.status.syncState = .converged ∧ t.syncRes.iters = 1 ∧ t.syncRes.offset = t.syncRes.coarseOffset

/-- R164, R165: every offset a successful SYNC reports lies where the pilot block's samples lie in the buffer. -/
def Obligations.SyncReportsAnOffsetInTheBuffer : Prop :=
  ∀ (s t : State) (seed : Bool), exec (.sync seed) s = .next t → t.err = ⟨0, 0⟩ →
    t.frameOffset + s.os * (s.pilotPos + s.pilotLen - 1) + 1 ≤ s.sampleLen

/-! ## The equalizer (spec/42_equalizer.md) -/

/-- R162: a sample outside the buffer is ZERO and is not read; one inside it is the stored entry. -/
def Obligations.SampleOutsideTheBufferIsZero : Prop :=
  ∀ (s : State) (r : Nat) (n : Int),
    ((n < 0 ∨ (s.sampleLen : Int) ≤ n) → s.sampleAt r n = .ok Cplx.zero) ∧
    ∀ m : Nat, n = m → m < s.sampleLen → s.sampleAt r n = s.readCplx (.sample r m)

/-- R202 to R205, R209: the output of a filter over its taps and samples, as one accumulator over r, then j (R16 by the
model's reading, log entry 7, DEDUCED); after a symbol's update every tap of the bank is its own old value plus MU[t]
times the product of e[t] and the conjugated sample, and nothing else has changed; e[t] is target[t] minus y[t]; the
tap test then passes every tap or names the first that fails; and WriteIdentity writes the identity bank. -/
def Obligations.EveryTapIsUpdatedFromItsOwnOldValue : Prop :=
  (∀ (s : State) (n : Int) (t : Nat) (w x : Nat → Nat → Cplx),
    (∀ r j, r < s.modes → j < s.numTaps → s.tap t r j = .ok (w r j) ∧
      s.sampleAt r (n + j - ((s.numTaps - 1) / 2 : Nat)) = .ok (x r j)) →
    s.firOutput n t = .ok (cplxSum (terms s.modes s.numTaps fun r j => (w r j).mul (x r j)))) ∧
  ∀ s : State, s.modes ≤ 2 → s.numTaps ≤ 63 → s.sampleLen ≤ 65536 →
    (∀ (u : State) (n : Int) (es : List Cplx), s.adapt n es = .ok u →
      (∀ t r j, t < s.modes → r < s.modes → j < s.numTaps →
        ∃ w x, s.tap t r j = .ok w ∧ s.sampleAt r (n + j - s.centre) = .ok x ∧
          u.tap t r j = .ok (w.add (Cplx.scale (s.mu t) ((es.getD t Cplx.zero).mul x.conj)))) ∧
      u = { s with mem := u.mem } ∧
      ∀ a, ¬ State.inRanges (State.tapRanges s.modes s.numTaps) a → u.mem.read a = s.mem.read a) ∧
    (∀ (u : State) (n : Int) (k : Nat) (ys targets : List Cplx) (dv : Option Divergence),
      ys.length = s.modes → targets.length = s.modes → s.learn n k ys targets = .ok (u, dv) →
      (∀ t r j, t < s.modes → r < s.modes → j < s.numTaps →
        ∃ w x, s.tap t r j = .ok w ∧ s.sampleAt r (n + j - ((s.numTaps - 1) / 2 : Nat)) = .ok x ∧
          u.tap t r j = .ok (w.add (Cplx.scale (s.mu t)
            (((targets.getD t Cplx.zero).sub (ys.getD t Cplx.zero)).mul x.conj)))) ∧
      u = { s with mem := u.mem } ∧
      (∀ a, ¬ State.inRanges (State.tapRanges s.modes s.numTaps) a → u.mem.read a = s.mem.read a) ∧
      (dv = none → ∀ t r j, t < s.modes → r < s.modes → j < s.numTaps → u.tapPasses t r j) ∧
      ∀ v, dv = some v → v.symbol = k ∧ v.t < s.modes ∧ v.r < s.modes ∧ v.j < s.numTaps ∧
        u.earlierTapsPass v.t v.r v.j ∧
        ∃ w : Cplx, u.tap v.t v.r v.j = .ok w ∧ v.value = w.abs2 ∧
          ((v.kind = .tapNonfinite ∧ w.isFinite = false) ∨
            (v.kind = .tapLimit ∧ w.isFinite = true ∧ w.abs2.gt s.tapLimit = true))) ∧
    s.writeIdentity.tapsIdentity ∧ s.writeIdentity = { s with mem := s.writeIdentity.mem } ∧
    ∀ a, ¬ State.inRanges (State.tapRanges s.modes s.numTaps) a → s.writeIdentity.mem.read a = s.mem.read a

/-- R206: the decision is a point no other point is strictly nearer than, and ties go to the smallest index; where
every distance is NaN it is point 0. -/
def Obligations.HardDecisionIsTheFirstNearestPoint : Prop :=
  (∀ (s : State) (z : Cplx), 1 ≤ s.constSize →
    (∀ p, p < s.constSize → ∃ cp : Cplx, s.point p = .ok cp ∧ (z.sub cp).abs2.isNaN = true) →
    s.decideIndex z = .ok 0) ∧
  ∀ (s : State) (z : Cplx) (q : Nat), 1 ≤ s.constSize → s.decideIndex z = .ok q →
    q < s.constSize ∧
    ∀ p, p < s.constSize → ∃ cp cq : Cplx, s.point p = .ok cp ∧ s.point q = .ok cq ∧
      (z.sub cp).abs2.lt (z.sub cq).abs2 = false ∧
      (p < q → (z.sub cp).abs2.isNaN = false → (z.sub cq).abs2.lt (z.sub cp).abs2 = true)

/-- R207: the order K holds every frame symbol once: the pilot block first, then the payload after it, then the
payload before it, each ascending. -/
def Obligations.SymbolOrderVisitsEachSymbolOnce : Prop :=
  ∀ s : State, s.pilotPos + s.pilotLen ≤ s.frameLen →
    s.symbolOrder.Perm (List.range s.frameLen) ∧
    s.symbolOrder.take s.pilotLen = (List.range s.pilotLen).map (s.pilotPos + ·) ∧
    ∀ i, s.pilotLen ≤ i → i < s.frameLen →
      s.symbolOrder[i]? = some (if s.pilotPos + i < s.frameLen then s.pilotPos + i
        else s.pilotPos + i - s.frameLen)

/-- R209, R210, R212, R213, R283: how an EQUALIZE that passes validation ends. On success every tap passed the tap
test and every mode the power test, with OUT_POWER the power of OUT. A tap divergence names the first tap of the scan
that fails, its kind and its abs2; a power divergence names the first mode that fails, with its power. Its memory is
what the symbols leave in the order K, each as R220 says: the outputs of R202, OUT[t][k] before the update (R213), the
target of R208, and the update and tap test of `learn` (R203, R209), after which a divergence ends the pass (R212). -/
def Obligations.EqualizeSucceedsOrNamesItsDivergence : Prop :=
  (∀ (s u : State) (d k : Nat) (rest : List Nat) (e : Option CmdError), s.modes ≤ 2 → s.frameLen ≤ 16384 →
    s.pilotLen ≤ 4096 → s.constSize ≤ 1024 → k < s.frameLen → s.equalizeLoop d (k :: rest) = .ok (u, e) →
    ∃ (ys targets : List Cplx) (s1 s2 : State) (dv : Option Divergence),
      ys.length = s.modes ∧ targets.length = s.modes ∧
      (∀ t, t < s.modes → s.firOutput (d + s.os * k : Nat) t = .ok (ys.getD t Cplx.zero)) ∧
      s1 = { s with mem := s1.mem } ∧
      (∀ t, t < s.modes → s1.outSym t k = .ok (ys.getD t Cplx.zero)) ∧
      (∀ a, (∀ t, t < s.modes → a < (Entry.out t k).offset ∨ (Entry.out t k).offset + 16 ≤ a) →
        s1.mem.read a = s.mem.read a) ∧
      (∀ t, t < s.modes →
        if s.pilotPos ≤ k ∧ k < s.pilotPos + s.pilotLen then
          s.pilot t (k - s.pilotPos) = .ok (targets.getD t Cplx.zero)
        else ∃ q, s.decideIndex (ys.getD t Cplx.zero) = .ok q ∧ s.point q = .ok (targets.getD t Cplx.zero)) ∧
      s1.learn (d + s.os * k : Nat) k ys targets = .ok (s2, dv) ∧
      (dv = none → s2.equalizeLoop d rest = .ok (u, e)) ∧
      ∀ v, dv = some v → u = s2.recordDivergence v ∧ e = some (.divergence v.kind)) ∧
  ∀ (s t : State) (seed : Bool), s.passes (.equalize seed) → exec (.equalize seed) s = .next t →
    (∃ u e,
      (if seed = true then s.clearValid (.legal (.equalize seed))
        else (s.clearValid (.legal (.equalize seed))).writeIdentity).equalizeLoop s.frameOffset s.symbolOrder =
          .ok (u, e) ∧ t.mem = u.mem) ∧
    ((t.err = ⟨0, 0⟩ ∧ t.status.eqValid = true ∧
      (∀ i r j, i < s.modes → r < s.modes → j < s.numTaps →
        ∃ w : Cplx, t.tap i r j = .ok w ∧ w.isFinite = true ∧ w.abs2.gt s.tapLimit = false) ∧
      ∀ i : Fin 4, i.val < s.modes →
        ∃ p pc, t.outputPower i = .ok p ∧ t.constPower = .ok pc ∧ F64.ofBits t.eqRes.outPower[i] = p ∧
          s.powerFailure pc p = none) ∨
    (∃ (k i r j : Nat) (w : Cplx), k < s.frameLen ∧ i < s.modes ∧ r < s.modes ∧ j < s.numTaps ∧
      t.status.eqValid = false ∧ t.tap i r j = .ok w ∧ t.earlierTapsPass i r j ∧
      F64.ofBits t.eqRes.divMag = w.abs2 ∧
      t.eqRes.divSymbol.toNat = k ∧ t.eqRes.divWhere.toNat = i + 2 ^ 4 * r + 2 ^ 8 * j ∧
      ((t.err = ⟨2, 2⟩ ∧ w.isFinite = false) ∨
        (t.err = ⟨2, 1⟩ ∧ w.isFinite = true ∧ w.abs2.gt s.tapLimit = true))) ∨
    ∃ (i : Nat) (p pc : F64) (kind : DivergenceKind), i < s.modes ∧ t.status.eqValid = false ∧
      t.outputPower i = .ok p ∧ t.constPower = .ok pc ∧ s.powerFailure pc p = some kind ∧
      t.err = ⟨2, BitVec.ofNat 8 kind.sub⟩ ∧ 3 ≤ kind.sub ∧ F64.ofBits t.eqRes.divMag = p ∧
      t.eqRes.divSymbol.toNat = s.frameLen ∧ t.eqRes.divWhere.toNat = i + 2 ^ 16 ∧
      (∀ m : Fin 4, m.val < s.modes → ∃ pm, t.outputPower m = .ok pm ∧ F64.ofBits t.eqRes.outPower[m] = pm ∧
        (m.val < i → s.powerFailure pc pm = none)))

/-- R226: on a noiseless, unrotated, undispersed frame EQUALIZE from the identity succeeds, leaves the taps the
identity, and leaves in OUT the transmitted symbols (equal as numbers: the sign of a zero part is not kept, because
the sum of R202 starts at +0.0). -/
def Obligations.EqualizeRecoversANoiselessFrame : Prop :=
  ∀ (s : State) (seed : Bool), s.passes (.equalize seed) → s.Noiseless s.frameOffset →
    (seed = true → s.tapsIdentity) →
    ∃ u : State, exec (.equalize seed) s = .next u ∧ u.err = ⟨0, 0⟩ ∧ u.status.eqValid = true ∧ u.tapsIdentity ∧
      ∀ t k, t < s.modes → k < s.frameLen →
        ∃ x y, s.symbolValue s.frameOffset t k = .ok x ∧ u.outSym t k = .ok y ∧ y.eqv x = true

/-! ## RECOVER (R225) -/

/-- R225: RECOVER on inputs that pass its validation is SYNC, then, if SYNC succeeded, EQUALIZE from the state SYNC
leaves, with one completion (one draw of free values, log entry 1). When SYNC fails its failure is RECOVER's, with
EQ_VALID 0. -/
def Obligations.RecoverIsSyncThenEqualize : Prop :=
  ∀ (s u : State) (seed : Bool), s.passes (.recover seed) → exec (.sync seed) s = .next u →
    (u.err = ⟨0, 0⟩ → exec (.recover seed) s = exec (.equalize seed) { u with draws := s.draws }) ∧
    (u.err ≠ ⟨0, 0⟩ → exec (.recover seed) s = .next { u with status := { u.status with eqValid := false } })

/-- R225, R226: RECOVER with I = 0 completes with code 0 on a noiseless frame at the offset its coarse search finds,
with both valid bits set and the transmitted symbols in OUT. -/
def Obligations.RecoverRecoversANoiselessFrame : Prop :=
  ∀ (s : State) (seed : Bool) (es : List F64) (b : Nat) (peak : F64), s.iterations = 0 →
    s.passes (.recover seed) → s.CoarseFinds es b peak →
    s.searchStart + b + s.os * (s.frameLen - 1) + 1 ≤ s.sampleLen → s.Noiseless (s.searchStart + b) →
    (seed = true → s.tapsIdentity) →
    ∃ u : State, exec (.recover seed) s = .next u ∧ u.err = ⟨0, 0⟩ ∧ u.status.syncValid = true ∧
      u.status.eqValid = true ∧ u.frameOffset = s.searchStart + b ∧
      ∀ t k, t < s.modes → k < s.frameLen →
        ∃ x y, s.symbolValue (s.searchStart + b) t k = .ok x ∧ u.outSym t k = .ok y ∧ y.eqv x = true

/-! ## ESTIMATE (spec/43_performance.md) -/

/-- R243: the permutations of up to four modes are all of them, each once, in lexicographic order. -/
def Obligations.PermutationsAreInLexicographicOrder : Prop :=
  ∀ m : Fin 5,
    (perms m).length = m.val.factorial ∧ (∀ p ∈ perms m, p.Perm (List.range m)) ∧
    (perms m).Pairwise (· < ·)

/-- R245 to R251, R260, R270: ESTIMATE on valid, written inputs reports the score of an alignment no other
alignment beats, with the results derived from it, adds it to the accumulators when ACC = 1, and changes nothing
else. Among equally good alignments the earliest is reported (where no error power is NaN). First R247's score over the
symbols themselves, R246's pair sets, the alignments of R243 to R246, and when a score is better (R248). The places of
q and p in EST_BEST are R63's, by the model's reading (log entry 23, DEDUCED). -/
def Obligations.EstimateReportsTheBestAlignment : Prop :=
  (∀ (s : State) (al : Machine.Alignment) (o f : Nat → Nat → Cplx) (dz ds : Nat → Nat → Nat),
    (∀ t k, t < s.modes → k ∈ s.pairSet al.delta →
      s.outSym (al.perm.getD t 0) k = .ok (o t k) ∧ s.refSym t ((k : Int) + al.delta).toNat = .ok (f t k) ∧
      s.decideIndex ((s.rot al.rot).mul (o t k)) = .ok (dz t k) ∧ s.decideIndex (f t k) = .ok (ds t k)) →
    let ps := (List.range s.modes).flatMap fun t => (s.pairSet al.delta).map fun k => (t, k)
    s.scoreOf al = .ok
      { err := (ps.filter fun p => dz p.1 p.2 != ds p.1 p.2).length
        sym := ps.length
        sig := realSum (ps.map fun p => (f p.1 p.2).abs2)
        ep := realSum (ps.map fun p => (((s.rot al.rot).mul (o p.1 p.2)).sub (f p.1 p.2)).abs2) }) ∧
  (∀ (s : State) (delta : Int), (s.pairSet delta).Pairwise (· < ·) ∧
    ∀ k : Nat, k ∈ s.pairSet delta ↔
      s.estStart ≤ k ∧ k < s.estStart + s.estLen ∧ 0 ≤ (k : Int) + delta ∧ (k : Int) + delta < s.refLen) ∧
  (∀ (s : State) (synced : Bool) (al : Machine.Alignment), al ∈ s.alignments synced ↔
    (if synced = true then al.delta = 0 else -(s.delayMax : Int) ≤ al.delta ∧ al.delta ≤ s.delayMax) ∧
    s.pairSet al.delta ≠ [] ∧ (perms s.modes)[al.permIndex]? = some al.perm ∧ al.rot < s.rotOrder) ∧
  (∀ a b : Score, Score.better a b = true ↔
    a.err * b.sym < b.err * a.sym ∨ (a.err * b.sym = b.err * a.sym ∧ a.ep.lt b.ep = true)) ∧
  ∀ (s : State) (synced acc : Bool), s.passes (.estimate synced acc) → s.inputsWritten (.estimate synced acc) →
    ∃ (t : State) (sc : Score) (al : Machine.Alignment)
        (before after : List Machine.Alignment),
      exec (.estimate synced acc) s = .next t ∧
      s.alignments synced = before ++ al :: after ∧ s.scoreOf al = .ok sc ∧
      (∀ al' ∈ s.alignments synced, ∃ sc', s.scoreOf al' = .ok sc' ∧ Score.better sc' sc = false) ∧
      (∀ al' ∈ before, ∀ sc', s.scoreOf al' = .ok sc' → sc'.ep.isNaN = false → Score.better sc sc' = true) ∧
      t = { s with
        status := { s.status with estValid := true, snrInf := sc.ep.eqv F64.zero }
        perfRes := t.perfRes
        acc := t.acc
        err := ⟨0, 0⟩
        engine := .idle
        abortReq := false
        irqStatus := { s.irqStatus with done := true }
        draws := s.draws + 1 } ∧
      sc.sym = s.modes * (s.pairSet al.delta).length ∧ 1 ≤ sc.sym ∧ sc.err ≤ sc.sym ∧
      t.perfRes.errors.toNat = sc.err ∧ t.perfRes.symbols.toNat = sc.sym ∧
      F64.ofBits t.perfRes.ser = (F64.ofNat sc.err).div (F64.ofNat sc.sym) ∧
      F64.ofBits t.perfRes.sigpow = sc.sig ∧ F64.ofBits t.perfRes.errpow = sc.ep ∧
      F64.ofBits t.perfRes.snr = (if sc.ep.eqv F64.zero then F64.zero else sc.sig.div sc.ep) ∧
      t.perfRes.best.toNat = al.rot + 2 ^ 8 * al.permIndex ∧ t.perfRes.delay.toInt = al.delta ∧
      (acc = false → t.acc = s.acc) ∧
      (acc = true →
        t.acc.errors.toNat = (s.acc.errors.toNat + sc.err) % 2 ^ 64 ∧
        t.acc.symbols.toNat = (s.acc.symbols.toNat + sc.sym) % 2 ^ 64 ∧
        F64.ofBits t.acc.sigpow = (F64.ofBits s.acc.sigpow).add sc.sig ∧
        F64.ofBits t.acc.errpow = (F64.ofBits s.acc.errpow).add sc.ep ∧
        t.acc.frames.toNat = (s.acc.frames.toNat + 1) % 2 ^ 32)

/-- R272: if the output modes of `s` are permuted, or every symbol of the window is multiplied by an element of a
rotation table that is closed and exact on them, and no score has a NaN error power, ESTIMATE reports the same values,
but for EST_BEST. A table of quarter turns closed under multiplication is exact on finite symbols. -/
def Obligations.EstimateIgnoresTheLabelsOfOutputModes : Prop :=
  (∀ (s : State) (g : Nat), g < s.rotOrder →
    (∀ q, q < s.rotOrder → (s.rot q).IsQuarterTurn) →
    (∀ q p, q < s.rotOrder → p < s.rotOrder →
      ∃ x, x < s.rotOrder ∧ (s.rot x).eqv ((s.rot q).mul (s.rot p)) = true) →
    (∀ t k x, t < s.modes → s.estStart ≤ k → k < s.estStart + s.estLen → s.outSym t k = .ok x →
      x.isFinite = true) →
    s.RotatesExactly g) ∧
  (∀ (s : State) (synced acc : Bool) (m : Machine.Memory) (g : Nat),
    s.passes (.estimate synced acc) → s.inputsWritten (.estimate synced acc) →
    g < s.rotOrder → s.RotatesExactly g →
    let s' : State := { s with mem := m }
    (∀ t k, t < s.modes → s.estStart ≤ k → k < s.estStart + s.estLen →
      ∃ x, s.outSym t k = .ok x ∧ s'.outSym t k = .ok ((s.rot g).mul x)) →
    (∀ t k, s'.refSym t k = s.refSym t k) → (∀ q, s'.point q = s.point q) →
    (∀ al ∈ s.alignments synced, ∀ sc, s.scoreOf al = .ok sc → sc.ep.isNaN = false) →
    ∃ t t' : State, exec (.estimate synced acc) s = .next t ∧ exec (.estimate synced acc) s' = .next t' ∧
      t' = { t with mem := m, perfRes := { t.perfRes with best := t'.perfRes.best } }) ∧
  ∀ (s : State) (synced acc : Bool) (m : Machine.Memory) (σ : Nat → Nat),
    s.passes (.estimate synced acc) → s.inputsWritten (.estimate synced acc) →
    (∀ t, t < s.modes → σ t < s.modes) → (∀ t r, t < s.modes → r < s.modes → σ t = σ r → t = r) →
    let s' : State := { s with mem := m }
    (∀ t k, t < s.modes → s.estStart ≤ k → k < s.estStart + s.estLen → s'.outSym t k = s.outSym (σ t) k) →
    (∀ t k, s'.refSym t k = s.refSym t k) → (∀ q, s'.point q = s.point q) →
    (∀ al ∈ s.alignments synced, ∀ sc, s.scoreOf al = .ok sc → sc.ep.isNaN = false) →
    ∃ t t' : State, exec (.estimate synced acc) s = .next t ∧ exec (.estimate synced acc) s' = .next t' ∧
      t' = { t with mem := m, perfRes := { t.perfRes with best := t'.perfRes.best } }

/-- R271: what a step may do to the accumulators: nothing, unless it is the engine's turn on an ESTIMATE with ACC = 1
that succeeds or is aborted, on ACC_CLEAR (which leaves 0 unless aborted), or a reset (which leaves 0). -/
def Obligations.AccumulatorsChangeOnlyInThreeWays : Prop :=
  ∀ s t : State, step s = .next t → t.acc ≠ s.acc →
    (∃ synced, s.engine = .running (.legal (.estimate synced true)) ∧ s.nextTurn.1 = .engine ∧
      (s.abortReq = true ∨ (t.err = ⟨0, 0⟩ ∧ t.status.estValid = true))) ∨
    (s.engine = .running (.legal .accClear) ∧ s.nextTurn.1 = .engine ∧
      (s.abortReq = true ∨ (t.err = ⟨0, 0⟩ ∧ t.acc = ⟨0, 0, 0, 0, 0⟩))) ∨
    (s.nextTurn.1 ≠ .engine ∧ t.engine = .idle ∧ t.acc = ⟨0, 0, 0, 0, 0⟩ ∧ t.cfg = ConfigRegs.reset)

/-! ## Abort (R292) -/

/-- R292: CTRL.ABORT sets abort_req exactly while BUSY, and the engine's turn then completes with ABORTED(1): the
valid bits of the command are 0, every register outside the write set but ERR, STATUS and IRQ_STATUS is as before,
and so is every memory byte outside it. (What the write set holds is a draw, log entry 1.) -/
def Obligations.AbortLeavesTheWriteSetFreeAndNothingElse : Prop :=
  (∀ (s : State) (w : Word), w.getLsbD 1 = true → w.getLsbD 2 = false →
    (s.transact (writeRequest 0x040 w)).abortReq = (s.busy || s.abortReq)) ∧
  ∀ (s : State) (c : Decoded), s.engine = .running c → s.abortReq = true →
    ∃ t, engineMove s = .next t ∧ t.err = ⟨5, 1⟩ ∧ t.engine = .idle ∧ t.abortReq = false ∧
      t.irqStatus = { s.irqStatus with done := true, error := true } ∧
      (∀ r : Reg, r ≠ .err → r ≠ .status → r ≠ .irqStatus → r ∉ s.writeSetRegs c → r.read t = r.read s) ∧
      (∃ f, t.status = (State.clearValid c { s with status := State.writeSetStatus s.status f c }).status) ∧
      ∀ a, ¬ State.inRanges (s.writeSetRanges c) a → t.mem.read a = s.mem.read a

/-! ## Numbers (spec/00_scope.md R14) -/

/-- R14: rounding gives the nearest value of 53 significant bits, ties to an even significand, keeps subnormals, and
gives an infinity exactly from the midpoint beyond the largest finite value on. Every arithmetic operation on finite
operands is its exact result rounded once so, and the complex operations are R15's, part by part. -/
def Obligations.RoundingIsToNearestEven : Prop :=
  (∀ (neg : Bool) (n d : Nat), 0 < d →
    (F64.round neg n d = .inf neg ↔ (2 ^ 2098 - 2 ^ 2044) * d ≤ n) ∧
    ∀ k, F64.round neg n d = .fin neg k →
      (F64.fin neg k).Valid ∧
      (∀ m, Representable m → ((k : Int) * d - n).natAbs ≤ ((m : Int) * d - n).natAbs) ∧
      ∀ m, Representable m → m ≠ k → ((k : Int) * d - n).natAbs = ((m : Int) * d - n).natAbs →
        ∃ c e : Nat, k = 2 * c * 2 ^ e ∧ 2 * c ≤ 2 ^ 53) ∧
  (∀ a b : F64, a.isFinite = true → b.isFinite = true →
    F64.RoundOf (a.toRat + b.toRat) (a.add b) ∧ F64.RoundOf (a.toRat - b.toRat) (a.sub b) ∧
    F64.RoundOf (a.toRat * b.toRat) (a.mul b) ∧
    (b.toRat ≠ 0 → F64.RoundOf (a.toRat / b.toRat) (a.div b)) ∧ a.neg.toRat = -a.toRat) ∧
  ∀ (a b : Cplx) (x : F64),
    a.add b = ⟨a.re.add b.re, a.im.add b.im⟩ ∧ a.sub b = ⟨a.re.sub b.re, a.im.sub b.im⟩ ∧
    a.mul b = ⟨(a.re.mul b.re).sub (a.im.mul b.im), (a.re.mul b.im).add (a.im.mul b.re)⟩ ∧
    a.conj = ⟨a.re, a.im.neg⟩ ∧ Cplx.scale x a = ⟨x.mul a.re, x.mul a.im⟩ ∧
    a.divReal x = ⟨a.re.div x, a.im.div x⟩ ∧ a.abs2 = (a.re.mul a.re).add (a.im.mul a.im)

/-- R14, R17: 0/0 is NaN, x/0 an infinity of the quotient's sign, and every comparison with NaN is false. That
opposite infinities add to NaN and that 0 times an infinity is NaN no rule says: they are IEEE 754's, which the model
presumes (log entry 15). -/
def Obligations.SpecialValuesOfArithmetic : Prop :=
  (∀ s t, (F64.fin s 0).div (.fin t 0) = .nan) ∧
  (∀ s t k, 0 < k → (F64.fin s k).div (.fin t 0) = .inf (s ^^ t)) ∧
  (∀ s, (F64.inf s).add (.inf (!s)) = .nan) ∧
  (∀ s t, (F64.fin s 0).mul (.inf t) = .nan ∧ (F64.inf t).mul (.fin s 0) = .nan) ∧
  ∀ x : F64, F64.nan.lt x = false ∧ x.lt .nan = false ∧ F64.nan.le x = false ∧ x.le .nan = false ∧
    F64.nan.gt x = false ∧ x.gt .nan = false ∧ F64.nan.ge x = false ∧ x.ge .nan = false ∧ F64.nan.eqv x = false

/-! ## Rules over every command -/

/-- R140 to R143, R180, R220, R225, R260 (the write sets), R132, R135: whatever its outcome, a command that goes on
changes no register outside its write set but ERR, STATUS and IRQ_STATUS, no STATUS bit and no memory byte outside
it, and nothing of the host's side. -/
def Obligations.CommandsWriteOnlyTheirWriteSet : Prop :=
  ∀ (i : Instr) (s t : State), exec i s = .next t →
    (∀ r : Reg, r ≠ .err → r ≠ .status → r ≠ .irqStatus → r ∉ s.writeSetRegs (.legal i) → r.read t = r.read s) ∧
    (∃ f, t.status = State.writeSetStatus s.status f (.legal i)) ∧
    (∀ a, ¬ State.inRanges (s.writeSetRanges (.legal i)) a → t.mem.read a = s.mem.read a) ∧
    (t.cmd, t.rstN, t.requests, t.schedule, t.response) = (s.cmd, s.rstN, s.requests, s.schedule, s.response)

/-- R288, second part: a command whose memory inputs are written goes on. -/
def Obligations.WrittenInputsNeverFault : Prop :=
  ∀ (i : Instr) (s : State), s.inputsWritten i → ∃ t, exec i s = .next t

/-- R288, R104, R103: the one way a step stops is a running command's read of an implemented entry that has a word
not written since power-on; the fault names it. -/
def Obligations.EveryStopNamesAnUnwrittenEntry : Prop :=
  ∀ s : State,
    (∀ x, step s ≠ .refused x) ∧
    ∀ e, step s = .fault (.uninitRead e) →
      s.busy = true ∧ s.abortReq = false ∧ e.implemented = true ∧ s.isWritten e = false

/-- R104, R288: a CHECK_LAYOUT whose checks 1 to 8 pass stops at an unwritten pilot entry. That an entry with only
some of its words written counts as unwritten is the model's reading (log entry 4, DEDUCED), and so is that mode 0 is
read first, whatever the other modes hold (log entry 8, DEDUCED). -/
def Obligations.UnwrittenPilotStopsCheckLayout : Prop :=
  ∀ s : State,
    1 ≤ s.frameLen → 1 ≤ s.pilotLen → s.pilotPos + s.pilotLen ≤ s.frameLen → s.streamModes = s.modes →
    1 ≤ s.modes → s.modes ≤ 2 → s.frameLen ≤ 16384 → s.pilotLen ≤ 4096 →
    ∀ k, k < s.pilotLen → s.isWritten (.pilot 0 k) = false →
    ∃ j, j ≤ k ∧ s.isWritten (.pilot 0 j) = false ∧ exec .checkLayout s = .fault (.uninitRead (.pilot 0 j))

/-- Every step keeps the invariant of Safety.lean: the memory in canonical form, a RUNNING engine running what CMD
decodes to with ERR = 0, no abort request while IDLE, an IDLE engine while `rst_n` is low, ERR a pair the rules write,
and the reserved bits of DIV_WHERE and EST_BEST 0. -/
def Obligations.EveryStepKeepsTheInvariant : Prop :=
  ∀ s t : State, s.Inv → step s = .next t → t.Inv

/-- The reset state meets the invariant. -/
def Obligations.ResetMeetsTheInvariant : Prop := State.reset.Inv

/-- R103, R84, R88: from a memory that lists bytes of implemented entries only, every step leaves such a memory. -/
def Obligations.EveryStepWritesImplementedEntriesOnly : Prop :=
  ∀ s t : State, s.memImplemented → step s = .next t → t.memImplemented

/-! ## Refinement (spec/41_sync.md R171 to R175, R179) -/

/-- R171 to R177, R179, R180, R214: SYNC with I >= 1 on a valid configuration whose coarse search and iterations find
detected candidates, the last of which finds its own start again or is iteration I: every register it writes, and its
frame. First R172's correlation over the filter outputs, and R214's training pass symbol by symbol. (TAP is as the
last training left it; every byte outside TAP and CORR is unchanged, and so are DIV_MAG, DIV_SYMBOL and DIV_WHERE.) -/
def Obligations.RefiningSyncWritesTheOffsetFound : Prop :=
  (∀ (s : State) (d t u : Nat) (p y : Nat → Cplx),
    (∀ k, k < s.pilotLen → s.pilot t k = .ok (p k) ∧
      s.firOutput (d + s.os * (s.pilotPos + k) : Nat) u = .ok (y k)) →
    s.eqCorr d t u = .ok (cplxSum ((List.range s.pilotLen).map fun k => (p k).conj.mul (y k)))) ∧
  (∀ (s : State) (d : Nat), s.eqMetric d = s.aggregate fun t u => s.eqCorr d t u) ∧
  (∀ (s : State) (d : Nat),
    s.trainPilots d = s.trainLoop d ((List.range s.pilotLen).map fun k => s.pilotPos + k)) ∧
  (∀ (s u : State) (d k : Nat) (rest : List Nat) (b : Bool), s.trainLoop d (k :: rest) = .ok (u, b) →
    ∃ (ys targets : List Cplx) (s1 : State) (dv : Option Divergence),
      ys.length = s.modes ∧ targets.length = s.modes ∧
      (∀ t, t < s.modes → s.firOutput (d + s.os * k : Nat) t = .ok (ys.getD t Cplx.zero) ∧
        s.pilot t (k - s.pilotPos) = .ok (targets.getD t Cplx.zero)) ∧
      s.learn (d + s.os * k : Nat) k ys targets = .ok (s1, dv) ∧
      (dv = none → s1.trainLoop d rest = .ok (u, b)) ∧
      ∀ v, dv = some v → u = s1.recordDivergence v ∧ b = false) ∧
  ∀ (s : State) (seed : Bool) (es : List F64) (b : Nat) (peak : F64) (xs : List State.Refinement)
    (x : State.Refinement), 1 ≤ s.iterations → s.passes (.sync seed) → s.CoarseFinds es b peak →
    s.Refines seed (s.searchStart + b) s.mem xs → xs.getLast? = some x → xs.length ≤ s.iterations →
    (s.foundBy x = x.start ∨ xs.length = s.iterations) →
    let d := s.foundBy x
    let floor := s.meanFloor x.metrics x.best
    ∃ t : State, exec (.sync seed) s = .next t ∧
      t = { s with
        status := t.status
        syncRes := t.syncRes
        cfg := { s.cfg with frameOffset := BitVec.ofNat 32 d }
        mem := t.mem
        err := ⟨0, 0⟩
        engine := .idle
        abortReq := false
        irqStatus := { s.irqStatus with done := true }
        draws := s.draws + 1 } ∧
      t.status = { s.status with
        syncValid := true
        syncState := if d = x.start then .converged else .iterLimit
        confInf := !floor.gt F64.zero } ∧
      t.syncRes.offset.toNat = d ∧ t.syncRes.coarseOffset.toNat = s.searchStart + b ∧ t.frameOffset = d ∧
      t.syncRes.iters.toNat = xs.length ∧ t.syncRes.candStart.toNat = s.refineStart x.start ∧
      t.syncRes.candCount.toNat = x.metrics.length ∧
      F64.ofBits t.syncRes.peak = x.peak ∧ F64.ofBits t.syncRes.floor = floor ∧
      F64.ofBits t.syncRes.conf = (if floor.gt F64.zero then x.peak.div floor else F64.zero) ∧
      (∀ i j : Fin 4, i.val < s.modes → j.val < s.modes →
        ∃ c ep, s.rawCorr d i j = .ok c ∧ s.pilotEnergy i = .ok ep ∧
          State.cplxOf t.syncRes.chest[i][j] = c.divReal ep) ∧
      (∀ i j : Fin 4, s.modes ≤ i.val ∨ s.modes ≤ j.val → t.syncRes.chest[i][j] = s.syncRes.chest[i][j]) ∧
      (∀ (i : Nat) (e : F64), x.metrics[i]? = some e →
        (t.mem.readBits64 (0xC00000 + 8 * i)).map F64.ofBits = some e) ∧
      (∀ a, (a < 0xC00000 ∨ 0xC00000 + 8 * s.sampleLen ≤ a) → t.mem.read a = x.mem.read a) ∧
      ∀ a, ¬ State.inRanges (s.writeSetRanges (.legal (.sync seed))) a → t.mem.read a = s.mem.read a
end

