-- ==== Sys2Proof/Laws/Arith.lean ====
section
/-! SUPPORT. The laws of the number system: what rounding gives, that every operation gives a value binary64 can
hold, and that storing a value and reading it back gives it again (spec/00_scope.md R14, R17, R18). -/

namespace Sys2Proof.Machine

/-! ## Representable magnitudes -/

theorem Representable.zero : Representable 0 := ⟨0, 0, by norm_num, by norm_num⟩

/-- A small significand times a power of two is representable, also at the rounding carry 2^53. -/
theorem Representable.of_le {r sh : Nat} (h : r ≤ 2 ^ 53) : Representable (r * 2 ^ sh) := by
  rcases Nat.lt_or_ge r (2 ^ 53) with h1 | h1
  · exact ⟨r, sh, h1, rfl⟩
  · refine ⟨2 ^ 52, sh + 1, by norm_num, ?_⟩
    rw [le_antisymm h h1, pow_succ 2 sh]
    ring

namespace F64

/-! ## Rounding to an integer -/

theorem divNearestEven_le (n d : Nat) : divNearestEven n d ≤ n / d + 1 := by
  unfold divNearestEven
  simp only
  split
  · exact le_rfl
  · split
    · have := Nat.mod_lt (n / d) (show 0 < 2 by norm_num); omega
    · omega

theorem divNearestEven_exact (m : Nat) {d : Nat} (hd : 0 < d) : divNearestEven (m * d) d = m := by
  unfold divNearestEven
  have hr : m * d % d = 0 := Nat.mul_mod_left m d
  have hq : m * d / d = m := Nat.mul_div_cancel m hd
  simp only [hr, hq]
  rw [if_neg (by omega), if_neg (by omega)]

/-- The distance of `n` from `d` times the rounded quotient is at most half of `d`. -/
theorem divNearestEven_close (n : Nat) {d : Nat} (hd : 0 < d) :
    2 * (n : Int) ≤ 2 * (d * divNearestEven n d : Nat) + d ∧
      2 * (d * divNearestEven n d : Nat) ≤ 2 * (n : Int) + d := by
  have hn := Nat.div_add_mod n d
  have hr := Nat.mod_lt n hd
  unfold divNearestEven
  simp only
  generalize n / d = q at *
  generalize n % d = r at *
  subst hn
  split
  · rw [Nat.mul_add]; push_cast; constructor <;> omega
  · split
    · have h2 := Nat.mod_lt q (show 0 < 2 by norm_num)
      rcases Nat.lt_or_ge (q % 2) 1 with h | h
      · rw [show q % 2 = 0 by omega, Nat.add_zero]; push_cast; constructor <;> omega
      · rw [show q % 2 = 1 by omega, Nat.mul_add]; push_cast; constructor <;> omega
    · push_cast; constructor <;> omega

/-! ## Rounding to binary64 -/

theorem div_roundShift_lt {n d : Nat} : n / (d * 2 ^ roundShift n d) < 2 ^ 53 := by
  rw [← Nat.div_div_eq_div_mul, Nat.div_lt_iff_lt_mul (by positivity), ← pow_add]
  unfold roundShift
  rcases Nat.eq_zero_or_pos (n / d) with h | h
  · rw [h]; positivity
  · exact lt_of_lt_of_le (Nat.lt_log2_self) (Nat.pow_le_pow_right (by norm_num) (by omega))

theorem round_eq (neg : Bool) (n d : Nat) :
    round neg n d =
      if limit ≤ divNearestEven n (d * 2 ^ roundShift n d) * 2 ^ roundShift n d then inf neg
      else fin neg (divNearestEven n (d * 2 ^ roundShift n d) * 2 ^ roundShift n d) := rfl

theorem round_valid (neg : Bool) (n d : Nat) : (round neg n d).Valid := by
  rw [round_eq]
  split
  · trivial
  · refine ⟨Representable.of_le ?_, by omega⟩
    have h1 := divNearestEven_le n (d * 2 ^ roundShift n d)
    have h2 := div_roundShift_lt (n := n) (d := d)
    omega

/-- A representable magnitude has no bits below its last place. -/
theorem dvd_of_representable {k : Nat} (h : Representable k) : 2 ^ (k.log2 - 52) ∣ k := by
  obtain ⟨m, e, hm, rfl⟩ := h
  rcases Nat.eq_zero_or_pos m with rfl | hp
  · simp
  · have hlog : (m * 2 ^ e).log2 < 53 + e :=
      (Nat.log2_lt (by positivity)).2 (by rw [pow_add]; exact (Nat.mul_lt_mul_right (by positivity)).2 hm)
    exact dvd_mul_of_dvd_right (pow_dvd_pow 2 (by omega)) m

/-- Rounding a value binary64 can hold gives it back. -/
theorem round_exact (neg : Bool) {k d : Nat} (hk : Representable k) (hl : k < limit) (hd : 0 < d) :
    round neg (k * d) d = fin neg k := by
  have hs : roundShift (k * d) d = k.log2 - 52 := by
    unfold roundShift
    rw [Nat.mul_div_cancel k hd]
  obtain ⟨c, hc⟩ := dvd_of_representable hk
  have hdiv : divNearestEven (k * d) (d * 2 ^ roundShift (k * d) d) = c := by
    rw [hs]
    have he : k * d = c * (d * 2 ^ (k.log2 - 52)) := by
      conv_lhs => rw [hc]
      ring
    rw [he]
    exact divNearestEven_exact c (by positivity)
  rw [round_eq, hdiv, hs, Nat.mul_comm c, ← hc, if_neg (by omega)]

/-! ## Every value of the engines is one binary64 can hold -/

theorem limit_eq : limit = 2 ^ 2098 := by unfold limit; rfl

theorem one_eq : one = 2 ^ 1074 := by unfold one; rfl

theorem one_pos : 0 < one := by rw [one_eq]; positivity

theorem limit_pos : 0 < limit := by rw [limit_eq]; positivity

theorem valid_fin_zero (s : Bool) : (fin s 0).Valid := ⟨Representable.zero, limit_pos⟩

theorem valid_zero : zero.Valid := valid_fin_zero false

theorem valid_oneVal : oneVal.Valid := by
  refine ⟨⟨1, 1074, by norm_num, by rw [one_eq, Nat.one_mul]⟩, ?_⟩
  rw [one_eq, limit_eq]
  exact Nat.pow_lt_pow_right (by norm_num) (by norm_num)

theorem neg_valid {a : F64} (h : a.Valid) : a.neg.Valid := by
  cases a <;> exact h

theorem add_valid {a b : F64} : (a.add b).Valid := by
  cases a <;> cases b <;> simp only [add] <;> try trivial
  · split <;> trivial
  · split
    · exact valid_fin_zero _
    · exact round_valid _ _ _

theorem sub_valid {a b : F64} : (a.sub b).Valid := add_valid

theorem mul_valid {a b : F64} : (a.mul b).Valid := by
  cases a <;> cases b <;> simp only [mul] <;> try trivial
  · split <;> trivial
  · split <;> trivial
  · exact round_valid _ _ _

theorem div_valid {a b : F64} : (a.div b).Valid := by
  cases a <;> cases b <;> simp only [div] <;> try trivial
  · exact valid_fin_zero _
  · split
    · split <;> trivial
    · exact round_valid _ _ _

theorem ofNat_valid (n : Nat) : (ofNat n).Valid := round_valid _ _ _

theorem ofBits_valid (b : Bits64) : (ofBits b).Valid := by
  unfold ofBits
  simp only
  split
  · split <;> trivial
  · next h1 =>
    have hf : b.toNat % 2 ^ 52 < 2 ^ 52 := Nat.mod_lt _ (by norm_num)
    split
    · refine ⟨⟨_, 0, lt_trans hf (by norm_num), by rw [pow_zero, Nat.mul_one]⟩, ?_⟩
      rw [limit_eq]
      exact lt_trans hf (Nat.pow_lt_pow_right (by norm_num) (by norm_num))
    · next h0 =>
      have he : b.toNat / 2 ^ 52 % 2 ^ 11 < 2 ^ 11 := Nat.mod_lt _ (by norm_num)
      generalize b.toNat / 2 ^ 52 % 2 ^ 11 = e at *
      generalize b.toNat % 2 ^ 52 = f at *
      have hm : 2 ^ 52 + f < 2 ^ 53 := by omega
      refine ⟨⟨_, _, hm, rfl⟩, ?_⟩
      rw [limit_eq]
      calc (2 ^ 52 + f) * 2 ^ (e - 1) < 2 ^ 53 * 2 ^ (e - 1) := (Nat.mul_lt_mul_right (by positivity)).2 hm
        _ = 2 ^ (53 + (e - 1)) := (pow_add 2 53 (e - 1)).symm
        _ ≤ 2 ^ 2098 := Nat.pow_le_pow_right (by norm_num) (by omega)

/-! ## Bits and values -/

theorem packBits_toNat (s : Bool) {e f : Nat} (he : e < 2 ^ 11) (hf : f < 2 ^ 52) :
    (packBits s e f).toNat = (if s then 2 ^ 63 else 0) + e * 2 ^ 52 + f := by
  rw [packBits, BitVec.toNat_ofNat, Nat.mod_eq_of_lt]
  split <;> omega

theorem packBits_sign (s : Bool) {e f : Nat} (he : e < 2 ^ 11) (hf : f < 2 ^ 52) :
    (packBits s e f).getLsbD 63 = s := by
  rw [BitVec.getLsbD, packBits_toNat s he hf, Nat.testBit_eq_decide_div_mod_eq]
  cases s <;> simp <;> omega

theorem packBits_exp (s : Bool) {e f : Nat} (he : e < 2 ^ 11) (hf : f < 2 ^ 52) :
    (packBits s e f).toNat / 2 ^ 52 % 2 ^ 11 = e := by
  rw [packBits_toNat s he hf]
  split <;> omega

theorem packBits_frac (s : Bool) {e f : Nat} (he : e < 2 ^ 11) (hf : f < 2 ^ 52) :
    (packBits s e f).toNat % 2 ^ 52 = f := by
  rw [packBits_toNat s he hf]
  split <;> omega

theorem ofBits_nanPattern (free : Bits64) : ofBits (nanPattern free) = nan := by
  unfold nanPattern ofBits
  simp only
  have hf : (if free.toNat % 2 ^ 52 = 0 then 1 else free.toNat % 2 ^ 52) < 2 ^ 52 := by
    split
    · norm_num
    · exact Nat.mod_lt _ (by norm_num)
  rw [packBits_exp _ (by norm_num) hf, packBits_frac _ (by norm_num) hf, if_pos rfl,
    if_neg (by split <;> omega)]

/-- Reading back what was stored for a value gives the value; a NaN's bits do not matter (R18). -/
theorem ofBits_toBits (free : Bits64) {v : F64} (h : v.Valid) : ofBits (v.toBits free) = v := by
  cases v with
  | nan => exact ofBits_nanPattern free
  | inf s =>
    unfold toBits ofBits
    simp only
    rw [packBits_exp s (by norm_num) (by norm_num), packBits_frac s (by norm_num) (by norm_num),
      packBits_sign s (by norm_num) (by norm_num), if_pos rfl, if_pos rfl]
  | fin s k =>
    obtain ⟨hr, hl⟩ := h
    rw [limit_eq] at hl
    unfold toBits
    simp only
    split
    · next hk =>
      unfold ofBits
      simp only
      rw [packBits_exp s (by norm_num) hk, packBits_frac s (by norm_num) hk, packBits_sign s (by norm_num) hk]
      simp
    · next hk =>
      have hk0 : k ≠ 0 := by omega
      have h52 : 52 ≤ k.log2 := (Nat.le_log2 hk0).2 (by omega)
      have h2097 : k.log2 < 2098 := (Nat.log2_lt hk0).2 hl
      obtain ⟨c, hc⟩ := dvd_of_representable hr
      have hdiv : k / 2 ^ (k.log2 - 52) = c :=
        Nat.div_eq_of_eq_mul_right (by positivity) hc
      have hlo : 2 ^ 52 * 2 ^ (k.log2 - 52) ≤ k := by
        rw [← pow_add, show 52 + (k.log2 - 52) = k.log2 by omega]
        exact Nat.log2_self_le hk0
      have hhi : k < 2 ^ 53 * 2 ^ (k.log2 - 52) := by
        rw [← pow_add, show 53 + (k.log2 - 52) = k.log2 + 1 by omega]
        exact Nat.lt_log2_self
      have hc1 : 2 ^ 52 ≤ c := by rw [← hdiv]; exact (Nat.le_div_iff_mul_le (by positivity)).2 hlo
      have hc2 : c < 2 ^ 53 := by rw [← hdiv]; exact (Nat.div_lt_iff_lt_mul (by positivity)).2 hhi
      rw [hdiv]
      unfold ofBits
      simp only
      rw [packBits_exp s (by omega) (by omega), packBits_frac s (by omega) (by omega),
        packBits_sign s (by omega) (by omega), if_neg (by omega), if_neg (by omega),
        show 2 ^ 52 + (c - 2 ^ 52) = c by omega, show k.log2 - 52 + 1 - 1 = k.log2 - 52 by omega,
        Nat.mul_comm c, ← hc]

/-- The bits of every value but NaN are its own: storing what was read gives the same bits. -/
theorem toBits_ofBits (free b : Bits64) (h : ofBits b ≠ nan) : (ofBits b).toBits free = b := by
  have hb := b.isLt
  have hsign : b.getLsbD 63 = decide (2 ^ 63 ≤ b.toNat) := by
    rw [BitVec.getLsbD, Nat.testBit_eq_decide_div_mod_eq]
    rcases Nat.lt_or_ge b.toNat (2 ^ 63) with h | h <;> simp <;> omega
  have hparts : b.toNat = (if b.getLsbD 63 then 2 ^ 63 else 0) + b.toNat / 2 ^ 52 % 2 ^ 11 * 2 ^ 52 +
      b.toNat % 2 ^ 52 := by
    rw [hsign]
    rcases Nat.lt_or_ge b.toNat (2 ^ 63) with h | h
    · rw [decide_eq_false (Nat.not_le.2 h), if_neg Bool.false_ne_true]; omega
    · rw [decide_eq_true h, if_pos rfl]; omega
  have he : b.toNat / 2 ^ 52 % 2 ^ 11 < 2 ^ 11 := Nat.mod_lt _ (by norm_num)
  have hf : b.toNat % 2 ^ 52 < 2 ^ 52 := Nat.mod_lt _ (by norm_num)
  have key : packBits (b.getLsbD 63) (b.toNat / 2 ^ 52 % 2 ^ 11) (b.toNat % 2 ^ 52) = b :=
    BitVec.eq_of_toNat_eq (by rw [packBits_toNat _ he hf]; exact hparts.symm)
  revert h key
  unfold ofBits
  simp only
  generalize b.toNat / 2 ^ 52 % 2 ^ 11 = e at *
  generalize b.toNat % 2 ^ 52 = f at *
  intro h key
  split
  · next h1 =>
    split
    · next h2 =>
      subst h1 h2
      exact key
    · next h2 => rw [if_pos h1, if_neg h2] at h; exact absurd rfl h
  · split
    · next h1 h2 =>
      subst h2
      rw [toBits, if_pos hf]
      exact key
    · next h1 h2 =>
      have hk0 : (2 ^ 52 + f) * 2 ^ (e - 1) ≠ 0 := by positivity
      have hlog : ((2 ^ 52 + f) * 2 ^ (e - 1)).log2 = 52 + (e - 1) := by
        refine (Nat.log2_eq_iff hk0).2 ⟨?_, ?_⟩
        · rw [pow_add]; exact Nat.mul_le_mul_right _ (by omega)
        · rw [show 52 + (e - 1) + 1 = 53 + (e - 1) by omega, pow_add]
          exact (Nat.mul_lt_mul_right (by positivity)).2 (by omega)
      have hge : ¬ (2 ^ 52 + f) * 2 ^ (e - 1) < 2 ^ 52 := by
        have : 1 ≤ 2 ^ (e - 1) := Nat.one_le_two_pow
        have := Nat.mul_le_mul (show 2 ^ 52 ≤ 2 ^ 52 + f by omega) this
        omega
      rw [toBits, if_neg hge]
      simp only
      rw [hlog, show 52 + (e - 1) - 52 = e - 1 by omega, Nat.mul_div_cancel _ (by positivity),
        show e - 1 + 1 = e by omega, show 2 ^ 52 + f - 2 ^ 52 = f by omega]
      exact key

end F64

/-! ## Complex values -/

namespace Cplx

theorem valid_zero : zero.Valid := ⟨F64.valid_zero, F64.valid_zero⟩

theorem valid_one : one.Valid := ⟨F64.valid_oneVal, F64.valid_zero⟩

theorem add_valid {a b : Cplx} : (a.add b).Valid := ⟨F64.add_valid, F64.add_valid⟩

theorem sub_valid {a b : Cplx} : (a.sub b).Valid := ⟨F64.sub_valid, F64.sub_valid⟩

theorem mul_valid {a b : Cplx} : (a.mul b).Valid := ⟨F64.sub_valid, F64.add_valid⟩

theorem divReal_valid {a : Cplx} {s : F64} : (a.divReal s).Valid := ⟨F64.div_valid, F64.div_valid⟩

theorem scale_valid {s : F64} {a : Cplx} : (scale s a).Valid := ⟨F64.mul_valid, F64.mul_valid⟩

end Cplx

end Sys2Proof.Machine
end

