-- ==== Sys2Proof/Laws/Memory.lean ====
section
/-! SUPPORT. The laws of the byte memory: a read after a write, what a write leaves alone, and that every write
keeps the canonical form (spec/20_memory.md R85, R101). -/

namespace Sys2Proof.Machine.Memory

/-! ## Bytes -/

@[simp] theorem read_nil (a : Nat) : read [] a = none := rfl

theorem read_cons (b : Nat) (v : Byte) (m : Memory) (a : Nat) :
    read ((b, v) :: m) a = if a = b then some v else read m a := by
  rw [read]
  by_cases h : a = b
  · subst h; simp
  · rw [show Nat.beq a b = false from Bool.eq_false_iff.2 fun e => h (Nat.eq_of_beq_eq_true e), if_neg h]; rfl

theorem read_write_same (m : Memory) (a : Nat) (v : Byte) : (m.write a v).read a = some v := by
  induction m with
  | nil => simp [write, read_cons]
  | cons c rest ih =>
    obtain ⟨b, w⟩ := c
    unfold write
    split
    · simp [read_cons]
    · split
      · simp [read_cons]
      · rw [read_cons, if_neg (by assumption), ih]

theorem read_write_other (m : Memory) {a b : Nat} (v : Byte) (h : b ≠ a) : (m.write a v).read b = m.read b := by
  induction m with
  | nil => simp [write, read_cons, h]
  | cons c rest ih =>
    obtain ⟨x, w⟩ := c
    unfold write
    split
    · simp [read_cons, h]
    · split
      · rename_i _ hx
        subst hx
        simp [read_cons, h]
      · rw [read_cons, read_cons, ih]

theorem read_write (m : Memory) (a b : Nat) (v : Byte) :
    (m.write a v).read b = if b = a then some v else m.read b := by
  split
  · next h => subst h; exact read_write_same m b v
  · next h => exact read_write_other m v h

theorem mem_write {m : Memory} {a : Nat} {v : Byte} {c : Host.Cell} (h : c ∈ m.write a v) :
    c ∈ m ∨ c = (a, v) := by
  induction m with
  | nil => simpa [write] using h
  | cons d rest ih =>
    obtain ⟨x, w⟩ := d
    unfold write at h
    split at h
    · rcases List.mem_cons.1 h with h | h
      · exact .inr h
      · exact .inl h
    · split at h
      · rcases List.mem_cons.1 h with h | h
        · exact .inr h
        · exact .inl (List.mem_cons_of_mem _ h)
      · rcases List.mem_cons.1 h with h | h
        · exact .inl (by simp [h])
        · rcases ih h with h | h
          · exact .inl (List.mem_cons_of_mem _ h)
          · exact .inr h

/-! ## The canonical form -/

/-- Every address of `m` is above `a`. -/
def above (a : Nat) (m : Memory) : Prop := ∀ c ∈ m, a < c.1

theorem wf_cons (c : Host.Cell) (m : Memory) : wf (c :: m) = true ↔ above c.1 m ∧ wf m = true := by
  induction m generalizing c with
  | nil => simp [wf, above]
  | cons d rest ih =>
    simp only [wf, Bool.and_eq_true, decide_eq_true_eq]
    constructor
    · rintro ⟨hcd, hw⟩
      refine ⟨fun x hx => ?_, hw⟩
      rcases List.mem_cons.1 hx with rfl | hx
      · exact hcd
      · exact lt_trans hcd (((ih d).1 hw).1 x hx)
    · rintro ⟨ha, hw⟩
      exact ⟨ha d (by simp), hw⟩

theorem wf_write {m : Memory} (a : Nat) (v : Byte) (h : wf m = true) : wf (m.write a v) = true := by
  induction m with
  | nil => simp [write, wf]
  | cons c rest ih =>
    obtain ⟨b, w⟩ := c
    obtain ⟨hab, hr⟩ := (wf_cons _ _).1 h
    unfold write
    split
    · next hlt =>
      refine (wf_cons _ _).2 ⟨fun x hx => ?_, h⟩
      rcases List.mem_cons.1 hx with rfl | hx
      · exact hlt
      · exact lt_trans hlt (hab x hx)
    · next hge =>
      split
      · next he =>
        subst he
        exact (wf_cons _ _).2 ⟨hab, hr⟩
      · next hne =>
        refine (wf_cons _ _).2 ⟨fun x hx => ?_, ih hr⟩
        rcases mem_write hx with hx | rfl
        · exact hab x hx
        · simp only at hge ⊢; omega

/-! ## Words -/

theorem wordOf_wordByte (w : Word) :
    wordOf (wordByte w 0) (wordByte w 1) (wordByte w 2) (wordByte w 3) = w := by
  refine BitVec.eq_of_getLsbD_eq fun i hi => ?_
  have : i < 8 ∨ (8 ≤ i ∧ i < 16) ∨ (16 ≤ i ∧ i < 24) ∨ (24 ≤ i ∧ i < 32) := by omega
  rcases this with h | h | h | h <;>
    simp only [wordOf, wordByte, BitVec.getLsbD_append, BitVec.getLsbD_extractLsb'] <;> grind

theorem read_writeWord_other (m : Memory) {a b : Nat} (w : Word) (h : b < a ∨ a + 4 ≤ b) :
    (m.writeWord a w).read b = m.read b := by
  simp only [writeWord]
  rw [read_write_other _ _ (by omega), read_write_other _ _ (by omega), read_write_other _ _ (by omega),
    read_write_other _ _ (by omega)]

theorem readWord_writeWord_same (m : Memory) (a : Nat) (w : Word) : (m.writeWord a w).readWord a = some w := by
  simp [readWord, writeWord, read_write, wordOf_wordByte]

theorem readWord_writeWord_other (m : Memory) {a b : Nat} (w : Word) (h : b + 4 ≤ a ∨ a + 4 ≤ b) :
    (m.writeWord a w).readWord b = m.readWord b := by
  simp only [readWord]
  rw [read_writeWord_other _ _ (by omega), read_writeWord_other _ _ (by omega),
    read_writeWord_other _ _ (by omega), read_writeWord_other _ _ (by omega)]

theorem wf_writeWord {m : Memory} (a : Nat) (w : Word) (h : wf m = true) : wf (m.writeWord a w) = true :=
  wf_write _ _ (wf_write _ _ (wf_write _ _ (wf_write _ _ h)))

theorem mem_writeWord {m : Memory} {a : Nat} {w : Word} {c : Host.Cell} (h : c ∈ m.writeWord a w) :
    c ∈ m ∨ (a ≤ c.1 ∧ c.1 < a + 4) := by
  simp only [writeWord] at h
  rcases mem_write h with h | rfl
  · rcases mem_write h with h | rfl
    · rcases mem_write h with h | rfl
      · rcases mem_write h with h | rfl
        · exact .inl h
        · exact .inr ⟨by simp, by simp⟩
      · exact .inr ⟨by simp, by simp⟩
    · exact .inr ⟨by simp, by simp⟩
  · exact .inr ⟨by simp, by simp⟩

/-! ## 64-bit values -/

@[simp] theorem joinWords_lo_hi (b : Bits64) : joinWords (loWord b) (hiWord b) = b := by
  refine BitVec.eq_of_getLsbD_eq fun i hi => ?_
  simp only [joinWords, loWord, hiWord, BitVec.getLsbD_append, BitVec.getLsbD_extractLsb']
  grind

@[simp] theorem loWord_joinWords (lo hi : Word) : loWord (joinWords lo hi) = lo := by
  refine BitVec.eq_of_getLsbD_eq fun i hi => ?_
  simp only [joinWords, loWord, BitVec.getLsbD_append, BitVec.getLsbD_extractLsb']
  grind

@[simp] theorem hiWord_joinWords (lo hi : Word) : hiWord (joinWords lo hi) = hi := by
  refine BitVec.eq_of_getLsbD_eq fun i hi => ?_
  simp only [joinWords, hiWord, BitVec.getLsbD_append, BitVec.getLsbD_extractLsb']
  grind

theorem readBits64_writeBits64_same (m : Memory) (a : Nat) (b : Bits64) :
    (m.writeBits64 a b).readBits64 a = some b := by
  simp only [readBits64, writeBits64]
  rw [readWord_writeWord_other _ _ (by omega), readWord_writeWord_same, readWord_writeWord_same]
  simp

theorem readBits64_writeBits64_other (m : Memory) {a b : Nat} (v : Bits64) (h : b + 8 ≤ a ∨ a + 8 ≤ b) :
    (m.writeBits64 a v).readBits64 b = m.readBits64 b := by
  simp only [readBits64, writeBits64]
  rw [readWord_writeWord_other _ _ (by omega), readWord_writeWord_other _ _ (by omega),
    readWord_writeWord_other _ _ (by omega), readWord_writeWord_other _ _ (by omega)]

theorem read_writeBits64_other (m : Memory) {a b : Nat} (v : Bits64) (h : b < a ∨ a + 8 ≤ b) :
    (m.writeBits64 a v).read b = m.read b := by
  simp only [writeBits64]
  rw [read_writeWord_other _ _ (by omega), read_writeWord_other _ _ (by omega)]

theorem wf_writeBits64 {m : Memory} (a : Nat) (v : Bits64) (h : wf m = true) : wf (m.writeBits64 a v) = true :=
  wf_writeWord _ _ (wf_writeWord _ _ h)

theorem mem_writeBits64 {m : Memory} {a : Nat} {v : Bits64} {c : Host.Cell} (h : c ∈ m.writeBits64 a v) :
    c ∈ m ∨ (a ≤ c.1 ∧ c.1 < a + 8) := by
  rcases mem_writeWord h with h | h
  · rcases mem_writeWord h with h | h
    · exact .inl h
    · exact .inr (by omega)
  · exact .inr (by omega)

/-! ## Filling a range of words -/

theorem read_fillWords_other (f : Nat → Word) (n : Nat) (m : Memory) (base : Nat) {b : Nat}
    (h : b < base ∨ base + 4 * n ≤ b) : (m.fillWords f base n).read b = m.read b := by
  induction n generalizing m base with
  | zero => rfl
  | succ n ih =>
    rw [fillWords, ih _ _ (by omega), read_writeWord_other _ _ (by omega)]

theorem wf_fillWords (f : Nat → Word) (n : Nat) {m : Memory} (base : Nat) (h : wf m = true) :
    wf (m.fillWords f base n) = true := by
  induction n generalizing m base with
  | zero => exact h
  | succ n ih => exact ih _ (wf_writeWord _ _ h)

theorem mem_fillWords {f : Nat → Word} {n : Nat} {m : Memory} {base : Nat} {c : Host.Cell}
    (h : c ∈ m.fillWords f base n) : c ∈ m ∨ (base ≤ c.1 ∧ c.1 < base + 4 * n) := by
  induction n generalizing m base with
  | zero => exact .inl h
  | succ n ih =>
    rcases ih h with h | h
    · rcases mem_writeWord h with h | h
      · exact .inl h
      · exact .inr (by omega)
    · exact .inr (by omega)

end Sys2Proof.Machine.Memory
end

