-- ==== Sys2Proof/Laws/State.lean ====
section
/-! SUPPORT. What each update of the state leaves in each field: one lemma per field per update, so that no proof
unfolds a record update. -/

namespace Sys2Proof.Machine.State

/-! ## `setSyncState` -/

section
variable (x : SyncState) (s : State)

@[simp] theorem setSyncState_irqEn : (setSyncState x s).irqEn = s.irqEn := rfl
@[simp] theorem setSyncState_status : (setSyncState x s).status = { s.status with syncState := x } := rfl
@[simp] theorem setSyncState_cmd : (setSyncState x s).cmd = s.cmd := rfl
@[simp] theorem setSyncState_err : (setSyncState x s).err = s.err := rfl
@[simp] theorem setSyncState_irqStatus : (setSyncState x s).irqStatus = s.irqStatus := rfl
@[simp] theorem setSyncState_cfg : (setSyncState x s).cfg = s.cfg := rfl
@[simp] theorem setSyncState_syncRes : (setSyncState x s).syncRes = s.syncRes := rfl
@[simp] theorem setSyncState_eqRes : (setSyncState x s).eqRes = s.eqRes := rfl
@[simp] theorem setSyncState_perfRes : (setSyncState x s).perfRes = s.perfRes := rfl
@[simp] theorem setSyncState_acc : (setSyncState x s).acc = s.acc := rfl
@[simp] theorem setSyncState_mem : (setSyncState x s).mem = s.mem := rfl
@[simp] theorem setSyncState_engine : (setSyncState x s).engine = s.engine := rfl
@[simp] theorem setSyncState_abortReq : (setSyncState x s).abortReq = s.abortReq := rfl
@[simp] theorem setSyncState_rstN : (setSyncState x s).rstN = s.rstN := rfl
@[simp] theorem setSyncState_requests : (setSyncState x s).requests = s.requests := rfl
@[simp] theorem setSyncState_schedule : (setSyncState x s).schedule = s.schedule := rfl
@[simp] theorem setSyncState_response : (setSyncState x s).response = s.response := rfl
@[simp] theorem setSyncState_draws : (setSyncState x s).draws = s.draws := rfl

end

/-! ## `setSyncValid` -/

section
variable (b : Bool) (s : State)

@[simp] theorem setSyncValid_irqEn : (setSyncValid b s).irqEn = s.irqEn := rfl
@[simp] theorem setSyncValid_status : (setSyncValid b s).status = { s.status with syncValid := b } := rfl
@[simp] theorem setSyncValid_cmd : (setSyncValid b s).cmd = s.cmd := rfl
@[simp] theorem setSyncValid_err : (setSyncValid b s).err = s.err := rfl
@[simp] theorem setSyncValid_irqStatus : (setSyncValid b s).irqStatus = s.irqStatus := rfl
@[simp] theorem setSyncValid_cfg : (setSyncValid b s).cfg = s.cfg := rfl
@[simp] theorem setSyncValid_syncRes : (setSyncValid b s).syncRes = s.syncRes := rfl
@[simp] theorem setSyncValid_eqRes : (setSyncValid b s).eqRes = s.eqRes := rfl
@[simp] theorem setSyncValid_perfRes : (setSyncValid b s).perfRes = s.perfRes := rfl
@[simp] theorem setSyncValid_acc : (setSyncValid b s).acc = s.acc := rfl
@[simp] theorem setSyncValid_mem : (setSyncValid b s).mem = s.mem := rfl
@[simp] theorem setSyncValid_engine : (setSyncValid b s).engine = s.engine := rfl
@[simp] theorem setSyncValid_abortReq : (setSyncValid b s).abortReq = s.abortReq := rfl
@[simp] theorem setSyncValid_rstN : (setSyncValid b s).rstN = s.rstN := rfl
@[simp] theorem setSyncValid_requests : (setSyncValid b s).requests = s.requests := rfl
@[simp] theorem setSyncValid_schedule : (setSyncValid b s).schedule = s.schedule := rfl
@[simp] theorem setSyncValid_response : (setSyncValid b s).response = s.response := rfl
@[simp] theorem setSyncValid_draws : (setSyncValid b s).draws = s.draws := rfl

end

/-! ## `setEqValid` -/

section
variable (b : Bool) (s : State)

@[simp] theorem setEqValid_irqEn : (setEqValid b s).irqEn = s.irqEn := rfl
@[simp] theorem setEqValid_status : (setEqValid b s).status = { s.status with eqValid := b } := rfl
@[simp] theorem setEqValid_cmd : (setEqValid b s).cmd = s.cmd := rfl
@[simp] theorem setEqValid_err : (setEqValid b s).err = s.err := rfl
@[simp] theorem setEqValid_irqStatus : (setEqValid b s).irqStatus = s.irqStatus := rfl
@[simp] theorem setEqValid_cfg : (setEqValid b s).cfg = s.cfg := rfl
@[simp] theorem setEqValid_syncRes : (setEqValid b s).syncRes = s.syncRes := rfl
@[simp] theorem setEqValid_eqRes : (setEqValid b s).eqRes = s.eqRes := rfl
@[simp] theorem setEqValid_perfRes : (setEqValid b s).perfRes = s.perfRes := rfl
@[simp] theorem setEqValid_acc : (setEqValid b s).acc = s.acc := rfl
@[simp] theorem setEqValid_mem : (setEqValid b s).mem = s.mem := rfl
@[simp] theorem setEqValid_engine : (setEqValid b s).engine = s.engine := rfl
@[simp] theorem setEqValid_abortReq : (setEqValid b s).abortReq = s.abortReq := rfl
@[simp] theorem setEqValid_rstN : (setEqValid b s).rstN = s.rstN := rfl
@[simp] theorem setEqValid_requests : (setEqValid b s).requests = s.requests := rfl
@[simp] theorem setEqValid_schedule : (setEqValid b s).schedule = s.schedule := rfl
@[simp] theorem setEqValid_response : (setEqValid b s).response = s.response := rfl
@[simp] theorem setEqValid_draws : (setEqValid b s).draws = s.draws := rfl

end

/-! ## `setEstValid` -/

section
variable (b : Bool) (s : State)

@[simp] theorem setEstValid_irqEn : (setEstValid b s).irqEn = s.irqEn := rfl
@[simp] theorem setEstValid_status : (setEstValid b s).status = { s.status with estValid := b } := rfl
@[simp] theorem setEstValid_cmd : (setEstValid b s).cmd = s.cmd := rfl
@[simp] theorem setEstValid_err : (setEstValid b s).err = s.err := rfl
@[simp] theorem setEstValid_irqStatus : (setEstValid b s).irqStatus = s.irqStatus := rfl
@[simp] theorem setEstValid_cfg : (setEstValid b s).cfg = s.cfg := rfl
@[simp] theorem setEstValid_syncRes : (setEstValid b s).syncRes = s.syncRes := rfl
@[simp] theorem setEstValid_eqRes : (setEstValid b s).eqRes = s.eqRes := rfl
@[simp] theorem setEstValid_perfRes : (setEstValid b s).perfRes = s.perfRes := rfl
@[simp] theorem setEstValid_acc : (setEstValid b s).acc = s.acc := rfl
@[simp] theorem setEstValid_mem : (setEstValid b s).mem = s.mem := rfl
@[simp] theorem setEstValid_engine : (setEstValid b s).engine = s.engine := rfl
@[simp] theorem setEstValid_abortReq : (setEstValid b s).abortReq = s.abortReq := rfl
@[simp] theorem setEstValid_rstN : (setEstValid b s).rstN = s.rstN := rfl
@[simp] theorem setEstValid_requests : (setEstValid b s).requests = s.requests := rfl
@[simp] theorem setEstValid_schedule : (setEstValid b s).schedule = s.schedule := rfl
@[simp] theorem setEstValid_response : (setEstValid b s).response = s.response := rfl
@[simp] theorem setEstValid_draws : (setEstValid b s).draws = s.draws := rfl

end

/-! ## `setConfInf` -/

section
variable (b : Bool) (s : State)

@[simp] theorem setConfInf_irqEn : (setConfInf b s).irqEn = s.irqEn := rfl
@[simp] theorem setConfInf_status : (setConfInf b s).status = { s.status with confInf := b } := rfl
@[simp] theorem setConfInf_cmd : (setConfInf b s).cmd = s.cmd := rfl
@[simp] theorem setConfInf_err : (setConfInf b s).err = s.err := rfl
@[simp] theorem setConfInf_irqStatus : (setConfInf b s).irqStatus = s.irqStatus := rfl
@[simp] theorem setConfInf_cfg : (setConfInf b s).cfg = s.cfg := rfl
@[simp] theorem setConfInf_syncRes : (setConfInf b s).syncRes = s.syncRes := rfl
@[simp] theorem setConfInf_eqRes : (setConfInf b s).eqRes = s.eqRes := rfl
@[simp] theorem setConfInf_perfRes : (setConfInf b s).perfRes = s.perfRes := rfl
@[simp] theorem setConfInf_acc : (setConfInf b s).acc = s.acc := rfl
@[simp] theorem setConfInf_mem : (setConfInf b s).mem = s.mem := rfl
@[simp] theorem setConfInf_engine : (setConfInf b s).engine = s.engine := rfl
@[simp] theorem setConfInf_abortReq : (setConfInf b s).abortReq = s.abortReq := rfl
@[simp] theorem setConfInf_rstN : (setConfInf b s).rstN = s.rstN := rfl
@[simp] theorem setConfInf_requests : (setConfInf b s).requests = s.requests := rfl
@[simp] theorem setConfInf_schedule : (setConfInf b s).schedule = s.schedule := rfl
@[simp] theorem setConfInf_response : (setConfInf b s).response = s.response := rfl
@[simp] theorem setConfInf_draws : (setConfInf b s).draws = s.draws := rfl

end

/-! ## `setSnrInf` -/

section
variable (b : Bool) (s : State)

@[simp] theorem setSnrInf_irqEn : (setSnrInf b s).irqEn = s.irqEn := rfl
@[simp] theorem setSnrInf_status : (setSnrInf b s).status = { s.status with snrInf := b } := rfl
@[simp] theorem setSnrInf_cmd : (setSnrInf b s).cmd = s.cmd := rfl
@[simp] theorem setSnrInf_err : (setSnrInf b s).err = s.err := rfl
@[simp] theorem setSnrInf_irqStatus : (setSnrInf b s).irqStatus = s.irqStatus := rfl
@[simp] theorem setSnrInf_cfg : (setSnrInf b s).cfg = s.cfg := rfl
@[simp] theorem setSnrInf_syncRes : (setSnrInf b s).syncRes = s.syncRes := rfl
@[simp] theorem setSnrInf_eqRes : (setSnrInf b s).eqRes = s.eqRes := rfl
@[simp] theorem setSnrInf_perfRes : (setSnrInf b s).perfRes = s.perfRes := rfl
@[simp] theorem setSnrInf_acc : (setSnrInf b s).acc = s.acc := rfl
@[simp] theorem setSnrInf_mem : (setSnrInf b s).mem = s.mem := rfl
@[simp] theorem setSnrInf_engine : (setSnrInf b s).engine = s.engine := rfl
@[simp] theorem setSnrInf_abortReq : (setSnrInf b s).abortReq = s.abortReq := rfl
@[simp] theorem setSnrInf_rstN : (setSnrInf b s).rstN = s.rstN := rfl
@[simp] theorem setSnrInf_requests : (setSnrInf b s).requests = s.requests := rfl
@[simp] theorem setSnrInf_schedule : (setSnrInf b s).schedule = s.schedule := rfl
@[simp] theorem setSnrInf_response : (setSnrInf b s).response = s.response := rfl
@[simp] theorem setSnrInf_draws : (setSnrInf b s).draws = s.draws := rfl

end

/-! ## `putCplx` -/

section
variable (e : Entry) (z : Cplx) (s : State)

@[simp] theorem putCplx_irqEn : (putCplx e z s).irqEn = s.irqEn := by rw [putCplx]
@[simp] theorem putCplx_status : (putCplx e z s).status = s.status := by rw [putCplx]
@[simp] theorem putCplx_cmd : (putCplx e z s).cmd = s.cmd := by rw [putCplx]
@[simp] theorem putCplx_err : (putCplx e z s).err = s.err := by rw [putCplx]
@[simp] theorem putCplx_irqStatus : (putCplx e z s).irqStatus = s.irqStatus := by rw [putCplx]
@[simp] theorem putCplx_cfg : (putCplx e z s).cfg = s.cfg := by rw [putCplx]
@[simp] theorem putCplx_syncRes : (putCplx e z s).syncRes = s.syncRes := by rw [putCplx]
@[simp] theorem putCplx_eqRes : (putCplx e z s).eqRes = s.eqRes := by rw [putCplx]
@[simp] theorem putCplx_perfRes : (putCplx e z s).perfRes = s.perfRes := by rw [putCplx]
@[simp] theorem putCplx_acc : (putCplx e z s).acc = s.acc := by rw [putCplx]
@[simp] theorem putCplx_engine : (putCplx e z s).engine = s.engine := by rw [putCplx]
@[simp] theorem putCplx_abortReq : (putCplx e z s).abortReq = s.abortReq := by rw [putCplx]
@[simp] theorem putCplx_rstN : (putCplx e z s).rstN = s.rstN := by rw [putCplx]
@[simp] theorem putCplx_requests : (putCplx e z s).requests = s.requests := by rw [putCplx]
@[simp] theorem putCplx_schedule : (putCplx e z s).schedule = s.schedule := by rw [putCplx]
@[simp] theorem putCplx_response : (putCplx e z s).response = s.response := by rw [putCplx]
@[simp] theorem putCplx_draws : (putCplx e z s).draws = s.draws := by rw [putCplx]

end

/-! ## `putCorr` -/

section
variable (i : Nat) (v : F64) (s : State)

@[simp] theorem putCorr_irqEn : (putCorr i v s).irqEn = s.irqEn := rfl
@[simp] theorem putCorr_status : (putCorr i v s).status = s.status := rfl
@[simp] theorem putCorr_cmd : (putCorr i v s).cmd = s.cmd := rfl
@[simp] theorem putCorr_err : (putCorr i v s).err = s.err := rfl
@[simp] theorem putCorr_irqStatus : (putCorr i v s).irqStatus = s.irqStatus := rfl
@[simp] theorem putCorr_cfg : (putCorr i v s).cfg = s.cfg := rfl
@[simp] theorem putCorr_syncRes : (putCorr i v s).syncRes = s.syncRes := rfl
@[simp] theorem putCorr_eqRes : (putCorr i v s).eqRes = s.eqRes := rfl
@[simp] theorem putCorr_perfRes : (putCorr i v s).perfRes = s.perfRes := rfl
@[simp] theorem putCorr_acc : (putCorr i v s).acc = s.acc := rfl
@[simp] theorem putCorr_engine : (putCorr i v s).engine = s.engine := rfl
@[simp] theorem putCorr_abortReq : (putCorr i v s).abortReq = s.abortReq := rfl
@[simp] theorem putCorr_rstN : (putCorr i v s).rstN = s.rstN := rfl
@[simp] theorem putCorr_requests : (putCorr i v s).requests = s.requests := rfl
@[simp] theorem putCorr_schedule : (putCorr i v s).schedule = s.schedule := rfl
@[simp] theorem putCorr_response : (putCorr i v s).response = s.response := rfl
@[simp] theorem putCorr_draws : (putCorr i v s).draws = s.draws := rfl

end

/-! ## `drawMem` -/

section
variable (l : List (Nat × Nat)) (s : State)

@[simp] theorem drawMem_irqEn : (drawMem l s).irqEn = s.irqEn := rfl
@[simp] theorem drawMem_status : (drawMem l s).status = s.status := rfl
@[simp] theorem drawMem_cmd : (drawMem l s).cmd = s.cmd := rfl
@[simp] theorem drawMem_err : (drawMem l s).err = s.err := rfl
@[simp] theorem drawMem_irqStatus : (drawMem l s).irqStatus = s.irqStatus := rfl
@[simp] theorem drawMem_cfg : (drawMem l s).cfg = s.cfg := rfl
@[simp] theorem drawMem_syncRes : (drawMem l s).syncRes = s.syncRes := rfl
@[simp] theorem drawMem_eqRes : (drawMem l s).eqRes = s.eqRes := rfl
@[simp] theorem drawMem_perfRes : (drawMem l s).perfRes = s.perfRes := rfl
@[simp] theorem drawMem_acc : (drawMem l s).acc = s.acc := rfl
@[simp] theorem drawMem_engine : (drawMem l s).engine = s.engine := rfl
@[simp] theorem drawMem_abortReq : (drawMem l s).abortReq = s.abortReq := rfl
@[simp] theorem drawMem_rstN : (drawMem l s).rstN = s.rstN := rfl
@[simp] theorem drawMem_requests : (drawMem l s).requests = s.requests := rfl
@[simp] theorem drawMem_schedule : (drawMem l s).schedule = s.schedule := rfl
@[simp] theorem drawMem_response : (drawMem l s).response = s.response := rfl
@[simp] theorem drawMem_draws : (drawMem l s).draws = s.draws := rfl

end

/-! ## `drawStatus` -/

section
variable (c : Decoded) (s : State)

@[simp] theorem drawStatus_irqEn : (drawStatus c s).irqEn = s.irqEn := rfl
@[simp] theorem drawStatus_cmd : (drawStatus c s).cmd = s.cmd := rfl
@[simp] theorem drawStatus_err : (drawStatus c s).err = s.err := rfl
@[simp] theorem drawStatus_irqStatus : (drawStatus c s).irqStatus = s.irqStatus := rfl
@[simp] theorem drawStatus_cfg : (drawStatus c s).cfg = s.cfg := rfl
@[simp] theorem drawStatus_syncRes : (drawStatus c s).syncRes = s.syncRes := rfl
@[simp] theorem drawStatus_eqRes : (drawStatus c s).eqRes = s.eqRes := rfl
@[simp] theorem drawStatus_perfRes : (drawStatus c s).perfRes = s.perfRes := rfl
@[simp] theorem drawStatus_acc : (drawStatus c s).acc = s.acc := rfl
@[simp] theorem drawStatus_mem : (drawStatus c s).mem = s.mem := rfl
@[simp] theorem drawStatus_engine : (drawStatus c s).engine = s.engine := rfl
@[simp] theorem drawStatus_abortReq : (drawStatus c s).abortReq = s.abortReq := rfl
@[simp] theorem drawStatus_rstN : (drawStatus c s).rstN = s.rstN := rfl
@[simp] theorem drawStatus_requests : (drawStatus c s).requests = s.requests := rfl
@[simp] theorem drawStatus_schedule : (drawStatus c s).schedule = s.schedule := rfl
@[simp] theorem drawStatus_response : (drawStatus c s).response = s.response := rfl
@[simp] theorem drawStatus_draws : (drawStatus c s).draws = s.draws := rfl

end

/-! ## `nextDraw` -/

section
variable (s : State)

@[simp] theorem nextDraw_irqEn : (nextDraw s).irqEn = s.irqEn := rfl
@[simp] theorem nextDraw_status : (nextDraw s).status = s.status := rfl
@[simp] theorem nextDraw_cmd : (nextDraw s).cmd = s.cmd := rfl
@[simp] theorem nextDraw_err : (nextDraw s).err = s.err := rfl
@[simp] theorem nextDraw_irqStatus : (nextDraw s).irqStatus = s.irqStatus := rfl
@[simp] theorem nextDraw_cfg : (nextDraw s).cfg = s.cfg := rfl
@[simp] theorem nextDraw_syncRes : (nextDraw s).syncRes = s.syncRes := rfl
@[simp] theorem nextDraw_eqRes : (nextDraw s).eqRes = s.eqRes := rfl
@[simp] theorem nextDraw_perfRes : (nextDraw s).perfRes = s.perfRes := rfl
@[simp] theorem nextDraw_acc : (nextDraw s).acc = s.acc := rfl
@[simp] theorem nextDraw_mem : (nextDraw s).mem = s.mem := rfl
@[simp] theorem nextDraw_engine : (nextDraw s).engine = s.engine := rfl
@[simp] theorem nextDraw_abortReq : (nextDraw s).abortReq = s.abortReq := rfl
@[simp] theorem nextDraw_rstN : (nextDraw s).rstN = s.rstN := rfl
@[simp] theorem nextDraw_requests : (nextDraw s).requests = s.requests := rfl
@[simp] theorem nextDraw_schedule : (nextDraw s).schedule = s.schedule := rfl
@[simp] theorem nextDraw_response : (nextDraw s).response = s.response := rfl
@[simp] theorem nextDraw_draws : (nextDraw s).draws = s.draws + 1 := rfl

end

/-! ## `accept` -/

section
variable (w : Word) (s : State)

@[simp] theorem accept_irqEn : (accept w s).irqEn = s.irqEn := rfl
@[simp] theorem accept_status : (accept w s).status = s.status := rfl
@[simp] theorem accept_cmd : (accept w s).cmd = w := rfl
@[simp] theorem accept_err : (accept w s).err = ⟨0, 0⟩ := rfl
@[simp] theorem accept_irqStatus : (accept w s).irqStatus = s.irqStatus := rfl
@[simp] theorem accept_cfg : (accept w s).cfg = s.cfg := rfl
@[simp] theorem accept_syncRes : (accept w s).syncRes = s.syncRes := rfl
@[simp] theorem accept_eqRes : (accept w s).eqRes = s.eqRes := rfl
@[simp] theorem accept_perfRes : (accept w s).perfRes = s.perfRes := rfl
@[simp] theorem accept_acc : (accept w s).acc = s.acc := rfl
@[simp] theorem accept_mem : (accept w s).mem = s.mem := rfl
@[simp] theorem accept_engine : (accept w s).engine = .running (decode w) := rfl
@[simp] theorem accept_abortReq : (accept w s).abortReq = false := rfl
@[simp] theorem accept_rstN : (accept w s).rstN = s.rstN := rfl
@[simp] theorem accept_requests : (accept w s).requests = s.requests := rfl
@[simp] theorem accept_schedule : (accept w s).schedule = s.schedule := rfl
@[simp] theorem accept_response : (accept w s).response = s.response := rfl
@[simp] theorem accept_draws : (accept w s).draws = s.draws := rfl

end

/-! ## `complete` -/

section
variable (s : State)

@[simp] theorem complete_irqEn : (complete s).irqEn = s.irqEn := rfl
@[simp] theorem complete_status : (complete s).status = s.status := rfl
@[simp] theorem complete_cmd : (complete s).cmd = s.cmd := rfl
@[simp] theorem complete_err : (complete s).err = ⟨0, 0⟩ := rfl
@[simp] theorem complete_cfg : (complete s).cfg = s.cfg := rfl
@[simp] theorem complete_syncRes : (complete s).syncRes = s.syncRes := rfl
@[simp] theorem complete_eqRes : (complete s).eqRes = s.eqRes := rfl
@[simp] theorem complete_perfRes : (complete s).perfRes = s.perfRes := rfl
@[simp] theorem complete_acc : (complete s).acc = s.acc := rfl
@[simp] theorem complete_mem : (complete s).mem = s.mem := rfl
@[simp] theorem complete_engine : (complete s).engine = .idle := rfl
@[simp] theorem complete_abortReq : (complete s).abortReq = false := rfl
@[simp] theorem complete_rstN : (complete s).rstN = s.rstN := rfl
@[simp] theorem complete_requests : (complete s).requests = s.requests := rfl
@[simp] theorem complete_schedule : (complete s).schedule = s.schedule := rfl
@[simp] theorem complete_response : (complete s).response = s.response := rfl
@[simp] theorem complete_draws : (complete s).draws = s.draws + 1 := rfl

end

/-! ## `raise` -/

section
variable (e : CmdError) (s : State)

@[simp] theorem raise_irqEn : (raise e s).irqEn = s.irqEn := rfl
@[simp] theorem raise_status : (raise e s).status = s.status := rfl
@[simp] theorem raise_cmd : (raise e s).cmd = s.cmd := rfl
@[simp] theorem raise_cfg : (raise e s).cfg = s.cfg := rfl
@[simp] theorem raise_syncRes : (raise e s).syncRes = s.syncRes := rfl
@[simp] theorem raise_eqRes : (raise e s).eqRes = s.eqRes := rfl
@[simp] theorem raise_perfRes : (raise e s).perfRes = s.perfRes := rfl
@[simp] theorem raise_acc : (raise e s).acc = s.acc := rfl
@[simp] theorem raise_mem : (raise e s).mem = s.mem := rfl
@[simp] theorem raise_engine : (raise e s).engine = .idle := rfl
@[simp] theorem raise_abortReq : (raise e s).abortReq = false := rfl
@[simp] theorem raise_rstN : (raise e s).rstN = s.rstN := rfl
@[simp] theorem raise_requests : (raise e s).requests = s.requests := rfl
@[simp] theorem raise_schedule : (raise e s).schedule = s.schedule := rfl
@[simp] theorem raise_response : (raise e s).response = s.response := rfl
@[simp] theorem raise_draws : (raise e s).draws = s.draws + 1 := rfl

end

/-! ## `resetRegisters` -/

section
variable (s : State)

@[simp] theorem resetRegisters_irqEn : (resetRegisters s).irqEn = false := rfl
@[simp] theorem resetRegisters_status : (resetRegisters s).status = Status.reset := rfl
@[simp] theorem resetRegisters_cmd : (resetRegisters s).cmd = 0 := rfl
@[simp] theorem resetRegisters_err : (resetRegisters s).err = ⟨0, 0⟩ := rfl
@[simp] theorem resetRegisters_irqStatus : (resetRegisters s).irqStatus = ⟨false, false, false, false⟩ := rfl
@[simp] theorem resetRegisters_cfg : (resetRegisters s).cfg = ConfigRegs.reset := rfl
@[simp] theorem resetRegisters_syncRes : (resetRegisters s).syncRes = SyncResults.reset := rfl
@[simp] theorem resetRegisters_eqRes : (resetRegisters s).eqRes = EqResults.reset := rfl
@[simp] theorem resetRegisters_perfRes : (resetRegisters s).perfRes = PerfResults.reset := rfl
@[simp] theorem resetRegisters_acc : (resetRegisters s).acc = Accumulators.zero := rfl
@[simp] theorem resetRegisters_mem : (resetRegisters s).mem = s.mem := rfl
@[simp] theorem resetRegisters_engine : (resetRegisters s).engine = .idle := rfl
@[simp] theorem resetRegisters_abortReq : (resetRegisters s).abortReq = false := rfl
@[simp] theorem resetRegisters_rstN : (resetRegisters s).rstN = s.rstN := rfl
@[simp] theorem resetRegisters_requests : (resetRegisters s).requests = s.requests := rfl
@[simp] theorem resetRegisters_schedule : (resetRegisters s).schedule = s.schedule := rfl
@[simp] theorem resetRegisters_response : (resetRegisters s).response = s.response := rfl
@[simp] theorem resetRegisters_draws : (resetRegisters s).draws = s.draws := rfl

end

/-! ## `ignoreWrite` -/

section
variable (s : State)

@[simp] theorem ignoreWrite_irqEn : (ignoreWrite s).irqEn = s.irqEn := rfl
@[simp] theorem ignoreWrite_status : (ignoreWrite s).status = s.status := rfl
@[simp] theorem ignoreWrite_cmd : (ignoreWrite s).cmd = s.cmd := rfl
@[simp] theorem ignoreWrite_err : (ignoreWrite s).err = s.err := rfl
@[simp] theorem ignoreWrite_irqStatus : (ignoreWrite s).irqStatus = { s.irqStatus with wrIgnored := true } := rfl
@[simp] theorem ignoreWrite_cfg : (ignoreWrite s).cfg = s.cfg := rfl
@[simp] theorem ignoreWrite_syncRes : (ignoreWrite s).syncRes = s.syncRes := rfl
@[simp] theorem ignoreWrite_eqRes : (ignoreWrite s).eqRes = s.eqRes := rfl
@[simp] theorem ignoreWrite_perfRes : (ignoreWrite s).perfRes = s.perfRes := rfl
@[simp] theorem ignoreWrite_acc : (ignoreWrite s).acc = s.acc := rfl
@[simp] theorem ignoreWrite_mem : (ignoreWrite s).mem = s.mem := rfl
@[simp] theorem ignoreWrite_engine : (ignoreWrite s).engine = s.engine := rfl
@[simp] theorem ignoreWrite_abortReq : (ignoreWrite s).abortReq = s.abortReq := rfl
@[simp] theorem ignoreWrite_rstN : (ignoreWrite s).rstN = s.rstN := rfl
@[simp] theorem ignoreWrite_requests : (ignoreWrite s).requests = s.requests := rfl
@[simp] theorem ignoreWrite_schedule : (ignoreWrite s).schedule = s.schedule := rfl
@[simp] theorem ignoreWrite_response : (ignoreWrite s).response = s.response := rfl
@[simp] theorem ignoreWrite_draws : (ignoreWrite s).draws = s.draws := rfl

end

/-! ## `slverr` -/

section
variable (k : AccessKind) (s : State)

@[simp] theorem slverr_irqEn : (slverr k s).irqEn = s.irqEn := rfl
@[simp] theorem slverr_status : (slverr k s).status = s.status := rfl
@[simp] theorem slverr_cmd : (slverr k s).cmd = s.cmd := rfl
@[simp] theorem slverr_err : (slverr k s).err = s.err := rfl
@[simp] theorem slverr_irqStatus : (slverr k s).irqStatus = s.irqStatus := rfl
@[simp] theorem slverr_cfg : (slverr k s).cfg = s.cfg := rfl
@[simp] theorem slverr_syncRes : (slverr k s).syncRes = s.syncRes := rfl
@[simp] theorem slverr_eqRes : (slverr k s).eqRes = s.eqRes := rfl
@[simp] theorem slverr_perfRes : (slverr k s).perfRes = s.perfRes := rfl
@[simp] theorem slverr_acc : (slverr k s).acc = s.acc := rfl
@[simp] theorem slverr_mem : (slverr k s).mem = s.mem := rfl
@[simp] theorem slverr_engine : (slverr k s).engine = s.engine := rfl
@[simp] theorem slverr_abortReq : (slverr k s).abortReq = s.abortReq := rfl
@[simp] theorem slverr_rstN : (slverr k s).rstN = s.rstN := rfl
@[simp] theorem slverr_requests : (slverr k s).requests = s.requests := rfl
@[simp] theorem slverr_schedule : (slverr k s).schedule = s.schedule := rfl
@[simp] theorem slverr_draws : (slverr k s).draws = s.draws := rfl

end

/-! ## `recordDivergence` -/

section
variable (d : Divergence) (s : State)

@[simp] theorem recordDivergence_irqEn : (recordDivergence d s).irqEn = s.irqEn := rfl
@[simp] theorem recordDivergence_status : (recordDivergence d s).status = s.status := rfl
@[simp] theorem recordDivergence_cmd : (recordDivergence d s).cmd = s.cmd := rfl
@[simp] theorem recordDivergence_err : (recordDivergence d s).err = s.err := rfl
@[simp] theorem recordDivergence_irqStatus : (recordDivergence d s).irqStatus = s.irqStatus := rfl
@[simp] theorem recordDivergence_cfg : (recordDivergence d s).cfg = s.cfg := rfl
@[simp] theorem recordDivergence_syncRes : (recordDivergence d s).syncRes = s.syncRes := rfl
@[simp] theorem recordDivergence_perfRes : (recordDivergence d s).perfRes = s.perfRes := rfl
@[simp] theorem recordDivergence_acc : (recordDivergence d s).acc = s.acc := rfl
@[simp] theorem recordDivergence_mem : (recordDivergence d s).mem = s.mem := rfl
@[simp] theorem recordDivergence_engine : (recordDivergence d s).engine = s.engine := rfl
@[simp] theorem recordDivergence_abortReq : (recordDivergence d s).abortReq = s.abortReq := rfl
@[simp] theorem recordDivergence_rstN : (recordDivergence d s).rstN = s.rstN := rfl
@[simp] theorem recordDivergence_requests : (recordDivergence d s).requests = s.requests := rfl
@[simp] theorem recordDivergence_schedule : (recordDivergence d s).schedule = s.schedule := rfl
@[simp] theorem recordDivergence_response : (recordDivergence d s).response = s.response := rfl
@[simp] theorem recordDivergence_draws : (recordDivergence d s).draws = s.draws := rfl

end

/-! ## `putOutPower` -/

section
variable (t : Nat) (v : F64) (s : State)

@[simp] theorem putOutPower_irqEn : (putOutPower t v s).irqEn = s.irqEn := rfl
@[simp] theorem putOutPower_status : (putOutPower t v s).status = s.status := rfl
@[simp] theorem putOutPower_cmd : (putOutPower t v s).cmd = s.cmd := rfl
@[simp] theorem putOutPower_err : (putOutPower t v s).err = s.err := rfl
@[simp] theorem putOutPower_irqStatus : (putOutPower t v s).irqStatus = s.irqStatus := rfl
@[simp] theorem putOutPower_cfg : (putOutPower t v s).cfg = s.cfg := rfl
@[simp] theorem putOutPower_syncRes : (putOutPower t v s).syncRes = s.syncRes := rfl
@[simp] theorem putOutPower_perfRes : (putOutPower t v s).perfRes = s.perfRes := rfl
@[simp] theorem putOutPower_acc : (putOutPower t v s).acc = s.acc := rfl
@[simp] theorem putOutPower_mem : (putOutPower t v s).mem = s.mem := rfl
@[simp] theorem putOutPower_engine : (putOutPower t v s).engine = s.engine := rfl
@[simp] theorem putOutPower_abortReq : (putOutPower t v s).abortReq = s.abortReq := rfl
@[simp] theorem putOutPower_rstN : (putOutPower t v s).rstN = s.rstN := rfl
@[simp] theorem putOutPower_requests : (putOutPower t v s).requests = s.requests := rfl
@[simp] theorem putOutPower_schedule : (putOutPower t v s).schedule = s.schedule := rfl
@[simp] theorem putOutPower_response : (putOutPower t v s).response = s.response := rfl
@[simp] theorem putOutPower_draws : (putOutPower t v s).draws = s.draws := rfl

end

/-! ## `setSyncIters` -/

section
variable (i : Nat) (s : State)

@[simp] theorem setSyncIters_irqEn : (setSyncIters i s).irqEn = s.irqEn := rfl
@[simp] theorem setSyncIters_status : (setSyncIters i s).status = s.status := rfl
@[simp] theorem setSyncIters_cmd : (setSyncIters i s).cmd = s.cmd := rfl
@[simp] theorem setSyncIters_err : (setSyncIters i s).err = s.err := rfl
@[simp] theorem setSyncIters_irqStatus : (setSyncIters i s).irqStatus = s.irqStatus := rfl
@[simp] theorem setSyncIters_cfg : (setSyncIters i s).cfg = s.cfg := rfl
@[simp] theorem setSyncIters_syncRes : (setSyncIters i s).syncRes = { s.syncRes with iters := word i } := rfl
@[simp] theorem setSyncIters_eqRes : (setSyncIters i s).eqRes = s.eqRes := rfl
@[simp] theorem setSyncIters_perfRes : (setSyncIters i s).perfRes = s.perfRes := rfl
@[simp] theorem setSyncIters_acc : (setSyncIters i s).acc = s.acc := rfl
@[simp] theorem setSyncIters_mem : (setSyncIters i s).mem = s.mem := rfl
@[simp] theorem setSyncIters_engine : (setSyncIters i s).engine = s.engine := rfl
@[simp] theorem setSyncIters_abortReq : (setSyncIters i s).abortReq = s.abortReq := rfl
@[simp] theorem setSyncIters_rstN : (setSyncIters i s).rstN = s.rstN := rfl
@[simp] theorem setSyncIters_requests : (setSyncIters i s).requests = s.requests := rfl
@[simp] theorem setSyncIters_schedule : (setSyncIters i s).schedule = s.schedule := rfl
@[simp] theorem setSyncIters_response : (setSyncIters i s).response = s.response := rfl
@[simp] theorem setSyncIters_draws : (setSyncIters i s).draws = s.draws := rfl

end

/-! ## `putChest` -/

section
variable (t r : Nat) (z : Cplx) (s : State)

@[simp] theorem putChest_irqEn : (putChest t r z s).irqEn = s.irqEn := rfl
@[simp] theorem putChest_status : (putChest t r z s).status = s.status := rfl
@[simp] theorem putChest_cmd : (putChest t r z s).cmd = s.cmd := rfl
@[simp] theorem putChest_err : (putChest t r z s).err = s.err := rfl
@[simp] theorem putChest_irqStatus : (putChest t r z s).irqStatus = s.irqStatus := rfl
@[simp] theorem putChest_cfg : (putChest t r z s).cfg = s.cfg := rfl
@[simp] theorem putChest_eqRes : (putChest t r z s).eqRes = s.eqRes := rfl
@[simp] theorem putChest_perfRes : (putChest t r z s).perfRes = s.perfRes := rfl
@[simp] theorem putChest_acc : (putChest t r z s).acc = s.acc := rfl
@[simp] theorem putChest_mem : (putChest t r z s).mem = s.mem := rfl
@[simp] theorem putChest_engine : (putChest t r z s).engine = s.engine := rfl
@[simp] theorem putChest_abortReq : (putChest t r z s).abortReq = s.abortReq := rfl
@[simp] theorem putChest_rstN : (putChest t r z s).rstN = s.rstN := rfl
@[simp] theorem putChest_requests : (putChest t r z s).requests = s.requests := rfl
@[simp] theorem putChest_schedule : (putChest t r z s).schedule = s.schedule := rfl
@[simp] theorem putChest_response : (putChest t r z s).response = s.response := rfl
@[simp] theorem putChest_draws : (putChest t r z s).draws = s.draws := rfl

end

/-! ## `searchFailed` -/

section
variable (lo : Nat) (s : State)

@[simp] theorem searchFailed_irqEn : (searchFailed lo s).irqEn = s.irqEn := rfl
@[simp] theorem searchFailed_status : (searchFailed lo s).status = { s.status with confInf := false } := rfl
@[simp] theorem searchFailed_cmd : (searchFailed lo s).cmd = s.cmd := rfl
@[simp] theorem searchFailed_err : (searchFailed lo s).err = s.err := rfl
@[simp] theorem searchFailed_irqStatus : (searchFailed lo s).irqStatus = s.irqStatus := rfl
@[simp] theorem searchFailed_cfg : (searchFailed lo s).cfg = s.cfg := rfl
@[simp] theorem searchFailed_eqRes : (searchFailed lo s).eqRes = s.eqRes := rfl
@[simp] theorem searchFailed_perfRes : (searchFailed lo s).perfRes = s.perfRes := rfl
@[simp] theorem searchFailed_acc : (searchFailed lo s).acc = s.acc := rfl
@[simp] theorem searchFailed_mem : (searchFailed lo s).mem = s.mem := rfl
@[simp] theorem searchFailed_engine : (searchFailed lo s).engine = s.engine := rfl
@[simp] theorem searchFailed_abortReq : (searchFailed lo s).abortReq = s.abortReq := rfl
@[simp] theorem searchFailed_rstN : (searchFailed lo s).rstN = s.rstN := rfl
@[simp] theorem searchFailed_requests : (searchFailed lo s).requests = s.requests := rfl
@[simp] theorem searchFailed_schedule : (searchFailed lo s).schedule = s.schedule := rfl
@[simp] theorem searchFailed_response : (searchFailed lo s).response = s.response := rfl
@[simp] theorem searchFailed_draws : (searchFailed lo s).draws = s.draws := rfl

end

/-! ## `writeEstimate` -/

section
variable (sc : Score) (al : Alignment) (s : State)

@[simp] theorem writeEstimate_irqEn : (writeEstimate sc al s).irqEn = s.irqEn := rfl
@[simp] theorem writeEstimate_status : (writeEstimate sc al s).status = s.status := rfl
@[simp] theorem writeEstimate_cmd : (writeEstimate sc al s).cmd = s.cmd := rfl
@[simp] theorem writeEstimate_err : (writeEstimate sc al s).err = s.err := rfl
@[simp] theorem writeEstimate_irqStatus : (writeEstimate sc al s).irqStatus = s.irqStatus := rfl
@[simp] theorem writeEstimate_cfg : (writeEstimate sc al s).cfg = s.cfg := rfl
@[simp] theorem writeEstimate_syncRes : (writeEstimate sc al s).syncRes = s.syncRes := rfl
@[simp] theorem writeEstimate_eqRes : (writeEstimate sc al s).eqRes = s.eqRes := rfl
@[simp] theorem writeEstimate_acc : (writeEstimate sc al s).acc = s.acc := rfl
@[simp] theorem writeEstimate_mem : (writeEstimate sc al s).mem = s.mem := rfl
@[simp] theorem writeEstimate_engine : (writeEstimate sc al s).engine = s.engine := rfl
@[simp] theorem writeEstimate_abortReq : (writeEstimate sc al s).abortReq = s.abortReq := rfl
@[simp] theorem writeEstimate_rstN : (writeEstimate sc al s).rstN = s.rstN := rfl
@[simp] theorem writeEstimate_requests : (writeEstimate sc al s).requests = s.requests := rfl
@[simp] theorem writeEstimate_schedule : (writeEstimate sc al s).schedule = s.schedule := rfl
@[simp] theorem writeEstimate_response : (writeEstimate sc al s).response = s.response := rfl
@[simp] theorem writeEstimate_draws : (writeEstimate sc al s).draws = s.draws := rfl

end

/-! ## `accumulate` -/

section
variable (sc : Score) (s : State)

@[simp] theorem accumulate_irqEn : (accumulate sc s).irqEn = s.irqEn := rfl
@[simp] theorem accumulate_status : (accumulate sc s).status = s.status := rfl
@[simp] theorem accumulate_cmd : (accumulate sc s).cmd = s.cmd := rfl
@[simp] theorem accumulate_err : (accumulate sc s).err = s.err := rfl
@[simp] theorem accumulate_irqStatus : (accumulate sc s).irqStatus = s.irqStatus := rfl
@[simp] theorem accumulate_cfg : (accumulate sc s).cfg = s.cfg := rfl
@[simp] theorem accumulate_syncRes : (accumulate sc s).syncRes = s.syncRes := rfl
@[simp] theorem accumulate_eqRes : (accumulate sc s).eqRes = s.eqRes := rfl
@[simp] theorem accumulate_perfRes : (accumulate sc s).perfRes = s.perfRes := rfl
@[simp] theorem accumulate_mem : (accumulate sc s).mem = s.mem := rfl
@[simp] theorem accumulate_engine : (accumulate sc s).engine = s.engine := rfl
@[simp] theorem accumulate_abortReq : (accumulate sc s).abortReq = s.abortReq := rfl
@[simp] theorem accumulate_rstN : (accumulate sc s).rstN = s.rstN := rfl
@[simp] theorem accumulate_requests : (accumulate sc s).requests = s.requests := rfl
@[simp] theorem accumulate_schedule : (accumulate sc s).schedule = s.schedule := rfl
@[simp] theorem accumulate_response : (accumulate sc s).response = s.response := rfl
@[simp] theorem accumulate_draws : (accumulate sc s).draws = s.draws := rfl

end

/-! ## `clearValid` -/

theorem clearValid_eq (c : Decoded) (s : State) : clearValid c s = { s with status := (clearValid c s).status } := by
  unfold clearValid; split <;> rfl

section
variable (c : Decoded) (s : State)

@[simp] theorem clearValid_irqEn : (clearValid c s).irqEn = s.irqEn := by rw [clearValid_eq]
@[simp] theorem clearValid_cmd : (clearValid c s).cmd = s.cmd := by rw [clearValid_eq]
@[simp] theorem clearValid_err : (clearValid c s).err = s.err := by rw [clearValid_eq]
@[simp] theorem clearValid_irqStatus : (clearValid c s).irqStatus = s.irqStatus := by rw [clearValid_eq]
@[simp] theorem clearValid_cfg : (clearValid c s).cfg = s.cfg := by rw [clearValid_eq]
@[simp] theorem clearValid_syncRes : (clearValid c s).syncRes = s.syncRes := by rw [clearValid_eq]
@[simp] theorem clearValid_eqRes : (clearValid c s).eqRes = s.eqRes := by rw [clearValid_eq]
@[simp] theorem clearValid_perfRes : (clearValid c s).perfRes = s.perfRes := by rw [clearValid_eq]
@[simp] theorem clearValid_acc : (clearValid c s).acc = s.acc := by rw [clearValid_eq]
@[simp] theorem clearValid_mem : (clearValid c s).mem = s.mem := by rw [clearValid_eq]
@[simp] theorem clearValid_engine : (clearValid c s).engine = s.engine := by rw [clearValid_eq]
@[simp] theorem clearValid_abortReq : (clearValid c s).abortReq = s.abortReq := by rw [clearValid_eq]
@[simp] theorem clearValid_rstN : (clearValid c s).rstN = s.rstN := by rw [clearValid_eq]
@[simp] theorem clearValid_requests : (clearValid c s).requests = s.requests := by rw [clearValid_eq]
@[simp] theorem clearValid_schedule : (clearValid c s).schedule = s.schedule := by rw [clearValid_eq]
@[simp] theorem clearValid_response : (clearValid c s).response = s.response := by rw [clearValid_eq]
@[simp] theorem clearValid_draws : (clearValid c s).draws = s.draws := by rw [clearValid_eq]

end

/-! ## `confidence` -/

theorem confidence_eq (peak floor : F64) (s : State) :
    confidence peak floor s = { s with syncRes := (confidence peak floor s).syncRes, status := (confidence peak floor s).status } := by
  unfold confidence; split <;> rfl

section
variable (peak floor : F64) (s : State)

@[simp] theorem confidence_irqEn : (confidence peak floor s).irqEn = s.irqEn := by rw [confidence_eq]
@[simp] theorem confidence_cmd : (confidence peak floor s).cmd = s.cmd := by rw [confidence_eq]
@[simp] theorem confidence_err : (confidence peak floor s).err = s.err := by rw [confidence_eq]
@[simp] theorem confidence_irqStatus : (confidence peak floor s).irqStatus = s.irqStatus := by rw [confidence_eq]
@[simp] theorem confidence_cfg : (confidence peak floor s).cfg = s.cfg := by rw [confidence_eq]
@[simp] theorem confidence_eqRes : (confidence peak floor s).eqRes = s.eqRes := by rw [confidence_eq]
@[simp] theorem confidence_perfRes : (confidence peak floor s).perfRes = s.perfRes := by rw [confidence_eq]
@[simp] theorem confidence_acc : (confidence peak floor s).acc = s.acc := by rw [confidence_eq]
@[simp] theorem confidence_mem : (confidence peak floor s).mem = s.mem := by rw [confidence_eq]
@[simp] theorem confidence_engine : (confidence peak floor s).engine = s.engine := by rw [confidence_eq]
@[simp] theorem confidence_abortReq : (confidence peak floor s).abortReq = s.abortReq := by rw [confidence_eq]
@[simp] theorem confidence_rstN : (confidence peak floor s).rstN = s.rstN := by rw [confidence_eq]
@[simp] theorem confidence_requests : (confidence peak floor s).requests = s.requests := by rw [confidence_eq]
@[simp] theorem confidence_schedule : (confidence peak floor s).schedule = s.schedule := by rw [confidence_eq]
@[simp] theorem confidence_response : (confidence peak floor s).response = s.response := by rw [confidence_eq]
@[simp] theorem confidence_draws : (confidence peak floor s).draws = s.draws := by rw [confidence_eq]

end

/-! ## `writeSnr` -/

theorem writeSnr_eq (sig ep : F64) (s : State) :
    writeSnr sig ep s = { s with perfRes := (writeSnr sig ep s).perfRes, status := (writeSnr sig ep s).status } := by
  unfold writeSnr; split <;> rfl

section
variable (sig ep : F64) (s : State)

@[simp] theorem writeSnr_irqEn : (writeSnr sig ep s).irqEn = s.irqEn := by rw [writeSnr_eq]
@[simp] theorem writeSnr_cmd : (writeSnr sig ep s).cmd = s.cmd := by rw [writeSnr_eq]
@[simp] theorem writeSnr_err : (writeSnr sig ep s).err = s.err := by rw [writeSnr_eq]
@[simp] theorem writeSnr_irqStatus : (writeSnr sig ep s).irqStatus = s.irqStatus := by rw [writeSnr_eq]
@[simp] theorem writeSnr_cfg : (writeSnr sig ep s).cfg = s.cfg := by rw [writeSnr_eq]
@[simp] theorem writeSnr_syncRes : (writeSnr sig ep s).syncRes = s.syncRes := by rw [writeSnr_eq]
@[simp] theorem writeSnr_eqRes : (writeSnr sig ep s).eqRes = s.eqRes := by rw [writeSnr_eq]
@[simp] theorem writeSnr_acc : (writeSnr sig ep s).acc = s.acc := by rw [writeSnr_eq]
@[simp] theorem writeSnr_mem : (writeSnr sig ep s).mem = s.mem := by rw [writeSnr_eq]
@[simp] theorem writeSnr_engine : (writeSnr sig ep s).engine = s.engine := by rw [writeSnr_eq]
@[simp] theorem writeSnr_abortReq : (writeSnr sig ep s).abortReq = s.abortReq := by rw [writeSnr_eq]
@[simp] theorem writeSnr_rstN : (writeSnr sig ep s).rstN = s.rstN := by rw [writeSnr_eq]
@[simp] theorem writeSnr_requests : (writeSnr sig ep s).requests = s.requests := by rw [writeSnr_eq]
@[simp] theorem writeSnr_schedule : (writeSnr sig ep s).schedule = s.schedule := by rw [writeSnr_eq]
@[simp] theorem writeSnr_response : (writeSnr sig ep s).response = s.response := by rw [writeSnr_eq]
@[simp] theorem writeSnr_draws : (writeSnr sig ep s).draws = s.draws := by rw [writeSnr_eq]

end

end Sys2Proof.Machine.State
end

