-- ==== Sys2Proof/Laws/Ops.lean ====
section
/-! SUPPORT. The laws of the shared operations: entries of the address map do not overlap (spec/20_memory.md R84),
an entry reads back what the engine stored, what a store leaves alone, and that every operation over the memories
keeps their canonical form. -/

namespace Sys2Proof.Machine

/-! ## The address map -/

namespace Entry

theorem offset_inj_of_near {e f : Entry} (he : e.implemented = true) (hf : f.implemented = true)
    (h1 : e.offset < f.offset + f.size) (h2 : f.offset < e.offset + e.size) : e = f := by
  cases e <;> cases f <;>
    simp only [implemented, Bool.and_eq_true, decide_eq_true_eq, offset, size, Config.mMax, Config.sMax, Config.lMax,
      Config.pMax, Config.rMax, Config.nMax, Config.qMax, sample.injEq, pilot.injEq, ref.injEq, out.injEq,
      tap.injEq, const.injEq, corr.injEq, reduceCtorEq] at * <;> omega

/-- Two entries of the map do not overlap (R84). -/
theorem disjoint {e f : Entry} (he : e.implemented = true) (hf : f.implemented = true) (h : e ≠ f) :
    e.offset + e.size ≤ f.offset ∨ f.offset + f.size ≤ e.offset := by
  by_contra hc
  exact h (offset_inj_of_near he hf (by omega) (by omega))

theorem ofOffset_offset {e : Entry} (he : e.implemented = true) {i : Nat} (hi : i < e.size) :
    ofOffset (e.offset + i) = some e := by
  cases e <;>
    simp only [implemented, Bool.and_eq_true, decide_eq_true_eq, size, Config.mMax, Config.sMax, Config.lMax,
      Config.pMax, Config.rMax, Config.nMax, Config.qMax] at he hi <;>
    unfold ofOffset offset <;> dsimp only <;> repeat' split
  all_goals first
    | omega
    | (simp only [Option.some.injEq, sample.injEq, pilot.injEq, ref.injEq, out.injEq, tap.injEq, const.injEq,
        corr.injEq]; omega)

theorem offset_lt {e : Entry} (he : e.implemented = true) : 0x1000 ≤ e.offset ∧ e.offset + e.size ≤ 2 ^ 24 := by
  cases e <;>
    simp only [implemented, Bool.and_eq_true, decide_eq_true_eq, offset, size, Config.mMax, Config.sMax, Config.lMax,
      Config.pMax, Config.rMax, Config.nMax, Config.qMax] at * <;> omega

end Entry

namespace State

/-! ## Stored entries -/

theorem realBits_ofBits (s : State) (loc : Nat) {v : F64} (h : v.Valid) : F64.ofBits (s.realBits loc v) = v :=
  F64.ofBits_toBits _ h

theorem cplxOf_cplxBits (s : State) (loc : Nat) {z : Cplx} (h : z.Valid) : cplxOf (s.cplxBits loc z) = z := by
  simp only [cplxOf, cplxBits, realBits_ofBits _ _ h.1, realBits_ofBits _ _ h.2]

theorem readCplx_eq_ok {s : State} {e : Entry} {z : Cplx} (h : s.readCplx e = .ok z) : s.isWritten e = true := by
  unfold readCplx at h
  split at h
  · next h1 h2 => simp [isWritten, h1, h2]
  · cases h

theorem readCplx_of_isWritten {s : State} {e : Entry} (h : s.isWritten e = true) :
    ∃ z, s.readCplx e = .ok z ∧ z.Valid := by
  simp only [isWritten, Bool.and_eq_true, Option.isSome_iff_exists] at h
  obtain ⟨⟨a, ha⟩, ⟨b, hb⟩⟩ := h
  exact ⟨cplxOf ⟨a, b⟩, by simp [readCplx, ha, hb], F64.ofBits_valid _, F64.ofBits_valid _⟩

theorem readCplx_valid {s : State} {e : Entry} {z : Cplx} (h : s.readCplx e = .ok z) : z.Valid := by
  obtain ⟨w, hw, hv⟩ := readCplx_of_isWritten (readCplx_eq_ok h)
  rw [hw] at h; cases h; exact hv

/-- An entry is read from the memories alone. -/
theorem readCplx_congr {s t : State} (h : s.mem = t.mem) (e : Entry) : s.readCplx e = t.readCplx e := by
  simp only [readCplx, h]

theorem putCplx_mem (e : Entry) (z : Cplx) (s : State) :
    (s.putCplx e z).mem = (s.mem.writeBits64 e.offset (s.realBits e.offset z.re)).writeBits64 (e.offset + 8)
      (s.realBits (e.offset + 8) z.im) := by rw [putCplx]

theorem putCorr_mem (i : Nat) (v : F64) (s : State) :
    (s.putCorr i v).mem = s.mem.writeBits64 (Entry.corr i).offset (s.realBits (Entry.corr i).offset v) := by
  rw [putCorr]

theorem readCplx_putCplx_same (e : Entry) {z : Cplx} (s : State) (h : z.Valid) :
    (s.putCplx e z).readCplx e = .ok z := by
  unfold readCplx
  rw [putCplx_mem, Memory.readBits64_writeBits64_same, Memory.readBits64_writeBits64_other _ _ (by omega),
    Memory.readBits64_writeBits64_same]
  exact congrArg _ (cplxOf_cplxBits s _ h)

theorem isWritten_putCplx_same (e : Entry) (z : Cplx) (s : State) : (s.putCplx e z).isWritten e = true := by
  unfold isWritten
  rw [putCplx_mem, Memory.readBits64_writeBits64_same, Memory.readBits64_writeBits64_other _ _ (by omega),
    Memory.readBits64_writeBits64_same]
  rfl

theorem readCplx_putCplx_other {e f : Entry} (z : Cplx) (s : State)
    (h : e.offset + 16 ≤ f.offset ∨ f.offset + 16 ≤ e.offset) : (s.putCplx e z).readCplx f = s.readCplx f := by
  unfold readCplx
  rw [putCplx_mem, Memory.readBits64_writeBits64_other _ _ (by omega), Memory.readBits64_writeBits64_other _ _ (by omega),
    Memory.readBits64_writeBits64_other _ _ (by omega), Memory.readBits64_writeBits64_other _ _ (by omega)]

/-- A store to one complex entry leaves every other one as it was. -/
theorem readCplx_putCplx_ne {e f : Entry} (z : Cplx) (s : State) (he : e.implemented = true)
    (hf : f.implemented = true) (h : e ≠ f) (he16 : e.size = 16) (hf16 : f.size = 16) :
    (s.putCplx e z).readCplx f = s.readCplx f :=
  readCplx_putCplx_other z s (by have := Entry.disjoint he hf h; omega)

theorem readCplx_putCorr_other {i : Nat} {f : Entry} (v : F64) (s : State)
    (h : (Entry.corr i).offset + 8 ≤ f.offset ∨ f.offset + 16 ≤ (Entry.corr i).offset) :
    (s.putCorr i v).readCplx f = s.readCplx f := by
  unfold readCplx
  rw [putCorr_mem, Memory.readBits64_writeBits64_other _ _ (by omega),
    Memory.readBits64_writeBits64_other _ _ (by omega)]

theorem read_putCplx_other (e : Entry) (z : Cplx) (s : State) {a : Nat} (h : a < e.offset ∨ e.offset + 16 ≤ a) :
    (s.putCplx e z).mem.read a = s.mem.read a := by
  rw [putCplx_mem, Memory.read_writeBits64_other _ _ (by omega), Memory.read_writeBits64_other _ _ (by omega)]

theorem read_putCorr_other (i : Nat) (v : F64) (s : State) {a : Nat}
    (h : a < (Entry.corr i).offset ∨ (Entry.corr i).offset + 8 ≤ a) :
    (s.putCorr i v).mem.read a = s.mem.read a := by
  rw [putCorr_mem, Memory.read_writeBits64_other _ _ h]

theorem corr_putCorr_same (i : Nat) {v : F64} (s : State) (h : v.Valid) :
    ((s.putCorr i v).mem.readBits64 (Entry.corr i).offset).map F64.ofBits = some v := by
  rw [putCorr_mem, Memory.readBits64_writeBits64_same]
  exact congrArg some (realBits_ofBits s _ h)

/-! ## The canonical form -/

theorem wf_putCplx {s : State} (e : Entry) (z : Cplx) (h : Memory.wf s.mem = true) :
    Memory.wf (s.putCplx e z).mem = true := by
  rw [putCplx_mem]; exact Memory.wf_writeBits64 _ _ (Memory.wf_writeBits64 _ _ h)

theorem wf_putCorr {s : State} (i : Nat) (v : F64) (h : Memory.wf s.mem = true) :
    Memory.wf (s.putCorr i v).mem = true := by
  rw [putCorr_mem]; exact Memory.wf_writeBits64 _ _ h

theorem wf_drawMem {s : State} (l : List (Nat × Nat)) (h : Memory.wf s.mem = true) :
    Memory.wf (s.drawMem l).mem = true := by
  unfold drawMem
  generalize Config.anyWord s.draws = f
  generalize s.mem = m at h ⊢
  induction l generalizing m with
  | nil => exact h
  | cons p l ih => exact ih _ (Memory.wf_fillWords _ _ _ h)

theorem wf_reset : Memory.wf reset.mem = true := rfl

theorem mem_resetBlock (s : State) :
    s.resetBlock.mem = s.mem ∨ ∃ l, s.resetBlock.mem = (s.drawMem l).mem := by
  unfold resetBlock
  split
  · exact .inl rfl
  · exact .inr ⟨_, rfl⟩

theorem wf_resetBlock {s : State} (h : Memory.wf s.mem = true) : Memory.wf s.resetBlock.mem = true := by
  rcases mem_resetBlock s with e | ⟨l, e⟩ <;> rw [e]
  · exact h
  · exact wf_drawMem l h

theorem wf_writeCtrl {s : State} (w : Word) (h : Memory.wf s.mem = true) : Memory.wf (s.writeCtrl w).mem = true := by
  unfold writeCtrl
  split
  · exact wf_resetBlock h
  · exact h

theorem wf_writeCmd {s : State} (w : Word) (h : Memory.wf s.mem = true) : Memory.wf (s.writeCmd w).mem = true := by
  unfold writeCmd; split <;> exact h

theorem wf_busWrite {s : State} (a : Nat) (w : Word) (x : Target) (h : Memory.wf s.mem = true) :
    Memory.wf (s.busWrite a w x).mem = true := by
  unfold busWrite
  split
  · exact h
  · exact h
  · unfold writeReg
    split
    · exact h
    · exact wf_writeCtrl w h
    · exact wf_writeCmd w h
    · exact h
    · split <;> exact h
  · unfold writeEntry
    split
    · exact h
    · split
      · exact h
      · exact Memory.wf_writeWord _ _ h

theorem wf_transact {s : State} (q : Request) (h : Memory.wf s.mem = true) : Memory.wf (s.transact q).mem = true := by
  unfold transact
  dsimp only
  split
  · exact h
  · split
    · exact h
    · split
      · exact h
      · split
        · exact h
        · exact wf_busWrite _ _ _ h

theorem drawRegs_keeps {α : Sort*} (g : State → α) (hg : ∀ w r x, g (putReg w x r) = g x) (rs : List Reg) (s : State) :
    g (s.drawRegs rs) = g s := by
  unfold drawRegs
  generalize s.draws = d
  induction rs generalizing s with
  | nil => rfl
  | cons r rs ih => rw [List.foldl_cons, ih, hg]

@[simp] theorem drawRegs_mem (rs : List Reg) (s : State) : (s.drawRegs rs).mem = s.mem :=
  drawRegs_keeps (·.mem) (fun w r x => by cases r <;> rfl) rs s

theorem wf_abortCommand {s : State} (c : Decoded) (h : Memory.wf s.mem = true) :
    Memory.wf (s.abortCommand c).mem = true := by
  unfold abortCommand
  simp only [raise_mem, clearValid_mem, drawStatus_mem]
  exact wf_drawMem _ (by simpa using h)

end State

end Sys2Proof.Machine
end

