-- ==== Sys2Proof/Laws/HostPort.lean ====
section
/-! SUPPORT. What a host transaction does, by the target of its address (spec/20_memory.md R81 to R104): every
register and every word of an implemented entry has its own offset, and a read or a full aligned write there reaches
it. -/

namespace Sys2Proof.Machine

namespace Reg

@[simp] theorem ofOffset_offset (r : Reg) : Reg.ofOffset r.offset = some r := by
  cases r with
  | aggWeight t r h => revert t r h; intro t r h; fin_cases t <;> fin_cases r <;> cases h <;> rfl
  | chestRe t r h => fin_cases t <;> fin_cases r <;> cases h <;> rfl
  | chestIm t r h => fin_cases t <;> fin_cases r <;> cases h <;> rfl
  | rotRe q h => fin_cases q <;> cases h <;> rfl
  | rotIm q h => fin_cases q <;> cases h <;> rfl
  | mu t h => fin_cases t <;> cases h <;> rfl
  | outPower t h => fin_cases t <;> cases h <;> rfl
  | threshold h => cases h <;> rfl
  | tapLimit h => cases h <;> rfl
  | divFactor h => cases h <;> rfl
  | syncPeak h => cases h <;> rfl
  | syncFloor h => cases h <;> rfl
  | syncConf h => cases h <;> rfl
  | divMag h => cases h <;> rfl
  | estSer h => cases h <;> rfl
  | estSigpow h => cases h <;> rfl
  | estErrpow h => cases h <;> rfl
  | estSnr h => cases h <;> rfl
  | accErrors h => cases h <;> rfl
  | accSymbols h => cases h <;> rfl
  | accSigpow h => cases h <;> rfl
  | accErrpow h => cases h <;> rfl
  | _ => rfl

theorem offset_lt (r : Reg) : r.offset < 0x580 ∧ r.offset % 4 = 0 := by
  cases r
  all_goals first
    | decide
    | (simp only [Reg.offset]; omega)
    | (rename_i h; cases h <;> first | decide | (simp only [Reg.offset, Half.off]; omega))

end Reg

theorem Half.off_ofOff (a : Nat) (h : a % 4 = 0) : (Half.ofOff a).off = a % 8 := by
  unfold Half.ofOff; split <;> simp only [Half.off] <;> omega

theorem Reg.offset_of_ofOffset {a : Nat} {r : Reg} (h : Reg.ofOffset a = some r) : r.offset = a := by
  unfold Reg.ofOffset at h
  split at h
  · cases h
  next h4 =>
  have h4 : a % 4 = 0 := by omega
  have hh := Half.off_ofOff a h4
  split at h
  · cases h; simp only [Reg.offset, hh, Fin.ofNat, Fin.val_mk]; omega
  split at h
  · cases h; simp only [Reg.offset, hh, Fin.ofNat]; omega
  split at h
  · cases h; simp only [Reg.offset, hh, Fin.ofNat]; omega
  split at h
  · dsimp only at h; split at h <;> cases h <;> simp only [Reg.offset, hh, Fin.ofNat] <;> omega
  split at h
  · dsimp only at h; split at h <;> cases h <;> simp only [Reg.offset, hh, Fin.ofNat] <;> omega
  · have := List.find?_some h; simpa using this

namespace Target

theorem ofOffset_page {a : Nat} (h : a < 0x1000) : Target.ofOffset a = .register (Reg.ofOffset a) := by
  unfold Target.ofOffset; rw [if_pos h]

@[simp] theorem ofOffset_register (r : Reg) : Target.ofOffset r.offset = .register (some r) := by
  have h := Reg.offset_lt r
  rw [ofOffset_page (by omega), Reg.ofOffset_offset]

theorem ofOffset_entry {e : Entry} {i : Nat} (he : e.implemented = true) (hi : i < e.size) :
    Target.ofOffset (e.offset + i) = .entry e := by
  have := (Entry.offset_lt he).1
  unfold Target.ofOffset
  rw [if_neg (by omega), Entry.ofOffset_offset he hi]
  simp [he]

/-- A hole is what the aperture does not decode (R82, R84). -/
theorem ofOffset_eq_hole {a : Nat} (h4 : a % 4 = 0) : Target.ofOffset a = .hole ↔ ¬ decodedOffset a := by
  constructor
  · rintro h (h1 | ⟨e, w, he, hw, ha⟩)
    · rw [ofOffset_page h1] at h; cases h
    · rw [ha, ofOffset_entry he hw] at h; cases h
  · intro h
    by_contra hc
    apply h
    by_cases h1 : a < 0x1000
    · exact .inl h1
    right
    unfold Target.ofOffset at hc
    rw [if_neg h1] at hc
    cases he : Entry.ofOffset a with
    | none => simp [he] at hc
    | some e =>
      simp only [he] at hc
      have hi : e.implemented = true := by by_contra hx; simp [hx] at hc
      refine ⟨e, (a - e.offset) / 4, hi, ?_⟩
      unfold Entry.ofOffset at he
      repeat' split at he
      all_goals first
        | (cases he; done)
        | (cases he
           simp only [Entry.size, Entry.offset]
           refine ⟨?_, ?_⟩ <;> omega)

end Target

namespace State

theorem toNat_address {a : Nat} (h : a < 2 ^ 24) : (BitVec.ofNat 24 a).toNat = a := by
  simp only [BitVec.toNat_ofNat]; exact Nat.mod_eq_of_lt h

theorem transact_write {s : State} {a : Nat} {w : Word} (h : a < 2 ^ 24) (h4 : a % 4 = 0)
    (ht : Target.ofOffset a ≠ .hole) :
    s.transact (writeRequest a w) = { s.busWrite a w (Target.ofOffset a) with response := some (.write .okay) } := by
  unfold State.transact writeRequest
  simp only [toNat_address h]
  rw [if_neg (by omega), if_neg (by simp), if_neg ht]

theorem transact_read {s : State} {a : Nat} (h : a < 2 ^ 24) (h4 : a % 4 = 0)
    (ht : Target.ofOffset a ≠ .hole) :
    s.transact (readRequest a) =
      { s with response := some (.read (s.busReadWord a (Target.ofOffset a)) .okay), draws := s.draws + 1 } := by
  unfold State.transact readRequest
  simp only [toNat_address h]
  rw [if_neg (by omega), if_neg (by simp), if_neg ht]

/-- A misaligned, partly strobed or undecoded access is a SLVERR and nothing else (R86 to R88, R90). -/
theorem transact_slverr {s : State} {q : Request}
    (h : q.addr.toNat % 4 ≠ 0 ∨ (q.kind = .write ∧ q.wstrb ≠ 0b1111) ∨ ¬ decodedOffset q.addr.toNat) :
    s.transact q = s.slverr q.kind := by
  unfold State.transact
  by_cases h4 : q.addr.toNat % 4 = 0
  · by_cases h2 : q.kind = .write ∧ q.wstrb ≠ 0b1111
    · rw [if_neg (by omega), if_pos h2]
    · have h3 := (Target.ofOffset_eq_hole h4).2 ((h.resolve_left (by omega)).resolve_left h2)
      rw [if_neg (by omega), if_neg h2, if_pos h3]
  · rw [if_pos h4]

end State

end Sys2Proof.Machine
end

