-- ==== Sys2Proof/Laws/PerInstr.lean ====
section
/-! SUPPORT. What is proved of each command as syntax, one lemma per constructor: its fields are a legal command
word, and its word has those fields (spec/30_encoding.md R110, R112). -/

namespace Sys2Proof.Laws.FieldsLegal

/-- The fields of `i` are a legal command word, and the word of `i` has them. -/
def Statement (i : Instr) : Prop := i.wellFormed = true ∧ CommandWord.ofWord (encode i) = i.fields

theorem nop : Statement .nop := by unfold Statement; decide

theorem checkLayout : Statement .checkLayout := by unfold Statement; decide

theorem initTaps : Statement .initTaps := by unfold Statement; decide

theorem sync (seed : Bool) : Statement (.sync seed) := by cases seed <;> unfold Statement <;> decide

theorem equalize (seed : Bool) : Statement (.equalize seed) := by cases seed <;> unfold Statement <;> decide

theorem recover (seed : Bool) : Statement (.recover seed) := by cases seed <;> unfold Statement <;> decide

theorem estimate (synced acc : Bool) : Statement (.estimate synced acc) := by
  cases synced <;> cases acc <;> unfold Statement <;> decide

theorem accClear : Statement .accClear := by unfold Statement; decide

end Sys2Proof.Laws.FieldsLegal
end

