-- ==== Sys2Proof/Laws/Writes.lean ====
section
/-! SUPPORT. What the body of a rule can do, once per loop: a predicate that the elementary writes of a pass keep is
kept by the pass. A frame, the canonical form of memory or any other invariant of a command follows by naming its
predicate. -/

namespace Sys2Proof.Machine

/-! ## Folds and endings -/

theorem foldlM_keeps {α β : Type} (P : β → Prop) (f : β → α → Eng β) (l : List α)
    (h : ∀ b a b', a ∈ l → P b → f b a = .ok b' → P b') {b r : β} (hb : P b) (hr : l.foldlM f b = .ok r) : P r := by
  induction l generalizing b with
  | nil => cases hr; exact hb
  | cons a l ih =>
    rw [List.foldlM_cons] at hr
    cases hf : f b a with
    | error e => rw [hf] at hr; cases hr
    | ok b' =>
      rw [hf] at hr
      exact ih (fun b a b' ha => h b a b' (List.mem_cons_of_mem _ ha)) (h b a b' (by simp) hb hf) hr

theorem foldl_keeps {α β : Type} (P : β → Prop) (f : β → α → β) (l : List α)
    (h : ∀ b a, a ∈ l → P b → P (f b a)) {b : β} (hb : P b) : P (l.foldl f b) := by
  induction l generalizing b with
  | nil => exact hb
  | cons a l ih => exact ih (fun b a ha => h b a (List.mem_cons_of_mem _ ha)) (h b a (by simp) hb)

theorem bind_eq_ok {α β : Type} {x : Eng α} {f : α → Eng β} {r : β} (h : (x >>= f) = .ok r) :
    ∃ a, x = .ok a ∧ f a = .ok r := by
  cases x with
  | error e => cases h
  | ok a => exact ⟨a, rfl, h⟩

theorem mem_pairs {m n : Nat} {p : Nat × Nat} : p ∈ pairs m n ↔ p.1 < m ∧ p.2 < n := by
  obtain ⟨i, j⟩ := p
  simp [pairs]

theorem mem_triples {m n : Nat} {p : Nat × Nat × Nat} : p ∈ triples m n ↔ p.1 < m ∧ p.2.1 < m ∧ p.2.2 < n := by
  obtain ⟨t, r, j⟩ := p
  simp [triples, mem_pairs]

theorem sumReal_valid {α : Type} {l : List α} {f : α → Eng F64} {v : F64} (h : sumReal l f = .ok v) : v.Valid := by
  refine foldlM_keeps F64.Valid _ l (fun b a b' _ _ hf => ?_) F64.valid_zero h
  obtain ⟨x, -, hx⟩ := bind_eq_ok hf
  cases hx
  exact F64.add_valid

theorem sumCplx_valid {α : Type} {l : List α} {f : α → Eng Cplx} {v : Cplx} (h : sumCplx l f = .ok v) : v.Valid := by
  refine foldlM_keeps Cplx.Valid _ l (fun b a b' _ _ hf => ?_) Cplx.valid_zero h
  obtain ⟨x, -, hx⟩ := bind_eq_ok hf
  cases hx
  exact Cplx.add_valid

/-- The members of a list a monadic map answers come from members of its argument. -/
theorem mem_mapM {α β : Type} {f : α → Eng β} {l : List α} {r : List β} (h : l.mapM f = .ok r) {b : β} (hb : b ∈ r) :
    ∃ a ∈ l, f a = .ok b := by
  induction l generalizing r with
  | nil => simp only [List.mapM_nil] at h; cases h; simp at hb
  | cons a l ih =>
    rw [List.mapM_cons] at h
    obtain ⟨x, hx, h⟩ := bind_eq_ok h
    obtain ⟨xs, hxs, h⟩ := bind_eq_ok h
    cases h
    rcases List.mem_cons.1 hb with rfl | hb
    · exact ⟨a, by simp, hx⟩
    · obtain ⟨c, hc, hf⟩ := ih hxs hb
      exact ⟨c, List.mem_cons_of_mem _ hc, hf⟩

theorem length_mapM {α β : Type} {f : α → Eng β} {l : List α} {r : List β} (h : l.mapM f = .ok r) :
    r.length = l.length := by
  induction l generalizing r with
  | nil => simp only [List.mapM_nil] at h; cases h; rfl
  | cons a l ih =>
    rw [List.mapM_cons] at h
    obtain ⟨x, -, h⟩ := bind_eq_ok h
    obtain ⟨xs, hxs, h⟩ := bind_eq_ok h
    cases h
    simp [ih hxs]

/-- What an ending completes in (R132). -/
theorem finish_next {r : Eng Ending} {t : State} (h : finish r = .next t) :
    ∃ s e, r = .ok (s, e) ∧ ((e = none ∧ t = s.complete) ∨ ∃ x, e = some x ∧ t = s.raise x) := by
  unfold finish at h
  split at h
  · cases h
  · cases h; exact ⟨_, _, rfl, .inl ⟨rfl, rfl⟩⟩
  · cases h; exact ⟨_, _, rfl, .inr ⟨_, rfl, rfl⟩⟩

namespace State

/-- A validated rule reports its first failing check, or runs its body (R136). -/
theorem validated_ok {cs : List Check} {body : State → Eng Ending} {s : State} {r : Ending}
    (h : s.validated cs body = .ok r) :
    (∃ c, s.firstFailing cs = .ok (some c) ∧ r = (s, some (.invalidLayout c))) ∨
      (s.firstFailing cs = .ok none ∧ body s = .ok r) := by
  unfold validated at h
  obtain ⟨c, hc, h⟩ := bind_eq_ok h
  cases c with
  | none => exact .inr ⟨hc, h⟩
  | some c => cases h; exact .inl ⟨c, hc, rfl⟩

theorem validated_of_pass {cs : List Check} {body : State → Eng Ending} {s : State}
    (h : s.firstFailing cs = .ok none) : s.validated cs body = body s := by
  simp only [validated, h]; rfl

/-! ## The equalizer -/

variable {P : State → Prop}

/-- Stores to the taps of an M x M bank of N taps keep `P`. -/
def TapClosed (m n : Nat) (P : State → Prop) : Prop :=
  ∀ x t r j z, t < m → r < m → j < n → z.Valid → P x → P (x.putCplx (.tap t r j) z)

theorem writeIdentity_keeps {s : State} (hT : TapClosed s.modes s.numTaps P) (h : P s) : P s.writeIdentity := by
  refine foldl_keeps P _ _ (fun x p hp hx => ?_) h
  obtain ⟨t, r, j⟩ := p
  obtain ⟨h1, h2, h3⟩ := mem_triples.1 hp
  exact hT x t r j _ h1 h2 h3 (by split; exacts [Cplx.valid_one, Cplx.valid_zero]) hx

theorem adapt_keeps {s t : State} {n : Int} {es : List Cplx} (hT : TapClosed s.modes s.numTaps P) (h : P s)
    (ht : s.adapt n es = .ok t) : P t := by
  refine foldlM_keeps P _ _ (fun x p y hp hx hy => ?_) h ht
  obtain ⟨a, r, j⟩ := p
  obtain ⟨h1, h2, h3⟩ := mem_triples.1 hp
  obtain ⟨w, -, hy⟩ := bind_eq_ok hy
  obtain ⟨v, -, hy⟩ := bind_eq_ok hy
  cases hy
  exact hT x a r j _ h1 h2 h3 Cplx.add_valid hx

theorem learn_keeps {s t : State} {n : Int} {k : Nat} {ys ts : List Cplx} {d : Option Divergence}
    (hT : TapClosed s.modes s.numTaps P) (h : P s) (ht : s.learn n k ys ts = .ok (t, d)) : P t := by
  obtain ⟨s1, hs, ht⟩ := bind_eq_ok ht
  obtain ⟨d', -, ht⟩ := bind_eq_ok ht
  cases ht
  exact adapt_keeps hT h hs

theorem learn_cfg {s t : State} {n : Int} {k : Nat} {ys ts : List Cplx} {d : Option Divergence}
    (ht : s.learn n k ys ts = .ok (t, d)) : t.cfg = s.cfg :=
  learn_keeps (P := fun x => x.cfg = s.cfg) (fun x _ _ _ _ _ _ _ _ hx => by simpa using hx) rfl ht

theorem writeIdentity_cfg (s : State) : s.writeIdentity.cfg = s.cfg :=
  writeIdentity_keeps (P := fun x => x.cfg = s.cfg) (fun x _ _ _ _ _ _ _ _ hx => by simpa using hx) rfl

theorem modes_congr {s t : State} (h : t.cfg = s.cfg) : t.modes = s.modes := by simp [modes, h]

theorem numTaps_congr {s t : State} (h : t.cfg = s.cfg) : t.numTaps = s.numTaps := by simp [numTaps, h]

theorem tapClosed_congr {s t : State} (h : t.cfg = s.cfg) (hT : TapClosed s.modes s.numTaps P) :
    TapClosed t.modes t.numTaps P := by
  rwa [modes_congr h, numTaps_congr h]

theorem trainLoop_keeps {d : Nat} {ks : List Nat} {s t : State} {b : Bool} (hT : TapClosed s.modes s.numTaps P)
    (hD : ∀ x v, P x → P (x.recordDivergence v)) (h : P s) (ht : s.trainLoop d ks = .ok (t, b)) : P t := by
  induction ks generalizing s with
  | nil => cases ht; exact h
  | cons k ks ih =>
    obtain ⟨ys, -, ht⟩ := bind_eq_ok ht
    obtain ⟨ts, -, ht⟩ := bind_eq_ok ht
    obtain ⟨⟨s1, dv⟩, hl, ht⟩ := bind_eq_ok ht
    have h1 : P s1 := learn_keeps hT h hl
    cases dv with
    | some v => cases ht; exact hD _ _ h1
    | none => exact ih (tapClosed_congr (learn_cfg hl) hT) h1 ht

theorem trainPilots_keeps {d : Nat} {s t : State} {b : Bool} (hT : TapClosed s.modes s.numTaps P)
    (hD : ∀ x v, P x → P (x.recordDivergence v)) (h : P s) (ht : s.trainPilots d = .ok (t, b)) : P t :=
  trainLoop_keeps hT hD h ht

theorem trainPilots_cfg {d : Nat} {s t : State} {b : Bool} (ht : s.trainPilots d = .ok (t, b)) : t.cfg = s.cfg :=
  trainPilots_keeps (P := fun x => x.cfg = s.cfg) (fun x _ _ _ _ _ _ _ _ hx => by simpa using hx)
    (fun x v hx => by simpa using hx) rfl ht

/-- Stores to the outputs of M modes at the symbols of a list keep `P`. -/
def OutClosed (m : Nat) (ks : List Nat) (P : State → Prop) : Prop :=
  ∀ x t k z, t < m → k ∈ ks → z.Valid → P x → P (x.putCplx (.out t k) z)

theorem outputs_length {s : State} {n : Int} {ys : List Cplx} (h : s.outputs n = .ok ys) : ys.length = s.modes := by
  simpa using length_mapM h

theorem outputs_valid {s : State} {n : Int} {ys : List Cplx} (h : s.outputs n = .ok ys) {y : Cplx} (hy : y ∈ ys) :
    y.Valid := by
  obtain ⟨t, -, ht⟩ := mem_mapM h hy
  exact sumCplx_valid ht

theorem writeOutputs_keeps {k : Nat} {ys : List Cplx} {s : State} {ks : List Nat} (hO : OutClosed ys.length ks P)
    (hk : k ∈ ks) (hv : ∀ y ∈ ys, y.Valid) (h : P s) : P (s.writeOutputs k ys) := by
  refine foldl_keeps P _ _ (fun x p hp hx => ?_) h
  obtain ⟨y, t⟩ := p
  have hm := List.mem_zipIdx hp
  exact hO x t k y (by omega) hk (hv y (by rw [hm.2.2]; exact List.getElem_mem _)) hx

theorem writeOutputs_cfg (k : Nat) (ys : List Cplx) (s : State) : (s.writeOutputs k ys).cfg = s.cfg :=
  foldl_keeps (fun x : State => x.cfg = s.cfg) _ _ (fun x p _ hx => by simpa using hx) rfl

theorem equalizeLoop_keeps {d : Nat} {ks : List Nat} {s t : State} {e : Option CmdError}
    (hT : TapClosed s.modes s.numTaps P) (hO : OutClosed s.modes ks P)
    (hD : ∀ x v, P x → P (x.recordDivergence v)) (h : P s) (ht : s.equalizeLoop d ks = .ok (t, e)) : P t := by
  induction ks generalizing s with
  | nil => cases ht; exact h
  | cons k ks ih =>
    obtain ⟨ys, hys, ht⟩ := bind_eq_ok ht
    obtain ⟨ts, -, ht⟩ := bind_eq_ok ht
    obtain ⟨⟨s1, dv⟩, hl, ht⟩ := bind_eq_ok ht
    have hc : (s.writeOutputs k ys).cfg = s.cfg := writeOutputs_cfg _ _ _
    have h0 : P (s.writeOutputs k ys) :=
      writeOutputs_keeps (ks := k :: ks) (by rwa [outputs_length hys]) (by simp) (fun y hy => outputs_valid hys hy) h
    have h1 : P s1 := learn_keeps (tapClosed_congr hc hT) h0 hl
    have hc1 : s1.cfg = s.cfg := (learn_cfg hl).trans hc
    cases dv with
    | some v => cases ht; exact hD _ _ h1
    | none =>
      refine ih (tapClosed_congr hc1 hT) ?_ h1 ht
      rw [modes_congr hc1]
      exact fun x t k' z h2 h3 => hO x t k' z h2 (List.mem_cons_of_mem _ h3)

theorem powerTest_keeps {s t : State} {e : Option CmdError}
    (hP : ∀ x i v, i < s.modes → v.Valid → P x → P (x.putOutPower i v))
    (hD : ∀ x v, P x → P (x.recordDivergence v)) (h : P s) (ht : s.powerTest = .ok (t, e)) : P t := by
  obtain ⟨pc, -, ht⟩ := bind_eq_ok ht
  obtain ⟨ps, hps, ht⟩ := bind_eq_ok ht
  have h1 : P (ps.zipIdx.foldl (fun x (p, t) => x.putOutPower t p) s) := by
    refine foldl_keeps P _ _ (fun x p hp hx => ?_) h
    obtain ⟨v, i⟩ := p
    have hm := List.mem_zipIdx hp
    have hl := length_mapM hps
    simp only [List.length_range] at hl
    refine hP x i v (by omega) ?_ hx
    obtain ⟨i', -, hi'⟩ := mem_mapM hps (b := v) (by rw [hm.2.2]; exact List.getElem_mem _)
    obtain ⟨w, -, hw⟩ := bind_eq_ok hi'
    cases hw
    exact F64.div_valid
  dsimp only at ht
  split at ht
  · cases ht; exact hD _ _ h1
  · cases ht; exact h1

theorem equalizeBody_keeps {seed : Bool} {s t : State} {e : Option CmdError}
    (hT : TapClosed s.modes s.numTaps P) (hO : OutClosed s.modes s.symbolOrder P)
    (hP : ∀ x i v, i < s.modes → v.Valid → P x → P (x.putOutPower i v))
    (hD : ∀ x v, P x → P (x.recordDivergence v)) (hE : ∀ x, P x → P (x.setEqValid true)) (h : P s)
    (ht : s.equalizeBody seed = .ok (t, e)) : P t := by
  have key : ∀ s0 : State, s0.cfg = s.cfg → P s0 →
      ∀ s1 e1, s0.equalizeLoop s.frameOffset s.symbolOrder = .ok (s1, e1) → P s1 ∧ s1.cfg = s.cfg := by
    intro s0 hc h0 s1 e1 hl
    refine ⟨equalizeLoop_keeps (tapClosed_congr hc hT) (by rw [modes_congr hc]; exact hO) hD h0 hl, ?_⟩
    exact equalizeLoop_keeps (P := fun x => x.cfg = s.cfg) (fun x _ _ _ _ _ _ _ _ hx => by simpa using hx)
      (fun x _ _ _ _ _ _ hx => by simpa using hx) (fun x v hx => by simpa using hx) hc hl
  have h0 : ∃ s0, s0 = (if seed then s else s.writeIdentity) ∧ s0.cfg = s.cfg ∧ P s0 := by
    refine ⟨_, rfl, ?_⟩
    split
    · exact ⟨rfl, h⟩
    · exact ⟨writeIdentity_cfg s, writeIdentity_keeps hT h⟩
  obtain ⟨s0, hs0, hc, h0⟩ := h0
  obtain ⟨⟨s1, e1⟩, hl, ht⟩ := bind_eq_ok ht
  rw [← hs0] at hl
  obtain ⟨h1, hc1⟩ := key s0 hc h0 s1 e1 hl
  cases e1 with
  | some x => cases ht; exact h1
  | none =>
    obtain ⟨⟨s2, e2⟩, hp, ht⟩ := bind_eq_ok ht
    have h2 : P s2 := powerTest_keeps (by rw [modes_congr hc1]; exact hP) hD h1 hp
    cases e2 with
    | some x => cases ht; exact h2
    | none => cases ht; exact hE _ h2

/-! ## The correlator -/

/-- The writes of a search keep `P`: the SYNC results but for CHEST, CONF_INF, and CORR below `n`. -/
structure SearchClosed (n : Nat) (P : State → Prop) : Prop where
  results : ∀ x r, r.chest = x.syncRes.chest → P x → P { x with syncRes := r }
  confInf : ∀ x b, P x → P (x.setConfInf b)
  corr : ∀ x i v, i < n → P x → P (x.putCorr i v)

theorem SearchClosed.mono {m n : Nat} (h : SearchClosed n P) (hm : m ≤ n) : SearchClosed m P :=
  ⟨h.results, h.confInf, fun x i v hi => h.corr x i v (by omega)⟩

theorem confidence_keeps {n : Nat} (hS : SearchClosed n P) {peak floor : F64} {s : State} (h : P s) :
    P (s.confidence peak floor) := by
  unfold confidence
  split
  · exact hS.confInf _ _ (hS.results s { s.syncRes with conf := _ } rfl h)
  · exact hS.confInf _ _ (hS.results s { s.syncRes with conf := _ } rfl h)

theorem search_keeps {metric : Nat → Eng F64} {lo : Nat} {hi : Int} {s t : State} {r : Except SyncFailure Found}
    (hS : SearchClosed (hi - lo + 1).toNat P) (h : P s) (ht : s.search metric lo hi = .ok (t, r)) : P t := by
  unfold search at ht
  dsimp only at ht
  have h1 : P { s with syncRes := { s.syncRes with candStart := word lo, candCount := word (hi - lo + 1).toNat } } :=
    hS.results s { s.syncRes with candStart := _, candCount := _ } rfl h
  revert ht h1
  generalize ({ s with syncRes := { s.syncRes with candStart := word lo, candCount := word (hi - lo + 1).toNat } } :
    State) = s1
  intro ht h1
  have hfail : ∀ x : State, P x → P (x.searchFailed lo) := fun x hx =>
    hS.confInf _ _ (hS.results x { x.syncRes with offset := word lo, peak := 0, floor := 0, conf := 0 } rfl hx)
  split at ht
  · cases ht; exact hfail _ h1
  · obtain ⟨es, hes, ht⟩ := bind_eq_ok ht
    have hl := length_mapM hes
    simp only [List.length_range] at hl
    have h2 : P (s1.writeCorr es) := by
      refine foldl_keeps P _ _ (fun x p hp hx => ?_) h1
      obtain ⟨v, i⟩ := p
      have hm := List.mem_zipIdx hp
      exact hS.corr x i v (by omega) hx
    split at ht
    · cases ht; exact hfail _ h2
    · cases ht
      exact confidence_keeps hS
        (hS.results (s1.writeCorr es) { (s1.writeCorr es).syncRes with offset := _, peak := _, floor := _ } rfl h2)

theorem searchClosed_cfg (n : Nat) (c : ConfigRegs) : SearchClosed n (fun x => x.cfg = c) :=
  ⟨fun x r _ hx => hx, fun x b hx => by simpa using hx, fun x i v _ hx => by simpa using hx⟩

theorem search_cfg {metric : Nat → Eng F64} {lo : Nat} {hi : Int} {s t : State} {r : Except SyncFailure Found}
    (ht : s.search metric lo hi = .ok (t, r)) : t.cfg = s.cfg :=
  search_keeps (P := fun x => x.cfg = s.cfg) (searchClosed_cfg _ _) rfl ht

/-- A search within the buffer has at most SAMPLE_LEN candidates (R164, R165). -/
theorem count_le_sampleLen {s : State} {lo : Nat} {hi : Int} (hp : 1 ≤ s.pilotLen) (hh : hi ≤ s.dmax) :
    (hi - lo + 1).toNat ≤ s.sampleLen := by
  have : s.dmax ≤ (s.sampleLen : Int) - 1 := by
    unfold dmax
    have : 0 ≤ (s.os : Int) * ((s.pilotPos : Int) + (s.pilotLen : Int) - 1) :=
      mul_nonneg (by omega) (by omega)
    omega
  omega

theorem refine_keeps {seed : Bool} {left i d : Nat} {final : SyncState} {s t : State}
    {r : Except SyncFailure (Nat × SyncState)} (hp : 1 ≤ s.pilotLen) (hT : TapClosed s.modes s.numTaps P)
    (hD : ∀ x v, P x → P (x.recordDivergence v)) (hS : SearchClosed s.sampleLen P)
    (hY : ∀ x y, P x → P (x.setSyncState y)) (h : P s) (ht : s.refine seed left i d final = .ok (t, r)) : P t := by
  induction left generalizing i d final s with
  | zero => cases ht; exact h
  | succ left ih =>
    unfold refine at ht
    dsimp only at ht
    have h0 : P ((s.setSyncState .refine).setSyncIters i) :=
      hS.results (s.setSyncState .refine) { (s.setSyncState .refine).syncRes with iters := word i } rfl (hY _ _ h)
    have hc0 : ((s.setSyncState .refine).setSyncIters i).cfg = s.cfg := rfl
    revert ht h0 hc0
    generalize (s.setSyncState .refine).setSyncIters i = s0
    intro ht h0 hc0
    have h1 : ∃ s1, s1 = (if seed = true then s0 else s0.writeIdentity) ∧ s1.cfg = s.cfg ∧ P s1 := by
      refine ⟨_, rfl, ?_⟩
      split
      · exact ⟨hc0, h0⟩
      · exact ⟨(writeIdentity_cfg s0).trans hc0, writeIdentity_keeps (tapClosed_congr hc0 hT) h0⟩
    obtain ⟨s1, hs1, hc1, h1⟩ := h1
    rw [← hs1] at ht
    obtain ⟨⟨s2, trained⟩, htr, ht⟩ := bind_eq_ok ht
    have h2 : P s2 := trainPilots_keeps (tapClosed_congr hc1 hT) hD h1 htr
    have hc2 : s2.cfg = s.cfg := (trainPilots_cfg htr).trans hc1
    dsimp only at ht
    split at ht
    · cases ht; exact h2
    · obtain ⟨⟨s3, r3⟩, hse, ht⟩ := bind_eq_ok ht
      have h3 : P s3 := search_keeps (hS.mono (count_le_sampleLen hp (min_le_right _ _))) h2 hse
      have hc3 : s3.cfg = s.cfg := (search_cfg hse).trans hc2
      split at ht
      · cases ht; exact h3
      · split at ht
        · cases ht; exact h3
        · split at ht
          · cases ht; exact h3
          · refine ih ?_ (tapClosed_congr hc3 hT) ?_ h3 ht
            · simpa [pilotLen, hc3] using hp
            · simpa [sampleLen, hc3] using hS

theorem refine_cfg {seed : Bool} {left i d : Nat} {final : SyncState} {s t : State}
    {r : Except SyncFailure (Nat × SyncState)} (hp : 1 ≤ s.pilotLen)
    (ht : s.refine seed left i d final = .ok (t, r)) : t.cfg = s.cfg :=
  refine_keeps (P := fun x => x.cfg = s.cfg) hp (fun x _ _ _ _ _ _ _ _ hx => by simpa using hx)
    (fun x v hx => by simpa using hx) (searchClosed_cfg _ _) (fun x y hx => by simpa using hx) rfl ht

theorem writeChest_keeps {d : Nat} {s t : State}
    (hC : ∀ x i j z, i < s.modes → j < s.modes → P x → P (x.putChest i j z)) (h : P s)
    (ht : s.writeChest d = .ok t) : P t := by
  refine foldlM_keeps P _ _ (fun x p y hp hx hy => ?_) h ht
  obtain ⟨i, j⟩ := p
  obtain ⟨h1, h2⟩ := mem_pairs.1 hp
  obtain ⟨c, -, hy⟩ := bind_eq_ok hy
  obtain ⟨ep, -, hy⟩ := bind_eq_ok hy
  cases hy
  exact hC x i j _ h1 h2 hx

/-- The writes of SyncBody keep `P`. -/
structure SyncClosed (s : State) (P : State → Prop) : Prop where
  taps : 1 ≤ s.iterations → TapClosed s.modes s.numTaps P
  divergence : 1 ≤ s.iterations → ∀ x v, P x → P (x.recordDivergence v)
  search : SearchClosed s.sampleLen P
  syncState : ∀ x y, P x → P (x.setSyncState y)
  syncValid : ∀ x, P x → P (x.setSyncValid true)
  chest : ∀ x i j z, i < s.modes → j < s.modes → P x → P (x.putChest i j z)
  frame : ∀ x w, P x → P { x with cfg := { x.cfg with frameOffset := w } }

theorem syncBody_keeps {seed : Bool} {s t : State} {e : Option CmdError} (hp : 1 ≤ s.pilotLen) (hC : SyncClosed s P)
    (h : P s) (ht : s.syncBody seed = .ok (t, e)) : P t := by
  unfold syncBody at ht
  dsimp only at ht
  have h0 : P ((s.setSyncState .coarse).setSyncIters 0) :=
    hC.search.results (s.setSyncState .coarse) { (s.setSyncState .coarse).syncRes with iters := word 0 } rfl
      (hC.syncState _ _ h)
  have hc0 : ((s.setSyncState .coarse).setSyncIters 0).cfg = s.cfg := rfl
  revert ht h0 hc0
  generalize (s.setSyncState .coarse).setSyncIters 0 = s0
  intro ht h0 hc0
  obtain ⟨⟨s1, r⟩, hse, ht⟩ := bind_eq_ok ht
  have hhi : s.coarseHi ≤ s.dmax := by unfold coarseHi; split <;> simp
  have h1 : P s1 := search_keeps (hC.search.mono (count_le_sampleLen hp hhi)) h0 hse
  have hc1 : s1.cfg = s.cfg := (search_cfg hse).trans hc0
  dsimp only at ht
  split at ht
  · cases ht; exact hC.syncState _ _ h1
  · next f =>
    have h2 : P { s1 with syncRes := { s1.syncRes with coarseOffset := word f.offset } } :=
      hC.search.results s1 { s1.syncRes with coarseOffset := word f.offset } rfl h1
    have hc2 : ({ s1 with syncRes := { s1.syncRes with coarseOffset := word f.offset } } : State).cfg = s.cfg := hc1
    revert ht h2 hc2
    generalize ({ s1 with syncRes := { s1.syncRes with coarseOffset := word f.offset } } : State) = s2
    intro ht h2 hc2
    split at ht
    · cases ht; exact hC.syncState _ _ h2
    · obtain ⟨⟨s3, r3⟩, hre, ht⟩ := bind_eq_ok ht
      have hp2 : 1 ≤ s2.pilotLen := by simpa [pilotLen, hc2] using hp
      have hc3 : s3.cfg = s.cfg := (refine_cfg hp2 hre).trans hc2
      have h3 : P s3 := by
        rcases Nat.eq_zero_or_pos s.iterations with hz | hz
        · rw [hz] at hre; cases hre; exact h2
        · refine refine_keeps hp2 (tapClosed_congr hc2 (hC.taps hz)) (hC.divergence hz) ?_ hC.syncState h2 hre
          simpa [sampleLen, hc2] using hC.search
      split at ht
      · cases ht; exact hC.syncState _ _ h3
      · obtain ⟨s4, hch, ht⟩ := bind_eq_ok ht
        cases ht
        refine hC.syncValid _ (hC.syncState _ _ (hC.frame _ _ ?_))
        exact writeChest_keeps (by rw [modes_congr hc3]; exact hC.chest) h3 hch

/-- SyncBody changes no configuration register but FRAME_OFFSET (R180). -/
theorem syncBody_cfg {seed : Bool} {s t : State} {e : Option CmdError} (hp : 1 ≤ s.pilotLen)
    (ht : s.syncBody seed = .ok (t, e)) : t.cfg = { s.cfg with frameOffset := t.cfg.frameOffset } := by
  refine syncBody_keeps (P := fun x => x.cfg = { s.cfg with frameOffset := x.cfg.frameOffset }) hp ?_ rfl ht
  exact ⟨fun _ x _ _ _ _ _ _ _ _ hx => by simpa using hx, fun _ x v hx => by simpa using hx,
    ⟨fun x r _ hx => hx, fun x b hx => by simpa using hx, fun x i v _ hx => by simpa using hx⟩,
    fun x y hx => by simpa using hx, fun x hx => by simpa using hx, fun x i j z _ _ hx => by simpa using hx,
    fun x w hx => by
      change ({ x.cfg with frameOffset := w } : ConfigRegs) = { s.cfg with frameOffset := w }
      rw [hx]⟩

/-! ## The estimator and INIT_TAPS -/

theorem estimateBody_keeps {synced acc : Bool} {s t : State} {e : Option CmdError}
    (hR : ∀ x sc al, P x → P (x.writeEstimate sc al)) (hN : ∀ x a b, P x → P (x.writeSnr a b))
    (hA : acc = true → ∀ x sc, P x → P (x.accumulate sc)) (hE : ∀ x, P x → P (x.setEstValid true)) (h : P s)
    (ht : s.estimateBody synced acc = .ok (t, e)) : P t := by
  obtain ⟨b, -, ht⟩ := bind_eq_ok ht
  cases b with
  | none => cases ht; exact h
  | some p =>
    obtain ⟨sc, al⟩ := p
    have h1 := hN _ sc.sig sc.ep (hR s sc al h)
    dsimp only at ht
    cases ht
    cases acc with
    | false => exact hE _ h1
    | true => exact hE _ (hA rfl _ sc h1)

end State

theorem initTapsWrites_keeps {P : State → Prop} {s : State} (hm : s.modes ≤ Config.mMax) (hn : s.centre < Config.nMax)
    (hT : State.TapClosed Config.mMax Config.nMax P) (h : P s) : P (initTapsWrites s) := by
  unfold initTapsWrites
  refine foldl_keeps P _ _ (fun x t ht hx => ?_) (foldl_keeps P _ _ (fun x p hp hx => ?_) h)
  · rw [List.mem_range] at ht
    exact hT x t t _ _ (by omega) (by omega) hn Cplx.valid_one hx
  · obtain ⟨t, r, j⟩ := p
    obtain ⟨h1, h2, h3⟩ := mem_triples.1 hp
    exact hT x t r j _ h1 h2 h3 Cplx.valid_zero hx

end Sys2Proof.Machine
end

