-- ==== Sys2Proof/Laws/Values.lean ====
section
/-! SUPPORT. What the sums and the monadic maps of the rules compute when every value they read is there: the fold of
the terms in order (spec/00_scope.md R16), and element by element. -/

namespace Sys2Proof.Machine

/-- A fold whose every step is a value is the fold of the values. -/
theorem foldlM_ok {α β : Type} {f : β → α → Eng β} {g : β → α → β} (l : List α)
    (h : ∀ b, ∀ a ∈ l, f b a = .ok (g b a)) (b : β) : l.foldlM f b = .ok (l.foldl g b) := by
  induction l generalizing b with
  | nil => rfl
  | cons a l ih =>
    rw [List.foldlM_cons, h b a (by simp)]
    exact ih (fun b c hc => h b c (List.mem_cons_of_mem _ hc)) (g b a)

theorem sumReal_ok {α : Type} {l : List α} {f : α → Eng F64} {g : α → F64} (h : ∀ a ∈ l, f a = .ok (g a)) :
    sumReal l f = .ok (realSum (l.map g)) := by
  rw [sumReal, realSum, List.foldl_map]
  exact foldlM_ok l (fun b a ha => by rw [h a ha]; rfl) _

theorem sumCplx_ok {α : Type} {l : List α} {f : α → Eng Cplx} {g : α → Cplx} (h : ∀ a ∈ l, f a = .ok (g a)) :
    sumCplx l f = .ok (cplxSum (l.map g)) := by
  rw [sumCplx, cplxSum, List.foldl_map]
  exact foldlM_ok l (fun b a ha => by rw [h a ha]; rfl) _

theorem pairs_map {α : Type} (m n : Nat) (f : Nat → Nat → α) :
    ((pairs m n).map fun p => f p.1 p.2) = terms m n f := by
  simp [pairs, terms, List.map_flatMap, Function.comp_def]

/-- A double sum of R16 over values that are there. -/
theorem sumReal_pairs {m n : Nat} {f : Nat × Nat → Eng F64} {g : Nat → Nat → F64}
    (h : ∀ i j, i < m → j < n → f (i, j) = .ok (g i j)) : sumReal (pairs m n) f = .ok (realSum (terms m n g)) := by
  rw [← pairs_map]
  exact sumReal_ok fun p hp => h p.1 p.2 (mem_pairs.1 hp).1 (mem_pairs.1 hp).2

theorem sumCplx_pairs {m n : Nat} {f : Nat × Nat → Eng Cplx} {g : Nat → Nat → Cplx}
    (h : ∀ i j, i < m → j < n → f (i, j) = .ok (g i j)) : sumCplx (pairs m n) f = .ok (cplxSum (terms m n g)) := by
  rw [← pairs_map]
  exact sumCplx_ok fun p hp => h p.1 p.2 (mem_pairs.1 hp).1 (mem_pairs.1 hp).2

/-- A monadic map answers its function's values, element by element. -/
theorem mapM_getElem {α β : Type} {f : α → Eng β} {l : List α} {r : List β} (h : l.mapM f = .ok r) (i : Nat)
    (hi : i < l.length) : ∃ hr : i < r.length, f l[i] = .ok r[i] := by
  induction l generalizing r i with
  | nil => cases hi
  | cons a l ih =>
    rw [List.mapM_cons] at h
    obtain ⟨x, hx, h⟩ := bind_eq_ok h
    obtain ⟨xs, hxs, h⟩ := bind_eq_ok h
    cases h
    cases i with
    | zero => exact ⟨by simp, hx⟩
    | succ i =>
      obtain ⟨hr, hf⟩ := ih hxs i (by simpa using hi)
      exact ⟨by simpa using hr, hf⟩

/-- A monadic map over modes 0..m-1, mode by mode. -/
theorem mapM_range {β : Type} {f : Nat → Eng β} {m : Nat} {r : List β} (h : (List.range m).mapM f = .ok r) :
    r.length = m ∧ ∀ t, t < m → ∀ z, f t = .ok (r.getD t z) := by
  have hl : r.length = m := by simpa using length_mapM h
  refine ⟨hl, fun t ht z => ?_⟩
  obtain ⟨hr, hf⟩ := mapM_getElem h t (by simpa using ht)
  rw [List.getElem_range] at hf
  rw [List.getD_eq_getElem _ _ hr, hf]

end Sys2Proof.Machine
end

