-- ==== Sys2Proof/Tests/Slice0.lean ====
section
/-! SUPPORT. Tests of the model against the spec's own examples (spec/95_test_vectors.md and the worked examples of
the rules), and a witness for the hypotheses of every statement that has some. -/

set_option Elab.async false

namespace Sys2Proof.Tests

open Sys2Proof.Machine

/-! ## Well-formedness: each check refuses an ill-formed command word (R114) -/

theorem test_unknown_opcode_refused : CommandWord.wellFormed ⟨0x08, false, false, 0⟩ = false := by decide

theorem test_reserved_bit_refused : CommandWord.wellFormed ⟨0x00, false, false, 1⟩ = false := by decide

theorem test_undefined_f0_refused : CommandWord.wellFormed ⟨0x01, true, false, 0⟩ = false := by decide

theorem test_undefined_f1_refused : CommandWord.wellFormed ⟨0x05, false, true, 0⟩ = false := by decide

/-! ## Decoding: words written out by the fields RSV F1 F0 OPC of R110 -/

theorem test_decode_nop : decode 0b0000000000000000000000_0_0_00000000 = .legal .nop := by decide

theorem test_decode_check_layout : decode 0b0000000000000000000000_0_0_00000001 = .legal .checkLayout := by decide

theorem test_decode_init_taps : decode 0b0000000000000000000000_0_0_00000010 = .legal .initTaps := by decide

theorem test_decode_sync_seed : decode 0b0000000000000000000000_0_1_00000011 = .legal (.sync true) := by decide

theorem test_decode_equalize : decode 0b0000000000000000000000_0_0_00000100 = .legal (.equalize false) := by decide

theorem test_decode_recover_seed : decode 0b0000000000000000000000_0_1_00000101 = .legal (.recover true) := by
  decide

theorem test_decode_estimate_acc : decode 0b0000000000000000000000_1_0_00000110 = .legal (.estimate false true) := by
  decide

theorem test_decode_acc_clear : decode 0b0000000000000000000000_0_0_00000111 = .legal .accClear := by decide

/-- Vectors DC3, DC4, DC6 and DC8. -/
theorem test_decode_illegal :
    decode 0x00000201 = .illegal .undefinedFlag ∧ decode 0x00000400 = .illegal .reservedBits ∧
      decode 0x00000408 = .illegal .unknownOpcode ∧ decode 0x00000107 = .illegal .undefinedFlag := by decide

/-! ## States for the tests -/

/-- `p` holds of the next state of an outcome. -/
def nextIs (o : Host.Outcome State Fault Refusal) (p : State → Bool) : Bool :=
  match o with
  | .next t => p t
  | .fault _ => false
  | .refused _ => false

/-- 1.0, -1.0, 0.5, 4.0 and 100.0 (the table of 95_test_vectors.md section 3). -/
abbrev b1 : Bits64 := 0x3FF0000000000000
abbrev bm1 : Bits64 := 0xBFF0000000000000
abbrev bHalf : Bits64 := 0x3FE0000000000000
abbrev b4 : Bits64 := 0x4010000000000000
abbrev b100 : Bits64 := 0x4059000000000000

/-- A memory that lists the given entries, in the order of their addresses, with real values. -/
def cells (l : List (Entry × Bits64)) : Memory :=
  l.flatMap fun (e, v) => (List.range 16).map fun i => (e.offset + i, BitVec.ofNat 8 (v.toNat / 2 ^ (8 * i)))

/-- `s` with these entries written. -/
def withEntries (l : List (Entry × Bits64)) (s : State) : State :=
  { s with mem := l.foldl (fun m (e, v) => (m.writeBits64 e.offset v).writeBits64 (e.offset + 8) 0) s.mem }

/-- One mode, OS = 1, a frame of two symbols whose first is the pilot, three samples, one tap. -/
def smallCfg : ConfigRegs :=
  { ConfigRegs.reset with
    layoutModes := 1, streamModes := 1, os := 1, frameLen := 2, pilotLen := 1, sampleLen := 3, numTaps := 1
    mu := #v[bHalf, 0, 0, 0], tapLimit := b100, divFactor := b4, constSize := 2, rotOrder := 1
    rot := ConfigRegs.reset.rot.set 0 ⟨b1, 0⟩, frameOffset := 1, estLen := 2, refLen := 2 }

/-- The pilot 1 and the payload -1, sent from sample 1 on; every memory a command reads is written. -/
def small : State :=
  { State.reset with
    cfg := smallCfg
    mem := cells
      [(.sample 0 0, 0), (.sample 0 1, b1), (.sample 0 2, bm1), (.pilot 0 0, b1), (.ref 0 0, b1), (.ref 0 1, bm1),
        (.out 0 0, b1), (.out 0 1, bm1), (.tap 0 0 0, b1), (.const 0, b1), (.const 1, bm1)] }

/-- `s` with a command in the engine. -/
def running (s : State) (i : Instr) : State := s.accept (encode i)

theorem small_mem_wf : Memory.wf small.mem = true := by decide +kernel

/-! ## Commands -/

/-- Vector V3 and the example of R140: NOP gives ERR = 0 and DONE. -/
theorem test_nop : nextIs (step (State.reset.withFetchWord 32 0))
    (fun t => t.err.word == 0 && Reg.irqStatus.read t == 1 && !t.busy) = true := by decide

/-- Vectors DC5, DC3: illegal words report their sub-code. -/
theorem test_illegal_words : nextIs (step (State.reset.withFetchWord 32 0x00000008))
      (fun t => t.err.word == 0x00000104 && Reg.irqStatus.read t == 3) = true ∧
    nextIs (step (State.reset.withFetchWord 32 0x00000201)) (fun t => t.err.word == 0x00000304) = true := by decide

/-- Vectors V1 and V2. -/
theorem test_validation_after_reset :
    nextIs (step (State.reset.withFetchWord 32 0x00000002)) (fun t => t.err.word == 0x00000603) = true ∧
    nextIs (step (State.reset.withFetchWord 32 0x00000003)) (fun t => t.err.word == 0x00000103) = true := by decide

/-- Vector V4: check 4 fails before PILOT is read. -/
theorem test_check_layout_overrun :
    nextIs (exec .checkLayout { State.reset with cfg :=
      { smallCfg with frameLen := 4, pilotLen := 2, pilotPos := 3 } })
      (fun t => t.err.word == 0x00000403) = true := by decide +kernel

/-- Vector V10: a pilot of zeros fails check 9. -/
theorem test_check_layout_zero_pilot :
    nextIs (exec .checkLayout (withEntries [(.pilot 0 0, 0)] small)) (fun t => t.err.word == 0x00000903) = true := by
  decide +kernel

/-- Vector IT3: an even N fails check 11, and TAP is unchanged. -/
theorem test_init_taps_even :
    nextIs (exec .initTaps { small with cfg := { smallCfg with numTaps := 2 } })
      (fun t => t.err.word == 0x00000B03 && t.mem == small.mem) = true := by decide +kernel

/-- R143: ACC_CLEAR leaves 0 in every accumulator word. -/
theorem test_acc_clear :
    nextIs (exec .accClear { small with acc := ⟨1, 2, 3, 4, 5⟩ }) (fun t => t.acc == ⟨0, 0, 0, 0, 0⟩) = true := by
  decide +kernel

/-- The configuration of vector S2. -/
def s2 : State :=
  { State.reset with
    cfg := { smallCfg with frameLen := 1, sampleLen := 4 }
    mem := cells [(.sample 0 0, b1), (.sample 0 1, 0), (.sample 0 2, b1), (.sample 0 3, 0), (.pilot 0 0, b1)] }

/-- Vector S2: the tie goes to the smaller offset, the floor is 1/3 and the confidence 3. -/
theorem test_sync_tie :
    nextIs (exec (.sync false) s2) (fun t => t.err.word == 0 && t.cfg.frameOffset == 0 &&
      t.syncRes.floor == 0x3FD5555555555555 && t.syncRes.conf == 0x4008000000000000 &&
      t.status.syncState == .converged) = true := by decide +kernel

/-- Vector S3's failure: SEARCH_START beyond dmax, SYNC_STATE = FAILED, FRAME_OFFSET kept. -/
theorem test_sync_empty_window :
    nextIs (exec (.sync false) { small with cfg := { smallCfg with searchStart := 9 } })
      (fun t => t.err.word == 0x00000101 && t.syncRes.candStart == 9 && t.syncRes.candCount == 0 &&
        t.syncRes.offset == 9 && t.cfg.frameOffset == 1 && Reg.status.read t == 0x00000400) = true := by
  decide +kernel

/-- The inputs of vector E1. -/
def e1 : State :=
  { State.reset with
    cfg := { smallCfg with frameLen := 4, pilotLen := 2, sampleLen := 4, frameOffset := 0 }
    mem := cells
      [(.sample 0 0, bHalf), (.sample 0 1, 0xBFE0000000000000), (.sample 0 2, bHalf), (.sample 0 3, 0xBFE0000000000000),
        (.pilot 0 0, b1), (.pilot 0 1, bm1), (.const 0, b1), (.const 1, bm1)] }

/-- Vector E1: the last output, the last tap and the output power. -/
theorem test_equalize_e1 :
    nextIs (exec (.equalize false) e1) (fun t => t.err.word == 0 && t.status.eqValid &&
      t.mem.readBits64 (Entry.out 0 3).offset == some 0xBFE5480000000000 &&
      t.mem.readBits64 (Entry.tap 0 0 0).offset == some 0x3FF69F0000000000 &&
      t.eqRes.outPower[0] == 0x3FD63BD100000000) = true := by decide +kernel

/-- Vector E2: a tap-limit divergence after symbol 2. -/
theorem test_equalize_e2 :
    nextIs (exec (.equalize false)
        (withEntries [(.sample 0 0, 0x4000000000000000), (.sample 0 1, 0xC000000000000000),
            (.sample 0 2, 0x4000000000000000), (.sample 0 3, 0xC000000000000000)]
          { e1 with cfg := { e1.cfg with mu := #v[b1, 0, 0, 0] } }))
      (fun t => t.err.word == 0x00000102 && t.eqRes.divMag == 0x4065200000000000 && t.eqRes.divSymbol == 2 &&
        t.eqRes.divWhere == 0 && !t.status.eqValid && (t.mem.read (Entry.out 0 3).offset).isNone) = true := by
  decide +kernel

/-- R225: RECOVER finds the frame at sample 1 and equalizes it. -/
theorem test_recover :
    nextIs (exec (.recover false) { small with cfg := { smallCfg with frameOffset := 0 } })
      (fun t => t.err.word == 0 && t.cfg.frameOffset == 1 && t.status.syncValid && t.status.eqValid &&
        t.mem.readBits64 (Entry.out 0 1).offset == some bm1) = true := by decide +kernel

/-- The inputs of vector P1: E1's output in OUT, REF[0] = [1, -1, 1, -1], two rotations. -/
def p1 : State :=
  { State.reset with
    cfg :=
      { smallCfg with
        frameLen := 4, estLen := 4, refLen := 4, rotOrder := 2, rot := smallCfg.rot.set 1 ⟨bm1, 0⟩ }
    mem := cells
      [(.ref 0 0, b1), (.ref 0 1, bm1), (.ref 0 2, b1), (.ref 0 3, bm1), (.out 0 0, bHalf),
        (.out 0 1, 0xBFE2000000000000), (.out 0 2, 0x3FE3C00000000000), (.out 0 3, 0xBFE5480000000000),
        (.const 0, b1), (.const 1, bm1)] }

/-- Vector P1. -/
theorem test_estimate_p1 :
    nextIs (exec (.estimate true true) p1) (fun t => t.perfRes.errors == 0 && t.perfRes.symbols == 4 &&
      t.perfRes.sigpow == 0x4010000000000000 && t.perfRes.errpow == 0x3FE667A200000000 &&
      t.perfRes.snr == 0x4016DA2BBE20D6F1 && t.perfRes.best == 0 && t.acc.frames == 1 &&
      t.acc.symbols == 4) = true := by decide +kernel

/-- Vector P4: check 25. -/
theorem test_estimate_no_overlap :
    nextIs (exec (.estimate false false) { p1 with cfg := { p1.cfg with estStart := 2, estLen := 2, refLen := 1 } })
      (fun t => t.err.word == 0x00001903) = true := by decide +kernel

/-! ## Busy, abort, reset (section 2.7 of the vectors) -/

/-- Vector X3: a configuration write while BUSY is ignored and flagged. -/
theorem test_busy_write_ignored :
    ((running small (.sync false)).transact (writeRequest 0x10C 7)).cfg.frameLen = 2 ∧
      ((running small (.sync false)).transact (writeRequest 0x10C 7)).irqStatus.wrIgnored = true := by
  decide +kernel

/-- Vector X1: an abort before the engine's turn. -/
theorem test_abort :
    nextIs (engineMove ((running small .accClear).transact (writeRequest 0x040 2)))
      (fun t => t.err.word == 0x00000105 && t.irqStatus.done && t.irqStatus.error) = true := by decide +kernel

/-- Vector X6: a misaligned read gets SLVERR and returns 0. -/
theorem test_slverr : (State.reset.transact (readRequest 1)).response = some (.read 0 .slverr) := by decide

/-- Vector X7: an engine read of an unwritten entry. -/
theorem test_uninit_read :
    exec (.equalize false) { small with mem := small.mem.filter fun c => decide (c.1 < 0xB10010) } =
      .fault (.uninitRead (.const 1)) := by
  have h : (match exec (.equalize false) { small with mem := small.mem.filter fun c => decide (c.1 < 0xB10010) } with
    | .fault (.uninitRead e) => some e
    | _ => none) = some (.const 1) := by decide +kernel
  revert h
  split
  · next e he => intro h; rw [he]; cases h; rfl
  · intro h; cases h

/-- The address example of R84: word 2 of SAMPLE[1][3]. -/
theorem test_address_example : (Entry.sample 1 3).offset + 4 * 2 = 0x500038 := by decide

/-! ## Arithmetic: binary64 results from the vectors and from IEEE 754 -/

/-- 1/3 rounds to 0x3FD5555555555555, and 0.1 + 0.2 to 0x3FD3333333333334. -/
theorem test_round :
    ((F64.ofBits b1).div (F64.ofNat 3)).toBits 0 = 0x3FD5555555555555 ∧
      ((F64.ofBits 0x3FB999999999999A).add (F64.ofBits 0x3FC999999999999A)).toBits 0 = 0x3FD3333333333334 := by
  decide +kernel

/-- The largest value plus half its last place overflows; the least subnormal halves to zero (ties to even). -/
theorem test_overflow_and_underflow :
    (F64.ofBits 0x7FEFFFFFFFFFFFFF).add (F64.ofBits 0x7C90000000000000) = .inf false ∧
      ((F64.ofBits 1).mul (F64.ofBits bHalf)).toBits 0 = 0 := by decide +kernel

/-! ## Witnesses: states and operands that meet the hypotheses of each statement, at the boundaries of its clauses -/

theorem forall_pairs {m n : Nat} {p : Nat → Nat → Prop} (h : ∀ x ∈ pairs m n, p x.1 x.2) (i j : Nat) (hi : i < m)
    (hj : j < n) : p i j := h (i, j) (mem_pairs.2 ⟨hi, hj⟩)

theorem no_register_at {a : Nat} (h : Reg.ofOffset a = none) (hr : ∀ r : Reg, Reg.ofOffset r.offset = some r)
    (r : Reg) : r.offset ≠ a := fun e => by rw [← e, hr r] at h; cases h

/-- IllegalWordIsAcceptedAndReported: one word for each condition, and two at a boundary. -/
theorem witness_illegal_words : State.reset.engine = .idle ∧ illegalCheck 0x00000008 = 1 ∧
    illegalCheck 0x00000400 = 2 ∧ illegalCheck 0x80000007 = 2 ∧ illegalCheck 0x00000201 = 3 ∧
    illegalCheck 0x00000107 = 3 := by decide

/-- StepRunsTheAcceptedCommand: the engine's turn with a legal word, an illegal one, an abort and an idle engine. -/
theorem witness_engine_turns :
    let s : State := { small with schedule := [.engine] }
    (∃ t, (running s .nop).nextTurn = (.engine, t) ∧ t.engine = .running (.legal .nop) ∧ t.abortReq = false) ∧
    (∃ t, (s.accept 8).nextTurn = (.engine, t) ∧ t.engine = .running (.illegal .unknownOpcode) ∧
      t.abortReq = false) ∧
    (∃ t, ({ running s .nop with abortReq := true } : State).nextTurn = (.engine, t) ∧
      t.engine = .running (.legal .nop) ∧ t.abortReq = true) ∧
    (∃ t, s.nextTurn = (.engine, t) ∧ t.engine = .idle) ∧ decode 0x00000306 = .legal (.estimate true true) :=
  ⟨⟨_, rfl, rfl, rfl⟩, ⟨_, rfl, rfl, rfl⟩, ⟨_, rfl, rfl, rfl⟩, ⟨_, rfl, rfl⟩, rfl⟩

/-- HostTransactionsAreDoneInOrder: a pending read, no pending request, and a low pin. -/
theorem witness_host_turns :
    let s : State := { small with requests := [readRequest 0] }
    (∃ t, s.nextTurn = (.host, t) ∧ t.rstN = true ∧ t.requests = [readRequest 0]) ∧
    (∃ t, small.nextTurn = (.host, t) ∧ t.requests = []) ∧
    ∃ t, ({ s with rstN := false } : State).nextTurn = (.host, t) ∧ t.rstN = false :=
  ⟨⟨_, rfl, rfl, rfl⟩, ⟨_, rfl, rfl⟩, ⟨_, rfl, rfl⟩⟩

/-- RunningCommandEndsWithinTheSchedule, HostCannotTouchARunningCommand and CmdWriteWhileBusyIsRejected: a running
NOP whose host moves next. -/
theorem witness_running :
    let s : State := { running small .nop with schedule := [.host], requests := [writeRequest 0x048 0] }
    s.engine = .running (.legal .nop) ∧ s.busy = true ∧ s.nextTurn.1 = .host ∧
      nextIs (step s) (fun u => u.busy && u.irqStatus.cmdRejected) = true := by decide +kernel

/-- SlverrAccessHasNoEffect: each way to be refused, and the last word of the register page and of SAMPLE[1]. -/
theorem witness_bus_accesses :
    (writeRequest 0x101 0).addr.toNat % 4 ≠ 0 ∧ ({ writeRequest 0x100 0 with wstrb := 0b0111 } : Request).kind = .write ∧
    decodedOffset 0xFFC ∧ decodedOffset 0x5FFFFC ∧ ¬ decodedOffset 0x1000 := by
  refine ⟨by decide, rfl, .inl (by decide), .inr ⟨.sample 1 65535, 3, by decide, by decide, by decide⟩, ?_⟩
  rintro (h | ⟨e, w, he, hw, ha⟩)
  · omega
  · have := Entry.offset_lt he
    have h2 : Entry.ofOffset 0x1000 = some e := by rw [ha]; exact Entry.ofOffset_offset he hw
    exact absurd h2 (by simp [Entry.ofOffset])

/-- IdleReadReturnsTheStoredValue and MemoryWriteReadsBackLittleEndian: the first and the last word of an entry. -/
theorem witness_memory_words : small.engine = .idle ∧ (Entry.const 1).implemented = true ∧
    (Entry.const 1).hostWritable = true ∧ 4 * 3 < (Entry.const 1).size ∧
    small.mem.readWord ((Entry.const 1).offset + 4 * 1) = some 0xBFF00000 ∧
    small.mem.readWord ((Entry.const 1).offset + 4 * 3) = some 0 ∧ (Entry.tap 1 1 62).implemented = true := by
  decide +kernel

/-- ReservedRegisterReadsZeroAndIgnoresWrites: the offsets where reserved registers begin, lie and end (that no
register has one of them follows from `Reg.ofOffset` naming every register at its offset). -/
theorem witness_reserved_offsets :
    [0x024, 0x13C, 0x20C, 0x3B4, 0x580, 0xFFC].all (fun a => (Reg.ofOffset a).isNone && a % 4 == 0) = true := by
  decide

/-- ReadOnlyTargetsIgnoreWrites and the last clause of BusyWritesAreIgnoredAndFlagged: ends of each range. -/
theorem witness_read_only_offsets :
    (∀ a ∈ [0x000, 0x044, 0x13C, 0x20C, 0x4FC, 0x580, 0xFFC], a < 0x1000 ∧ a % 4 = 0 ∧ ¬ configOffset a) ∧
    (0xC00000 % 4 = 0 ∧ 0xC7FFFC % 4 = 0 ∧ 0xC7FFFC < 0xC80000) := by unfold configOffset; decide

/-- ConfigurationWriteIsStoredExactly and the first clause of BusyWritesAreIgnoredAndFlagged: the ends of the two
ranges of configuration registers, a word of an array, and a CTRL word without SOFT_RESET. -/
theorem witness_config_offsets : configOffset Reg.layoutModes.offset ∧ configOffset Reg.delayMax.offset ∧
    configOffset (Reg.aggWeight 3 3 .hi).offset ∧ configOffset (Reg.rotIm 7 .hi).offset ∧
    (0xFFFFFFFB : Word).getLsbD 2 = false := by unfold configOffset; decide

/-- BusyWritesAreIgnoredAndFlagged: a running command, an entry, and CTRL words with and without SOFT_RESET. -/
theorem witness_busy_writes : (running small (.sync true)).engine = .running (.legal (.sync true)) ∧
    (Entry.sample 1 65535).implemented = true ∧ (Entry.sample 1 65535).hostWritable = true ∧
    4 * 3 < (Entry.sample 1 65535).size ∧ (2 : Word).getLsbD 2 = false ∧ (4 : Word).getLsbD 2 = true := by decide

/-- BusyReadsAreExactOutsideTheWriteSet: registers inside and outside SYNC's write set, and memory words inside and
outside it. -/
theorem witness_busy_reads :
    let s := running small (.sync false)
    s.engine = .running (.legal (.sync false)) ∧ Reg.frameLen ∉ s.writeSetRegs (.legal (.sync false)) ∧
    Reg.frameOffset ∈ s.writeSetRegs (.legal (.sync false)) ∧
    s.mem.readWord ((Entry.sample 0 1).offset + 4 * 1) = some 0x3FF00000 ∧
    ¬ State.inRanges (s.writeSetRanges (.legal (.sync false))) ((Entry.sample 0 1).offset + 4 * 1) ∧
    State.inRanges (s.writeSetRanges (.legal (.sync false))) ((Entry.corr 2).offset + 4 * 1) ∧
    ¬ State.inRanges (s.writeSetRanges (.legal (.sync false))) (Entry.corr 3).offset := by
  unfold State.inRanges; decide +kernel

/-- SoftResetEndsTheCommandAndKeepsMemory: a reset word, an idle and a running block, and a byte in and out of the
write set. -/
theorem witness_soft_reset : (4 : Word).getLsbD 2 = true ∧ small.engine = .idle ∧
    (running small (.sync false)).engine = .running (.legal (.sync false)) ∧
    ¬ State.inRanges ((running small (.sync false)).writeSetRanges (.legal (.sync false))) 0x400000 ∧
    small.mem.read 0x400000 ≠ none := by unfold State.inRanges; decide +kernel

/-- HardResetSetsEveryRegister: the pin's turn, down and up. -/
theorem witness_hard_reset :
    (∃ t, ({ running small .nop with schedule := [.rstN false] } : State).nextTurn = (.rstN false, t)) ∧
    ∃ t, ({ small with schedule := [.rstN true] } : State).nextTurn = (.rstN true, t) := ⟨⟨_, rfl⟩, ⟨_, rfl⟩⟩

/-- CmdWriteWhileIdleIsAccepted and EveryCommandCompletesOnce: an idle block, and a running one that goes on. -/
theorem witness_life_cycle : small.engine = .idle ∧
    (running small .accClear).engine = .running (.legal .accClear) ∧
    nextIs (engineMove (running small .accClear)) (fun t => t.irqStatus.done) = true := by decide +kernel

/-- FirstFailingCheckIsReported: EQUALIZE with FRAME_OFFSET beyond the buffer fails its last check alone, and after
reset its first. -/
theorem witness_first_failing :
    let s : State := { small with cfg := { smallCfg with frameOffset := 2 } }
    (∀ c ∈ (s.checkSet (.equalize false)).dropLast, s.checkFails c = .ok false) ∧
    (s.checkSet (.equalize false)).getLast? = some .frameOutOfBuffer ∧
    s.checkFails .frameOutOfBuffer = .ok true ∧ State.reset.checkFails .frameLenZero = .ok true := by
  decide +kernel

/-- CheckLayoutAcceptsAValidLayout and UnwrittenPilotStopsCheckLayout: a legal layout with a written pilot, and with
an unwritten one. -/
theorem witness_check_layout : 1 ≤ small.frameLen ∧ 1 ≤ small.pilotLen ∧
    small.pilotPos + small.pilotLen ≤ small.frameLen ∧ small.streamModes = small.modes ∧ small.modes = 1 ∧
    small.pilotEnergy 0 = .ok (.fin false F64.one) ∧ F64.gt (.fin false F64.one) F64.zero = true ∧
    ({ small with mem := [] } : State).isWritten (.pilot 0 0) = false := by decide +kernel

/-- InitTapsWritesTheIdentityBank: the least and the greatest M and N. -/
theorem witness_init_taps :
    let c (m : BitVec 3) (n : BitVec 8) : State := { small with cfg := { smallCfg with layoutModes := m, numTaps := n } }
    ((c 1 1).modes = 1 ∧ (c 1 1).numTaps % 2 = 1) ∧ (c 2 63).modes = 2 ∧ (c 2 63).numTaps % 2 = 1 ∧
      (c 2 63).numTaps = 63 := by decide

theorem small_passes : small.passes (.sync false) ∧ small.passes (.sync true) ∧ small.passes (.equalize false) ∧
    small.passes (.recover true) ∧ small.passes (.estimate true true) ∧ small.passes (.estimate false false) := by
  unfold State.passes; decide +kernel

/-- The metrics of `small`: 0, 1, 1. -/
def smallMetrics : List F64 := [.fin false 0, .fin false F64.one, .fin false F64.one]

theorem metrics_of {f : Nat → Eng F64} {lo : Nat} {es : List F64} (h : ∀ p ∈ es.zipIdx, f (lo + p.2) = .ok p.1) (i : Nat)
    (e : F64) (he : es[i]? = some e) : f (lo + i) = .ok e :=
  h (e, i) (List.mem_zipIdx_iff_getElem?.2 he)

theorem firstMaximum_of {es : List F64} {b : Nat} {peak : F64} (h : es[b]? = some peak) (hf : peak.isFinite = true)
    (hg : ∀ p ∈ es.zipIdx, p.1.isFinite = true → p.1.gt peak = false ∧ (p.2 < b → peak.gt p.1 = true)) :
    State.FirstMaximum es b peak where
  value := h
  finite := hf
  greatest j e he h1 := (hg (e, j) (List.mem_zipIdx_iff_getElem?.2 he) h1).1
  first j e hj he h1 := (hg (e, j) (List.mem_zipIdx_iff_getElem?.2 he) h1).2 hj

theorem small_coarse_finds : small.CoarseFinds smallMetrics 1 (.fin false F64.one) where
  count := by decide +kernel
  metrics := metrics_of (by decide +kernel)
  best := firstMaximum_of rfl rfl (by decide +kernel)
  positive := by decide +kernel
  threshold := by decide +kernel

/-- CoarseSyncWritesTheOffsetFound and SyncReportsAnOffsetInTheBuffer: `small` meets their hypotheses. -/
theorem witness_coarse_sync : small.iterations = 0 ∧ small.passes (.sync false) ∧
    small.CoarseFinds smallMetrics 1 (.fin false F64.one) ∧
    nextIs (exec (.sync false) small) (fun t => t.err == ⟨0, 0⟩) = true :=
  ⟨by decide, small_passes.1, small_coarse_finds, by decide +kernel⟩

/-- AggregateFollowsItsMode: each mode, with a matrix that can be read. -/
theorem witness_aggregate :
    let s (m : BitVec 2) : State := { small with cfg := { smallCfg with aggMode := m } }
    (s 0).aggMode = 0 ∧ (s 2).aggMode = 2 ∧ (s 1).aggMode = 1 ∧ 1 ≤ (s 1).modes ∧
    (s 1).aggregate (fun _ _ => .ok Cplx.one) = .ok (.fin false F64.one) := by
  decide +kernel

/-- CoarseSyncWritesTheOffsetFound, on R163 and R139: the pilot of `small` and its sample at offset 1. -/
theorem witness_correlation : small.pilotLen = 1 ∧ small.pilot 0 0 = .ok Cplx.one ∧
    small.sampleAt 0 (1 + small.os * (small.pilotPos + 0) : Nat) = .ok Cplx.one := by decide +kernel

/-- SyncEndsConvergedAtLimitOrFailed and ZeroRefineHalfConvergesAtOnce: one iteration with h = 0 that converges, a
failure of the coarse search, and (with h = 1) a refinement. -/
theorem witness_refinement :
    let s (h : BitVec 16) : State := { small with cfg := { smallCfg with iterations := 1, refineHalf := h } }
    (s 0).passes (.sync false) ∧ (s 0).refineHalf = 0 ∧ (s 1).passes (.sync false) ∧
    nextIs (exec (.sync false) (s 0)) (fun t => t.err == ⟨0, 0⟩ && t.status.syncState == .converged) = true ∧
    nextIs (exec (.sync false) (s 1)) (fun t => t.err == ⟨0, 0⟩) = true ∧
    nextIs (exec (.sync false) { small with cfg := { smallCfg with searchStart := 9 } })
      (fun t => t.err == ⟨1, 1⟩) = true := by
  unfold State.passes; decide +kernel

/-- `small` with a tap limit below 1. -/
def smallLowLimit : State := { small with cfg := { smallCfg with tapLimit := bHalf } }

/-- A half at sample 0, and a coarse search of sample 0 alone: refining moves the estimate to sample 1. -/
def moved : State :=
  withEntries [(.sample 0 0, bHalf)]
    { small with cfg := { smallCfg with searchLen := 1, iterations := 1, refineHalf := 1 } }

/-- SyncEndsConvergedAtLimitOrFailed: ITER_LIMIT, and the sub-codes 2 (no finite metric), 3 (THRESHOLD = 100) and 4 (a
tap limit below 1). -/
theorem witness_sync_ends :
    let low : State := { small with cfg := { smallCfg with threshold := b100 } }
    let nan : State := withEntries [(.sample 0 0, 0x7FF8000000000000), (.sample 0 1, 0x7FF8000000000000),
      (.sample 0 2, 0x7FF8000000000000)] small
    let diverging : State := { small with cfg := { smallCfg with iterations := 1, tapLimit := bHalf } }
    moved.passes (.sync false) ∧ nextIs (exec (.sync false) moved)
      (fun t => t.err == ⟨0, 0⟩ && t.status.syncState == .iterLimit && t.syncRes.iters == 1) = true ∧
    nan.passes (.sync false) ∧ nextIs (exec (.sync false) nan) (fun t => t.err == ⟨1, 2⟩) = true ∧
    low.passes (.sync false) ∧ nextIs (exec (.sync false) low) (fun t => t.err == ⟨1, 3⟩) = true ∧
    diverging.passes (.sync false) ∧ nextIs (exec (.sync false) diverging) (fun t => t.err == ⟨1, 4⟩) = true := by
  unfold State.passes; decide +kernel

/-- The one iteration of `moved`: the tap becomes 9/8, and the metrics are (9/16)^2 and (9/8)^2. -/
def movedRefinement : State.Refinement where
  start := 0
  mem := match moved.writeIdentity.trainPilots 0 with
    | .ok (u, _) => u.mem
    | .error _ => []
  metrics := [.fin false (81 * 2 ^ 1066), .fin false (81 * 2 ^ 1068)]
  best := 1
  peak := .fin false (81 * 2 ^ 1068)

theorem moved_iterates : moved.Iterates false moved.mem movedRefinement where
  trained := by decide +kernel
  count := by decide +kernel
  metric := metrics_of (by decide +kernel)
  best := firstMaximum_of (by decide +kernel) rfl (by decide +kernel)
  positive := by decide +kernel
  threshold := by decide +kernel

/-- RefiningSyncWritesTheOffsetFound: `moved`, whose one iteration finds another estimate. -/
theorem witness_refining_sync : 1 ≤ moved.iterations ∧ moved.passes (.sync false) ∧
    moved.CoarseFinds [.fin false (2 ^ 1072)] 0 (.fin false (2 ^ 1072)) ∧
    moved.Refines false (moved.searchStart + 0) moved.mem [movedRefinement] ∧
    [movedRefinement].length = moved.iterations ∧ moved.foundBy movedRefinement = 1 ∧
    nextIs (exec (.sync false) moved) (fun t => t.frameOffset == 1) = true :=
  ⟨by decide, witness_sync_ends.1,
    { count := by decide +kernel
      metrics := metrics_of (by decide +kernel)
      best := firstMaximum_of rfl rfl (by decide +kernel)
      positive := by decide +kernel
      threshold := by decide +kernel },
    ⟨by decide, moved_iterates, fun h => absurd rfl h, trivial⟩, by decide, by decide, by decide +kernel⟩

/-- RefiningSyncWritesTheOffsetFound, on R172 and R214: an output that can be read, and a training pass of one symbol
that goes on and one that diverges. -/
theorem witness_training :
    (match small.firOutput 1 0 with | .ok _ => true | .error _ => false) = true ∧
    (match small.trainLoop 1 [0] with | .ok (_, b) => b | .error _ => false) = true ∧
    (match smallLowLimit.trainLoop 1 [0] with | .ok (_, b) => !b | .error _ => false) = true := by decide +kernel

/-- SampleOutsideTheBufferIsZero: the indices at the ends of the buffer. -/
theorem witness_sample_ends : ((-1 : Int) < 0) ∧ ((small.sampleLen : Int) ≤ 3) ∧ 2 < small.sampleLen := by decide

/-- EveryTapIsUpdatedFromItsOwnOldValue: an update of `small`. -/
theorem witness_tap_update : small.modes ≤ 2 ∧ small.numTaps ≤ 63 ∧ small.sampleLen ≤ 65536 ∧
    (match small.adapt 1 [Cplx.one] with | .ok _ => true | .error _ => false) = true ∧
    small.tap 0 0 0 = .ok Cplx.one ∧ small.sampleAt 0 (1 + 0 - ((small.numTaps - 1) / 2 : Nat)) = .ok Cplx.one := by
  decide +kernel

/-- EveryTapIsUpdatedFromItsOwnOldValue, on a symbol: one whose taps pass, and one whose tap test fails. -/
theorem witness_learn :
    (match small.learn 1 0 [Cplx.zero] [Cplx.one] with | .ok (_, d) => d == none | .error _ => false) = true ∧
    (match smallLowLimit.learn 1 0 [Cplx.zero] [Cplx.one] with | .ok (_, d) => d != none | .error _ => false) = true := by
  decide +kernel

/-- HardDecisionIsTheFirstNearestPoint: the decisions of 1, and of 0, which ties. -/
theorem witness_decisions : 1 ≤ small.constSize ∧ small.decideIndex Cplx.one = .ok 0 ∧
    small.decideIndex ⟨.fin true F64.one, F64.zero⟩ = .ok 1 ∧ small.decideIndex Cplx.zero = .ok 0 ∧
    ∀ p < small.constSize, ∃ cp ∈ [Cplx.one, ⟨.fin true F64.one, F64.zero⟩], small.point p = .ok cp ∧
      (Cplx.sub ⟨.nan, F64.zero⟩ cp).abs2.isNaN = true := by decide +kernel

/-- SymbolOrderVisitsEachSymbolOnce: a pilot block in the middle of the frame, and one at its end. -/
theorem witness_symbol_order :
    let s (p : Word) : State := { small with cfg := { smallCfg with frameLen := 4, pilotLen := 2, pilotPos := p } }
    (s 1).pilotPos + (s 1).pilotLen ≤ (s 1).frameLen ∧ (s 1).symbolOrder = [1, 2, 3, 0] ∧
    (s 2).pilotPos + (s 2).pilotLen = (s 2).frameLen ∧ (s 2).symbolOrder = [2, 3, 0, 1] := by decide +kernel

/-- `small` with a frame of low power. -/
def smallLowPower : State :=
  withEntries [(.sample 0 1, 0x3FB999999999999A), (.sample 0 2, 0x3FB999999999999A)] small

/-- EqualizeSucceedsOrNamesItsDivergence, on a symbol: a pilot and a payload symbol, and one that diverges. -/
theorem witness_equalize_symbol : small.modes ≤ 2 ∧ small.frameLen ≤ 16384 ∧ small.pilotLen ≤ 4096 ∧
    small.constSize ≤ 1024 ∧ 1 < small.frameLen ∧ small.pilotLen = 1 ∧
    (match small.equalizeLoop 1 [0, 1] with | .ok (_, e) => e == none | .error _ => false) = true ∧
    (match small.equalizeLoop 1 [1] with | .ok (_, e) => e == none | .error _ => false) = true ∧
    (match smallLowLimit.equalizeLoop 1 [0, 1] with | .ok (_, e) => e != none | .error _ => false) = true := by
  decide +kernel

/-- EqualizeSucceedsOrNamesItsDivergence: a success. -/
theorem witness_equalize_success : small.passes (.equalize false) ∧
    nextIs (exec (.equalize false) small) (fun t => t.err == ⟨0, 0⟩) = true :=
  ⟨small_passes.2.2.1, by decide +kernel⟩

/-- EqualizeSucceedsOrNamesItsDivergence: a tap divergence. -/
theorem witness_equalize_tap_limit : smallLowLimit.passes (.equalize false) ∧
    nextIs (exec (.equalize false) smallLowLimit) (fun t => t.err == ⟨2, 1⟩) = true :=
  ⟨by unfold State.passes; decide +kernel, by decide +kernel⟩

/-- EqualizeSucceedsOrNamesItsDivergence: a power divergence. -/
theorem witness_equalize_low_power : smallLowPower.passes (.equalize false) ∧
    nextIs (exec (.equalize false) smallLowPower) (fun t => t.err == ⟨2, 4⟩) = true :=
  ⟨by unfold State.passes; decide +kernel, by decide +kernel⟩

theorem small_taps_identity : small.tapsIdentity := by
  intro t r j ht hr hj
  have h1 : small.modes = 1 := by decide
  have h2 : small.numTaps = 1 := by decide
  rw [h1] at ht hr
  rw [h2] at hj
  obtain ⟨rfl, rfl, rfl⟩ : t = 0 ∧ r = 0 ∧ j = 0 := by omega
  decide +kernel

theorem small_noiseless : small.Noiseless 1 where
  samples r n hr hn := by
    have h : ∀ x ∈ pairs small.modes small.sampleLen,
        ((small.readCplx (.sample x.1 x.2)).toOption.map Cplx.isFinite) = some true := by decide +kernel
    have h1 := forall_pairs (p := fun r n => ((small.readCplx (.sample r n)).toOption.map Cplx.isFinite) = some true)
      h r n hr hn
    obtain ⟨x, hx, hf⟩ := Option.map_eq_some_iff.1 h1
    cases hc : small.readCplx (.sample r n) with
    | error e => rw [hc] at hx; cases hx
    | ok y => rw [hc] at hx; cases hx; exact ⟨x, rfl, hf⟩
  pilots t k ht hk := by
    have h1 : small.modes = 1 := by decide
    have h2 : small.pilotLen = 1 := by decide
    obtain ⟨rfl, rfl⟩ : t = 0 ∧ k = 0 := by omega
    exact ⟨Cplx.one, Cplx.one, by decide +kernel, by decide +kernel, by decide +kernel⟩
  payload t k ht hk ho := by
    have h1 : small.modes = 1 := by decide
    have h2 : small.pilotLen = 1 := by decide
    have h3 : small.frameLen = 2 := by decide
    have h4 : small.pilotPos = 0 := by decide
    obtain ⟨rfl, rfl⟩ : t = 0 ∧ k = 1 := by omega
    exact ⟨1, ⟨.fin true F64.one, F64.zero⟩, ⟨.fin true F64.one, F64.zero⟩, by decide +kernel, by decide +kernel,
      by decide +kernel, by decide +kernel⟩
  tapLimit := by decide +kernel
  power t ht := by
    have h1 : small.modes = 1 := by decide
    obtain rfl : t = 0 := by omega
    exact ⟨.fin false F64.one, .fin false F64.one, by decide +kernel, by decide +kernel, by decide +kernel⟩

/-- EqualizeRecoversANoiselessFrame and RecoverRecoversANoiselessFrame: `small`, with and without SEED. -/
theorem witness_noiseless : small.passes (.equalize false) ∧ small.frameOffset = 1 ∧ small.Noiseless 1 ∧
    small.tapsIdentity ∧ small.iterations = 0 ∧ small.passes (.recover true) ∧
    small.CoarseFinds smallMetrics 1 (.fin false F64.one) ∧
    small.searchStart + 1 + small.os * (small.frameLen - 1) + 1 ≤ small.sampleLen :=
  ⟨small_passes.2.2.1, by decide, small_noiseless, small_taps_identity, by decide, small_passes.2.2.2.1,
    small_coarse_finds, by decide⟩

/-- RecoverIsSyncThenEqualize: a SYNC that succeeds and one that fails, on inputs that pass RECOVER's validation. -/
theorem witness_recover :
    let bad : State := { small with cfg := { smallCfg with searchStart := 9 } }
    small.passes (.recover true) ∧ nextIs (exec (.sync true) small) (fun u => u.err == ⟨0, 0⟩) = true ∧
    bad.passes (.recover false) ∧ nextIs (exec (.sync false) bad) (fun u => u.err == ⟨1, 1⟩) = true := by
  unfold State.passes; decide +kernel

theorem small_outs_written : small.outsWritten := by
  intro t k ht h1 h2
  have hm : small.modes = 1 := by decide
  have hs : small.estStart = 0 := by decide
  have hl : small.estLen = 2 := by decide
  obtain rfl : t = 0 := by omega
  obtain rfl | rfl : k = 0 ∨ k = 1 := by omega
  · decide +kernel
  · decide +kernel

theorem small_inputs_written (i : Instr) : small.inputsWritten i := by
  have hp : small.pilotsWritten := forall_pairs (by decide +kernel)
  have hs : small.samplesWritten := forall_pairs (by decide +kernel)
  have hr : small.refsWritten := forall_pairs (by decide +kernel)
  have hc : small.constWritten := by unfold State.constWritten; decide +kernel
  have ht : small.tapsWritten := by
    intro t r j ht hr hj
    exact State.readCplx_eq_ok (small_taps_identity t r j ht hr hj)
  cases i with
  | nop => trivial
  | checkLayout => exact hp
  | initTaps => trivial
  | sync seed => exact ⟨hp, hs, fun _ _ => ht⟩
  | equalize seed => exact ⟨hp, hs, hc, fun _ => ht⟩
  | recover seed => exact ⟨hp, hs, hc, fun _ => ht⟩
  | estimate synced acc => exact ⟨hc, small_outs_written, hr⟩
  | accClear => trivial

/-- EstimateReportsTheBestAlignment and WrittenInputsNeverFault: `small`; EstimateIgnoresTheLabelsOfOutputModes with its
output modes left in place. -/
theorem witness_estimate : small.passes (.estimate true true) ∧ small.passes (.estimate false false) ∧
    (∀ i, small.inputsWritten i) ∧ (∀ t, t < small.modes → id t < small.modes) ∧
    (small.alignments false).all (fun al => match small.scoreOf al with
      | .ok sc => !sc.ep.isNaN
      | .error _ => false) = true :=
  ⟨small_passes.2.2.2.2.1, small_passes.2.2.2.2.2, small_inputs_written, fun _ h => h, by decide +kernel⟩

/-- EstimateReportsTheBestAlignment, on a score: the symbols of the alignment of `small` and their decisions. -/
theorem witness_score :
    (∀ p ∈ pairs small.modes small.estLen, ∃ z ∈ [Cplx.one, ⟨.fin true F64.one, F64.zero⟩],
      small.outSym (([0] : List Nat).getD p.1 0) p.2 = .ok z ∧ small.refSym p.1 ((p.2 : Int) + 0).toNat = .ok z ∧
      ∃ q ∈ [0, 1], small.decideIndex ((small.rot 0).mul z) = .ok q ∧ small.decideIndex z = .ok q) ∧
    small.pairSet 0 = [0, 1] ∧ small.alignments true = [⟨0, [0], 0, 0⟩] := by decide +kernel

/-- Two modes, one symbol of each, and the rotations 1 and -1; `outs` are the two outputs. -/
def twoModes (outs : Bits64 × Bits64) : State :=
  { State.reset with
    cfg :=
      { smallCfg with
        layoutModes := 2, streamModes := 2, frameLen := 1, estLen := 1, refLen := 1, rotOrder := 2
        rot := smallCfg.rot.set 1 ⟨bm1, 0⟩ }
    mem := cells [(.ref 0 0, b1), (.ref 1 0, bm1), (.out 0 0, outs.1), (.out 1 0, outs.2), (.const 0, b1), (.const 1, bm1)] }

theorem two_modes_written : (twoModes (b1, bm1)).inputsWritten (.estimate false true) := by
  refine ⟨?_, ?_, ?_⟩
  · unfold State.constWritten; decide +kernel
  · intro t k ht h1 h2
    have hs : (twoModes (b1, bm1)).estStart = 0 := by decide
    have hl : (twoModes (b1, bm1)).estLen = 1 := by decide
    obtain rfl : k = 0 := by omega
    have h : ∀ t < (twoModes (b1, bm1)).modes, (twoModes (b1, bm1)).isWritten (.out t 0) = true := by decide +kernel
    exact h t ht
  · exact forall_pairs (by decide +kernel)

/-- EstimateIgnoresTheLabelsOfOutputModes, for a permutation: two modes, swapped. -/
theorem witness_swapped_modes :
    let s := twoModes (b1, bm1)
    let s' : State := { s with mem := (twoModes (bm1, b1)).mem }
    s.passes (.estimate false true) ∧ s.inputsWritten (.estimate false true) ∧ s.modes = 2 ∧ s.estStart = 0 ∧
    s.estLen = 1 ∧ (∀ t < 2, 1 - t < 2) ∧ (∀ t < 2, ∀ r < 2, 1 - t = 1 - r → t = r) ∧
    (∀ t < 2, s'.outSym t 0 = s.outSym (1 - t) 0 ∧ s'.refSym t 0 = s.refSym t 0 ∧ s'.point t = s.point t) ∧
    s.outSym 0 0 ≠ s.outSym 1 0 ∧
    (s.alignments false).all (fun al => match s.scoreOf al with
      | .ok sc => !sc.ep.isNaN
      | .error _ => false) = true :=
  ⟨by unfold State.passes; decide +kernel, two_modes_written, by decide +kernel⟩

/-- EstimateIgnoresTheLabelsOfOutputModes, for a rotation: the table 1, -1 is closed and of quarter turns, and OUT is
multiplied by -1. -/
theorem witness_rotated_symbols :
    let s := twoModes (b1, bm1)
    let minus : Cplx := ⟨.fin true F64.one, F64.zero⟩
    let s' : State := { s with
      mem := ((s.putCplx (.out 0 0) ((s.rot 1).mul Cplx.one)).putCplx (.out 1 0) ((s.rot 1).mul minus)).mem }
    1 < s.rotOrder ∧ (∀ q < s.rotOrder, (s.rot q).IsQuarterTurn) ∧
    (∀ q < s.rotOrder, ∀ p < s.rotOrder, ∃ x < s.rotOrder, (s.rot x).eqv ((s.rot q).mul (s.rot p)) = true) ∧
    ∀ t < s.modes, ∃ x ∈ [Cplx.one, minus], s.outSym t 0 = .ok x ∧ x.isFinite = true ∧
      s'.outSym t 0 = .ok ((s.rot 1).mul x) ∧ s'.refSym t 0 = s.refSym t 0 ∧ s'.point t = s.point t := by
  unfold Cplx.IsQuarterTurn; decide +kernel

/-- EstimateIgnoresTheLabelsOfOutputModes, for a rotation: the products of that table with the outputs are exact. -/
theorem witness_rotates_exactly : (twoModes (b1, bm1)).RotatesExactly 1 := by
  have hR : (twoModes (b1, bm1)).rotOrder = 2 := by decide
  have hM : (twoModes (b1, bm1)).modes = 2 := by decide
  have hS : (twoModes (b1, bm1)).estStart = 0 := by decide
  have hL : (twoModes (b1, bm1)).estLen = 1 := by decide
  have hx : ∀ t < 2, ∀ q < 2, ∃ z, (twoModes (b1, bm1)).outSym t 0 = .ok z ∧
      (((twoModes (b1, bm1)).rot q).mul (((twoModes (b1, bm1)).rot 1).mul z)).eqv
        (((twoModes (b1, bm1)).rot (1 - q)).mul z) = true := by
    have h : ∀ t < 2, ∀ q < 2, ∃ z ∈ [Cplx.one, ⟨.fin true F64.one, F64.zero⟩],
        (twoModes (b1, bm1)).outSym t 0 = .ok z ∧
        (((twoModes (b1, bm1)).rot q).mul (((twoModes (b1, bm1)).rot 1).mul z)).eqv
          (((twoModes (b1, bm1)).rot (1 - q)).mul z) = true := by decide +kernel
    exact fun t ht q hq => let ⟨z, _, hz⟩ := h t ht q hq; ⟨z, hz⟩
  have hc : ∀ q < 2, ((twoModes (b1, bm1)).rot (1 - q)).eqv
      (((twoModes (b1, bm1)).rot q).mul ((twoModes (b1, bm1)).rot 1)) = true := by decide +kernel
  have turned : ∀ q < 2, ∀ t k x, t < (twoModes (b1, bm1)).modes → (twoModes (b1, bm1)).estStart ≤ k →
      k < (twoModes (b1, bm1)).estStart + (twoModes (b1, bm1)).estLen → (twoModes (b1, bm1)).outSym t k = .ok x →
      (((twoModes (b1, bm1)).rot q).mul (((twoModes (b1, bm1)).rot 1).mul x)).eqv
        (((twoModes (b1, bm1)).rot (1 - q)).mul x) = true := by
    intro q hq t k x ht _ h2 ho
    obtain rfl : k = 0 := by omega
    obtain ⟨z, hz, he⟩ := hx t (by omega) q hq
    rw [ho] at hz
    cases hz
    exact he
  refine ⟨fun q hq => ⟨1 - q, by omega, hc q (by omega), turned q (by omega)⟩, fun p hp => ⟨1 - p, by omega, ?_⟩⟩
  have h := And.intro (hc (1 - p) (by omega)) (turned (1 - p) (by omega))
  rwa [show 1 - (1 - p) = p by omega] at h

/-- AccumulatorsChangeOnlyInThreeWays: a step that changes them, by ESTIMATE, by ACC_CLEAR and by a reset. -/
theorem witness_accumulators :
    let s : State := { small with acc := ⟨1, 2, 3, 4, 5⟩ }
    nextIs (step (running s (.estimate true true))) (fun t => t.acc != s.acc && t.status.estValid) = true ∧
    nextIs (step (running s .accClear)) (fun t => t.acc != s.acc) = true ∧
    nextIs (step { s with schedule := [.rstN false] }) (fun t => t.acc != s.acc) = true := by decide +kernel

/-- AbortLeavesTheWriteSetFreeAndNothingElse: an ABORT write, a running command with a request, and a register and a
byte outside its write set. -/
theorem witness_abort :
    let s : State := { running small (.equalize false) with abortReq := true }
    (2 : Word).getLsbD 1 = true ∧ (2 : Word).getLsbD 2 = false ∧
    s.engine = .running (.legal (.equalize false)) ∧ s.abortReq = true ∧
    Reg.frameOffset ∉ s.writeSetRegs (.legal (.equalize false)) ∧
    ¬ State.inRanges (s.writeSetRanges (.legal (.equalize false))) 0x400000 := by
  unfold State.inRanges; decide +kernel

/-- RoundingIsToNearestEven: a tie (2^53 + 1 is halfway between two values), and the two ends of the finite range. -/
theorem witness_rounding : F64.round false (2 ^ 53 + 1) 1 = .fin false (2 ^ 53) ∧
    F64.round true (2 ^ 2098 - 2 ^ 2044) 1 = .inf true ∧
    F64.round false (2 ^ 2098 - 2 ^ 2044 - 1) 1 = .fin false (2 ^ 2098 - 2 ^ 2045) := by decide +kernel

/-- RoundingIsToNearestEven, on the operations: finite operands, and a divisor that is not 0. -/
theorem witness_operands : F64.oneVal.isFinite = true ∧ (F64.fin true 1).isFinite = true ∧ F64.oneVal.toRat ≠ 0 := by
  refine ⟨rfl, rfl, ?_⟩
  exact div_ne_zero (Int.cast_ne_zero.2 (Int.natCast_ne_zero.2 F64.one_pos.ne')) (pow_ne_zero _ (by norm_num))

/-- CommandsWriteOnlyTheirWriteSet and ValidBitsAreSetOnlyBySuccess: commands that go on from `small`; the tests
above and `witness_equalize_success`, `witness_coarse_sync` and `witness_recover` show the others. -/
theorem witness_commands_go_on :
    ([.nop, .checkLayout, .estimate true true, .accClear] : List Instr).all
      (fun i => nextIs (exec i small) fun t => t.err == ⟨0, 0⟩) = true := by decide +kernel

/-- EveryStopNamesAnUnwrittenEntry: a step that stops. -/
theorem witness_stop : (match step (running { small with mem := [] } .checkLayout) with
    | .fault (.uninitRead e) => e == .pilot 0 0
    | _ => false) = true := by decide +kernel

/-- EveryStepKeepsTheInvariant and EveryStepWritesImplementedEntriesOnly: reset meets both invariants, and steps. -/
theorem witness_invariants : State.reset.Inv ∧ State.reset.memImplemented ∧
    nextIs (step State.reset) (fun _ => true) = true := by
  refine ⟨?_, fun c hc => (by cases hc), by decide⟩
  exact { memWf := rfl, running := fun c h => (by cases h), idle := fun _ => rfl, held := fun _ => rfl
          err := rfl, divWhere := by decide, estBest := by decide }

end Sys2Proof.Tests
end

section
/-! PROOFS. The number system (spec/00_scope.md R14, R15, R17): an operation is its exact result rounded once, to the
nearest value of 53 significant bits, ties to even; and the special values. -/

namespace Sys2Proof.Machine

/-- A representable magnitude with a bit below place `sh` is smaller than one with a full significand there. -/
theorem Representable.lt_of_not_dvd {m sh : Nat} (h : Representable m) (hd : ¬ 2 ^ sh ∣ m) :
    m < 2 ^ 52 * 2 ^ sh := by
  obtain ⟨a, e, ha, rfl⟩ := h
  have he : e + 1 ≤ sh := by
    by_contra hc
    exact hd (dvd_mul_of_dvd_right (pow_dvd_pow 2 (by omega)) a)
  calc a * 2 ^ e < 2 ^ 53 * 2 ^ e := (Nat.mul_lt_mul_right (by positivity)).2 ha
    _ = 2 ^ 52 * 2 ^ (e + 1) := by rw [pow_succ 2 e]; ring
    _ ≤ 2 ^ 52 * 2 ^ sh := Nat.mul_le_mul_left _ (Nat.pow_le_pow_right (by norm_num) he)

namespace F64

/-! ## Rounding to an integer is to the nearest, ties to even -/

/-- Between two integers the rounded quotient is the even one. -/
theorem even_divNearestEven_of_tie {n d : Nat} (hd : 0 < d)
    (h : 2 * ((divNearestEven n d : Int) * d - n).natAbs = d) : Even (divNearestEven n d) := by
  have hn := Nat.div_add_mod n d
  have hr := Nat.mod_lt n hd
  revert h
  unfold divNearestEven
  dsimp only
  generalize n / d = q at *
  generalize n % d = r at *
  subst hn
  split
  · intro h; exfalso; push_cast at h; ring_nf at h; omega
  · split
    · intro _; exact Nat.even_iff.2 (by omega)
    · intro h; exfalso; push_cast at h; ring_nf at h; omega

/-- The rounded quotient is at most half a divisor away. -/
theorem natAbs_divNearestEven_le (n : Nat) {d : Nat} (hd : 0 < d) :
    2 * ((divNearestEven n d : Int) * d - n).natAbs ≤ d := by
  obtain ⟨h1, h2⟩ := divNearestEven_close n hd
  push_cast at h1 h2
  rw [mul_comm (d : Int)] at h1 h2
  omega

/-- Two different multiples of `d` are not both nearer than half of `d` to `n`. -/
theorem le_natAbs_mul_sub_add_natAbs_mul_sub {q c : Nat} (n d : Nat) (h : c ≠ q) :
    d ≤ ((q : Int) * d - n).natAbs + ((c : Int) * d - n).natAbs := by
  have key : (c + 1) * d ≤ q * d ∨ (q + 1) * d ≤ c * d :=
    (Nat.lt_or_gt_of_ne h).imp (Nat.mul_le_mul_right d) (Nat.mul_le_mul_right d)
  rw [Nat.add_mul, Nat.add_mul, Nat.one_mul] at key
  zify at key
  omega

/-- No multiple of the divisor is nearer than the rounded quotient's; one as near is a tie, which goes to even. -/
theorem divNearestEven_nearest (n : Nat) {d : Nat} (hd : 0 < d) (c : Nat) :
    ((divNearestEven n d : Int) * d - n).natAbs ≤ ((c : Int) * d - n).natAbs ∧
      (c ≠ divNearestEven n d →
        ((divNearestEven n d : Int) * d - n).natAbs = ((c : Int) * d - n).natAbs → Even (divNearestEven n d)) := by
  have hle := natAbs_divNearestEven_le n hd
  refine ⟨?_, fun hc he => even_divNearestEven_of_tie hd ?_⟩
  · by_cases hc : c = divNearestEven n d
    · rw [hc]
    · have := le_natAbs_mul_sub_add_natAbs_mul_sub n d hc
      omega
  · have := le_natAbs_mul_sub_add_natAbs_mul_sub n d hc
    omega

/-- The rounded quotient reaches an even number from the midpoint below it on. -/
theorem even_le_divNearestEven_iff (n : Nat) {d m : Nat} (hd : 0 < d) (hm : Even m) :
    m ≤ divNearestEven n d ↔ 2 * (m * d) ≤ 2 * n + d := by
  have hle := natAbs_divNearestEven_le n hd
  constructor
  · intro h
    have := Nat.mul_le_mul_right d h
    zify at this ⊢
    omega
  · intro h
    by_contra hc
    have h1 := Nat.mul_le_mul_right d (show divNearestEven n d + 1 ≤ m by omega)
    rw [Nat.add_mul, Nat.one_mul] at h1
    have he := even_divNearestEven_of_tie (n := n) hd (by zify at h h1; omega)
    have h2 := Nat.mul_le_mul_right d (show divNearestEven n d + 2 ≤ m by grind)
    rw [Nat.add_mul] at h2
    zify at h h2 hd
    omega

/-- When low bits are dropped, the quotient has a full significand above them. -/
theorem le_of_roundShift_pos {n d : Nat} (h : 0 < roundShift n d) :
    2 ^ 52 * (d * 2 ^ roundShift n d) ≤ n := by
  have h0 : n / d ≠ 0 := by
    intro h0
    simp [roundShift, h0] at h
  have hlog : 52 + roundShift n d = (n / d).log2 := by unfold roundShift at h ⊢; omega
  calc 2 ^ 52 * (d * 2 ^ roundShift n d) = d * 2 ^ (n / d).log2 := by rw [← hlog, pow_add]; ring
    _ ≤ d * (n / d) := Nat.mul_le_mul_left _ (Nat.log2_self_le h0)
    _ ≤ n := Nat.mul_div_le n d

theorem lt_of_roundShift_lt {n d sh : Nat} (hd : 0 < d) (h : roundShift n d < sh) : n < 2 ^ (52 + sh) * d := by
  rw [← Nat.div_lt_iff_lt_mul hd]
  refine Nat.lt_log2_self.trans_le (Nat.pow_le_pow_right two_pos ?_)
  unfold roundShift at h
  omega

theorem divNearestEven_roundShift_le (n d : Nat) : divNearestEven n (d * 2 ^ roundShift n d) ≤ 2 ^ 53 := by
  have hr := divNearestEven_le n (d * 2 ^ roundShift n d)
  have hq := div_roundShift_lt (n := n) (d := d)
  omega

/-! ## Rounding to binary64 is to the nearest, ties to even -/

theorem round_eq_inf {neg t : Bool} {n d : Nat} (h : round neg n d = .inf t) : t = neg := by
  rw [round_eq] at h
  split at h
  · cases h; rfl
  · cases h

theorem round_eq_fin {neg t : Bool} {n d k : Nat} (h : round neg n d = .fin t k) :
    t = neg ∧ k = divNearestEven n (d * 2 ^ roundShift n d) * 2 ^ roundShift n d := by
  rw [round_eq] at h
  split at h
  · cases h
  · cases h; exact ⟨rfl, rfl⟩

theorem round_eq_inf_iff_limit (neg : Bool) (n d : Nat) : round neg n d = .inf neg ↔
    2 ^ 2098 ≤ divNearestEven n (d * 2 ^ roundShift n d) * 2 ^ roundShift n d := by
  rw [round_eq, limit_eq]
  split <;> simp [*]

/-- From the midpoint beyond the largest finite value on, and only there, the rounding is an infinity. The last place
of a value at this midpoint is `2^2045`. -/
theorem round_eq_inf_iff (neg : Bool) (n : Nat) {d : Nat} (hd : 0 < d) :
    round neg n d = .inf neg ↔ (2 ^ 2098 - 2 ^ 2044) * d ≤ n := by
  have hD : 0 < d * 2 ^ roundShift n d := by positivity
  have h2098 : 2 ^ 2098 = 2 ^ 53 * 2 ^ 2045 := pow_add 2 53 2045
  have h2097 : 2 ^ (52 + 2045) = 2 ^ 52 * 2 ^ 2045 := pow_add 2 52 2045
  have h2045 : 2 ^ 2045 = 2 * 2 ^ 2044 := pow_succ' 2 2044
  rw [round_eq_inf_iff_limit, Nat.sub_mul, tsub_le_iff_right]
  rcases Nat.lt_trichotomy (roundShift n d) 2045 with hs | hs | hs
  · have hk := Nat.mul_le_mul (divNearestEven_roundShift_le n d)
      (Nat.pow_le_pow_right two_pos (show roundShift n d ≤ 2044 by omega))
    have hn := lt_of_roundShift_lt hd hs
    rw [h2097, h2045] at hn
    rw [h2098, h2045]
    have h0 : 0 < 2 ^ 2044 := by positivity
    generalize 2 ^ 2044 = T at *
    refine iff_of_false (by omega) ?_
    rw [Nat.mul_assoc, Nat.mul_assoc] at hn ⊢
    omega
  · have h53 := even_le_divNearestEven_iff n hD (m := 2 ^ 53) (by decide)
    rw [hs] at h53 ⊢
    rw [h2098, Nat.mul_le_mul_right_iff (by positivity), h53, h2045, Nat.mul_left_comm, Nat.mul_assoc, Nat.mul_assoc,
      Nat.mul_comm d]
    omega
  · have hfull := le_of_roundShift_pos (n := n) (d := d) (by omega)
    have h52 := (even_le_divNearestEven_iff n hD (m := 2 ^ 52) (by decide)).2 (by omega)
    have hp : 2 ^ 2098 ≤ 2 ^ 52 * 2 ^ roundShift n d :=
      (pow_add 2 52 2046).trans_le (Nat.mul_le_mul_left _ (Nat.pow_le_pow_right two_pos hs))
    refine iff_of_true (hp.trans (Nat.mul_le_mul_right _ h52)) (le_add_right ?_)
    calc 2 ^ 2098 * d ≤ 2 ^ 52 * 2 ^ roundShift n d * d := Nat.mul_le_mul_right d hp
      _ = 2 ^ 52 * (d * 2 ^ roundShift n d) := by rw [Nat.mul_assoc, Nat.mul_comm d]
      _ ≤ n := hfull

/-- A magnitude with bits below place `sh` is farther from a greater quotient than the least one with a full
significand at that place. -/
theorem natAbs_lt_of_not_dvd {n d m sh : Nat} (hd : 0 < d) (hm : Representable m) (hdvd : ¬ 2 ^ sh ∣ m)
    (hfull : 2 ^ 52 * (d * 2 ^ sh) ≤ n) :
    (((2 ^ 52 : Nat) : Int) * ((d * 2 ^ sh : Nat) : Int) - n).natAbs < ((m : Int) * d - n).natAbs := by
  have hlt := Nat.mul_lt_mul_of_pos_right (hm.lt_of_not_dvd hdvd) hd
  rw [Nat.mul_assoc, Nat.mul_comm (2 ^ sh)] at hlt
  generalize d * 2 ^ sh = D at *
  zify at hlt hfull
  push_cast
  omega

/-- No representable magnitude is nearer to the exact quotient than the rounded one; one as near is a tie, which goes
to the even significand. -/
theorem round_nearest {neg : Bool} {n d k m : Nat} (hd : 0 < d) (h : round neg n d = .fin neg k)
    (hm : Representable m) :
    ((k : Int) * d - n).natAbs ≤ ((m : Int) * d - n).natAbs ∧
      (m ≠ k → ((k : Int) * d - n).natAbs = ((m : Int) * d - n).natAbs →
        ∃ c e : Nat, k = 2 * c * 2 ^ e ∧ 2 * c ≤ 2 ^ 53) := by
  have hr := divNearestEven_roundShift_le n d
  have hD : 0 < d * 2 ^ roundShift n d := by positivity
  have hnear := divNearestEven_nearest n hD
  have hfull := le_of_roundShift_pos (n := n) (d := d)
  obtain ⟨-, rfl⟩ := round_eq_fin h
  generalize divNearestEven n (d * 2 ^ roundShift n d) = r at *
  generalize roundShift n d = sh at *
  have hscale : ∀ c : Nat, ((c * 2 ^ sh : Nat) : Int) * d - n = (c : Int) * ((d * 2 ^ sh : Nat) : Int) - n := by
    intro c; push_cast; ring
  rw [hscale]
  by_cases hdvd : 2 ^ sh ∣ m
  · obtain ⟨c, rfl⟩ := hdvd
    rw [Nat.mul_comm (2 ^ sh) c, hscale]
    refine ⟨(hnear c).1, fun hne htie => ?_⟩
    obtain ⟨a, ha⟩ := (hnear c).2 (fun hc => hne (by rw [hc])) htie
    exact ⟨a, sh, by rw [ha, Nat.two_mul], by omega⟩
  · have hsh : 0 < sh := Nat.pos_of_ne_zero fun h0 => hdvd (by rw [h0]; exact one_dvd m)
    have hlt := (hnear (2 ^ 52)).1.trans_lt (natAbs_lt_of_not_dvd hd hm hdvd (hfull hsh))
    exact ⟨hlt.le, fun _ he => absurd he hlt.ne⟩

/-! ## The rational number of a value -/

@[simp] theorem signed_false (k : Nat) : signed false k = k := rfl

@[simp] theorem signed_true (k : Nat) : signed true k = -(k : Int) := rfl

theorem toRat_fin (s : Bool) (k : Nat) : (fin s k).toRat = (signed s k : ℚ) / 2 ^ 1074 := rfl

theorem toRat_neg (a : F64) : a.neg.toRat = -a.toRat := by
  cases a with
  | nan => simp [neg, toRat]
  | inf s => simp [neg, toRat]
  | fin s k => cases s <;> simp [neg, toRat, neg_div]

theorem isFinite_neg (a : F64) : a.neg.isFinite = a.isFinite := by cases a <;> rfl

/-- A finite value is its sign and magnitude. -/
theorem isFinite_iff {a : F64} : a.isFinite = true ↔ ∃ s k, a = .fin s k := by
  cases a <;> simp [isFinite]

theorem signed_xor_mul (s t : Bool) (k l : Nat) : signed (s ^^ t) (k * l) = signed s k * signed t l := by
  cases s <;> cases t <;> simp

theorem signed_mul_same (s : Bool) (k l : Nat) : signed s k * signed s l = (k * l : Nat) := by
  rw [← signed_xor_mul, Bool.xor_self, signed_false]

theorem signed_decide_natAbs (z : Int) : signed (decide (z < 0)) z.natAbs = z := by
  by_cases h : z < 0
  · rw [decide_eq_true h, signed_true]; omega
  · rw [decide_eq_false h, signed_false]; omega

theorem abs_signed (s : Bool) (k : Nat) : |signed s k| = k := by
  cases s <;> simp

/-- A nonzero ratio has the sign it is given. -/
theorem eq_true_iff_ratio_neg {neg : Bool} {n d : Nat} (hd : 0 < d)
    (h0 : (signed neg n : ℚ) / (d * 2 ^ 1074) ≠ 0) : neg = true ↔ (signed neg n : ℚ) / (d * 2 ^ 1074) < 0 := by
  have hC : (0 : ℚ) < d * 2 ^ 1074 := by positivity
  have hn : n ≠ 0 := by rintro rfl; exact h0 (by cases neg <;> simp)
  rw [div_lt_iff₀ hC, zero_mul, Int.cast_lt_zero]
  cases neg with
  | false => simp
  | true => simpa using Nat.pos_of_ne_zero hn

/-- R14's midpoint beyond the largest finite value, on the integers the rounding works on. -/
theorem midpoint_le_abs_iff {neg : Bool} {n d : Nat} (hd : 0 < d) :
    2 ^ 1024 - 2 ^ 970 ≤ |(signed neg n : ℚ) / (d * 2 ^ 1074)| ↔ (2 ^ 2098 - 2 ^ 2044) * d ≤ n := by
  have hC : (0 : ℚ) < d * 2 ^ 1074 := by positivity
  have hle : 2 ^ 2044 ≤ 2 ^ 2098 := Nat.pow_le_pow_right (by norm_num) (by norm_num)
  have h1 : (2 : ℚ) ^ 2098 = 2 ^ 1024 * 2 ^ 1074 := pow_add 2 1024 1074
  have h2 : (2 : ℚ) ^ 2044 = 2 ^ 970 * 2 ^ 1074 := pow_add 2 970 1074
  rw [abs_div, abs_of_pos hC, ← Int.cast_abs, abs_signed, le_div_iff₀ hC, ← Nat.cast_le (α := ℚ), Nat.cast_mul,
    Nat.cast_sub hle, Nat.cast_pow, Nat.cast_pow, Nat.cast_ofNat, h1, h2, Int.cast_natCast, ← sub_mul, mul_assoc,
    mul_comm (d : ℚ)]

/-- The distance of a value from a ratio, over the common denominator. -/
theorem abs_toRat_sub_ratio (b neg : Bool) (m n : Nat) {d : Nat} (hd : 0 < d) :
    |(fin b m).toRat - (signed neg n : ℚ) / (d * 2 ^ 1074)| =
      ((signed b m * d - signed neg n).natAbs : ℚ) / (d * 2 ^ 1074) := by
  have hC : (0 : ℚ) < d * 2 ^ 1074 := by positivity
  have hd' : (d : ℚ) ≠ 0 := Nat.cast_ne_zero.2 hd.ne'
  have hdiff : (fin b m).toRat - (signed neg n : ℚ) / (d * 2 ^ 1074) =
      ((signed b m * d - signed neg n : Int) : ℚ) / (d * 2 ^ 1074) := by
    rw [toRat_fin, Int.cast_sub, Int.cast_mul, Int.cast_natCast, sub_div, mul_comm (d : ℚ), mul_div_mul_right _ _ hd']
  rw [hdiff, abs_div, abs_of_pos hC, ← Int.cast_abs, Nat.cast_natAbs]

theorem natAbs_signed_sub_same (s : Bool) (m n d : Nat) :
    (signed s m * d - signed s n).natAbs = ((m : Int) * d - n).natAbs := by
  cases s with
  | false => rfl
  | true => rw [signed_true, signed_true, neg_mul, neg_sub_neg, ← Int.natAbs_neg, neg_sub]

/-- Values of opposite signs are no nearer to each other than their magnitudes are. -/
theorem natAbs_sub_le_natAbs_signed_sub (b neg : Bool) (m n d : Nat) :
    ((m : Int) * d - n).natAbs ≤ (signed b m * d - signed neg n).natAbs := by
  by_cases h : b = neg
  · rw [h, natAbs_signed_sub_same]
  · obtain rfl := Bool.eq_not.2 h
    have := mul_nonneg (Int.natCast_nonneg m) (Int.natCast_nonneg d)
    cases neg <;> simp only [Bool.not_true, Bool.not_false, signed_false, signed_true, neg_mul] <;> omega

theorem midpoint_pos : (0 : ℚ) < 2 ^ 1024 - 2 ^ 970 :=
  sub_pos.2 (pow_lt_pow_right₀ (by norm_num) (by norm_num))

/-- A zero stands for an exact 0. -/
theorem roundOf_zero (s : Bool) : RoundOf 0 (fin s 0) := by
  have h0 : (fin s 0).toRat = 0 := by cases s <;> simp [toRat]
  refine ⟨?_, valid_fin_zero s, fun h => absurd rfl h, fun b m _ => ⟨?_, fun _ _ => ⟨0, 0, rfl, by norm_num⟩⟩⟩
  · rw [abs_zero]
    exact midpoint_pos
  · rw [h0, sub_zero, abs_zero]
    exact abs_nonneg _

/-- `round` gives the rounding of the exact number whose sign and magnitude it is given. -/
theorem roundOf_round {neg : Bool} {n d : Nat} {x : ℚ} (hd : 0 < d)
    (hx : x = (signed neg n : ℚ) / (d * 2 ^ 1074)) : RoundOf x (round neg n d) := by
  have hsign : x ≠ 0 → (neg = true ↔ x < 0) := by rw [hx]; exact eq_true_iff_ratio_neg hd
  have hover := midpoint_le_abs_iff (neg := neg) (n := n) hd
  rw [← hx, ← round_eq_inf_iff neg n hd] at hover
  have hv := round_valid neg n d
  cases hk : round neg n d with
  | nan => rw [round_eq] at hk; split at hk <;> cases hk
  | inf t =>
    obtain rfl := round_eq_inf hk
    have hx0 : x ≠ 0 := by
      rintro rfl
      exact absurd (hover.2 hk) (not_le.2 (by rw [abs_zero]; exact midpoint_pos))
    exact ⟨hover.2 hk, hsign hx0⟩
  | fin t k =>
    obtain ⟨rfl, -⟩ := round_eq_fin hk
    refine ⟨not_le.1 fun h => ?_, hk ▸ hv, hsign, fun b m hm => ?_⟩
    · rw [hover.1 h] at hk; cases hk
    · obtain ⟨hle, htie⟩ := round_nearest hd hk hm
      have hge := natAbs_sub_le_natAbs_signed_sub b t m n d
      rw [hx, abs_toRat_sub_ratio t t k n hd, abs_toRat_sub_ratio b t m n hd, natAbs_signed_sub_same]
      refine ⟨?_, fun hne he => htie hne ?_⟩
      · gcongr
        exact hle.trans hge
      · rw [div_left_inj' (by positivity), Nat.cast_inj] at he
        omega

/-! ## The operations on finite operands -/

theorem roundOf_add {a b : F64} (ha : a.isFinite = true) (hb : b.isFinite = true) :
    RoundOf (a.toRat + b.toRat) (a.add b) := by
  obtain ⟨s, k, rfl⟩ := isFinite_iff.1 ha
  obtain ⟨t, l, rfl⟩ := isFinite_iff.1 hb
  have hsum : (fin s k).toRat + (fin t l).toRat = ((signed s k + signed t l : Int) : ℚ) / 2 ^ 1074 := by
    rw [toRat_fin, toRat_fin, ← add_div, Int.cast_add]
  rw [hsum, add]
  split
  · next h => rw [h, Int.cast_zero, zero_div]; exact roundOf_zero _
  · exact roundOf_round Nat.one_pos (by rw [signed_decide_natAbs, Nat.cast_one, one_mul])

theorem roundOf_sub {a b : F64} (ha : a.isFinite = true) (hb : b.isFinite = true) :
    RoundOf (a.toRat - b.toRat) (a.sub b) := by
  rw [sub_eq_add_neg, ← toRat_neg]
  exact roundOf_add ha (by rwa [isFinite_neg])

theorem roundOf_mul {a b : F64} (ha : a.isFinite = true) (hb : b.isFinite = true) :
    RoundOf (a.toRat * b.toRat) (a.mul b) := by
  obtain ⟨s, k, rfl⟩ := isFinite_iff.1 ha
  obtain ⟨t, l, rfl⟩ := isFinite_iff.1 hb
  refine roundOf_round one_pos ?_
  rw [signed_xor_mul, toRat_fin, toRat_fin, div_mul_div_comm, Int.cast_mul, one_eq, Nat.cast_pow, Nat.cast_ofNat]

theorem roundOf_div {a b : F64} (ha : a.isFinite = true) (hb : b.isFinite = true) (h0 : b.toRat ≠ 0) :
    RoundOf (a.toRat / b.toRat) (a.div b) := by
  obtain ⟨s, k, rfl⟩ := isFinite_iff.1 ha
  obtain ⟨t, l, rfl⟩ := isFinite_iff.1 hb
  have hl : l ≠ 0 := by rintro rfl; exact h0 (by cases t <;> simp [toRat])
  rw [div, if_neg hl]
  refine roundOf_round (Nat.pos_of_ne_zero hl) ?_
  rw [signed_xor_mul, toRat_fin, toRat_fin, div_div_div_cancel_right₀ (by positivity), one_eq]
  have hsl : (signed t l : ℚ) ≠ 0 := Int.cast_ne_zero.2 (by cases t <;> simp [hl])
  rw [div_eq_div_iff hsl (by positivity), ← Int.cast_mul, mul_assoc, signed_mul_same, Int.cast_mul,
    Int.cast_natCast, Nat.cast_mul, Nat.cast_pow, Nat.cast_ofNat, mul_comm (l : ℚ)]

/-! ## Special values -/

theorem lt_nan (x : F64) : x.lt nan = false := by cases x <;> rfl

theorem eqv_nan (x : F64) : x.eqv nan = false := by cases x <;> rfl

end F64

/-- Settles O51: the integers the operations round carry the exact result, and `F64.round` is to the nearest of them,
ties to even. -/
theorem roundingIsToNearestEven : Obligations.RoundingIsToNearestEven := by
  refine ⟨fun neg n d hd => ⟨F64.round_eq_inf_iff neg n hd, fun k hk => ⟨hk ▸ F64.round_valid neg n d, ?_, ?_⟩⟩,
    fun a b ha hb => ⟨F64.roundOf_add ha hb, F64.roundOf_sub ha hb, F64.roundOf_mul ha hb, F64.roundOf_div ha hb,
      F64.toRat_neg a⟩,
    fun a b x => ⟨rfl, rfl, rfl, rfl, rfl, rfl, rfl⟩⟩
  · exact fun m hm => (F64.round_nearest hd hk hm).1
  · exact fun m hm => (F64.round_nearest hd hk hm).2

/-- Settles O52: the cases of the operations on the special values. -/
theorem specialValuesOfArithmetic : Obligations.SpecialValuesOfArithmetic := by
  refine ⟨fun s t => rfl, fun s t k hk => ?_, fun s => ?_, fun s t => ⟨rfl, rfl⟩, fun x =>
    ⟨rfl, F64.lt_nan x, rfl, ?_, F64.lt_nan x, rfl, ?_, rfl, rfl⟩⟩
  · rw [F64.div, if_pos rfl, if_neg hk.ne']
  · rw [F64.add, if_neg (by simp)]
  · rw [F64.le, F64.lt_nan, F64.eqv_nan, Bool.or_self]
  · rw [F64.ge, F64.le, F64.lt_nan, F64.eqv_nan, Bool.or_self]

end Sys2Proof.Machine
end

section
/-! PROOFS. The filter bank over one symbol (spec/42_equalizer.md R202 to R205, R209): the output is one sum, a pass
over the bank gives each tap a value computed from the bank as it stood before the pass, and the tap test names the
first tap that fails in its scan. -/

namespace Sys2Proof.Machine

/-! ## The order of the tap loops -/

/-- The order of the tap loops: t slowest, then r, then j (R209). -/
def TapBefore (p q : Nat × Nat × Nat) : Prop :=
  p.1 < q.1 ∨ (p.1 = q.1 ∧ (p.2.1 < q.2.1 ∨ (p.2.1 = q.2.1 ∧ p.2.2 < q.2.2)))

theorem TapBefore.asymm {p q : Nat × Nat × Nat} (h : TapBefore p q) : ¬ TapBefore q p := by
  unfold TapBefore at *; omega

theorem pairwise_tapBefore_triples (m n : Nat) : (triples m n).Pairwise TapBefore := by
  have hpairs : (pairs m n).Pairwise fun p q => p.1 < q.1 ∨ (p.1 = q.1 ∧ p.2 < q.2) := by
    refine List.pairwise_flatMap.2 ⟨fun i _ => ?_, List.pairwise_lt_range.imp fun h => ?_⟩
    · exact List.pairwise_map.2 (List.pairwise_lt_range.imp fun h => .inr ⟨rfl, h⟩)
    · simp only [List.mem_map]
      rintro _ ⟨_, -, rfl⟩ _ ⟨_, -, rfl⟩
      exact .inl h
  refine List.pairwise_flatMap.2 ⟨fun t _ => ?_, List.pairwise_lt_range.imp fun h => ?_⟩
  · exact List.pairwise_map.2 (hpairs.imp fun h => .inr ⟨rfl, h⟩)
  · simp only [List.mem_map]
    rintro _ ⟨_, -, rfl⟩ _ ⟨_, -, rfl⟩
    exact .inl h

theorem nodup_triples (m n : Nat) : (triples m n).Nodup :=
  (pairwise_tapBefore_triples m n).imp fun h he => by subst he; exact h.asymm h

theorem triples_subset {m m' n n' : Nat} (hm : m ≤ m') (hn : n ≤ n') {p : Nat × Nat × Nat} (hp : p ∈ triples m n) :
    p ∈ triples m' n' := by
  rw [mem_triples] at *; omega

/-- In a list sorted by the scan, what comes before an element by the order stands before it in the list. -/
theorem mem_left_of_tapBefore {l₁ l₂ : List (Nat × Nat × Nat)} {p q : Nat × Nat × Nat}
    (hl : (l₁ ++ p :: l₂).Pairwise TapBefore) (hq : q ∈ l₁ ++ p :: l₂) (hqp : TapBefore q p) : q ∈ l₁ := by
  rcases List.mem_append.1 hq with h | h
  · exact h
  · rcases List.mem_cons.1 h with rfl | h
    · exact absurd hqp hqp.asymm
    · exact absurd ((List.pairwise_cons.1 (List.pairwise_append.1 hl).2.1).1 q h) hqp.asymm

namespace State

/-! ## Stores to the bank -/

/-- The entry of a tap by its place (t, r, j). -/
def tapEntry (p : Nat × Nat × Nat) : Entry := .tap p.1 p.2.1 p.2.2

theorem tapEntry_implemented {p : Nat × Nat × Nat} (hp : p ∈ triples Config.mMax Config.nMax) :
    (tapEntry p).implemented = true := by
  obtain ⟨ht, hr, hj⟩ := mem_triples.1 hp
  simp [tapEntry, Entry.implemented, ht, hr, hj]

theorem tapEntry_injective : Function.Injective tapEntry := by
  rintro ⟨t, r, j⟩ ⟨t', r', j'⟩ h
  cases h
  rfl

theorem readCplx_putCplx_tap_ne {p q : Nat × Nat × Nat} (hp : p ∈ triples Config.mMax Config.nMax)
    (hq : q ∈ triples Config.mMax Config.nMax) (h : q ≠ p) (x : State) (z : Cplx) :
    (x.putCplx (tapEntry p) z).readCplx (tapEntry q) = x.readCplx (tapEntry q) :=
  readCplx_putCplx_ne z x (tapEntry_implemented hp) (tapEntry_implemented hq) (fun he => h (tapEntry_injective he.symm))
    rfl rfl

/-- A store to a tap leaves every sample that can be read. -/
theorem sampleAt_putCplx_tap {p : Nat × Nat × Nat} (hp : p ∈ triples Config.mMax Config.nMax) {x : State}
    (hs : x.sampleLen ≤ Config.sMax) (z : Cplx) {r : Nat} (hr : r < Config.mMax) (n : Int) :
    (x.putCplx (tapEntry p) z).sampleAt r n = x.sampleAt r n := by
  have hlen : (x.putCplx (tapEntry p) z).sampleLen = x.sampleLen := by simp [sampleLen]
  unfold sampleAt
  rw [hlen]
  split
  · next hn =>
    have himp : (Entry.sample r n.toNat).implemented = true := by
      simp only [Entry.implemented, Bool.and_eq_true, decide_eq_true_eq]
      omega
    exact readCplx_putCplx_ne z x (tapEntry_implemented hp) himp (by simp [tapEntry]) rfl rfl
  · rfl

theorem inRanges_tapRanges {m n t r j a : Nat} (hm : m ≤ Config.mMax) (hn : n ≤ Config.nMax) (ht : t < m) (hr : r < m)
    (hj : j < n) (h1 : (Entry.tap t r j).offset ≤ a) (h2 : a < (Entry.tap t r j).offset + 16) :
    inRanges (tapRanges m n) a := by
  refine ⟨((Entry.tap t r 0).offset, 4 * min n Config.nMax), ?_, ?_⟩
  · exact List.mem_map.2 ⟨(t, r), mem_pairs.2 (by rw [min_eq_left hm]; exact ⟨ht, hr⟩), rfl⟩
  · rw [min_eq_left hn]
    simp only [Entry.offset] at *
    omega

/-- Stores to the bank change the memory alone. -/
theorem tapClosed_onlyMem (m n : Nat) (s : State) : TapClosed m n fun x => x = { s with mem := x.mem } := by
  intro x t r j z _ _ _ _ hx
  rw [putCplx]
  generalize Memory.writeBits64 _ _ _ = mem
  exact congrArg (fun y : State => { y with mem := mem }) hx

/-- Stores to the bank change no byte outside its ranges. -/
theorem tapClosed_outside {m n : Nat} (hm : m ≤ Config.mMax) (hn : n ≤ Config.nMax) (s : State) :
    TapClosed m n fun x => ∀ a, ¬ inRanges (tapRanges m n) a → x.mem.read a = s.mem.read a := by
  intro x t r j z ht hr hj _ hx a ha
  rw [read_putCplx_other, hx a ha]
  by_contra hc
  exact ha (inRanges_tapRanges hm hn ht hr hj (by omega) (by omega))

/-! ## A pass over the bank -/

/-- A pass over taps: each is stored with the value `g` gives for it in the state the pass has reached. -/
def bankPass (g : State → Nat × Nat × Nat → Eng Cplx) (ps : List (Nat × Nat × Nat)) (s : State) : Eng State :=
  ps.foldlM (fun x p => do pure (x.putCplx (tapEntry p) (← g x p))) s

theorem bankPass_cons {g : State → Nat × Nat × Nat → Eng Cplx} {p : Nat × Nat × Nat} {ps : List (Nat × Nat × Nat)}
    {s u : State} (h : bankPass g (p :: ps) s = .ok u) :
    ∃ z, g s p = .ok z ∧ bankPass g ps (s.putCplx (tapEntry p) z) = .ok u := by
  rw [bankPass, List.foldlM_cons] at h
  obtain ⟨x, hx, h⟩ := bind_eq_ok h
  obtain ⟨z, hz, hx⟩ := bind_eq_ok hx
  cases hx
  exact ⟨z, hz, h⟩

/-- A pass leaves the taps it does not visit. -/
theorem bankPass_other {g : State → Nat × Nat × Nat → Eng Cplx} {ps : List (Nat × Nat × Nat)} {s u : State}
    (hps : ∀ p ∈ ps, p ∈ triples Config.mMax Config.nMax) {q : Nat × Nat × Nat}
    (hq : q ∈ triples Config.mMax Config.nMax) (hqs : q ∉ ps) (h : bankPass g ps s = .ok u) :
    u.readCplx (tapEntry q) = s.readCplx (tapEntry q) := by
  refine foldlM_keeps (fun x => x.readCplx (tapEntry q) = s.readCplx (tapEntry q)) _ ps (fun x p y hp hx hy => ?_) rfl h
  obtain ⟨z, -, hy⟩ := bind_eq_ok hy
  cases hy
  rw [readCplx_putCplx_tap_ne (hps p hp) hq (fun he => hqs (he ▸ hp)), hx]

/-- A pass over distinct taps stores in each the value `g` gives for it before the pass, if `g` gives valid values and
does not see a store to another tap. -/
theorem bankPass_ok {g : State → Nat × Nat × Nat → Eng Cplx} {c : ConfigRegs} {ps : List (Nat × Nat × Nat)}
    {s u : State} (hps : ∀ p ∈ ps, p ∈ triples Config.mMax Config.nMax) (hnd : ps.Nodup)
    (hv : ∀ x p z, g x p = .ok z → z.Valid)
    (hg : ∀ x p q z, x.cfg = c → p ∈ ps → q ∈ ps → q ≠ p → g (x.putCplx (tapEntry p) z) q = g x q)
    (hc : s.cfg = c) (h : bankPass g ps s = .ok u) :
    ∀ p ∈ ps, ∃ z, g s p = .ok z ∧ u.readCplx (tapEntry p) = .ok z := by
  induction ps generalizing s with
  | nil => simp
  | cons p ps ih =>
    obtain ⟨hp, hnd⟩ := List.nodup_cons.1 hnd
    have hps' : ∀ q ∈ ps, q ∈ triples Config.mMax Config.nMax := fun q hq => hps q (List.mem_cons_of_mem p hq)
    obtain ⟨z, hz, h⟩ := bankPass_cons h
    intro q hq
    rcases List.mem_cons.1 hq with rfl | hq
    · refine ⟨z, hz, ?_⟩
      rw [bankPass_other hps' (hps q (by simp)) hp h]
      exact readCplx_putCplx_same _ _ (hv _ _ _ hz)
    · obtain ⟨w, hw, hu⟩ := ih hps' hnd
        (fun x a b y hx ha hb => hg x a b y hx (List.mem_cons_of_mem p ha) (List.mem_cons_of_mem p hb))
        (by simpa using hc) h q hq
      rw [hg s p q z hc (by simp) (List.mem_cons_of_mem p hq) (fun he => hp (he ▸ hq))] at hw
      exact ⟨w, hw, hu⟩

/-! ## The output and the update of one symbol -/

/-- R202 (R16 by log entry 7): the output of mode t is one sum over r, then j. -/
theorem firOutput_ok {s : State} {n : Int} {t : Nat} {w x : Nat → Nat → Cplx}
    (h : ∀ r j, r < s.modes → j < s.numTaps →
      s.tap t r j = .ok (w r j) ∧ s.sampleAt r (n + j - s.centre) = .ok (x r j)) :
    s.firOutput n t = .ok (cplxSum (terms s.modes s.numTaps fun r j => (w r j).mul (x r j))) := by
  refine sumCplx_pairs fun r j hr hj => ?_
  obtain ⟨hw, hx⟩ := h r j hr hj
  simp only [hw, hx]
  rfl

/-- The value R203 gives the tap `p`, from the taps and samples of `x`. -/
def updatedTap (s : State) (n : Int) (es : List Cplx) (x : State) (p : Nat × Nat × Nat) : Eng Cplx := do
  let w ← x.readCplx (tapEntry p)
  let v ← x.sampleAt p.2.1 (n + (p.2.2 : Int) - (s.centre : Int))
  pure (w.add (Cplx.scale (s.mu p.1) ((es.getD p.1 Cplx.zero).mul v.conj)))

theorem updatedTap_eq_ok {s x : State} {n : Int} {es : List Cplx} {p : Nat × Nat × Nat} {z : Cplx}
    (h : s.updatedTap n es x p = .ok z) :
    ∃ w v, x.readCplx (tapEntry p) = .ok w ∧ x.sampleAt p.2.1 (n + p.2.2 - s.centre) = .ok v ∧
      z = w.add (Cplx.scale (s.mu p.1) ((es.getD p.1 Cplx.zero).mul v.conj)) := by
  obtain ⟨w, hw, h⟩ := bind_eq_ok h
  obtain ⟨v, hv, h⟩ := bind_eq_ok h
  cases h
  exact ⟨w, v, hw, hv, rfl⟩

theorem adapt_eq_bankPass (s : State) (n : Int) (es : List Cplx) :
    s.adapt n es = bankPass (s.updatedTap n es) (triples s.modes s.numTaps) s := by
  unfold adapt bankPass updatedTap
  simp only [bind_assoc, pure_bind]
  rfl

/-- The update of a tap does not see a store to another tap. -/
theorem updatedTap_putCplx_ne {s x : State} {n : Int} {es : List Cplx} {p q : Nat × Nat × Nat}
    (hp : p ∈ triples Config.mMax Config.nMax) (hq : q ∈ triples Config.mMax Config.nMax) (h : q ≠ p)
    (hs : x.sampleLen ≤ Config.sMax) (z : Cplx) :
    s.updatedTap n es (x.putCplx (tapEntry p) z) q = s.updatedTap n es x q := by
  unfold updatedTap
  rw [readCplx_putCplx_tap_ne hp hq h, sampleAt_putCplx_tap hp hs z (mem_triples.1 hq).2.1]

/-- What a symbol's update leaves in the bank: each tap's own old value plus its step (R203, R204). -/
theorem adapt_tap {s u : State} {n : Int} {es : List Cplx} (hm : s.modes ≤ Config.mMax) (hn : s.numTaps ≤ Config.nMax)
    (hs : s.sampleLen ≤ Config.sMax) (h : s.adapt n es = .ok u) {t r j : Nat} (ht : t < s.modes) (hr : r < s.modes)
    (hj : j < s.numTaps) :
    ∃ w x, s.tap t r j = .ok w ∧ s.sampleAt r (n + j - s.centre) = .ok x ∧
      u.tap t r j = .ok (w.add (Cplx.scale (s.mu t) ((es.getD t Cplx.zero).mul x.conj))) := by
  have hb : ∀ p ∈ triples s.modes s.numTaps, p ∈ triples Config.mMax Config.nMax := fun p => triples_subset hm hn
  rw [adapt_eq_bankPass] at h
  obtain ⟨z, hz, hu⟩ := bankPass_ok (c := s.cfg) hb (nodup_triples _ _)
    (fun x p z hz => by obtain ⟨w, v, -, -, rfl⟩ := updatedTap_eq_ok hz; exact Cplx.add_valid)
    (fun x p q z hx hp hq hne => updatedTap_putCplx_ne (hb p hp) (hb q hq) hne (by rwa [sampleLen, hx]) z)
    rfl h (t, r, j) (mem_triples.2 ⟨ht, hr, hj⟩)
  obtain ⟨w, v, hw, hv, rfl⟩ := updatedTap_eq_ok hz
  exact ⟨w, v, hw, hv, hu⟩

/-- R205: after `writeIdentity` the bank is the identity. -/
theorem writeIdentity_tap {s : State} (hm : s.modes ≤ Config.mMax) (hn : s.numTaps ≤ Config.nMax) {t r j : Nat}
    (ht : t < s.modes) (hr : r < s.modes) (hj : j < s.numTaps) :
    s.writeIdentity.tap t r j = .ok (s.identityTap t r j) := by
  have hpass : bankPass (fun _ p => .ok (s.identityTap p.1 p.2.1 p.2.2)) (triples s.modes s.numTaps) s =
      .ok s.writeIdentity := foldlM_ok _ (fun x p _ => rfl) s
  obtain ⟨z, hz, hu⟩ := bankPass_ok (c := s.cfg) (fun p => triples_subset hm hn) (nodup_triples _ _)
    (fun x p z hz => by cases hz; unfold identityTap; split; exacts [Cplx.valid_one, Cplx.valid_zero])
    (fun _ _ _ _ _ _ _ _ => by rfl) rfl hpass (t, r, j) (mem_triples.2 ⟨ht, hr, hj⟩)
  cases hz
  exact hu

theorem tapsIdentity_writeIdentity {s : State} (hm : s.modes ≤ Config.mMax) (hn : s.numTaps ≤ Config.nMax) :
    s.writeIdentity.tapsIdentity := by
  have hc := writeIdentity_cfg s
  intro t r j ht hr hj
  rw [modes_congr hc] at ht hr
  rw [numTaps_congr hc] at hj
  rw [writeIdentity_tap hm hn ht hr hj, identityTap, identityTap, numTaps_congr hc]

/-! ## The tap test -/

/-- A tap that fails the tap test, with the kind and the value reported (R209). -/
def TapFails (s : State) (v : Divergence) : Prop :=
  ∃ w : Cplx, s.tap v.t v.r v.j = .ok w ∧ v.value = w.abs2 ∧
    ((v.kind = .tapNonfinite ∧ w.isFinite = false) ∨
      (v.kind = .tapLimit ∧ w.isFinite = true ∧ w.abs2.gt s.tapLimit = true))

/-- One tap of the test: it passes and the scan goes on, or the test ends and names it. -/
theorem tapTestOver_cons {s : State} {k : Nat} {p : Nat × Nat × Nat} {ps : List (Nat × Nat × Nat)}
    {d : Option Divergence} (h : s.tapTestOver k (p :: ps) = .ok d) :
    (s.tapPasses p.1 p.2.1 p.2.2 ∧ s.tapTestOver k ps = .ok d) ∨
      ∃ v, d = some v ∧ v.symbol = k ∧ p = (v.t, v.r, v.j) ∧ s.TapFails v := by
  obtain ⟨t, r, j⟩ := p
  obtain ⟨w, hw, h⟩ := bind_eq_ok h
  split at h
  · next hfin =>
    cases h
    exact .inr ⟨_, rfl, rfl, rfl, w, hw, rfl, .inl ⟨rfl, by simpa using hfin⟩⟩
  · next hfin =>
    split at h
    · next hgt =>
      cases h
      exact .inr ⟨_, rfl, rfl, rfl, w, hw, rfl, .inr ⟨rfl, by simpa using hfin, hgt⟩⟩
    · next hgt => exact .inl ⟨⟨w, hw, by simpa using hfin, by simpa using hgt⟩, h⟩

theorem tapTestOver_none {s : State} {k : Nat} {ps : List (Nat × Nat × Nat)} (h : s.tapTestOver k ps = .ok none) :
    ∀ p ∈ ps, s.tapPasses p.1 p.2.1 p.2.2 := by
  induction ps with
  | nil => simp
  | cons p ps ih =>
    rcases tapTestOver_cons h with ⟨hp, h⟩ | ⟨v, hv, -⟩
    · exact List.forall_mem_cons.2 ⟨hp, ih h⟩
    · cases hv

/-- The tap test over a list names a tap that fails; every tap before it passes. -/
theorem tapTestOver_some {s : State} {k : Nat} {ps : List (Nat × Nat × Nat)} {v : Divergence}
    (h : s.tapTestOver k ps = .ok (some v)) :
    v.symbol = k ∧ s.TapFails v ∧
      ∃ l₁ l₂, ps = l₁ ++ (v.t, v.r, v.j) :: l₂ ∧ ∀ p ∈ l₁, s.tapPasses p.1 p.2.1 p.2.2 := by
  induction ps with
  | nil => cases h
  | cons p ps ih =>
    rcases tapTestOver_cons h with ⟨hp, h⟩ | ⟨v', hv, hk, rfl, hf⟩
    · obtain ⟨hk, hf, l₁, l₂, rfl, hl⟩ := ih h
      exact ⟨hk, hf, p :: l₁, l₂, rfl, List.forall_mem_cons.2 ⟨hp, hl⟩⟩
    · cases hv
      exact ⟨hk, hf, [], ps, rfl, by simp⟩

theorem tapTest_none {s : State} {k : Nat} (h : s.tapTest k = .ok none) {t r j : Nat} (ht : t < s.modes)
    (hr : r < s.modes) (hj : j < s.numTaps) : s.tapPasses t r j :=
  tapTestOver_none h (t, r, j) (mem_triples.2 ⟨ht, hr, hj⟩)

/-- R209: the tap test names the first tap of the bank that fails. -/
theorem tapTest_some {s : State} {k : Nat} {v : Divergence} (h : s.tapTest k = .ok (some v)) :
    v.symbol = k ∧ v.t < s.modes ∧ v.r < s.modes ∧ v.j < s.numTaps ∧ s.earlierTapsPass v.t v.r v.j ∧ s.TapFails v := by
  obtain ⟨hk, hf, l₁, l₂, hl, hpass⟩ := tapTestOver_some h
  obtain ⟨ht, hr, hj⟩ := mem_triples.1 (hl ▸ List.mem_append_right l₁ List.mem_cons_self :
    (v.t, v.r, v.j) ∈ triples s.modes s.numTaps)
  refine ⟨hk, ht, hr, hj, fun t r j ht hr hj hbefore => hpass (t, r, j) ?_, hf⟩
  exact mem_left_of_tapBefore (hl ▸ pairwise_tapBefore_triples s.modes s.numTaps)
    (hl ▸ mem_triples.2 ⟨ht, hr, hj⟩) (show TapBefore (t, r, j) (v.t, v.r, v.j) from hbefore)

/-! ## One symbol -/

/-- The error of R203, mode by mode. -/
theorem getD_zipWith_sub {ys targets : List Cplx} {t : Nat} (hy : t < ys.length) (ht : t < targets.length) :
    (List.zipWith Cplx.sub targets ys).getD t Cplx.zero = (targets.getD t Cplx.zero).sub (ys.getD t Cplx.zero) := by
  simp [hy, ht]

/-- A symbol's step is its update and the tap test on the bank it leaves. -/
theorem learn_eq_ok {s u : State} {n : Int} {k : Nat} {ys targets : List Cplx} {dv : Option Divergence}
    (h : s.learn n k ys targets = .ok (u, dv)) :
    s.adapt n (List.zipWith Cplx.sub targets ys) = .ok u ∧ u.tapTest k = .ok dv := by
  obtain ⟨s1, hs, h⟩ := bind_eq_ok h
  obtain ⟨d, hd, h⟩ := bind_eq_ok h
  cases h
  exact ⟨hs, hd⟩

/-! ## What a symbol leaves unchanged -/

theorem adapt_onlyMem {s u : State} {n : Int} {es : List Cplx} (h : s.adapt n es = .ok u) :
    u = { s with mem := u.mem } :=
  adapt_keeps (P := fun x => x = { s with mem := x.mem }) (tapClosed_onlyMem _ _ s) rfl h

theorem adapt_read_outside {s u : State} {n : Int} {es : List Cplx} (hm : s.modes ≤ Config.mMax)
    (hn : s.numTaps ≤ Config.nMax) (h : s.adapt n es = .ok u) {a : Nat}
    (ha : ¬ inRanges (tapRanges s.modes s.numTaps) a) : u.mem.read a = s.mem.read a :=
  adapt_keeps (tapClosed_outside hm hn s) (fun _ _ => rfl) h a ha

theorem writeIdentity_onlyMem (s : State) : s.writeIdentity = { s with mem := s.writeIdentity.mem } :=
  writeIdentity_keeps (P := fun x => x = { s with mem := x.mem }) (tapClosed_onlyMem _ _ s) rfl

theorem writeIdentity_read_outside {s : State} (hm : s.modes ≤ Config.mMax) (hn : s.numTaps ≤ Config.nMax) {a : Nat}
    (ha : ¬ inRanges (tapRanges s.modes s.numTaps) a) : s.writeIdentity.mem.read a = s.mem.read a :=
  writeIdentity_keeps (tapClosed_outside hm hn s) (fun _ _ => rfl) a ha

end State

/-- Settles O39: the update is a pass over the bank, in which no tap's value sees the store to another tap. -/
theorem everyTapIsUpdatedFromItsOwnOldValue : Obligations.EveryTapIsUpdatedFromItsOwnOldValue := by
  refine ⟨fun s n t w x h => State.firOutput_ok h, fun s hm hn hs => ⟨fun u n es h => ⟨?_, ?_, ?_⟩, ?_, ?_, ?_, ?_⟩⟩
  · exact fun t r j ht hr hj => State.adapt_tap hm hn hs h ht hr hj
  · exact State.adapt_onlyMem h
  · exact fun a ha => State.adapt_read_outside hm hn h ha
  · intro u n k ys targets dv hy ht h
    have hc := State.learn_cfg h
    obtain ⟨hadapt, htest⟩ := State.learn_eq_ok h
    refine ⟨fun t r j h1 h2 h3 => ?_, State.adapt_onlyMem hadapt, fun a ha => State.adapt_read_outside hm hn hadapt ha,
      fun hd t r j h1 h2 h3 => ?_, fun v hv => ?_⟩
    · rw [← State.getD_zipWith_sub (by rwa [hy]) (by rwa [ht])]
      exact State.adapt_tap hm hn hs hadapt h1 h2 h3
    · subst hd
      exact State.tapTest_none htest (by rwa [State.modes_congr hc]) (by rwa [State.modes_congr hc])
        (by rwa [State.numTaps_congr hc])
    · subst hv
      obtain ⟨hk, h1, h2, h3, hearlier, hfails⟩ := State.tapTest_some htest
      rw [State.modes_congr hc] at h1 h2
      rw [State.numTaps_congr hc] at h3
      refine ⟨hk, h1, h2, h3, hearlier, ?_⟩
      unfold State.TapFails at hfails
      rwa [show u.tapLimit = s.tapLimit by simp [State.tapLimit, hc]] at hfails
  · exact State.tapsIdentity_writeIdentity hm hn
  · exact State.writeIdentity_onlyMem s
  · exact fun a ha => State.writeIdentity_read_outside hm hn ha

end Sys2Proof.Machine
end

section
/-! PROOFS. The invariant of the step (spec/10_state.md R73, R74; spec/40_control.md R130 to R132; spec/
60_exceptions.md R281 to R285): what a rule may store keeps the memory canonical and the reserved bits 0, every
completion and every reset then re-establishes the invariant, and a host transaction keeps it. -/

namespace Sys2Proof.Machine

/-! ## Reserved bits -/

/-- A word below `2 ^ n` has no bit outside the low `n`. -/
theorem and_not_lowMask_eq_zero {w : Word} {n : Nat} (h : w.toNat < 2 ^ n) :
    w &&& ~~~ BitVec.ofNat 32 (2 ^ n - 1) = 0 := by
  refine BitVec.eq_of_getLsbD_eq fun i hi => ?_
  by_cases hin : i < n
  · have hm : (BitVec.ofNat 32 (2 ^ n - 1)).getLsbD i = true := by
      simp only [BitVec.getLsbD_ofNat, Nat.testBit_two_pow_sub_one, hi, hin, decide_true, Bool.and_true]
    rw [BitVec.getLsbD_and, BitVec.getLsbD_not, hm, Bool.not_true, Bool.and_false, Bool.and_false]
    exact BitVec.getLsbD_zero.symm
  · have hw : w.getLsbD i = false := Nat.testBit_lt_two_pow (h.trans_le (Nat.pow_le_pow_right two_pos (by omega)))
    simp [hw]

theorem and_and_not_eq_zero (w m : Word) : w &&& m &&& ~~~ m = 0 := by
  rw [BitVec.and_assoc, BitVec.and_not_self]
  exact BitVec.and_zero

theorem Divergence.whereWord_reserved (d : Divergence) : d.whereWord &&& ~~~ Reg.divWhere.mask = 0 := by
  refine and_not_lowMask_eq_zero (n := 17) ?_
  have hk : d.kind.code ≤ 1 := by cases d.kind <;> decide
  rw [Divergence.whereWord, BitVec.toNat_ofNat]
  omega

theorem bestWord_reserved (p q : Nat) :
    State.word (p % 2 ^ 8 * 2 ^ 8 + q % 2 ^ 8) &&& ~~~ Reg.estBest.mask = 0 := by
  refine and_not_lowMask_eq_zero (n := 16) ?_
  rw [State.word, BitVec.toNat_ofNat]
  omega

/-- ERR after an error is a pair of R281 to R285. -/
theorem errLegal_of_cmdError (e : CmdError) :
    State.errLegal ⟨BitVec.ofNat 8 e.code, BitVec.ofNat 8 e.sub⟩ = true := by
  cases e with
  | syncFailure f => cases f <;> rfl
  | divergence k => cases k <;> rfl
  | invalidLayout c => cases c <;> rfl
  | illegalCommand x => cases x <;> rfl
  | aborted => rfl

namespace State

/-! ## What validation has established -/

/-- Validation passes only if each of its checks does (R136). -/
theorem checkFails_of_firstFailing_none {s : State} {cs : List Check} (h : s.firstFailing cs = .ok none) {c : Check}
    (hc : c ∈ cs) : s.checkFails c = .ok false := by
  induction cs with
  | nil => cases hc
  | cons d cs ih =>
    obtain ⟨b, hb, h⟩ := bind_eq_ok h
    cases b with
    | true => cases h
    | false =>
      rcases List.mem_cons.1 hc with rfl | hc
      · exact hb
      · exact ih h hc

theorem pilotLen_pos_of_checked {s : State} (h : s.checkFails .pilotLenZero = .ok false) : 1 ≤ s.pilotLen := by
  simp only [checkFails, Except.ok.injEq, decide_eq_false_iff_not] at h
  omega

theorem modes_le_of_checked {s : State} (h : s.checkFails .modesRange = .ok false) : s.modes ≤ Config.mMax := by
  simp only [checkFails, Except.ok.injEq, Bool.or_eq_false_iff, decide_eq_false_iff_not] at h
  omega

theorem centre_lt_of_checked {s : State} (h : s.checkFails .tapsInvalid = .ok false) : s.centre < Config.nMax := by
  simp only [checkFails, Except.ok.injEq, Bool.or_eq_false_iff, decide_eq_false_iff_not] at h
  rw [centre]
  omega

/-! ## What a rule may store -/

/-- The clauses of the invariant on what the engine stores while it runs; a completion or a reset settles the rest. -/
structure WellStored (s : State) : Prop where
  memWf : Memory.wf s.mem = true
  divWhere : s.eqRes.divWhere &&& ~~~ Reg.divWhere.mask = 0
  estBest : s.perfRes.best &&& ~~~ Reg.estBest.mask = 0

theorem Inv.wellStored {s : State} (h : s.Inv) : s.WellStored := ⟨h.memWf, h.divWhere, h.estBest⟩

/-- A state that differs in none of the three fields is as well stored. -/
theorem WellStored.congr {s t : State} (h : s.WellStored)
    (he : (t.mem, t.eqRes.divWhere, t.perfRes.best) = (s.mem, s.eqRes.divWhere, s.perfRes.best)) : t.WellStored := by
  obtain ⟨hm, hd, hb⟩ := by simpa only [Prod.mk.injEq] using he
  exact ⟨hm ▸ h.memWf, hd ▸ h.divWhere, hb ▸ h.estBest⟩

theorem WellStored.putCplx {s : State} (h : s.WellStored) (e : Entry) (z : Cplx) : (s.putCplx e z).WellStored :=
  ⟨wf_putCplx e z h.memWf, by simpa using h.divWhere, by simpa using h.estBest⟩

theorem WellStored.putCorr {s : State} (h : s.WellStored) (i : Nat) (v : F64) : (s.putCorr i v).WellStored :=
  ⟨wf_putCorr i v h.memWf, h.divWhere, h.estBest⟩

theorem WellStored.recordDivergence {s : State} (h : s.WellStored) (d : Divergence) :
    (s.recordDivergence d).WellStored :=
  ⟨h.memWf, d.whereWord_reserved, h.estBest⟩

theorem WellStored.writeEstimate {s : State} (h : s.WellStored) (sc : Score) (al : Alignment) :
    (s.writeEstimate sc al).WellStored :=
  ⟨h.memWf, h.divWhere, bestWord_reserved al.permIndex al.rot⟩

theorem WellStored.writeSnr {s : State} (h : s.WellStored) (sig ep : F64) : (s.writeSnr sig ep).WellStored := by
  unfold State.writeSnr
  split
  · exact h.congr rfl
  · exact h.congr rfl

theorem WellStored.clearValid {s : State} (h : s.WellStored) (c : Decoded) : (s.clearValid c).WellStored :=
  h.congr (by simp)

theorem WellStored.putReg {s : State} (h : s.WellStored) (w : Word) (r : Reg) : (s.putReg w r).WellStored := by
  cases r with
  | divWhere => exact ⟨h.memWf, and_and_not_eq_zero w _, h.estBest⟩
  | estBest => exact ⟨h.memWf, h.divWhere, and_and_not_eq_zero w _⟩
  | _ => exact h.congr rfl

theorem WellStored.drawRegs {s : State} (h : s.WellStored) (rs : List Reg) : (s.drawRegs rs).WellStored :=
  foldl_keeps WellStored _ rs (fun _ _ _ hx => hx.putReg _ _) h

theorem WellStored.drawMem {s : State} (h : s.WellStored) (l : List (Nat × Nat)) : (s.drawMem l).WellStored :=
  ⟨wf_drawMem l h.memWf, h.divWhere, h.estBest⟩

theorem WellStored.drawStatus {s : State} (h : s.WellStored) (c : Decoded) : (s.drawStatus c).WellStored := h.congr rfl

theorem tapClosed_wellStored (m n : Nat) : TapClosed m n WellStored := fun _ _ _ _ z _ _ _ _ hx => hx.putCplx _ z

theorem searchClosed_wellStored (n : Nat) : SearchClosed n WellStored :=
  ⟨fun _ _ _ hx => hx.congr rfl, fun _ _ hx => hx.congr rfl, fun _ i v _ hx => hx.putCorr i v⟩

theorem syncClosed_wellStored (s : State) : SyncClosed s WellStored where
  taps _ := tapClosed_wellStored _ _
  divergence _ _ v hx := hx.recordDivergence v
  search := searchClosed_wellStored _
  syncState _ _ hx := hx.congr rfl
  syncValid _ hx := hx.congr rfl
  chest _ _ _ _ _ _ hx := hx.congr rfl
  frame _ _ hx := hx.congr rfl

/-! ## The bodies of the rules -/

/-- A validated rule leaves the state well stored if its body does, given that the checks pass. -/
theorem validated_wellStored {cs : List Check} {body : State → Eng Ending} {s t : State} {e : Option CmdError}
    (h : s.WellStored)
    (hb : (∀ c ∈ cs, s.checkFails c = .ok false) → ∀ u e, body s = .ok (u, e) → u.WellStored)
    (ht : s.validated cs body = .ok (t, e)) : t.WellStored := by
  rcases validated_ok ht with ⟨c, -, he⟩ | ⟨hpass, hrun⟩
  · cases he; exact h
  · exact hb (fun c hc => checkFails_of_firstFailing_none hpass hc) t e hrun

theorem syncBody_wellStored {seed : Bool} {s t : State} {e : Option CmdError} (h : s.WellStored)
    (hp : s.checkFails .pilotLenZero = .ok false) (ht : s.syncBody seed = .ok (t, e)) : t.WellStored :=
  syncBody_keeps (pilotLen_pos_of_checked hp) (syncClosed_wellStored s) h ht

theorem equalizeBody_wellStored {seed : Bool} {s t : State} {e : Option CmdError} (h : s.WellStored)
    (ht : s.equalizeBody seed = .ok (t, e)) : t.WellStored :=
  equalizeBody_keeps (tapClosed_wellStored _ _) (fun _ _ _ z _ _ _ hx => hx.putCplx _ z)
    (fun _ _ _ _ _ hx => hx.congr rfl) (fun _ v hx => hx.recordDivergence v) (fun _ hx => hx.congr rfl) h ht

theorem recoverBody_wellStored {seed : Bool} {s t : State} {e : Option CmdError} (h : s.WellStored)
    (hp : s.checkFails .pilotLenZero = .ok false) (ht : s.recoverBody seed = .ok (t, e)) : t.WellStored := by
  obtain ⟨⟨u, eu⟩, hsync, ht⟩ := bind_eq_ok ht
  have hu := syncBody_wellStored h hp hsync
  cases eu with
  | some x => cases ht; exact hu
  | none => exact validated_wellStored hu (fun _ v ev hv => equalizeBody_wellStored hu hv) ht

theorem estimateBody_wellStored {synced acc : Bool} {s t : State} {e : Option CmdError} (h : s.WellStored)
    (ht : s.estimateBody synced acc = .ok (t, e)) : t.WellStored :=
  estimateBody_keeps (fun _ sc al hx => hx.writeEstimate sc al) (fun _ a b hx => hx.writeSnr a b)
    (fun _ _ _ hx => hx.congr rfl) (fun _ hx => hx.congr rfl) h ht

/-! ## Completion and resets establish the invariant -/

theorem inv_completeWith {s : State} (h : s.WellStored) {code sub : Nat}
    (he : errLegal ⟨BitVec.ofNat 8 code, BitVec.ofNat 8 sub⟩ = true) : (s.completeWith code sub).Inv where
  memWf := h.memWf
  running _ hc := by cases hc
  idle _ := rfl
  held _ := rfl
  err := he
  divWhere := h.divWhere
  estBest := h.estBest

theorem inv_complete {s : State} (h : s.WellStored) : s.complete.Inv := inv_completeWith h rfl

theorem inv_raise {s : State} (h : s.WellStored) (e : CmdError) : (s.raise e).Inv :=
  inv_completeWith h (errLegal_of_cmdError e)

/-- A rule that leaves the state well stored completes in the invariant, with or without an error (R132). -/
theorem inv_finish {r : Eng Ending} {t : State} (hr : ∀ s e, r = .ok (s, e) → s.WellStored)
    (ht : finish r = .next t) : t.Inv := by
  obtain ⟨s, e, hs, ⟨-, rfl⟩ | ⟨x, -, rfl⟩⟩ := finish_next ht
  · exact inv_complete (hr s e hs)
  · exact inv_raise (hr s e hs) x

theorem inv_abortCommand {s : State} (h : s.WellStored) (c : Decoded) : (s.abortCommand c).Inv :=
  inv_raise ((((h.drawRegs _).drawMem _).drawStatus c).clearValid c) .aborted

theorem inv_resetRegisters {s : State} (h : Memory.wf s.mem = true) : s.resetRegisters.Inv where
  memWf := h
  running _ hc := by cases hc
  idle _ := rfl
  held _ := rfl
  err := rfl
  divWhere := BitVec.zero_and
  estBest := BitVec.zero_and

theorem inv_resetBlock {s : State} (h : Memory.wf s.mem = true) : s.resetBlock.Inv := by
  unfold resetBlock
  split
  · exact inv_resetRegisters h
  · exact inv_resetRegisters (wf_drawMem _ h)

theorem resetBlock_engine (s : State) : s.resetBlock.engine = .idle := by
  unfold resetBlock
  split
  · rfl
  · rfl

/-! ## The moves of the host and of the pin -/

/-- The fields the invariant speaks of. -/
def invFields (s : State) : Memory × Engine × Word × Err × Bool × Bool × Word × Word :=
  (s.mem, s.engine, s.cmd, s.err, s.abortReq, s.rstN, s.eqRes.divWhere, s.perfRes.best)

theorem Inv.congr {s t : State} (h : s.Inv) (he : t.invFields = s.invFields) : t.Inv := by
  simp only [invFields, Prod.mk.injEq] at he
  obtain ⟨hmem, heng, hcmd, herr, habort, hrst, hwhere, hbest⟩ := he
  constructor
  · exact hmem ▸ h.memWf
  · rw [heng, hcmd, herr]; exact h.running
  · rw [heng, habort]; exact h.idle
  · rw [heng, hrst]; exact h.held
  · exact herr ▸ h.err
  · exact hwhere ▸ h.divWhere
  · exact hbest ▸ h.estBest

theorem Inv.withPin {s : State} (h : s.Inv) (level : Bool) (hl : level = false → s.engine = .idle) :
    State.Inv { s with rstN := level } :=
  ⟨h.memWf, h.running, h.idle, hl, h.err, h.divWhere, h.estBest⟩

/-- An accepted word finds the engine the command it decodes to; the port answers only while `rst_n` is high (R130,
R310). -/
theorem inv_accept {s : State} (h : s.Inv) (hr : s.rstN = true) (w : Word) : (s.accept w).Inv where
  memWf := h.memWf
  running _ hc := by cases hc; exact ⟨rfl, rfl⟩
  idle hc := by cases hc
  held hl := absurd (hr.symm.trans hl) (by decide)
  err := rfl
  divWhere := h.divWhere
  estBest := h.estBest

theorem busy_eq_false {s : State} (h : s.engine = .idle) : s.busy = false := by rw [busy, h]

theorem inv_writeCtrl {s : State} (h : s.Inv) (w : Word) : (s.writeCtrl w).Inv := by
  unfold writeCtrl
  split
  · exact inv_resetBlock h.memWf
  · refine ⟨h.memWf, h.running, fun (hi : s.engine = .idle) => ?_, h.held, h.err, h.divWhere, h.estBest⟩
    change (s.abortReq || (s.busy && _)) = false
    rw [h.idle hi, busy_eq_false hi, Bool.false_and, Bool.or_false]

theorem inv_writeCmd {s : State} (h : s.Inv) (hr : s.rstN = true) (w : Word) : (s.writeCmd w).Inv := by
  unfold writeCmd
  split
  · exact h.congr rfl
  · exact inv_accept h hr w

theorem inv_writeReg {s : State} (h : s.Inv) (hr : s.rstN = true) (w : Word) (r : Reg) : (s.writeReg w r).Inv := by
  unfold writeReg
  split
  · exact h
  · exact inv_writeCtrl h w
  · exact inv_writeCmd h hr w
  · exact h.congr rfl
  · split
    · exact h.congr rfl
    · exact h.congr rfl

theorem inv_writeEntry {s : State} (h : s.Inv) (a : Nat) (w : Word) (e : Entry) : (s.writeEntry a w e).Inv := by
  unfold writeEntry
  split
  · exact h
  · split
    · exact h.congr rfl
    · exact ⟨Memory.wf_writeWord a w h.memWf, h.running, h.idle, h.held, h.err, h.divWhere, h.estBest⟩

theorem inv_busWrite {s : State} (h : s.Inv) (hr : s.rstN = true) (a : Nat) (w : Word) (x : Target) :
    (s.busWrite a w x).Inv := by
  cases x with
  | hole => exact h
  | entry e => exact inv_writeEntry h a w e
  | register r =>
    cases r with
    | none => exact h
    | some r => exact inv_writeReg h hr w r

theorem inv_transact {s : State} (h : s.Inv) (hr : s.rstN = true) (q : Request) : (s.transact q).Inv := by
  have hslverr : (s.slverr q.kind).Inv := h.congr rfl
  unfold transact
  dsimp only
  split
  · exact hslverr
  split
  · exact hslverr
  split
  · exact hslverr
  split
  · exact h.congr rfl
  · exact (inv_busWrite h hr _ q.wdata _).congr rfl

theorem inv_hostMove {s : State} (h : s.Inv) : s.hostMove.Inv := by
  unfold hostMove
  split
  · exact h
  · next hr =>
    split
    · exact h
    · next q rest _ => exact inv_transact (s := { s with requests := rest }) (h.congr rfl) (by simpa using hr) q

theorem inv_movePin {s : State} (h : s.Inv) (level : Bool) : (s.movePin level).Inv := by
  unfold movePin
  split
  · exact h.withPin true (by simp)
  · exact (inv_resetBlock h.memWf).withPin false fun _ => resetBlock_engine s

theorem inv_nextTurn {s : State} (h : s.Inv) : s.nextTurn.2.Inv := by
  unfold nextTurn
  split
  · exact h.congr rfl
  · exact h

/-! ## The move of the engine -/

theorem inv_finish_validated {cs : List Check} {body : State → Eng Ending} {s t : State} (h : s.WellStored)
    (hb : (∀ c ∈ cs, s.checkFails c = .ok false) → ∀ u e, body s = .ok (u, e) → u.WellStored)
    (ht : finish (s.validated cs body) = .next t) : t.Inv :=
  inv_finish (fun _ _ hu => validated_wellStored h hb hu) ht

theorem pilotLenZero_mem_syncChecks (n : Nat) : .pilotLenZero ∈ syncChecks n := by
  unfold syncChecks
  split
  · decide
  · decide

/-- Every command ends in the invariant, whatever its outcome. -/
theorem inv_exec {i : Instr} {s t : State} (h : s.WellStored) (ht : exec i s = .next t) : t.Inv := by
  have hclear := h.clearValid (.legal i)
  cases i with
  | nop => cases ht; exact inv_complete h
  | accClear => cases ht; exact inv_complete (h.congr rfl)
  | checkLayout => exact inv_finish_validated h (fun _ u e hu => by cases hu; exact h) ht
  | initTaps =>
    refine inv_finish_validated h (fun hc u e hu => ?_) ht
    cases hu
    exact initTapsWrites_keeps (modes_le_of_checked (hc _ (by decide))) (centre_lt_of_checked (hc _ (by decide)))
      (tapClosed_wellStored _ _) h
  | sync seed =>
    exact inv_finish_validated hclear (fun hc u e hu => syncBody_wellStored hclear
      (hc _ (pilotLenZero_mem_syncChecks _)) hu) ht
  | equalize seed => exact inv_finish_validated hclear (fun _ u e hu => equalizeBody_wellStored hclear hu) ht
  | recover seed =>
    exact inv_finish_validated hclear (fun hc u e hu => recoverBody_wellStored hclear (hc _ (by decide)) hu) ht
  | estimate synced acc =>
    exact inv_finish_validated hclear (fun _ u e hu => estimateBody_wellStored hclear hu) ht

theorem inv_engineMove {s t : State} (h : s.Inv) (ht : engineMove s = .next t) : t.Inv := by
  unfold engineMove at ht
  split at ht
  · cases ht; exact h
  split at ht
  · cases ht; exact inv_abortCommand h.wellStored _
  split at ht
  · exact inv_exec h.wellStored ht
  · cases ht; exact inv_raise h.wellStored _

end State

/-- Settles O57, by whose turn it is. -/
theorem everyStepKeepsTheInvariant : Obligations.EveryStepKeepsTheInvariant := by
  intro s t h ht
  have hturn := State.inv_nextTurn h
  unfold step at ht
  split at ht
  · next u hu => rw [hu] at hturn; cases ht; exact State.inv_hostMove hturn
  · next level u hu => rw [hu] at hturn; cases ht; exact State.inv_movePin hturn level
  · next u hu => rw [hu] at hturn; exact State.inv_engineMove hturn ht

/-- Settles O58: the reset state is what a reset makes of it. -/
theorem resetMeetsTheInvariant : Obligations.ResetMeetsTheInvariant :=
  State.inv_resetRegisters (s := State.reset) State.wf_reset

end Sys2Proof.Machine
end

section
/-! PROOFS. The register page (spec/10_state.md R33, R38, R39, R74): what a write of a configuration register leaves in
each register, the reserved registers, and the values after reset. -/

namespace Sys2Proof.Machine

/-! ## Bits, halves and arrays -/

/-- The low `n` bits of a word, widened again, are the word under the mask of those bits. -/
theorem setWidth_setWidth_eq_and_lowMask {n : Nat} (w : Word) :
    (w.setWidth n).setWidth 32 = w &&& BitVec.ofNat 32 (2 ^ n - 1) := by
  refine BitVec.eq_of_getLsbD_eq fun i hi => ?_
  rw [BitVec.getLsbD_setWidth, BitVec.getLsbD_setWidth, BitVec.getLsbD_and, BitVec.getLsbD_ofNat,
    Nat.testBit_two_pow_sub_one, decide_eq_true hi, Bool.true_and, Bool.true_and, Bool.and_comm]

theorem bitAt_zero_getLsbD (w : Word) : bitAt 0 (w.getLsbD 0) = w &&& 1 := by
  rw [show w &&& 1 = _ from BitVec.and_one_eq_setWidth_ofBool_getLsbD]
  cases w.getLsbD 0 with
  | false => rfl
  | true => rfl

namespace Half

theorem off_le (h : Half) : h.off ≤ 4 := by
  cases h with
  | lo => decide
  | hi => decide

theorem get_zero (h : Half) : h.get 0 = 0 := by
  cases h with
  | lo => decide
  | hi => decide

theorem get_set_same (h : Half) (w : Word) (b : Bits64) : h.get (h.set w b) = w := by
  cases h with
  | lo => exact Memory.loWord_joinWords w _
  | hi => exact Memory.hiWord_joinWords _ w

theorem get_set_ne {h k : Half} (hk : k ≠ h) (w : Word) (b : Bits64) : k.get (h.set w b) = k.get b := by
  cases h with
  | lo =>
    cases k with
    | lo => exact absurd rfl hk
    | hi => exact Memory.hiWord_joinWords w _
  | hi =>
    cases k with
    | lo => exact Memory.loWord_joinWords _ w
    | hi => exact absurd rfl hk

end Half

/-- An element of an array after a store to one of them. -/
theorem getElem_set_fin {α : Type} {n : Nat} (v : Vector α n) (i j : Fin n) (x : α) :
    (v.set i x)[j] = if i = j then x else v[j] := by
  simp only [Fin.getElem_fin, Vector.getElem_set, Fin.ext_iff]

/-- What a store to an array does not change in the element stored, it changes in none. -/
theorem apply_getElem_set {α β : Type} {n : Nat} (f : α → β) (v : Vector α n) {i j : Fin n} {x : α}
    (h : i = j → f x = f v[i]) : f (v.set i x)[j] = f v[j] := by
  rw [getElem_set_fin]
  split
  · next hij => rw [h hij, hij]
  · rfl

namespace Reg

/-! ## Storing a configuration register -/

theorem access_eq_config {r : Reg} (h : configOffset r.offset) : r.access = .config := by
  obtain ⟨-, h⟩ := h
  cases r with
  | id | version | capModes | capTaps | capSmax | capLmax | capPmax | capRmax | capQmax => exact absurd h (by decide)
  | ctrl | status | cmd | err | irqStatus | coarseOffset | divSymbol | divWhere => exact absurd h (by decide)
  | syncOffset | syncIters | syncCandStart | syncCandCount => exact absurd h (by decide)
  | estErrors | estSymbols | estBest | estDelay | accFrames => exact absurd h (by decide)
  | syncPeak k | syncFloor k | syncConf k | divMag k | estSer k | estSigpow k | estErrpow k | estSnr k | accErrors k
  | accSymbols k | accSigpow k | accErrpow k | outPower _ k | chestRe _ _ k | chestIm _ _ k =>
    have := k.off_le
    simp only [offset] at h
    omega
  | _ => rfl

/-- R39: a configuration register reads back the bits of its fields. -/
theorem read_store_same {r : Reg} (h : r.access = .config) (s : State) (w : Word) :
    r.read { s with cfg := s.cfg.store w r } = w &&& r.fieldMask := by
  have hfull : w = w &&& 0xFFFFFFFF := BitVec.and_allOnes.symm
  cases r with
  | layoutModes | streamModes | os | numTaps | iterations | refineHalf | aggMode | constSize | rotOrder | delayMax =>
    exact setWidth_setWidth_eq_and_lowMask w
  | threshold k | tapLimit k | divFactor k => exact (k.get_set_same w _).trans hfull
  | mu t k | aggWeight t _ k | rotRe t k | rotIm t k =>
    refine Eq.trans ?_ hfull
    simp only [read, ConfigRegs.store, getElem_set_fin, if_true, k.get_set_same]
  | _ =>
    cases h
    all_goals exact hfull

theorem read_store_other {r q : Reg} (h : r.access = .config) (hq : q ≠ r) (s : State) (w : Word) :
    q.read { s with cfg := s.cfg.store w r } = q.read s := by
  cases r with
  | threshold k =>
    cases q with
    | threshold k' => exact Half.get_set_ne (fun hk => hq (by rw [hk])) w _
    | _ => rfl
  | tapLimit k =>
    cases q with
    | tapLimit k' => exact Half.get_set_ne (fun hk => hq (by rw [hk])) w _
    | _ => rfl
  | divFactor k =>
    cases q with
    | divFactor k' => exact Half.get_set_ne (fun hk => hq (by rw [hk])) w _
    | _ => rfl
  | mu t k =>
    cases q with
    | mu t' k' =>
      exact apply_getElem_set k'.get _ fun ht => Half.get_set_ne (fun hk => hq (by rw [ht, hk])) w _
    | _ => rfl
  | aggWeight t r k =>
    cases q with
    | aggWeight t' r' k' =>
      exact apply_getElem_set (fun row => k'.get row[r']) _ fun ht =>
        apply_getElem_set k'.get _ fun hr => Half.get_set_ne (fun hk => hq (by rw [ht, hr, hk])) w _
    | _ => rfl
  | rotRe i k =>
    cases q with
    | rotRe i' k' =>
      exact apply_getElem_set (fun z : CplxBits => k'.get z.re) _ fun hi =>
        Half.get_set_ne (fun hk => hq (by rw [hi, hk])) w _
    | rotIm i' k' => exact apply_getElem_set (fun z : CplxBits => k'.get z.im) _ fun _ => rfl
    | _ => rfl
  | rotIm i k =>
    cases q with
    | rotRe i' k' => exact apply_getElem_set (fun z : CplxBits => k'.get z.re) _ fun _ => rfl
    | rotIm i' k' =>
      exact apply_getElem_set (fun z : CplxBits => k'.get z.im) _ fun hi =>
        Half.get_set_ne (fun hk => hq (by rw [hi, hk])) w _
    | _ => rfl
  | _ =>
    -- a register of one word: no other register shows its field
    cases h
    all_goals
      cases q
      all_goals first
        | rfl
        | exact absurd rfl hq

/-- No register shows the response of the last transaction. -/
theorem read_withResponse (q : Reg) (s : State) (x : Option Response) : q.read { s with response := x } = q.read s := by
  cases q
  all_goals rfl

/-! ## Reset -/

/-- R74: after reset the registers other than the constants read 0. -/
theorem read_reset_eq_zero {r : Reg} (h : 0x040 ≤ r.offset) : r.read State.reset = 0 := by
  cases r with
  | id | version | capModes | capTaps | capSmax | capLmax | capPmax | capRmax | capQmax => exact absurd h (by decide)
  | aggWeight _ _ k | mu _ k | rotRe _ k | rotIm _ k =>
    simp only [read, State.reset, ConfigRegs.reset, CplxBits.zero, Fin.getElem_fin, Vector.getElem_replicate,
      k.get_zero]
  | chestRe _ _ k | chestIm _ _ k =>
    simp only [read, State.reset, SyncResults.reset, CplxBits.zero, Fin.getElem_fin, Vector.getElem_replicate,
      k.get_zero]
  | outPower _ k =>
    simp only [read, State.reset, EqResults.reset, Fin.getElem_fin, Vector.getElem_replicate, k.get_zero]
  | threshold k | tapLimit k | divFactor k | syncPeak k | syncFloor k | syncConf k | divMag k | estSer k | estSigpow k
  | estErrpow k | estSnr k | accErrors k | accSymbols k | accSigpow k | accErrpow k => exact k.get_zero
  | _ => rfl

end Reg

namespace State

/-! ## Writes of a register -/

/-- A full write at a register's offset acts by the register's access type. -/
theorem transact_writeRegister (s : State) (r : Reg) (w : Word) :
    s.transact (writeRequest r.offset w) = { s.writeReg w r with response := some (.write .okay) } := by
  obtain ⟨hlt, h4⟩ := r.offset_lt
  rw [transact_write (by omega) h4 (by simp), Target.ofOffset_register]
  rfl

theorem writeReg_config {s : State} {r : Reg} (hs : s.engine = .idle) (hr : r.access = .config) (w : Word) :
    s.writeReg w r = { s with cfg := s.cfg.store w r } := by
  simp only [writeReg, hr, busy_eq_false hs, Bool.false_eq_true, if_false]

theorem writeReg_ctrl (s : State) (w : Word) : s.writeReg w .ctrl = s.writeCtrl w := rfl

theorem writeCtrl_noReset (s : State) {w : Word} (h : w.getLsbD 2 = false) :
    s.writeCtrl w = { s with irqEn := w.getLsbD 0, abortReq := s.abortReq || (s.busy && w.getLsbD 1) } := by
  rw [writeCtrl, h, if_neg Bool.false_ne_true]

end State

/-- Settles O11: the offset has no register, so the access reaches the reserved target. -/
theorem reservedRegisterReadsZeroAndIgnoresWrites : Obligations.ReservedRegisterReadsZeroAndIgnoresWrites := by
  intro s a w ha h4 hr
  have hnone : Reg.ofOffset a = none := Option.eq_none_iff_forall_ne_some.2 fun r h => hr r (Reg.offset_of_ofOffset h)
  have htarget : Target.ofOffset a = .register none := by rw [Target.ofOffset_page ha, hnone]
  have hhole : Target.ofOffset a ≠ .hole := by rw [htarget]; simp
  rw [State.transact_read (by omega) h4 hhole, State.transact_write (by omega) h4 hhole, htarget]
  exact ⟨rfl, rfl⟩

/-- Settles O13: the store of a configuration register and what each register reads after it; CTRL by its own write. -/
theorem configurationWriteIsStoredExactly : Obligations.ConfigurationWriteIsStoredExactly := by
  refine ⟨fun s r w hs hoff => ?_, fun s w hw => ?_⟩
  · have hr := Reg.access_eq_config hoff
    rw [State.transact_writeRegister, State.writeReg_config hs hr]
    refine ⟨rfl, ?_, fun q hq => ?_⟩
    · exact (Reg.read_withResponse _ _ _).trans (Reg.read_store_same hr s w)
    · exact (Reg.read_withResponse _ _ _).trans (Reg.read_store_other hr hq s w)
  · rw [show 0x040 = Reg.ctrl.offset from rfl, State.transact_writeRegister, State.writeReg_ctrl,
      State.writeCtrl_noReset s hw]
    exact ⟨rfl, bitAt_zero_getLsbD w⟩

/-- Settles O18, register by register. -/
theorem resetValues : Obligations.ResetValues :=
  ⟨rfl, rfl, rfl, rfl, rfl, rfl, rfl, rfl, rfl, fun r hr => Reg.read_reset_eq_zero (by omega), rfl, rfl,
    fun _ => rfl⟩

end Sys2Proof.Machine
end

section
/-! PROOFS. The host port (spec/20_memory.md R81 to R104; spec/40_control.md R94): the answer of every access, what a
read returns idle and busy, and what a write of each target does. -/

namespace Sys2Proof.Machine

/-! ## Which accesses are answered with SLVERR (R86 to R88, R90) -/

/-- The three conditions of R90, which come before any effect. -/
def Request.Rejected (q : Request) : Prop :=
  q.addr.toNat % 4 ≠ 0 ∨ (q.kind = .write ∧ q.wstrb ≠ 0b1111) ∨ ¬ decodedOffset q.addr.toNat

theorem Request.conditions_of_not_rejected {q : Request} (h : ¬ q.Rejected) :
    q.addr.toNat % 4 = 0 ∧ ¬ (q.kind = .write ∧ q.wstrb ≠ 0b1111) ∧ Target.ofOffset q.addr.toNat ≠ .hole := by
  simp only [Rejected, not_or, not_not] at h
  obtain ⟨h4, hstrb, hdec⟩ := h
  exact ⟨h4, hstrb, fun hhole => (Target.ofOffset_eq_hole h4).1 hhole hdec⟩

namespace State

theorem transact_of_read {s : State} {q : Request} (h : ¬ q.Rejected) (hk : q.kind = .read) :
    s.transact q =
      { s with
        response := some (.read (s.busReadWord q.addr.toNat (Target.ofOffset q.addr.toNat)) .okay)
        draws := s.draws + 1 } := by
  obtain ⟨h4, hstrb, hhole⟩ := Request.conditions_of_not_rejected h
  rw [transact, if_neg (not_not.2 h4), if_neg hstrb, if_neg hhole, hk]

theorem transact_of_write {s : State} {q : Request} (h : ¬ q.Rejected) (hk : q.kind = .write) :
    s.transact q =
      { s.busWrite q.addr.toNat q.wdata (Target.ofOffset q.addr.toNat) with response := some (.write .okay) } := by
  obtain ⟨h4, hstrb, hhole⟩ := Request.conditions_of_not_rejected h
  rw [transact, if_neg (not_not.2 h4), if_neg hstrb, if_neg hhole, hk]

end State

/-- Settles O8: a rejected access is a SLVERR and nothing else, any other reaches its target. -/
theorem slverrAccessHasNoEffect : Obligations.SlverrAccessHasNoEffect := by
  intro s q
  refine ⟨fun hbad hk => ?_, fun hbad hk => ?_, fun hok hk => ?_, fun hok hk => ?_⟩
  · rw [State.transact_slverr hbad, hk]; rfl
  · rw [State.transact_slverr hbad, hk]; rfl
  · rw [State.transact_of_read hok hk]; exact ⟨_, rfl⟩
  · rw [State.transact_of_write hok hk]

/-- Settles O9, for a rejected read and for one that reaches its target. -/
theorem readHasNoSideEffect : Obligations.ReadHasNoSideEffect := by
  intro s q hk
  by_cases h : q.Rejected
  · rw [State.transact_slverr h]; rfl
  · rw [State.transact_of_read h hk]

/-! ## What a write can do -/

namespace State

/-- What a host write can do (R33 to R39, R89, R96): what it changes, by the kind of its target. -/
inductive BusWriteEffect (s : State) (a : Nat) (w : Word) (x : Target) (u : State) : Prop where
  | nothing (hu : u = s)
  | reset (hu : u = s.resetBlock)
  | control (en req : Bool) (hu : u = { s with irqEn := en, abortReq := req })
  | command (hu : u = s.accept w)
  | flags (q : IrqStatus) (hu : u = { s with irqStatus := q })
  | config (c : ConfigRegs) (hu : u = { s with cfg := c })
  | memory (e : Entry) (hx : x = .entry e) (hu : u = { s with mem := s.mem.writeWord a w })

theorem writeReg_effect (s : State) (a : Nat) (w : Word) (r : Reg) (x : Target) :
    BusWriteEffect s a w x (s.writeReg w r) := by
  unfold writeReg
  split
  · exact .nothing rfl
  · unfold writeCtrl
    split
    · exact .reset rfl
    · exact .control _ _ rfl
  · unfold writeCmd
    split
    · exact .flags _ rfl
    · exact .command rfl
  · exact .flags _ rfl
  · split
    · exact .flags _ rfl
    · exact .config _ rfl

theorem busWrite_effect (s : State) (a : Nat) (w : Word) (x : Target) : BusWriteEffect s a w x (s.busWrite a w x) := by
  cases x with
  | hole => exact .nothing rfl
  | register r =>
    cases r with
    | none => exact .nothing rfl
    | some r => exact writeReg_effect s a w r _
  | entry e =>
    rw [busWrite, writeEntry]
    split
    · exact .nothing rfl
    · split
      · exact .flags _ rfl
      · exact .memory e rfl rfl

end State

/-! ## The host's turn -/

namespace State

theorem resetBlock_requests (s : State) : s.resetBlock.requests = s.requests := by
  unfold resetBlock
  split
  · rfl
  · rfl

theorem busWrite_requests (s : State) (a : Nat) (w : Word) (x : Target) :
    (s.busWrite a w x).requests = s.requests := by
  cases busWrite_effect s a w x with
  | reset hu => rw [hu, resetBlock_requests]
  | nothing hu | control _ _ hu | command hu | flags _ hu | config _ hu | memory _ _ hu => simp [hu]

theorem transact_requests (s : State) (q : Request) : (s.transact q).requests = s.requests := by
  by_cases h : q.Rejected
  · rw [transact_slverr h]; rfl
  · cases hk : q.kind with
    | read => rw [transact_of_read h hk]
    | write => rw [transact_of_write h hk]; exact busWrite_requests s _ _ _

theorem transact_response (s : State) (q : Request) : (s.transact q).response ≠ none := by
  by_cases h : q.Rejected
  · rw [transact_slverr h]; exact Option.some_ne_none _
  · cases hk : q.kind with
    | read => rw [transact_of_read h hk]; exact Option.some_ne_none _
    | write => rw [transact_of_write h hk]; exact Option.some_ne_none _

theorem hostMove_pending {s : State} {q : Request} {rest : List Request} (hr : s.rstN = true)
    (hq : s.requests = q :: rest) : s.hostMove = State.transact q { s with requests := rest } := by
  unfold hostMove
  rw [hr, hq]
  rfl

theorem hostMove_waiting {s : State} (h : s.rstN = false ∨ s.requests = []) : s.hostMove = s := by
  unfold hostMove
  rcases h with h | h
  · rw [h]; rfl
  · rw [h]
    split
    · rfl
    · rfl

end State

theorem step_of_hostTurn {s t : State} (h : s.nextTurn = (.host, t)) : step s = .next t.hostMove := by
  rw [step, h]

/-- Settles O6, by the host's move. -/
theorem hostTransactionsAreDoneInOrder : Obligations.HostTransactionsAreDoneInOrder := by
  refine ⟨fun s t q rest hturn hr hq => ?_, fun s t hturn hwait => ?_, fun s t q ht => ?_⟩
  · rw [step_of_hostTurn hturn, State.hostMove_pending hr hq]
  · rw [step_of_hostTurn hturn, State.hostMove_waiting hwait]
  · rw [ht]; exact ⟨State.transact_requests s q, State.transact_response s q⟩

/-! ## Addresses of registers and entries -/

theorem Entry.offset_mod_four (e : Entry) : e.offset % 4 = 0 := by
  cases e
  all_goals
    rw [offset]
    omega

/-- A word of an implemented entry is aligned and within the aperture. -/
theorem Entry.wordOffset_lt {e : Entry} (he : e.implemented = true) {i : Nat} (hi : 4 * i < e.size) :
    e.offset + 4 * i < 2 ^ 24 ∧ (e.offset + 4 * i) % 4 = 0 := by
  have h1 := (Entry.offset_lt he).2
  have h2 := e.offset_mod_four
  omega

theorem Target.ofOffset_of_mem {e : Entry} (he : e.implemented = true) {a : Nat} (h1 : e.offset ≤ a)
    (h2 : a < e.offset + e.size) : Target.ofOffset a = .entry e := by
  obtain ⟨i, rfl⟩ := Nat.exists_eq_add_of_le h1
  exact Target.ofOffset_entry he (by omega)

/-- CORR is implemented throughout its region (R72, R84). -/
theorem Target.ofOffset_corr {a : Nat} (h1 : 0xC00000 ≤ a) (h2 : a < 0xC80000) :
    Target.ofOffset a = .entry (.corr ((a - 0xC00000) / 8)) := by
  refine Target.ofOffset_of_mem ?_ ?_ ?_
  · simp only [Entry.implemented, decide_eq_true_eq, Config.sMax]
    omega
  · rw [Entry.offset]
    omega
  · rw [Entry.offset, Entry.size]
    omega

namespace Reg

/-- Every offset of R40 to R59 has its register. -/
theorem exists_offset_of_configOffset {a : Nat} (h : configOffset a) : ∃ r : Reg, r.offset = a := by
  have hfixed : (∀ k < 15, (ofOffset (0x100 + 4 * k)).isSome = true) ∧
      ∀ k < 11, (ofOffset (0x1E0 + 4 * k)).isSome = true := by decide
  obtain ⟨h4, h⟩ := h
  suffices hsome : (ofOffset a).isSome = true by
    obtain ⟨r, hr⟩ := Option.isSome_iff_exists.1 hsome
    exact ⟨r, offset_of_ofOffset hr⟩
  by_cases hlow : 0x100 ≤ a ∧ a < 0x13C
  · rw [show a = 0x100 + 4 * ((a - 0x100) / 4) by omega]
    exact hfixed.1 _ (by omega)
  by_cases hhigh : 0x1E0 ≤ a ∧ a < 0x20C
  · rw [show a = 0x1E0 + 4 * ((a - 0x1E0) / 4) by omega]
    exact hfixed.2 _ (by omega)
  -- AGG_WEIGHT, MU and ROT
  unfold ofOffset
  rw [if_neg (not_not.2 h4)]
  split
  · rfl
  split
  · rfl
  rw [if_neg (by omega), if_neg (by omega), if_pos (by omega)]
  dsimp only
  split
  · rfl
  · rfl

/-- A register of no other access type is read-only (R31 to R64). -/
theorem access_eq_readOnly {r : Reg} (hcfg : ¬ configOffset r.offset) (hctrl : r.offset ≠ 0x040)
    (hcmd : r.offset ≠ 0x048) (hirq : r.offset ≠ 0x050) : r.access = .readOnly := by
  have h4 := r.offset_lt.2
  cases r with
  | ctrl => exact absurd rfl hctrl
  | cmd => exact absurd rfl hcmd
  | irqStatus => exact absurd rfl hirq
  | threshold k | aggWeight _ _ k | mu _ k | tapLimit k | divFactor k | rotRe _ k | rotIm _ k =>
    have hk := k.off_le
    refine absurd ⟨h4, ?_⟩ hcfg
    simp only [offset]
    omega
  | layoutModes | streamModes | os | frameLen | pilotLen | pilotPos | sampleLen | numTaps | searchStart | searchLen
  | iterations | refineHalf | aggMode | constSize | rotOrder | frameOffset | estStart | estLen | refLen | delayMax =>
    exact absurd ⟨h4, by decide⟩ hcfg
  | _ => rfl

end Reg

/-! ## Reads -/

namespace State

theorem transact_readRegister (s : State) (r : Reg) :
    (s.transact (readRequest r.offset)).response = some (.read (s.busRegWord r) .okay) := by
  obtain ⟨hlt, h4⟩ := r.offset_lt
  rw [transact_read (by omega) h4 (by simp), Target.ofOffset_register]
  rfl

theorem transact_readEntry (s : State) {e : Entry} (he : e.implemented = true) {i : Nat} (hi : 4 * i < e.size) :
    (s.transact (readRequest (e.offset + 4 * i))).response = some (.read (s.busMemWord (e.offset + 4 * i)) .okay) := by
  obtain ⟨hlt, h4⟩ := Entry.wordOffset_lt he hi
  have ht := Target.ofOffset_entry he hi
  rw [transact_read hlt h4 (by simp [ht]), ht]
  rfl

theorem busRegWord_idle {s : State} (hs : s.engine = .idle) (r : Reg) : s.busRegWord r = r.read s := by
  simp [busRegWord, busy_eq_false hs]

theorem busMemWord_stored {s : State} {a : Nat} {w : Word} (ha : s.inWriteSetMem a = false)
    (hw : s.mem.readWord a = some w) : s.busMemWord a = w := by
  simp [busMemWord, ha, hw]

theorem busMemWord_free {s : State} {a : Nat} (ha : s.inWriteSetMem a = true) :
    s.busMemWord a = Config.anyWord s.draws a := by
  simp [busMemWord, ha]

theorem inWriteSetMem_idle {s : State} (hs : s.engine = .idle) (a : Nat) : s.inWriteSetMem a = false := by
  rw [inWriteSetMem, hs]

section
variable {s : State} {c : Decoded} (hs : s.engine = .running c)
include hs

theorem busy_running : s.busy = true := by rw [busy, hs]

theorem inWriteSetReg_running (r : Reg) : s.inWriteSetReg r = true ↔ r ∈ s.writeSetRegs c := by
  rw [inWriteSetReg, hs]
  exact List.contains_iff_mem

theorem inWriteSetMem_running (a : Nat) : s.inWriteSetMem a = true ↔ inRanges (s.writeSetRanges c) a := by
  rw [inWriteSetMem, hs]
  simp [inRanges]

theorem busRegWord_status :
    s.busRegWord .status = (Status.free (Config.anyWord s.draws Reg.status.offset)).word true := by
  simp [busRegWord, busy_running hs]

theorem busRegWord_stored {r : Reg} (hst : r ≠ .status) (herr : r ≠ .err) (hr : r ∉ s.writeSetRegs c) :
    s.busRegWord r = r.read s := by
  have hin : s.inWriteSetReg r = false := Bool.eq_false_iff.2 fun h => hr ((inWriteSetReg_running hs r).1 h)
  simp [busRegWord, hst, herr, hin]

theorem busRegWord_free {r : Reg} (hst : r ≠ .status) (hr : r = .err ∨ r ∈ s.writeSetRegs c) :
    s.busRegWord r = Config.anyWord s.draws r.offset &&& r.mask := by
  have hin : (r == .err || s.inWriteSetReg r) = true := by
    rw [Bool.or_eq_true, beq_iff_eq, inWriteSetReg_running hs]
    exact hr
  simp only [busRegWord, busy_running hs, hin, Bool.true_and, beq_iff_eq, if_neg hst, if_true]

end

end State

theorem bitAt_getLsbD_zero (n : Nat) (b : Bool) : (bitAt n b).getLsbD 0 = (b && decide (n = 0)) := by
  cases b with
  | false => rw [bitAt, if_neg Bool.false_ne_true, Bool.false_and]; exact BitVec.getLsbD_zero
  | true => rw [bitAt, if_pos rfl, BitVec.getLsbD_ofNat, Nat.testBit_two_pow]; rfl

/-- STATUS.BUSY is bit 0 (R34). -/
theorem Status.word_getLsbD_zero (st : Status) (b : Bool) : (st.word b).getLsbD 0 = b := by
  have hstate : (BitVec.ofNat 32 (st.syncState.code * 2 ^ 8)).getLsbD 0 = false := by
    cases st.syncState
    all_goals rfl
  simp only [Status.word, BitVec.getLsbD_or, bitAt_getLsbD_zero, hstate]
  simp

/-- Settles O10: an idle block has no word in a write set. -/
theorem idleReadReturnsTheStoredValue : Obligations.IdleReadReturnsTheStoredValue := by
  refine fun s hs => ⟨fun r => ?_, fun e i w he hi hw => ?_⟩
  · rw [State.transact_readRegister, State.busRegWord_idle hs]
  · rw [State.transact_readEntry s he hi, State.busMemWord_stored (State.inWriteSetMem_idle hs _) hw]

/-- Settles O16, by the word each kind of register and memory word shows a busy host. -/
theorem busyReadsAreExactOutsideTheWriteSet : Obligations.BusyReadsAreExactOutsideTheWriteSet := by
  refine fun s c hs => ⟨⟨_, State.transact_readRegister s .status, ?_⟩, fun r hst herr hr => ?_, fun r hst hr => ?_,
    fun e i w he hi hout hw => ?_, fun e i he hi hin => ?_⟩
  · rw [State.busRegWord_status hs, Status.word_getLsbD_zero]
  · rw [State.transact_readRegister, State.busRegWord_stored hs hst herr hr]
  · rw [State.transact_readRegister, State.busRegWord_free hs hst hr]
  · have hmem : s.inWriteSetMem (e.offset + 4 * i) = false :=
      Bool.eq_false_iff.2 fun h => hout ((State.inWriteSetMem_running hs _).1 h)
    rw [State.transact_readEntry s he hi, State.busMemWord_stored hmem hw]
  · rw [State.transact_readEntry s he hi, State.busMemWord_free ((State.inWriteSetMem_running hs _).2 hin)]

/-! ## Writes -/

namespace Memory

theorem wordByte_eq (w : Word) (j : Nat) : wordByte w j = BitVec.ofNat 8 (w.toNat / 2 ^ (8 * j)) := by
  refine BitVec.eq_of_toNat_eq ?_
  rw [wordByte, BitVec.extractLsb'_toNat, BitVec.toNat_ofNat, Nat.shiftRight_eq_div_pow]

/-- Byte `j` of a written word is at offset `j` from it (R85). -/
theorem read_writeWord_byte (m : Memory) (a : Nat) (w : Word) {j : Nat} (hj : j < 4) :
    (m.writeWord a w).read (a + j) = some (wordByte w j) := by
  have : j = 0 ∨ j = 1 ∨ j = 2 ∨ j = 3 := by omega
  rcases this with rfl | rfl | rfl | rfl
  all_goals simp [writeWord, read_write]

end Memory

namespace State

theorem transact_writeEntry (s : State) {e : Entry} (he : e.implemented = true) {i : Nat} (hi : 4 * i < e.size)
    (w : Word) :
    s.transact (writeRequest (e.offset + 4 * i) w) =
      { s.writeEntry (e.offset + 4 * i) w e with response := some (.write .okay) } := by
  obtain ⟨hlt, h4⟩ := Entry.wordOffset_lt he hi
  have ht := Target.ofOffset_entry he hi
  rw [transact_write hlt h4 (by simp [ht]), ht]
  rfl

theorem writeEntry_idle {s : State} (hs : s.engine = .idle) {e : Entry} (he : e.hostWritable = true) (a : Nat)
    (w : Word) : s.writeEntry a w e = { s with mem := s.mem.writeWord a w } := by
  simp [writeEntry, he, busy_eq_false hs]

theorem writeEntry_busy {s : State} (hs : s.busy = true) {e : Entry} (he : e.hostWritable = true) (a : Nat)
    (w : Word) : s.writeEntry a w e = s.ignoreWrite := by
  simp [writeEntry, he, hs]

theorem writeReg_busy {s : State} (hs : s.busy = true) {r : Reg} (hr : r.access = .config) (w : Word) :
    s.writeReg w r = s.ignoreWrite := by
  simp [writeReg, hr, hs]

theorem writeReg_readOnly (s : State) {r : Reg} (hr : r.access = .readOnly) (w : Word) : s.writeReg w r = s := by
  simp [writeReg, hr]

theorem writeCmd_busy {s : State} (hs : s.busy = true) (w : Word) :
    s.writeCmd w = { s with irqStatus := { s.irqStatus with cmdRejected := true } } := by
  rw [writeCmd, if_pos hs]

end State

/-- Settles O12: the target is a read-only register, a reserved one, or a word of CORR. -/
theorem readOnlyTargetsIgnoreWrites : Obligations.ReadOnlyTargetsIgnoreWrites := by
  rintro s a w h4 (⟨hpage, hcfg, hctrl, hcmd, hirq⟩ | ⟨h1, h2⟩)
  · have htarget := Target.ofOffset_page hpage
    rw [State.transact_write (by omega) h4 (by simp [htarget]), htarget]
    cases hr : Reg.ofOffset a with
    | none => rfl
    | some r =>
      obtain rfl := Reg.offset_of_ofOffset hr
      have hro := Reg.access_eq_readOnly hcfg hctrl hcmd hirq
      rw [State.busWrite, State.writeReg_readOnly s hro]
  · have htarget := Target.ofOffset_corr h1 h2
    rw [State.transact_write (by omega) h4 (by simp [htarget]), htarget]
    rfl

/-- Settles O14, by the rules of a word's write. -/
theorem memoryWriteReadsBackLittleEndian : Obligations.MemoryWriteReadsBackLittleEndian := by
  intro s e i w hs he hw hi
  dsimp only
  rw [State.transact_writeEntry s he hi, State.writeEntry_idle hs hw]
  refine ⟨rfl, Memory.readWord_writeWord_same _ _ _, fun j hj => ?_, fun b hb => Memory.read_writeWord_other _ _ hb⟩
  rw [Memory.read_writeWord_byte _ _ _ hj, Memory.wordByte_eq]

/-- Settles O15, by the target of the write. -/
theorem busyWritesAreIgnoredAndFlagged : Obligations.BusyWritesAreIgnoredAndFlagged := by
  intro s c w hs
  have hbusy := State.busy_running hs
  refine ⟨?_, fun hw => ?_, fun hw => ?_, ?_, ?_, fun a h4 ha => readOnlyTargetsIgnoreWrites s a w h4 ha⟩
  · rintro a (hcfg | ⟨e, i, he, hhost, hi, rfl⟩)
    · obtain ⟨r, rfl⟩ := Reg.exists_offset_of_configOffset hcfg
      rw [State.transact_writeRegister, State.writeReg_busy hbusy (Reg.access_eq_config hcfg)]
      rfl
    · rw [State.transact_writeEntry s he hi, State.writeEntry_busy hbusy hhost]
      rfl
  · rw [show 0x040 = Reg.ctrl.offset from rfl, State.transact_writeRegister, State.writeReg_ctrl,
      State.writeCtrl_noReset s hw, hbusy, Bool.true_and]
  · rw [show 0x040 = Reg.ctrl.offset from rfl, State.transact_writeRegister, State.writeReg_ctrl, State.writeCtrl,
      if_pos hw]
  · exact State.transact_writeRegister s .irqStatus w
  · rw [show 0x048 = Reg.cmd.offset from rfl, State.transact_writeRegister]
    exact congrArg (fun t : State => { t with response := some (.write .okay) }) (State.writeCmd_busy hbusy w)

end Sys2Proof.Machine
end

section
/-! PROOFS. Where a command stops at an unwritten entry (spec/20_memory.md R104; spec/60_exceptions.md R288; spec/
40_control.md R136, R141): a sum that reads entries in order faults at the first one that is not written. -/

namespace Sys2Proof.Machine

/-- A fold ends in the fault of its first step that faults. -/
theorem foldlM_error {α β : Type} {f : β → α → Eng β} {l₁ l₂ : List α} {a : α} {b c : β} {x : Fault}
    (hbefore : l₁.foldlM f b = .ok c) (hx : f c a = .error x) : (l₁ ++ a :: l₂).foldlM f b = .error x := by
  rw [List.foldlM_append, hbefore]
  change List.foldlM f c (a :: l₂) = .error x
  rw [List.foldlM_cons, hx]
  rfl

/-- A sum over 0, 1, ... faults at the first index whose term does. -/
theorem sumReal_range_error {f : Nat → Eng F64} {n j : Nat} {x : Fault} (hj : j < n)
    (hbefore : ∀ i, i < j → ∃ v, f i = .ok v) (hx : f j = .error x) : sumReal (List.range n) f = .error x := by
  choose! g hg using hbefore
  obtain ⟨k, rfl⟩ := Nat.exists_eq_add_of_lt hj
  have hrange : List.range (j + k + 1) = List.range j ++ j :: (List.range k).map fun i => j + (i + 1) := by
    rw [Nat.add_assoc, List.range_add, List.range_succ_eq_map, List.map_cons, List.map_map]
    rfl
  rw [hrange]
  exact foldlM_error (sumReal_ok fun i hi => hg i (List.mem_range.1 hi)) (by rw [hx]; rfl)

namespace State

theorem readCplx_error {s : State} {e : Entry} (h : s.isWritten e = false) :
    s.readCplx e = .error (.uninitRead e) := by
  unfold readCplx
  split
  · next h1 h2 => simp [isWritten, h1, h2] at h
  · rfl

/-- Ep[t] faults at the first pilot of mode t that is not written (R104, R139). -/
theorem pilotEnergy_error {s : State} {t j : Nat} (hj : j < s.pilotLen)
    (hbefore : ∀ i, i < j → s.isWritten (.pilot t i) = true) (h : s.isWritten (.pilot t j) = false) :
    s.pilotEnergy t = .error (.uninitRead (.pilot t j)) := by
  refine sumReal_range_error hj (fun i hi => ?_) ?_
  · obtain ⟨z, hz, -⟩ := readCplx_of_isWritten (hbefore i hi)
    exact ⟨z.abs2, by rw [pilot, hz]; rfl⟩
  · rw [pilot, readCplx_error h]; rfl

/-- Validation goes past the checks that pass (R136). -/
theorem firstFailing_append {s : State} {cs : List Check} (h : ∀ c ∈ cs, s.checkFails c = .ok false)
    (ds : List Check) : s.firstFailing (cs ++ ds) = s.firstFailing ds := by
  induction cs with
  | nil => rfl
  | cons c cs ih =>
    rw [List.cons_append, firstFailing, h c List.mem_cons_self]
    exact ih fun d hd => h d (List.mem_cons_of_mem c hd)

/-- Validation ends in the fault of a check it reaches (R104). -/
theorem firstFailing_error {s : State} {c : Check} {x : Fault} (h : s.checkFails c = .error x) (ds : List Check) :
    s.firstFailing (c :: ds) = .error x := by
  rw [firstFailing, h]
  rfl

/-- Check 9 evaluates mode 0 first (log entry 8). -/
theorem pilotZeroEnergy_error {s : State} {x : Fault} (hm : 1 ≤ s.modes) (h : s.pilotEnergy 0 = .error x) :
    s.checkFails .pilotZeroEnergy = .error x := by
  obtain ⟨m, hm⟩ := Nat.exists_eq_add_of_le' hm
  rw [checkFails, hm, List.range_succ_eq_map, someMode, h]
  rfl

/-- Checks 1 to 8 of R137. -/
def sizeChecks : List Check :=
  [.frameLenZero, .pilotLenZero, .pilotGtFrame, .pilotBlockOverrun, .modeMismatch, .modesRange, .frameTooLong,
    .pilotTooLong]

theorem layoutChecks_eq : layoutChecks = sizeChecks ++ [.pilotZeroEnergy] := rfl

theorem sizeChecks_pass {s : State} (hframe : 1 ≤ s.frameLen) (hpilot : 1 ≤ s.pilotLen)
    (hblock : s.pilotPos + s.pilotLen ≤ s.frameLen) (hstream : s.streamModes = s.modes) (hm1 : 1 ≤ s.modes)
    (hm2 : s.modes ≤ 2) (hlong : s.frameLen ≤ 16384) (hplong : s.pilotLen ≤ 4096) :
    ∀ c ∈ sizeChecks, s.checkFails c = .ok false := by
  simp only [sizeChecks, List.forall_mem_cons, checkFails, Except.ok.injEq, Bool.or_eq_false_iff,
    decide_eq_false_iff_not]
  exact ⟨by omega, by omega, by omega, by omega, not_not.2 hstream, ⟨by omega, not_lt.2 hm2⟩, not_lt.2 hlong,
    not_lt.2 hplong, fun c hc => absurd hc List.not_mem_nil⟩

/-- CHECK_LAYOUT faults when its check 9 does. -/
theorem execCheckLayout_error {s : State} {x : Fault} (hsize : ∀ c ∈ sizeChecks, s.checkFails c = .ok false)
    (h : s.checkFails .pilotZeroEnergy = .error x) : exec .checkLayout s = .fault x := by
  rw [exec, execCheckLayout, validated, layoutChecks_eq, firstFailing_append hsize, firstFailing_error h]
  rfl

end State

/-- Settles O56: the fault is at the first unwritten pilot of mode 0. -/
theorem unwrittenPilotStopsCheckLayout : Obligations.UnwrittenPilotStopsCheckLayout := by
  intro s hframe hpilot hblock hstream hm1 hm2 hlong hplong k hk hunwritten
  have hex : ∃ j, s.isWritten (.pilot 0 j) = false := ⟨k, hunwritten⟩
  have hle : Nat.find hex ≤ k := Nat.find_min' hex hunwritten
  have hbefore : ∀ i, i < Nat.find hex → s.isWritten (.pilot 0 i) = true := fun i hi =>
    Bool.not_eq_false _ ▸ Nat.find_min hex hi
  refine ⟨Nat.find hex, hle, Nat.find_spec hex, ?_⟩
  exact State.execCheckLayout_error (State.sizeChecks_pass hframe hpilot hblock hstream hm1 hm2 hlong hplong)
    (State.pilotZeroEnergy_error hm1 (State.pilotEnergy_error (by omega) hbefore (Nat.find_spec hex)))

end Sys2Proof.Machine
end

section
/-! PROOFS. The bytes a step may write (spec/20_memory.md R84, R88, R103): the write set of a command, the words a host
write reaches and the stores of a validated rule all lie in implemented entries. -/

namespace Sys2Proof.Machine

/-- Entries are made of whole words (R84). -/
theorem Entry.size_mod_four (e : Entry) : e.size % 4 = 0 := by
  cases e with
  | corr i => simp [size]
  | _ => simp [size]

/-- The byte at `a` belongs to an implemented entry (R84). -/
def ImplementedByte (a : Nat) : Prop := ∃ e : Entry, e.implemented = true ∧ e.offset ≤ a ∧ a < e.offset + e.size

theorem ofOffset_of_implementedByte {a : Nat} (h : ImplementedByte a) :
    ∃ e, Entry.ofOffset a = some e ∧ e.implemented = true := by
  obtain ⟨e, he, h1, h2⟩ := h
  obtain ⟨i, rfl⟩ := Nat.exists_eq_add_of_le h1
  exact ⟨e, Entry.ofOffset_offset he (by omega), he⟩

/-- A decoded offset beyond the register page is a word of an implemented entry (R84). -/
theorem implementedByte_of_target {a : Nat} {e : Entry} (h4 : a % 4 = 0) (h : Target.ofOffset a = .entry e) {b : Nat}
    (h1 : a ≤ b) (h2 : b < a + 4) : ImplementedByte b := by
  have hdec : decodedOffset a := by
    by_contra hc
    rw [(Target.ofOffset_eq_hole h4).2 hc] at h
    cases h
  rcases hdec with hpage | ⟨f, w, hf, hw, ha⟩
  · rw [Target.ofOffset_page hpage] at h
    cases h
  · have hsize := f.size_mod_four
    exact ⟨f, hf, by omega, by omega⟩

namespace State

/-! ## The ranges of a write set -/

theorem inRanges_append {l₁ l₂ : List (Nat × Nat)} {a : Nat} :
    inRanges (l₁ ++ l₂) a ↔ inRanges l₁ a ∨ inRanges l₂ a := by
  simp only [inRanges, List.mem_append, or_and_right, exists_or]

theorem implementedByte_of_tapRanges {m n a : Nat} (h : inRanges (tapRanges m n) a) : ImplementedByte a := by
  obtain ⟨_, hp, h1, h2⟩ := h
  obtain ⟨⟨t, r⟩, htr, rfl⟩ := List.mem_map.1 hp
  obtain ⟨ht, hr⟩ := mem_pairs.1 htr
  dsimp only at h1 h2 ht hr
  refine ⟨.tap t r ((a - (Entry.tap t r 0).offset) / 16), ?_, ?_⟩
  · simp only [Entry.implemented, Bool.and_eq_true, decide_eq_true_eq]
    omega
  · simp only [Entry.offset, Entry.size] at *
    omega

theorem implementedByte_of_corrRanges {s : State} {a : Nat} (h : inRanges s.corrRanges a) : ImplementedByte a := by
  obtain ⟨_, hp, h1, h2⟩ := h
  obtain rfl := List.mem_singleton.1 hp
  refine ⟨.corr ((a - (Entry.corr 0).offset) / 8), ?_, ?_⟩
  · simp only [Entry.implemented, decide_eq_true_eq]
    omega
  · simp only [Entry.offset, Entry.size] at *
    omega

theorem implementedByte_of_outRanges {s : State} {a : Nat} (h : inRanges s.outRanges a) : ImplementedByte a := by
  obtain ⟨_, hp, h1, h2⟩ := h
  obtain ⟨t, ht, rfl⟩ := List.mem_map.1 hp
  have ht := List.mem_range.1 ht
  refine ⟨.out t ((a - (Entry.out t 0).offset) / 16), ?_, ?_⟩
  · simp only [Entry.implemented, Bool.and_eq_true, decide_eq_true_eq]
    omega
  · simp only [Entry.offset, Entry.size] at *
    omega

theorem implementedByte_of_syncRanges {s : State} {a : Nat} (h : inRanges s.syncRanges a) : ImplementedByte a := by
  rcases inRanges_append.1 h with h | h
  · exact implementedByte_of_corrRanges h
  · split at h
    · exact implementedByte_of_tapRanges h
    · obtain ⟨_, hp, -⟩ := h
      cases hp

theorem implementedByte_of_equalizeRanges {s : State} {a : Nat} (h : inRanges s.equalizeRanges a) :
    ImplementedByte a := by
  rcases inRanges_append.1 h with h | h
  · exact implementedByte_of_tapRanges h
  · exact implementedByte_of_outRanges h

/-- The write set of every command lies in implemented entries (R84; log entry 9). -/
theorem implementedByte_of_writeSet {s : State} {c : Decoded} {a : Nat} (h : inRanges (s.writeSetRanges c) a) :
    ImplementedByte a := by
  have hnil : ¬ inRanges [] a := fun ⟨_, hp, _⟩ => by cases hp
  cases c with
  | illegal x => exact absurd h hnil
  | legal i =>
    cases i with
    | nop | checkLayout | estimate _ _ | accClear => exact absurd h hnil
    | initTaps => exact implementedByte_of_tapRanges h
    | sync seed => exact implementedByte_of_syncRanges h
    | equalize seed => exact implementedByte_of_equalizeRanges h
    | recover seed =>
      rcases inRanges_append.1 h with h | h
      · exact implementedByte_of_syncRanges h
      · exact implementedByte_of_equalizeRanges h

/-! ## Writes to implemented entries -/

/-- A state that lists only new bytes of implemented entries keeps to implemented entries. -/
theorem memImplemented.grow {s t : State} (h : s.memImplemented)
    (ht : ∀ c ∈ t.mem, c ∈ s.mem ∨ ImplementedByte c.1) : t.memImplemented := by
  intro c hc
  rcases ht c hc with hold | hnew
  · exact h c hold
  · exact ofOffset_of_implementedByte hnew

theorem memImplemented.congr {s t : State} (h : s.memImplemented) (ht : t.mem = s.mem) : t.memImplemented :=
  h.grow fun _ hc => .inl (ht ▸ hc)

theorem memImplemented.putCplx {s : State} (h : s.memImplemented) {e : Entry} (he : e.implemented = true)
    (hsize : e.size = 16) (z : Cplx) : (s.putCplx e z).memImplemented := by
  refine h.grow fun c hc => ?_
  rw [putCplx_mem] at hc
  rcases Memory.mem_writeBits64 hc with hc | hc
  · rcases Memory.mem_writeBits64 hc with hc | hc
    · exact .inl hc
    · exact .inr ⟨e, he, by omega, by omega⟩
  · exact .inr ⟨e, he, by omega, by omega⟩

theorem memImplemented.putCorr {s : State} (h : s.memImplemented) {i : Nat} (hi : i < Config.sMax) (v : F64) :
    (s.putCorr i v).memImplemented := by
  refine h.grow fun c hc => ?_
  rw [putCorr_mem] at hc
  rcases Memory.mem_writeBits64 hc with hc | hc
  · exact .inl hc
  · exact .inr ⟨.corr i, decide_eq_true hi, hc⟩

theorem mem_drawMem {l : List (Nat × Nat)} {s : State} {c : Host.Cell} (h : c ∈ (s.drawMem l).mem) :
    c ∈ s.mem ∨ inRanges l c.1 := by
  refine foldl_keeps (fun m : Memory => ∀ c ∈ m, c ∈ s.mem ∨ inRanges l c.1) _ l (fun m p hp hm c hc => ?_)
    (fun _ hc => .inl hc) c h
  rcases Memory.mem_fillWords hc with hc | hc
  · exact hm c hc
  · exact .inr ⟨p, hp, hc⟩

/-- Free values drawn for a command's write set fall in implemented entries. -/
theorem memImplemented.drawWriteSet {s : State} (h : s.memImplemented) (u : State) (c : Decoded) :
    (s.drawMem (u.writeSetRanges c)).memImplemented :=
  h.grow fun _ hc => (mem_drawMem hc).imp_right implementedByte_of_writeSet

theorem memImplemented.resetBlock {s : State} (h : s.memImplemented) : s.resetBlock.memImplemented := by
  unfold State.resetBlock
  split
  · exact h.congr rfl
  · exact (h.drawWriteSet s _).congr rfl

theorem memImplemented.abortCommand {s : State} (h : s.memImplemented) (c : Decoded) :
    (s.abortCommand c).memImplemented := by
  have hregs : (s.drawRegs (s.writeSetRegs c)).memImplemented := h.congr (drawRegs_mem _ _)
  exact (hregs.drawWriteSet s c).congr (by simp [State.abortCommand])

/-! ## The host's write -/

theorem memImplemented.busWrite {s : State} (h : s.memImplemented) {a : Nat} (h4 : a % 4 = 0) (w : Word) :
    (s.busWrite a w (Target.ofOffset a)).memImplemented := by
  cases busWrite_effect s a w (Target.ofOffset a) with
  | reset hu => rw [hu]; exact h.resetBlock
  | memory e hx hu =>
    refine h.grow fun c hc => ?_
    rw [hu] at hc
    exact (Memory.mem_writeWord hc).imp_right fun hc => implementedByte_of_target h4 hx hc.1 hc.2
  | nothing hu | control _ _ hu | command hu | flags _ hu | config _ hu => exact h.congr (by simp [hu])

theorem memImplemented.transact {s : State} (h : s.memImplemented) (q : Request) : (s.transact q).memImplemented := by
  by_cases hq : q.Rejected
  · rw [transact_slverr hq]; exact h.congr rfl
  · have h4 := (Request.conditions_of_not_rejected hq).1
    cases hk : q.kind with
    | read => rw [transact_of_read hq hk]; exact h.congr rfl
    | write => rw [transact_of_write hq hk]; exact (h.busWrite h4 q.wdata).congr rfl

theorem memImplemented.hostMove {s : State} (h : s.memImplemented) : s.hostMove.memImplemented := by
  unfold State.hostMove
  split
  · exact h
  · split
    · exact h
    · next q rest _ => exact memImplemented.transact (s := { s with requests := rest }) (h.congr rfl) q

theorem memImplemented.movePin {s : State} (h : s.memImplemented) (level : Bool) :
    (s.movePin level).memImplemented := by
  unfold State.movePin
  split
  · exact h.congr rfl
  · exact h.resetBlock.congr rfl

/-! ## The stores of a rule -/

theorem tapClosed_memImplemented {m n : Nat} (hm : m ≤ Config.mMax) (hn : n ≤ Config.nMax) :
    TapClosed m n memImplemented := by
  intro x t r j z ht hr hj _ hx
  refine hx.putCplx ?_ rfl z
  simp only [Entry.implemented, Bool.and_eq_true, decide_eq_true_eq]
  omega

theorem outClosed_memImplemented {m : Nat} {ks : List Nat} (hm : m ≤ Config.mMax) (hk : ∀ k ∈ ks, k < Config.lMax) :
    OutClosed m ks memImplemented := by
  intro x t k z ht hmem _ hx
  refine hx.putCplx ?_ rfl z
  have := hk k hmem
  simp only [Entry.implemented, Bool.and_eq_true, decide_eq_true_eq]
  omega

theorem searchClosed_memImplemented {n : Nat} (hn : n ≤ Config.sMax) : SearchClosed n memImplemented :=
  ⟨fun _ _ _ hx => hx.congr rfl, fun _ _ hx => hx.congr rfl, fun _ _ v hi hx => hx.putCorr (by omega) v⟩

theorem syncClosed_memImplemented {s : State} (hm : s.modes ≤ Config.mMax) (hs : s.sampleLen ≤ Config.sMax)
    (hn : 1 ≤ s.iterations → s.numTaps ≤ Config.nMax) : SyncClosed s memImplemented where
  taps hi := tapClosed_memImplemented hm (hn hi)
  divergence _ _ _ hx := hx.congr rfl
  search := searchClosed_memImplemented hs
  syncState _ _ hx := hx.congr rfl
  syncValid _ hx := hx.congr rfl
  chest _ _ _ _ _ _ hx := hx.congr rfl
  frame _ _ hx := hx.congr rfl

/-! ## What validation has established -/

theorem numTaps_le_of_checked {s : State} (h : s.checkFails .tapsInvalid = .ok false) : s.numTaps ≤ Config.nMax := by
  simp only [checkFails, Except.ok.injEq, Bool.or_eq_false_iff, decide_eq_false_iff_not] at h
  omega

theorem sampleLen_le_of_checked {s : State} (h : s.checkFails .sampleLenRange = .ok false) :
    s.sampleLen ≤ Config.sMax := by
  simp only [checkFails, Except.ok.injEq, Bool.or_eq_false_iff, decide_eq_false_iff_not] at h
  omega

/-- Every symbol of the order K lies in the frame (R207). -/
theorem lt_frameLen_of_mem_symbolOrder {s : State} (h : s.pilotPos + s.pilotLen ≤ s.frameLen) {k : Nat}
    (hk : k ∈ s.symbolOrder) : k < s.frameLen := by
  simp only [symbolOrder, List.mem_append, List.mem_map, List.mem_range] at hk
  rcases hk with (⟨i, hi, rfl⟩ | ⟨i, hi, rfl⟩) | hi
  · omega
  · omega
  · omega

/-- The bounds that validation sets on what EQUALIZE stores (R137, checks 4, 6, 7 and 11). -/
structure EqualizeBounds (s : State) : Prop where
  modes : s.modes ≤ Config.mMax
  numTaps : s.numTaps ≤ Config.nMax
  symbols : ∀ k ∈ s.symbolOrder, k < Config.lMax

theorem equalizeBounds_of_checked {s : State} (hblock : s.checkFails .pilotBlockOverrun = .ok false)
    (hmodes : s.checkFails .modesRange = .ok false) (hframe : s.checkFails .frameTooLong = .ok false)
    (htaps : s.checkFails .tapsInvalid = .ok false) : s.EqualizeBounds := by
  refine ⟨modes_le_of_checked hmodes, numTaps_le_of_checked htaps, fun k hk => ?_⟩
  simp only [checkFails, Except.ok.injEq, decide_eq_false_iff_not] at hblock hframe
  have := lt_frameLen_of_mem_symbolOrder (by omega) hk
  omega

/-- The bounds do not depend on FRAME_OFFSET, which the SYNC part of RECOVER writes. -/
theorem EqualizeBounds.withFrameOffset {s t : State} (h : s.EqualizeBounds)
    (ht : t.cfg = { s.cfg with frameOffset := t.cfg.frameOffset }) : t.EqualizeBounds := by
  have hmodes : t.modes = s.modes := by rw [State.modes, ht]; rfl
  have htaps : t.numTaps = s.numTaps := by rw [State.numTaps, ht]; rfl
  have horder : t.symbolOrder = s.symbolOrder := by
    unfold symbolOrder pilotLen pilotPos frameLen
    rw [ht]
  exact ⟨hmodes ▸ h.modes, htaps ▸ h.numTaps, horder ▸ h.symbols⟩

/-! ## The rules -/

/-- A validated rule keeps what its body keeps, given that the checks pass (R136). -/
theorem validated_keeps {P : State → Prop} {cs : List Check} {body : State → Eng Ending} {s t : State}
    {e : Option CmdError} (h : P s)
    (hb : (∀ c ∈ cs, s.checkFails c = .ok false) → ∀ u e, body s = .ok (u, e) → P u)
    (ht : s.validated cs body = .ok (t, e)) : P t := by
  rcases validated_ok ht with ⟨c, -, he⟩ | ⟨hpass, hrun⟩
  · cases he; exact h
  · exact hb (fun c hc => checkFails_of_firstFailing_none hpass hc) t e hrun

theorem syncBody_memImplemented {seed : Bool} {s t : State} {e : Option CmdError} (h : s.memImplemented)
    (hpilot : s.checkFails .pilotLenZero = .ok false) (hmodes : s.checkFails .modesRange = .ok false)
    (hsample : s.checkFails .sampleLenRange = .ok false)
    (htaps : 1 ≤ s.iterations → s.checkFails .tapsInvalid = .ok false) (ht : s.syncBody seed = .ok (t, e)) :
    t.memImplemented :=
  syncBody_keeps (pilotLen_pos_of_checked hpilot)
    (syncClosed_memImplemented (modes_le_of_checked hmodes) (sampleLen_le_of_checked hsample)
      fun hi => numTaps_le_of_checked (htaps hi)) h ht

theorem equalizeBody_memImplemented {seed : Bool} {s t : State} {e : Option CmdError} (h : s.memImplemented)
    (hs : s.EqualizeBounds) (ht : s.equalizeBody seed = .ok (t, e)) : t.memImplemented :=
  equalizeBody_keeps (tapClosed_memImplemented hs.modes hs.numTaps) (outClosed_memImplemented hs.modes hs.symbols)
    (fun _ _ _ _ _ hx => hx.congr rfl) (fun _ _ hx => hx.congr rfl) (fun _ hx => hx.congr rfl) h ht

theorem recoverBody_memImplemented {seed : Bool} {s t : State} {e : Option CmdError} (h : s.memImplemented)
    (hc : ∀ c ∈ recoverChecks, s.checkFails c = .ok false) (ht : s.recoverBody seed = .ok (t, e)) :
    t.memImplemented := by
  have hpilot := hc .pilotLenZero (by decide)
  have htaps := hc .tapsInvalid (by decide)
  have hs := equalizeBounds_of_checked (hc _ (by decide)) (hc _ (by decide)) (hc _ (by decide)) htaps
  obtain ⟨⟨u, eu⟩, hsync, ht⟩ := bind_eq_ok ht
  have hu := syncBody_memImplemented h hpilot (hc _ (by decide)) (hc _ (by decide)) (fun _ => htaps) hsync
  cases eu with
  | some x => cases ht; exact hu
  | none =>
    have hub := hs.withFrameOffset (syncBody_cfg (pilotLen_pos_of_checked hpilot) hsync)
    exact validated_keeps hu (fun _ v ev hv => equalizeBody_memImplemented hu hub hv) ht

theorem estimateBody_memImplemented {synced acc : Bool} {s t : State} {e : Option CmdError} (h : s.memImplemented)
    (ht : s.estimateBody synced acc = .ok (t, e)) : t.memImplemented :=
  estimateBody_keeps (fun _ _ _ hx => hx.congr rfl) (fun _ _ _ hx => hx.congr (by simp))
    (fun _ _ _ hx => hx.congr rfl) (fun _ hx => hx.congr rfl) h ht

theorem tapsInvalid_mem_syncChecks {n : Nat} (h : 1 ≤ n) : .tapsInvalid ∈ syncChecks n := by
  rw [syncChecks, if_neg (by omega)]
  decide

theorem sampleLenRange_mem_syncChecks (n : Nat) : .sampleLenRange ∈ syncChecks n := by
  unfold syncChecks
  split
  · decide
  · decide

theorem modesRange_mem_syncChecks (n : Nat) : .modesRange ∈ syncChecks n := by
  unfold syncChecks
  split
  · decide
  · decide

/-- A completed rule has the memories its body left (R132). -/
theorem memImplemented_finish {r : Eng Ending} {t : State} (hr : ∀ s e, r = .ok (s, e) → s.memImplemented)
    (ht : finish r = .next t) : t.memImplemented := by
  obtain ⟨s, e, hs, ⟨-, rfl⟩ | ⟨x, -, rfl⟩⟩ := finish_next ht
  · exact (hr s e hs).congr rfl
  · exact (hr s e hs).congr rfl

theorem memImplemented_finish_validated {cs : List Check} {body : State → Eng Ending} {s t : State}
    (h : s.memImplemented)
    (hb : (∀ c ∈ cs, s.checkFails c = .ok false) → ∀ u e, body s = .ok (u, e) → u.memImplemented)
    (ht : finish (s.validated cs body) = .next t) : t.memImplemented :=
  memImplemented_finish (fun _ _ hu => validated_keeps h hb hu) ht

theorem memImplemented_exec {i : Instr} {s t : State} (h : s.memImplemented) (ht : exec i s = .next t) :
    t.memImplemented := by
  have hclear : (s.clearValid (.legal i)).memImplemented := h.congr (clearValid_mem _ _)
  cases i with
  | nop => cases ht; exact h.congr rfl
  | accClear => cases ht; exact h.congr rfl
  | checkLayout => exact memImplemented_finish_validated h (fun _ u e hu => by cases hu; exact h) ht
  | initTaps =>
    refine memImplemented_finish_validated h (fun hc u e hu => ?_) ht
    cases hu
    exact initTapsWrites_keeps (modes_le_of_checked (hc _ (by decide))) (centre_lt_of_checked (hc _ (by decide)))
      (tapClosed_memImplemented le_rfl le_rfl) h
  | sync seed =>
    exact memImplemented_finish_validated hclear (fun hc u e hu => syncBody_memImplemented hclear
      (hc _ (pilotLenZero_mem_syncChecks _)) (hc _ (modesRange_mem_syncChecks _))
      (hc _ (sampleLenRange_mem_syncChecks _)) (fun hi => hc _ (tapsInvalid_mem_syncChecks hi)) hu) ht
  | equalize seed =>
    exact memImplemented_finish_validated hclear (fun hc u e hu => equalizeBody_memImplemented hclear
      (equalizeBounds_of_checked (hc _ (by decide)) (hc _ (by decide)) (hc _ (by decide)) (hc _ (by decide))) hu) ht
  | recover seed =>
    exact memImplemented_finish_validated hclear (fun hc u e hu => recoverBody_memImplemented hclear hc hu) ht
  | estimate synced acc =>
    exact memImplemented_finish_validated hclear (fun _ u e hu => estimateBody_memImplemented hclear hu) ht

theorem memImplemented_engineMove {s t : State} (h : s.memImplemented) (ht : engineMove s = .next t) :
    t.memImplemented := by
  unfold engineMove at ht
  split at ht
  · cases ht; exact h
  split at ht
  · cases ht; exact h.abortCommand _
  split at ht
  · exact memImplemented_exec h ht
  · cases ht; exact h.congr rfl

theorem nextTurn_mem (s : State) : s.nextTurn.2.mem = s.mem := by
  unfold nextTurn
  split
  · rfl
  · rfl

end State

/-- Settles O59, by whose turn it is. -/
theorem everyStepWritesImplementedEntriesOnly : Obligations.EveryStepWritesImplementedEntriesOnly := by
  intro s t h ht
  have hturn : s.nextTurn.2.memImplemented := h.congr (State.nextTurn_mem s)
  unfold step at ht
  split at ht
  · next u hu => rw [hu] at hturn; cases ht; exact hturn.hostMove
  · next level u hu => rw [hu] at hturn; cases ht; exact hturn.movePin level
  · next u hu => rw [hu] at hturn; exact State.memImplemented_engineMove hturn ht

end Sys2Proof.Machine
end

section
/-! PROOFS. The encoding (spec/30_encoding.md R110 to R116, R120): a word is its four fields, the first check of R114 it
fails says which illegal word it is, and when none fails it decodes to the command whose fields it has. -/

namespace Sys2Proof

/-! ## A word is its four fields (R110) -/

theorem bool_eq_of_toNat_eq {a b : Bool} (h : a.toNat = b.toNat) : a = b := by
  rw [Bool.eq_iff_iff, ← Bool.toNat_eq_one, ← Bool.toNat_eq_one, h]

theorem toNat_append_add {m n : Nat} (x : BitVec m) (y : BitVec n) : (x ++ y).toNat = x.toNat * 2 ^ n + y.toNat := by
  rw [BitVec.toNat_append, ← Nat.shiftLeft_add_eq_or_of_lt y.isLt, Nat.shiftLeft_eq]

namespace CommandWord

theorem toNat_opc_ofWord (w : Word) : (ofWord w).opc.toNat = w.toNat % 2 ^ 8 := by
  rw [ofWord, BitVec.extractLsb'_toNat, Nat.shiftRight_zero]

theorem toNat_f0_ofWord (w : Word) : (ofWord w).f0.toNat = w.toNat / 2 ^ 8 % 2 := Nat.toNat_testBit _ _

theorem toNat_f1_ofWord (w : Word) : (ofWord w).f1.toNat = w.toNat / 2 ^ 9 % 2 := Nat.toNat_testBit _ _

theorem toNat_rsv_ofWord (w : Word) : (ofWord w).rsv.toNat = w.toNat / 2 ^ 10 := by
  have hw := w.isLt
  rw [ofWord, BitVec.extractLsb'_toNat, Nat.shiftRight_eq_div_pow]
  omega

theorem f0_ofWord (w : Word) : (ofWord w).f0 = (w.toNat / 2 ^ 8 % 2 == 1) := by
  rw [← toNat_f0_ofWord]
  cases (ofWord w).f0 <;> rfl

theorem f1_ofWord (w : Word) : (ofWord w).f1 = (w.toNat / 2 ^ 9 % 2 == 1) := by
  rw [← toNat_f1_ofWord]
  cases (ofWord w).f1 <;> rfl

theorem rsv_ofWord_eq_zero (w : Word) : (ofWord w).rsv = 0 ↔ w.toNat / 2 ^ 10 = 0 := by
  rw [← toNat_rsv_ofWord]
  exact BitVec.toNat_eq

theorem toNat_toWord (c : CommandWord) :
    c.toWord.toNat = c.rsv.toNat * 2 ^ 10 + (c.f1.toNat * 2 ^ 9 + (c.f0.toNat * 2 ^ 8 + c.opc.toNat)) := by
  refine (toNat_append_add _ _).trans ?_
  rw [toNat_append_add, toNat_append_add, BitVec.toNat_ofBool, BitVec.toNat_ofBool]

theorem ofWord_toWord (c : CommandWord) : ofWord c.toWord = c := by
  have hopc := c.opc.isLt
  have hf0 := c.f0.toNat_lt
  have hf1 := c.f1.toNat_lt
  have hopc' : (ofWord c.toWord).opc.toNat = c.opc.toNat := by rw [toNat_opc_ofWord, toNat_toWord]; omega
  have hf0' : (ofWord c.toWord).f0.toNat = c.f0.toNat := by rw [toNat_f0_ofWord, toNat_toWord]; omega
  have hf1' : (ofWord c.toWord).f1.toNat = c.f1.toNat := by rw [toNat_f1_ofWord, toNat_toWord]; omega
  have hrsv' : (ofWord c.toWord).rsv.toNat = c.rsv.toNat := by rw [toNat_rsv_ofWord, toNat_toWord]; omega
  obtain ⟨opc, f0, f1, rsv⟩ := c
  exact (mk.injEq ..).mpr ⟨BitVec.eq_of_toNat_eq hopc', bool_eq_of_toNat_eq hf0', bool_eq_of_toNat_eq hf1',
    BitVec.eq_of_toNat_eq hrsv'⟩

theorem toWord_ofWord (w : Word) : (ofWord w).toWord = w := by
  apply BitVec.eq_of_toNat_eq
  rw [toNat_toWord, toNat_opc_ofWord, toNat_f0_ofWord, toNat_f1_ofWord, toNat_rsv_ofWord]
  omega

theorem eq_toWord_iff (w : Word) (c : CommandWord) : w = c.toWord ↔ c = ofWord w :=
  ⟨fun h => by rw [h, ofWord_toWord], fun h => by rw [h, toWord_ofWord]⟩

/-! ## The checks of R114 -/

/-- The first check of R114 that the fields fail. -/
def violation (c : CommandWord) : Option IllegalSub :=
  if 0x08 ≤ c.opc.toNat then some .unknownOpcode
  else if c.rsv ≠ 0 then some .reservedBits
  else if c.flagsDefined = false then some .undefinedFlag
  else none

theorem violation_eq_none_iff (c : CommandWord) : c.violation = none ↔ c.wellFormed = true := by
  simp only [violation, wellFormed, opcodeKnown, reservedZero, Bool.and_eq_true, decide_eq_true_eq, beq_iff_eq,
    ite_eq_iff, reduceCtorEq, and_false, false_or, and_true, not_le, not_not, Bool.not_eq_false, and_assoc]

end CommandWord

theorem hasF0_iff (opc : BitVec 8) : hasF0 opc = true ↔ 0x03 ≤ opc.toNat ∧ opc.toNat ≤ 0x06 := by
  simp only [hasF0, Bool.or_eq_true, beq_iff_eq]
  bv_omega

theorem hasF1_iff (opc : BitVec 8) : hasF1 opc = true ↔ opc.toNat = 0x06 := by
  simp only [hasF1, beq_iff_eq]
  bv_omega

/-- The flags that a known opcode lacks, by its number (R112, R114). -/
theorem CommandWord.flagsDefined_eq_false_iff {c : CommandWord} (h : c.opc.toNat < 0x08) : c.flagsDefined = false ↔
    (c.f0 = true ∧ (c.opc.toNat < 0x03 ∨ c.opc.toNat = 0x07)) ∨ (c.f1 = true ∧ c.opc.toNat ≠ 0x06) := by
  have hf0 : hasF0 c.opc = false ↔ c.opc.toNat < 0x03 ∨ c.opc.toNat = 0x07 := by
    rw [← Bool.not_eq_true, hasF0_iff]; omega
  have hf1 : hasF1 c.opc = false ↔ c.opc.toNat ≠ 0x06 := by rw [← Bool.not_eq_true, hasF1_iff]
  rw [← hf0, ← hf1, flagsDefined, Bool.and_eq_false_iff, Bool.or_eq_false_iff, Bool.or_eq_false_iff,
    Bool.not_eq_false', Bool.not_eq_false']

/-! ## Decoding (R116) -/

theorem opcode_cases {opc : BitVec 8} (h : opc.toNat < 0x08) :
    opc = 0x00 ∨ opc = 0x01 ∨ opc = 0x02 ∨ opc = 0x03 ∨ opc = 0x04 ∨ opc = 0x05 ∨ opc = 0x06 ∨ opc = 0x07 := by
  bv_omega

/-- The `case opc of` of R116 reads the command whose fields these are, but for a flag the opcode does not have. -/
theorem decodeOpcode_eq {opc : BitVec 8} (h : opc.toNat < 0x08) (f0 f1 : Bool) :
    ∃ i : Instr, (CommandWord.flagsDefined ⟨opc, f0, f1, 0⟩ = true → i.fields = ⟨opc, f0, f1, 0⟩) ∧
      decodeOpcode opc.toNat f0 f1 =
        if CommandWord.flagsDefined ⟨opc, f0, f1, 0⟩ = false then .illegal .undefinedFlag else .legal i := by
  rcases opcode_cases h with rfl | rfl | rfl | rfl | rfl | rfl | rfl | rfl
  · exact ⟨.nop, by decide +revert⟩
  · exact ⟨.checkLayout, by decide +revert⟩
  · exact ⟨.initTaps, by decide +revert⟩
  · exact ⟨.sync f0, by decide +revert⟩
  · exact ⟨.equalize f0, by decide +revert⟩
  · exact ⟨.recover f0, by decide +revert⟩
  · exact ⟨.estimate f0 f1, by decide +revert⟩
  · exact ⟨.accClear, by decide +revert⟩

/-- R116, by the first check of R114 that the fields fail. -/
theorem decode_cases (w : Word) :
    (∃ x, (CommandWord.ofWord w).violation = some x ∧ decode w = .illegal x) ∨
    ∃ i : Instr, (CommandWord.ofWord w).violation = none ∧ i.fields = CommandWord.ofWord w ∧ decode w = .legal i := by
  unfold decode CommandWord.violation
  obtain ⟨opc, f0, f1, rsv⟩ := CommandWord.ofWord w
  dsimp only
  by_cases hk : 0x08 ≤ opc.toNat
  · exact .inl ⟨_, if_pos hk, if_pos hk⟩
  rw [if_neg hk, if_neg hk]
  by_cases hr : rsv ≠ 0
  · exact .inl ⟨_, if_pos hr, if_pos hr⟩
  obtain rfl := not_not.1 hr
  obtain ⟨i, hfields, hdecode⟩ := decodeOpcode_eq (not_le.1 hk) f0 f1
  rw [if_neg hr, if_neg hr, hdecode]
  by_cases hf : CommandWord.flagsDefined ⟨opc, f0, f1, 0⟩ = false
  · exact .inl ⟨_, if_pos hf, if_pos hf⟩
  · exact .inr ⟨i, if_neg hf, hfields (eq_true_of_ne_false hf), if_neg hf⟩

theorem decode_encode (i : Instr) : decode (encode i) = .legal i := by
  rw [decode, encode, CommandWord.ofWord_toWord]
  cases i <;> rfl

theorem Instr.wellFormed_eq_true (i : Instr) : i.wellFormed = true := by
  cases i with
  | nop => exact Laws.FieldsLegal.nop.1
  | checkLayout => exact Laws.FieldsLegal.checkLayout.1
  | initTaps => exact Laws.FieldsLegal.initTaps.1
  | sync seed => exact (Laws.FieldsLegal.sync seed).1
  | equalize seed => exact (Laws.FieldsLegal.equalize seed).1
  | recover seed => exact (Laws.FieldsLegal.recover seed).1
  | estimate synced acc => exact (Laws.FieldsLegal.estimate synced acc).1
  | accClear => exact Laws.FieldsLegal.accClear.1

theorem wellFormed_iff_exists_fields (c : CommandWord) : c.wellFormed = true ↔ ∃ i : Instr, i.fields = c := by
  constructor
  · intro h
    rw [← c.violation_eq_none_iff, ← c.ofWord_toWord] at h
    rcases decode_cases c.toWord with ⟨x, hx, -⟩ | ⟨i, -, hi, -⟩
    · rw [h] at hx; cases hx
    · exact ⟨i, hi.trans c.ofWord_toWord⟩
  · rintro ⟨i, rfl⟩
    exact i.wellFormed_eq_true

theorem decode_eq_legal_iff (w : Word) (i : Instr) : decode w = .legal i ↔ w = encode i := by
  constructor
  · intro h
    rcases decode_cases w with ⟨x, -, hx⟩ | ⟨j, -, hj, hd⟩
    · rw [h] at hx; cases hx
    · rw [h] at hd
      cases hd
      exact (CommandWord.eq_toWord_iff w i.fields).2 hj
  · rintro rfl
    exact decode_encode i

theorem decodeTableWord_encode (i : Instr) : decodeTableWord 32 (encode i).toNat = some i := by
  rw [decodeTableWord, Nat.mod_eq_of_lt (encode i).isLt, BitVec.ofNat_toNat, BitVec.setWidth_eq, decode_encode]

/-- Settles O1, from what decoding can answer and the round trip of the fields. -/
theorem decodeAndEncodeAgree : Obligations.DecodeAndEncodeAgree :=
  ⟨decode_eq_legal_iff, fun i => ⟨i.wellFormed_eq_true, decodeTableWord_encode i⟩,
    fun c => ⟨c.ofWord_toWord, wellFormed_iff_exists_fields c⟩⟩

/-- Settles O2: the fields are quotients and remainders of the word, and each opcode has one case. -/
theorem decodeFollowsTheCaseOfR116 : Obligations.DecodeFollowsTheCaseOfR116 := by
  intro w
  dsimp only
  unfold decode
  dsimp only
  rw [CommandWord.toNat_opc_ofWord, CommandWord.f0_ofWord, CommandWord.f1_ofWord]
  have hlt0 := Nat.mod_lt (w.toNat / 2 ^ 8) two_pos
  have hlt1 := Nat.mod_lt (w.toNat / 2 ^ 9) two_pos
  generalize w.toNat % 2 ^ 8 = opc
  generalize w.toNat / 2 ^ 8 % 2 = f0 at *
  generalize w.toNat / 2 ^ 9 % 2 = f1 at *
  have hf1 : (f1 == 1) = true ↔ f1 ≠ 0 := by rw [beq_iff_eq]; omega
  have hany : (f0 == 1 || f1 == 1) = true ↔ f0 + f1 ≠ 0 := by rw [Bool.or_eq_true, beq_iff_eq, beq_iff_eq]; omega
  by_cases hk : 0x08 ≤ opc
  · rw [if_pos hk, if_pos hk]
  rw [if_neg hk, if_neg hk]
  refine if_congr (CommandWord.rsv_ofWord_eq_zero w).not rfl ?_
  interval_cases opc <;> simp only [decodeOpcode, hany, hf1] <;> rfl

/-- Settles O3: each word of R120 is the encoder's word of its row. -/
theorem commandWordTable : Obligations.CommandWordTable := by
  unfold Obligations.CommandWordTable
  simp only [decode_eq_legal_iff]
  decide

namespace Machine

/-! ## An illegal word (R114, R144) -/

theorem illegalCheck_eq (w : Word) : illegalCheck w = (CommandWord.ofWord w).violation.elim 0 illegalSubCode := by
  rw [illegalCheck, CommandWord.violation, ← CommandWord.toNat_opc_ofWord]
  by_cases hk : 0x08 ≤ (CommandWord.ofWord w).opc.toNat
  · rw [if_pos hk, if_pos hk]; rfl
  rw [if_neg hk, if_neg hk, apply_ite (Option.elim · 0 illegalSubCode), apply_ite (Option.elim · 0 illegalSubCode)]
  exact if_congr (CommandWord.rsv_ofWord_eq_zero w).not.symm rfl
    (if_congr (CommandWord.flagsDefined_eq_false_iff (not_le.1 hk)).symm rfl rfl)

theorem decode_illegal {w : Word} (h : illegalCheck w ≠ 0) :
    ∃ x, decode w = .illegal x ∧ illegalSubCode x = illegalCheck w := by
  rw [illegalCheck_eq] at h ⊢
  rcases decode_cases w with ⟨x, hx, hd⟩ | ⟨i, hi, -⟩
  · exact ⟨x, hd, by rw [hx]; rfl⟩
  · rw [hi] at h; exact absurd rfl h

theorem State.writeCmd_idle {s : State} (hs : s.engine = .idle) (w : Word) : s.writeCmd w = s.accept w := by
  rw [writeCmd, busy_eq_false hs, if_neg Bool.false_ne_true]

theorem engineMove_illegal {s : State} {x : IllegalSub} (he : s.engine = .running (.illegal x))
    (ha : s.abortReq = false) : engineMove s = .next (s.raise (.illegalCommand x)) := by
  simp only [engineMove, he, ha, illegalWord, finish, Bool.false_eq_true, if_false]

/-- What an illegal word completes with (R132, R144). -/
theorem State.raise_illegalCommand (x : IllegalSub) (s : State) : s.raise (.illegalCommand x) =
    { s with
      err := ⟨4, BitVec.ofNat 8 (illegalSubCode x)⟩
      engine := .idle
      abortReq := false
      irqStatus := { s.irqStatus with done := true, error := true }
      draws := s.draws + 1 } := by
  rw [raise, completeWith, show (s.irqStatus.error || (CmdError.illegalCommand x).code != 0) = true from Bool.or_true _]
  rfl

/-- Settles O4, by the acceptance of the word and the sub-code it decodes to. -/
theorem illegalWordIsAcceptedAndReported : Obligations.IllegalWordIsAcceptedAndReported := by
  intro s w hs hw
  obtain ⟨x, hd, hx⟩ := decode_illegal hw
  have hwrite : s.transact (writeRequest 0x048 w) = { s.accept w with response := some (.write .okay) } := by
    rw [← State.writeCmd_idle hs]
    exact State.transact_writeRegister s .cmd w
  rw [hwrite]
  refine ⟨rfl, rfl, rfl, ?_⟩
  rw [engineMove_illegal (congrArg Engine.running hd) rfl, State.raise_illegalCommand, hx]

end Machine

end Sys2Proof
end

section
/-! PROOFS. The life cycle of a command (spec/40_control.md R130 to R138, R140, R141, R143): acceptance and rejection of
a CMD write, the rule the engine's turn runs, validation, and what a completion writes. -/

namespace Sys2Proof.Machine

/-! ## The rule of a command -/

/-- The rule of a command after validation (R140 to R143, R180, R220, R225, R260). -/
def State.ruleBody : Instr → State → Eng Ending
  | .nop, s => .ok (s, none)
  | .checkLayout, s => .ok (s, none)
  | .initTaps, s => .ok (initTapsWrites s, none)
  | .sync seed, s => s.syncBody seed
  | .equalize seed, s => s.equalizeBody seed
  | .recover seed, s => s.recoverBody seed
  | .estimate synced acc, s => s.estimateBody synced acc
  | .accClear, s => .ok ({ s with acc := Accumulators.zero }, none)

/-- Every command clears its valid bits, validates its check set, runs its rule and completes (R132, R135, R136). -/
theorem exec_eq_finish (i : Instr) (s : State) :
    exec i s = finish ((s.clearValid (.legal i)).validated (s.checkSet i) (State.ruleBody i)) := by
  cases i with
  | nop | checkLayout | initTaps | accClear => rfl
  | sync seed | equalize seed | recover seed | estimate synced acc => rfl

/-- No error has code 0 (R281). -/
theorem CmdError.code_bne_zero (e : CmdError) : (e.code != 0) = true := by
  cases e
  all_goals rfl

namespace State

/-! ## Validation -/

/-- The checks do not look at STATUS. -/
theorem checkFails_withStatus (s : State) (st : Status) (c : Check) :
    checkFails { s with status := st } c = s.checkFails c := by
  cases c
  all_goals rfl

theorem checkFails_clearValid (s : State) (d : Decoded) (c : Check) :
    (s.clearValid d).checkFails c = s.checkFails c := by
  rw [clearValid_eq, checkFails_withStatus]

theorem firstFailing_eq_none {s : State} {cs : List Check} (h : ∀ c ∈ cs, s.checkFails c = .ok false) :
    s.firstFailing cs = .ok none := by
  have := firstFailing_append h []
  rwa [List.append_nil] at this

theorem firstFailing_eq_some {s : State} {before after : List Check} {c : Check}
    (hb : ∀ b ∈ before, s.checkFails b = .ok false) (hc : s.checkFails c = .ok true) :
    s.firstFailing (before ++ c :: after) = .ok (some c) := by
  rw [firstFailing_append hb, firstFailing, hc]
  rfl

/-- Validation reports only a check of the set. -/
theorem mem_of_firstFailing_eq_some {s : State} {cs : List Check} {c : Check} (h : s.firstFailing cs = .ok (some c)) :
    c ∈ cs := by
  induction cs with
  | nil => cases h
  | cons d cs ih =>
    obtain ⟨b, -, h⟩ := bind_eq_ok h
    cases b with
    | true => cases h; exact List.mem_cons_self
    | false => exact List.mem_cons_of_mem d (ih h)

theorem someMode_eq_false {bad : Nat → Eng Bool} {ts : List Nat} (h : ∀ t ∈ ts, bad t = .ok false) :
    someMode bad ts = .ok false := by
  induction ts with
  | nil => rfl
  | cons t ts ih =>
    rw [someMode, h t List.mem_cons_self]
    exact ih fun u hu => h u (List.mem_cons_of_mem t hu)

/-- Check 9 passes when every mode has a finite positive pilot energy (R137, R139). -/
theorem pilotZeroEnergy_pass {s : State}
    (h : ∀ t, t < s.modes →
      ∃ ep : F64, s.pilotEnergy t = .ok ep ∧ ep.isFinite = true ∧ ep.gt F64.zero = true) :
    s.checkFails .pilotZeroEnergy = .ok false := by
  refine someMode_eq_false fun t ht => ?_
  obtain ⟨ep, hep, hfin, hpos⟩ := h t (List.mem_range.1 ht)
  rw [hep]
  change Except.ok (!(ep.isFinite && ep.gt F64.zero)) = _
  rw [hfin, hpos]
  rfl

/-! ## Completion -/

theorem complete_eq (s : State) : s.complete =
    { s with
      err := ⟨0, 0⟩
      engine := .idle
      abortReq := false
      irqStatus := { s.irqStatus with done := true }
      draws := s.draws + 1 } := by
  rw [complete, completeWith, show (s.irqStatus.error || 0 != 0) = s.irqStatus.error from Bool.or_false _]
  rfl

theorem raise_eq (e : CmdError) (s : State) : s.raise e =
    { s with
      err := ⟨BitVec.ofNat 8 e.code, BitVec.ofNat 8 e.sub⟩
      engine := .idle
      abortReq := false
      irqStatus := { s.irqStatus with done := true, error := true }
      draws := s.draws + 1 } := by
  rw [raise, completeWith, CmdError.code_bne_zero, Bool.or_true]

/-- A command that passes validation runs its rule. -/
theorem exec_of_passes {i : Instr} {s : State} (h : s.passes i) :
    exec i s = finish (ruleBody i (s.clearValid (.legal i))) := by
  rw [exec_eq_finish, validated_of_pass]
  exact firstFailing_eq_none fun c hc => (checkFails_clearValid s _ c).trans (h c hc)

/-- A rule that ends without an error completes with code 0 (R132). -/
theorem finish_success (s : State) : finish (.ok (s, none)) = .next s.complete := rfl

end State

/-- Settles O26: validation reports the first failing check, and the command raises it. -/
theorem firstFailingCheckIsReported : Obligations.FirstFailingCheckIsReported := by
  intro i s before after c hset hbefore hc
  have hfirst : (s.clearValid (.legal i)).firstFailing (s.checkSet i) = .ok (some c) := by
    rw [hset]
    refine State.firstFailing_eq_some (fun b hb => ?_) ?_
    · rw [State.checkFails_clearValid, hbefore b hb]
    · rw [State.checkFails_clearValid, hc]
  rw [exec_eq_finish, State.validated, hfirst]
  change Host.Outcome.next ((s.clearValid (.legal i)).raise (.invalidLayout c)) = _
  rw [State.raise_eq, State.clearValid_irqStatus, State.clearValid_draws]
  rfl

/-- Settles O29: conditions 1 to 8 by the sizes, condition 9 by the pilot energies. -/
theorem checkLayoutAcceptsAValidLayout : Obligations.CheckLayoutAcceptsAValidLayout := by
  intro s hframe hpilot hblock hstream hm1 hm2 hlong hplong henergy
  have hpasses : s.passes .checkLayout := by
    intro c hc
    rcases List.mem_append.1 (show c ∈ State.sizeChecks ++ [.pilotZeroEnergy] from hc) with hc | hc
    · exact State.sizeChecks_pass hframe hpilot hblock hstream hm1 hm2 hlong hplong c hc
    · rw [List.mem_singleton.1 hc]
      exact State.pilotZeroEnergy_pass henergy
  rw [State.exec_of_passes hpasses]
  exact congrArg Host.Outcome.next s.complete_eq

/-- Settles O28, by what a completion writes. -/
theorem nopAndAccClearComplete : Obligations.NopAndAccClearComplete := fun s =>
  ⟨congrArg Host.Outcome.next s.complete_eq,
    congrArg Host.Outcome.next (State.complete_eq { s with acc := Accumulators.zero })⟩

/-- Settles O27, set by set; SYNC has two, by the number of iterations. -/
theorem checkSetsOfTheCommands : Obligations.CheckSetsOfTheCommands := by
  intro s
  refine ⟨rfl, rfl, rfl, rfl, fun seed hi => ?_, fun seed hi => ?_, fun _ => rfl, fun _ => rfl, fun _ => rfl,
    fun _ => rfl⟩
  · simp only [State.checkSet, syncChecks, if_pos hi]
    rfl
  · have hne : s.iterations ≠ 0 := by omega
    simp only [State.checkSet, syncChecks, if_neg hne]
    rfl

/-! ## The CMD register and the engine's turn -/

/-- Settles O21, by the acceptance of the word. -/
theorem cmdWriteWhileIdleIsAccepted : Obligations.CmdWriteWhileIdleIsAccepted := by
  intro s w hs
  rw [show 0x048 = Reg.cmd.offset from rfl, State.transact_writeRegister]
  exact congrArg (fun t : State => { t with response := some (.write .okay) }) (State.writeCmd_idle hs w)

/-- Settles O22, by the rejection of the word. -/
theorem cmdWriteWhileBusyIsRejected : Obligations.CmdWriteWhileBusyIsRejected := by
  intro s c w hs
  rw [show 0x048 = Reg.cmd.offset from rfl, State.transact_writeRegister]
  exact congrArg (fun t : State => { t with response := some (.write .okay) })
    (State.writeCmd_busy (State.busy_running hs) w)

theorem step_of_engineTurn {s t : State} (h : s.nextTurn = (.engine, t)) : step s = engineMove t := by
  rw [step, h]

theorem engineMove_idle {s : State} (h : s.engine = .idle) : engineMove s = .next s := by
  simp only [engineMove, h]

theorem engineMove_abort {s : State} {c : Decoded} (h : s.engine = .running c) (ha : s.abortReq = true) :
    engineMove s = .next (s.abortCommand c) := by
  simp only [engineMove, h, ha, if_true]

theorem engineMove_legal {s : State} {i : Instr} (h : s.engine = .running (.legal i)) (ha : s.abortReq = false) :
    engineMove s = exec i s := by
  simp only [engineMove, h, ha, Bool.false_eq_true, if_false]

/-- A word placed by `withFetchWord` has the engine's turn next (log entry 13). -/
theorem State.nextTurn_withFetchWord (s : State) (w : Word) :
    (s.withFetchWord 32 w.toNat).nextTurn = (.engine, { s.accept w with rstN := true }) := by
  have hw : BitVec.ofNat 32 (w.toNat % 2 ^ 32) = w := by
    rw [Nat.mod_eq_of_lt w.isLt, BitVec.ofNat_toNat, BitVec.setWidth_eq]
  rw [withFetchWord, hw]
  rfl

/-- Settles O5, by the cases of the engine's move. -/
theorem stepRunsTheAcceptedCommand : Obligations.StepRunsTheAcceptedCommand := by
  refine ⟨fun s t i hturn he ha => ?_, fun s t x hturn he ha => ?_, fun s t c hturn he ha => ?_,
    fun s t hturn he => ?_, fun s w i hd => ?_⟩
  · rw [step_of_engineTurn hturn, engineMove_legal he ha]
  · rw [step_of_engineTurn hturn, engineMove_illegal he ha]
  · rw [step_of_engineTurn hturn, engineMove_abort he ha]
  · rw [step_of_engineTurn hturn, engineMove_idle he]
  · rw [step_of_engineTurn (s.nextTurn_withFetchWord w)]
    exact engineMove_legal (congrArg Engine.running hd) rfl

end Sys2Proof.Machine
end

section
/-! PROOFS. The write sets (spec/40_control.md R140 to R143, spec/41_sync.md R180, spec/42_equalizer.md R220 and R225,
spec/43_performance.md R260): every store of a rule is within its command's write set, so a command that goes on changes
nothing else but what its completion writes. -/

namespace Sys2Proof.Machine

/-! ## What a store changes in the registers -/

theorem mem_bothHalves (f : Half → Reg) (h : Half) : f h ∈ bothHalves f := by
  cases h with
  | lo => exact List.mem_cons_self
  | hi => exact List.mem_cons_of_mem _ List.mem_cons_self

theorem mem_perMode {m : Nat} {t : Fin 4} (ht : t.val < m) (f : Fin 4 → Half → Reg) (h : Half) :
    f t h ∈ perMode m f := by
  refine List.mem_flatMap.2 ⟨t.val, List.mem_range.2 (by omega), ?_⟩
  rw [Fin.ofNat_val_eq_self]
  exact mem_bothHalves _ h

namespace State

theorem mem_chestRegs {m : Nat} {t r : Fin 4} (ht : t.val < m) (hr : r.val < m) (h : Half) :
    Reg.chestRe t r h ∈ chestRegs m ∧ Reg.chestIm t r h ∈ chestRegs m := by
  have hmem : ∀ q ∈ bothHalves (.chestRe t r) ++ bothHalves (.chestIm t r), q ∈ chestRegs m := by
    intro q hq
    refine List.mem_flatMap.2 ⟨t.val, List.mem_range.2 (by omega), ?_⟩
    refine List.mem_flatMap.2 ⟨r.val, List.mem_range.2 (by omega), ?_⟩
    rwa [Fin.ofNat_val_eq_self, Fin.ofNat_val_eq_self]
  exact ⟨hmem _ (List.mem_append_left _ (mem_bothHalves _ h)),
    hmem _ (List.mem_append_right _ (mem_bothHalves _ h))⟩

/-- The SYNC results but for CHEST: what a search, SYNC_ITERS and COARSE_OFFSET write (R167, R170, R178). -/
def searchRegs : List Reg :=
  [.syncOffset, .syncIters, .syncCandStart, .syncCandCount] ++ bothHalves .syncPeak ++ bothHalves .syncFloor ++
    bothHalves .syncConf ++ [.coarseOffset]

/-- CHEST after a store to one of its elements. -/
theorem putChest_chest (i j : Nat) (z : Cplx) (x : State) (t r : Fin 4) :
    (x.putChest i j z).syncRes.chest[t][r] =
      if t.val = i ∧ r.val = j then x.cplxBits (Reg.chestRe t r .lo).offset z else x.syncRes.chest[t][r] := by
  have hrow : (x.putChest i j z).syncRes.chest[t] =
      if i = t.val then
        (x.syncRes.chest.getD i (Vector.replicate 4 CplxBits.zero)).setIfInBounds j
          (x.cplxBits (Reg.chestRe (Fin.ofNat 4 i) (Fin.ofNat 4 j) .lo).offset z)
      else x.syncRes.chest[t] :=
    Vector.getElem_setIfInBounds t.isLt
  rw [hrow]
  by_cases hi : i = t.val
  · subst hi
    rw [if_pos rfl]
    have hget : x.syncRes.chest.getD t.val (Vector.replicate 4 CplxBits.zero) = x.syncRes.chest[t] := by
      simp [Vector.getD]
    rw [hget, Fin.ofNat_val_eq_self]
    refine (Vector.getElem_setIfInBounds r.isLt).trans ?_
    by_cases hj : j = r.val
    · subst hj
      rw [if_pos rfl, if_pos ⟨rfl, rfl⟩, Fin.ofNat_val_eq_self]
    · rw [if_neg hj, if_neg fun h => hj h.2.symm]
      rfl
  · rw [if_neg hi, if_neg fun h => hi h.1.symm]

/-- OUT_POWER after a store to one of its elements. -/
theorem putOutPower_outPower_ne {i : Nat} (v : F64) (x : State) {t : Fin 4} (h : t.val ≠ i) :
    (x.putOutPower i v).eqRes.outPower[t] = x.eqRes.outPower[t] :=
  (Vector.getElem_setIfInBounds t.isLt).trans (if_neg h.symm)

end State

namespace Reg

variable {q : Reg} (s : State)

theorem read_withMem (q : Reg) (m : Memory) : q.read { s with mem := m } = q.read s := by
  cases q
  all_goals rfl

theorem read_withStatus (hq : q ≠ .status) (st : Status) : q.read { s with status := st } = q.read s := by
  cases q with
  | status => exact absurd rfl hq
  | _ => rfl

theorem read_withFrameOffset (hq : q ≠ .frameOffset) (w : Word) :
    q.read { s with cfg := { s.cfg with frameOffset := w } } = q.read s := by
  cases q with
  | frameOffset => exact absurd rfl hq
  | _ => rfl

theorem read_withSyncRes (hq : q ∉ State.searchRegs) {r : SyncResults} (hr : r.chest = s.syncRes.chest) :
    q.read { s with syncRes := r } = q.read s := by
  cases q with
  | syncOffset | syncIters | syncCandStart | syncCandCount | coarseOffset => exact absurd (by decide) hq
  | syncPeak h | syncFloor h | syncConf h => exact absurd (by cases h <;> decide) hq
  | chestRe t r h | chestIm t r h => simp only [read, hr]
  | _ => rfl

theorem read_putChest {m i j : Nat} (hq : q ∉ State.chestRegs m) (hi : i < m) (hj : j < m) (z : Cplx) :
    q.read (s.putChest i j z) = q.read s := by
  cases q with
  | chestRe t r h =>
    rw [read, State.putChest_chest, read]
    rw [if_neg fun ⟨ht, hr⟩ => hq (State.mem_chestRegs (ht ▸ hi) (hr ▸ hj) h).1]
  | chestIm t r h =>
    rw [read, State.putChest_chest, read]
    rw [if_neg fun ⟨ht, hr⟩ => hq (State.mem_chestRegs (ht ▸ hi) (hr ▸ hj) h).2]
  | _ => rfl

theorem read_recordDivergence (hq : q ∉ State.divRegs) (d : Divergence) :
    q.read (s.recordDivergence d) = q.read s := by
  cases q with
  | divSymbol | divWhere => exact absurd (by decide) hq
  | divMag h => exact absurd (by cases h <;> decide) hq
  | _ => rfl

theorem read_putOutPower {m i : Nat} (hq : q ∉ perMode m .outPower) (hi : i < m) (v : F64) :
    q.read (s.putOutPower i v) = q.read s := by
  cases q with
  | outPower t h =>
    rw [read, State.putOutPower_outPower_ne v s fun ht => hq (mem_perMode (ht ▸ hi) .outPower h), read]
  | _ => rfl

theorem read_withPerfRes (hq : q ∉ State.estimateRegs false) (p : PerfResults) :
    q.read { s with perfRes := p } = q.read s := by
  cases q with
  | estErrors | estSymbols | estBest | estDelay => exact absurd (by decide) hq
  | estSer h | estSigpow h | estErrpow h | estSnr h => exact absurd (by cases h <;> decide) hq
  | _ => rfl

theorem read_withAcc (hq : q ∉ State.accRegs) (a : Accumulators) : q.read { s with acc := a } = q.read s := by
  cases q with
  | accFrames => exact absurd (by decide) hq
  | accErrors h | accSymbols h | accSigpow h | accErrpow h => exact absurd (by cases h <;> decide) hq
  | _ => rfl

/-- A completion writes ERR, IRQ_STATUS and the engine's state, which STATUS shows (R132). -/
theorem read_completeWith (herr : q ≠ .err) (hst : q ≠ .status) (hirq : q ≠ .irqStatus) (code sub : Nat) :
    q.read (s.completeWith code sub) = q.read s := by
  cases q with
  | err => exact absurd rfl herr
  | status => exact absurd rfl hst
  | irqStatus => exact absurd rfl hirq
  | _ => rfl

end Reg

namespace State

/-! ## STATUS -/

theorem writeSetStatus_self (st : Status) (d : Decoded) : writeSetStatus st st d = st := by
  cases d with
  | illegal x => rfl
  | legal i => cases i <;> rfl

theorem writeSetStatus_writeSetStatus (st f g : Status) (d : Decoded) :
    writeSetStatus (writeSetStatus st f d) g d = writeSetStatus st g d := by
  cases d with
  | illegal x => rfl
  | legal i => cases i <;> rfl

/-- The command's write set holds the STATUS fields of SYNC (R180). -/
def WritesSyncStatus (d : Decoded) : Prop :=
  ∀ st v c y, ∃ f, ({ st with syncValid := v, confInf := c, syncState := y } : Status) = writeSetStatus st f d

theorem writesSyncStatus_sync (seed : Bool) : WritesSyncStatus (.legal (.sync seed)) := fun st v c y =>
  ⟨{ st with syncValid := v, confInf := c, syncState := y }, rfl⟩

theorem writesSyncStatus_recover (seed : Bool) : WritesSyncStatus (.legal (.recover seed)) := fun st v c y =>
  ⟨{ st with syncValid := v, confInf := c, syncState := y }, rfl⟩

/-- The command's write set holds EQ_VALID (R220). -/
def WritesEqStatus (d : Decoded) : Prop :=
  ∀ st v, ∃ f, ({ st with eqValid := v } : Status) = writeSetStatus st f d

theorem writesEqStatus_equalize (seed : Bool) : WritesEqStatus (.legal (.equalize seed)) := fun st v =>
  ⟨{ st with eqValid := v }, rfl⟩

theorem writesEqStatus_recover (seed : Bool) : WritesEqStatus (.legal (.recover seed)) := fun st v =>
  ⟨{ st with eqValid := v }, rfl⟩

/-- The valid bits a command clears are in its write set (R135). -/
theorem clearValid_status (i : Instr) (s : State) :
    ∃ f, (s.clearValid (.legal i)).status = writeSetStatus s.status f (.legal i) := by
  cases i with
  | nop | checkLayout | initTaps | accClear => exact ⟨s.status, rfl⟩
  | sync seed => exact ⟨{ s.status with syncValid := false }, rfl⟩
  | equalize seed => exact ⟨{ s.status with eqValid := false }, rfl⟩
  | recover seed => exact ⟨{ s.status with syncValid := false, eqValid := false }, rfl⟩
  | estimate synced acc => exact ⟨{ s.status with estValid := false }, rfl⟩

/-! ## Stores within a write set -/

/-- The fields that acceptance, completion, the host and the pin write, and no rule (R130, R132). -/
def control (s : State) :
    Bool × Word × Err × IrqStatus × Engine × Bool × Bool × List Request × List Turn × Option Response × Nat :=
  (s.irqEn, s.cmd, s.err, s.irqStatus, s.engine, s.abortReq, s.rstN, s.requests, s.schedule, s.response, s.draws)

/-- From `s` to `t` a rule has written only registers of `rs`, bytes of the ranges `l` and STATUS fields of the write
set of `d`. -/
structure WritesWithin (rs : List Reg) (l : List (Nat × Nat)) (d : Decoded) (s t : State) : Prop where
  regs : ∀ q : Reg, q ≠ .status → q ∉ rs → q.read t = q.read s
  status : ∃ f, t.status = writeSetStatus s.status f d
  mem : ∀ a, ¬ inRanges l a → t.mem.read a = s.mem.read a
  control : t.control = s.control

variable {rs : List Reg} {l : List (Nat × Nat)} {d : Decoded} {s t u x : State}

theorem WritesWithin.refl (s : State) : WritesWithin rs l d s s :=
  ⟨fun _ _ _ => rfl, ⟨s.status, (writeSetStatus_self _ _).symm⟩, fun _ _ => rfl, rfl⟩

theorem WritesWithin.trans (h : WritesWithin rs l d s t) (h' : WritesWithin rs l d t u) : WritesWithin rs l d s u := by
  obtain ⟨f, hf⟩ := h.status
  obtain ⟨g, hg⟩ := h'.status
  refine ⟨fun q hst hq => (h'.regs q hst hq).trans (h.regs q hst hq), ⟨g, ?_⟩,
    fun a ha => (h'.mem a ha).trans (h.mem a ha), h'.control.trans h.control⟩
  rw [hg, hf, writeSetStatus_writeSetStatus]

/-- A store of registers alone. -/
theorem WritesWithin.ofRegs (h : ∀ q : Reg, q ∉ rs → q.read t = q.read s) (hst : t.status = s.status)
    (hm : t.mem = s.mem) (hc : t.control = s.control) : WritesWithin rs l d s t :=
  ⟨fun q _ => h q, ⟨s.status, hst.trans (writeSetStatus_self _ _).symm⟩, fun _ _ => by rw [hm], hc⟩

/-- A store to memory alone. -/
theorem WritesWithin.ofMem {m : Memory} (h : ∀ a, ¬ inRanges l a → m.read a = s.mem.read a) :
    WritesWithin rs l d s { s with mem := m } :=
  ⟨fun q _ _ => q.read_withMem s m, ⟨s.status, (writeSetStatus_self _ _).symm⟩, h, rfl⟩

/-- A store to STATUS alone. -/
theorem WritesWithin.ofStatus {st : Status} (h : ∃ f, st = writeSetStatus s.status f d) :
    WritesWithin rs l d s { s with status := st } :=
  ⟨fun _ hst _ => Reg.read_withStatus s hst st, h, fun _ _ => rfl, rfl⟩

theorem WritesWithin.putCplx {e : Entry} (z : Cplx) (h : ∀ a, e.offset ≤ a → a < e.offset + 16 → inRanges l a) :
    WritesWithin rs l d s (s.putCplx e z) := by
  refine .ofMem fun a ha => read_putCplx_other e z s ?_
  by_contra hc
  exact ha (h a (by omega) (by omega))

theorem WritesWithin.syncRes (hrs : searchRegs ⊆ rs) {r : SyncResults} (hr : r.chest = s.syncRes.chest) :
    WritesWithin rs l d s { s with syncRes := r } :=
  .ofRegs (fun _ hq => Reg.read_withSyncRes s (fun h => hq (hrs h)) hr) rfl rfl rfl

theorem WritesWithin.recordDivergence (hrs : divRegs ⊆ rs) (v : Divergence) :
    WritesWithin rs l d s (s.recordDivergence v) :=
  .ofRegs (fun _ hq => Reg.read_recordDivergence s (fun h => hq (hrs h)) v) rfl rfl rfl

theorem WritesWithin.putChest {m i j : Nat} (hrs : chestRegs m ⊆ rs) (hi : i < m) (hj : j < m) (z : Cplx) :
    WritesWithin rs l d s (s.putChest i j z) :=
  .ofRegs (fun _ hq => Reg.read_putChest s (fun h => hq (hrs h)) hi hj z) rfl rfl rfl

theorem WritesWithin.putOutPower {m i : Nat} (hrs : perMode m .outPower ⊆ rs) (hi : i < m) (v : F64) :
    WritesWithin rs l d s (s.putOutPower i v) :=
  .ofRegs (fun _ hq => Reg.read_putOutPower s (fun h => hq (hrs h)) hi v) rfl rfl rfl

theorem WritesWithin.frameOffset (hrs : .frameOffset ∈ rs) (w : Word) :
    WritesWithin rs l d s { s with cfg := { s.cfg with frameOffset := w } } :=
  .ofRegs (fun _ hq => Reg.read_withFrameOffset s (fun h => hq (by rwa [h])) w) rfl rfl rfl

theorem WritesWithin.perfRes (hrs : estimateRegs false ⊆ rs) (p : PerfResults) :
    WritesWithin rs l d s { s with perfRes := p } :=
  .ofRegs (fun _ hq => Reg.read_withPerfRes s (fun h => hq (hrs h)) p) rfl rfl rfl

theorem WritesWithin.acc (hrs : accRegs ⊆ rs) (a : Accumulators) : WritesWithin rs l d s { s with acc := a } :=
  .ofRegs (fun _ hq => Reg.read_withAcc s (fun h => hq (hrs h)) a) rfl rfl rfl

/-! ## The ranges of the stores -/

theorem inRanges_corrRanges {i a : Nat} (hi : i < s.sampleLen) (hs : s.sampleLen ≤ Config.sMax)
    (h1 : (Entry.corr i).offset ≤ a) (h2 : a < (Entry.corr i).offset + 8) : inRanges s.corrRanges a := by
  refine ⟨_, List.mem_singleton_self _, ?_⟩
  rw [min_eq_left hs]
  simp only [Entry.offset] at *
  omega

theorem inRanges_outRanges {t k a : Nat} (ht : t < s.modes) (hm : s.modes ≤ Config.mMax) (hk : k < s.frameLen)
    (hl : k < Config.lMax) (h1 : (Entry.out t k).offset ≤ a) (h2 : a < (Entry.out t k).offset + 16) :
    inRanges s.outRanges a := by
  refine ⟨_, List.mem_map.2 ⟨t, List.mem_range.2 (by omega), rfl⟩, ?_⟩
  simp only [Entry.offset] at *
  omega

/-! ## The stores of the rules -/

theorem tapClosed_within {m n : Nat} (hm : m ≤ Config.mMax) (hn : n ≤ Config.nMax)
    (hl : ∀ a, inRanges (tapRanges m n) a → inRanges l a) : TapClosed m n (WritesWithin rs l d s) :=
  fun _ _ _ _ z ht hr hj _ hx => hx.trans (.putCplx z fun _ h1 h2 => hl _ (inRanges_tapRanges hm hn ht hr hj h1 h2))

theorem searchClosed_within (hrs : searchRegs ⊆ rs) (hst : WritesSyncStatus d) (hs : x.sampleLen ≤ Config.sMax)
    (hl : ∀ a, inRanges x.corrRanges a → inRanges l a) : SearchClosed x.sampleLen (WritesWithin rs l d s) where
  results _ _ hr hx := hx.trans (.syncRes hrs hr)
  confInf y b hx := hx.trans (.ofStatus (hst y.status y.status.syncValid b y.status.syncState))
  corr y i v hi hx := hx.trans (.ofMem fun a ha => read_putCorr_other i v y (by
    by_contra hc
    exact ha (hl a (inRanges_corrRanges hi hs (by omega) (by omega)))))

theorem searchRegs_subset_syncRegs (x : State) : searchRegs ⊆ x.syncRegs := by
  intro q hq
  simp only [searchRegs, syncRegs, List.mem_append, List.mem_cons] at *
  tauto

theorem chestRegs_subset_syncRegs (x : State) : chestRegs x.modes ⊆ x.syncRegs := fun _ hq =>
  List.mem_append_left _ (List.mem_append_right _ hq)

theorem divRegs_subset_syncRegs (h : 1 ≤ x.iterations) : divRegs ⊆ x.syncRegs := fun _ hq =>
  List.mem_append_right _ (by rwa [if_pos h])

theorem frameOffset_mem_syncRegs (x : State) : .frameOffset ∈ x.syncRegs := by
  simp [syncRegs]

theorem syncClosed_within (hrs : x.syncRegs ⊆ rs) (hl : ∀ a, inRanges x.syncRanges a → inRanges l a)
    (hst : WritesSyncStatus d) (hm : x.modes ≤ Config.mMax) (hs : x.sampleLen ≤ Config.sMax)
    (hn : 1 ≤ x.iterations → x.numTaps ≤ Config.nMax) : SyncClosed x (WritesWithin rs l d s) where
  taps hi := tapClosed_within hm (hn hi) fun a ha => hl a (inRanges_append.2 (.inr (by rwa [if_pos hi])))
  divergence hi _ v hx := hx.trans (.recordDivergence (List.Subset.trans (divRegs_subset_syncRegs hi) hrs) v)
  search := searchClosed_within (List.Subset.trans (searchRegs_subset_syncRegs x) hrs) hst hs
    fun a ha => hl a (inRanges_append.2 (.inl ha))
  syncState y v hx := hx.trans (.ofStatus (hst y.status y.status.syncValid y.status.confInf v))
  syncValid y hx := hx.trans (.ofStatus (hst y.status true y.status.confInf y.status.syncState))
  chest _ _ _ z hi hj hx := hx.trans (.putChest (List.Subset.trans (chestRegs_subset_syncRegs x) hrs) hi hj z)
  frame _ w hx := hx.trans (.frameOffset (hrs (frameOffset_mem_syncRegs x)) w)

theorem syncBody_within {seed : Bool} {e : Option CmdError} (hrs : x.syncRegs ⊆ rs)
    (hl : ∀ a, inRanges x.syncRanges a → inRanges l a) (hst : WritesSyncStatus d)
    (hpilot : x.checkFails .pilotLenZero = .ok false) (hmodes : x.checkFails .modesRange = .ok false)
    (hsample : x.checkFails .sampleLenRange = .ok false)
    (htaps : 1 ≤ x.iterations → x.checkFails .tapsInvalid = .ok false) (ht : x.syncBody seed = .ok (t, e)) :
    WritesWithin rs l d x t :=
  syncBody_keeps (pilotLen_pos_of_checked hpilot)
    (syncClosed_within hrs hl hst (modes_le_of_checked hmodes) (sampleLen_le_of_checked hsample)
      fun hi => numTaps_le_of_checked (htaps hi)) (.refl x) ht

theorem equalizeBody_within {seed : Bool} {e : Option CmdError} (hrs : x.equalizeRegs ⊆ rs)
    (hl : ∀ a, inRanges x.equalizeRanges a → inRanges l a) (hst : WritesEqStatus d) (hb : x.EqualizeBounds)
    (hblock : x.pilotPos + x.pilotLen ≤ x.frameLen) (ht : x.equalizeBody seed = .ok (t, e)) :
    WritesWithin rs l d x t := by
  obtain ⟨hpower, hdiv⟩ := List.append_subset.1 hrs
  refine equalizeBody_keeps ?taps ?outs ?power ?divergence ?valid (.refl x) ht
  case taps => exact tapClosed_within hb.modes hb.numTaps fun a ha => hl a (inRanges_append.2 (.inl ha))
  case outs =>
    exact fun _ _ _ z ht hk _ hx => hx.trans (.putCplx z fun a h1 h2 => hl a (inRanges_append.2 (.inr
      (inRanges_outRanges ht hb.modes (lt_frameLen_of_mem_symbolOrder hblock hk) (hb.symbols _ hk) h1 h2))))
  case power => exact fun _ _ v hi _ hx => hx.trans (.putOutPower hpower hi v)
  case divergence => exact fun _ v hx => hx.trans (.recordDivergence hdiv v)
  case valid => exact fun y hx => hx.trans (.ofStatus (hst y.status true))

theorem pilotBlock_le_of_checked (h : x.checkFails .pilotBlockOverrun = .ok false) :
    x.pilotPos + x.pilotLen ≤ x.frameLen := by
  simp only [checkFails, Except.ok.injEq, decide_eq_false_iff_not] at h
  omega

/-- What EQUALIZE may write does not depend on FRAME_OFFSET, which the SYNC part of RECOVER writes. -/
theorem equalizeSet_withFrameOffset (h : t.cfg = { s.cfg with frameOffset := t.cfg.frameOffset }) :
    t.equalizeRegs = s.equalizeRegs ∧ t.equalizeRanges = s.equalizeRanges ∧
      t.pilotPos + t.pilotLen = s.pilotPos + s.pilotLen ∧ t.frameLen = s.frameLen := by
  simp only [equalizeRegs, equalizeRanges, outRanges, modes, numTaps, pilotPos, pilotLen, frameLen]
  rw [h]
  exact ⟨rfl, rfl, rfl, rfl⟩

theorem recoverBody_within {seed : Bool} {e : Option CmdError}
    (hc : ∀ c ∈ recoverChecks, x.checkFails c = .ok false) (ht : x.recoverBody seed = .ok (t, e)) :
    WritesWithin (x.syncRegs ++ x.equalizeRegs) (x.syncRanges ++ x.equalizeRanges) (.legal (.recover seed)) x t := by
  have hpilot := hc .pilotLenZero (by decide)
  have htaps := hc .tapsInvalid (by decide)
  have hblock := hc .pilotBlockOverrun (by decide)
  have hb := equalizeBounds_of_checked hblock (hc _ (by decide)) (hc _ (by decide)) htaps
  obtain ⟨⟨u, eu⟩, hsync, ht⟩ := bind_eq_ok ht
  have hu : WritesWithin (x.syncRegs ++ x.equalizeRegs) (x.syncRanges ++ x.equalizeRanges)
      (.legal (.recover seed)) x u :=
    syncBody_within (List.subset_append_left x.syncRegs x.equalizeRegs)
      (fun a ha => inRanges_append.2 (.inl ha)) (writesSyncStatus_recover seed) hpilot
      (hc _ (by decide)) (hc _ (by decide)) (fun _ => htaps) hsync
  cases eu with
  | some y => cases ht; exact hu
  | none =>
    have hcfg := syncBody_cfg (pilotLen_pos_of_checked hpilot) hsync
    obtain ⟨hregs, hranges, hpos, hlen⟩ := equalizeSet_withFrameOffset hcfg
    refine hu.trans (validated_keeps (.refl u) (fun _ v ev hv => ?_) ht)
    refine equalizeBody_within ?_ (fun a ha => ?_) (writesEqStatus_recover seed) (hb.withFrameOffset hcfg) ?_ hv
    · rw [hregs]; exact List.subset_append_right _ _
    · rw [hranges] at ha; exact inRanges_append.2 (.inr ha)
    · rw [hpos, hlen]; exact pilotBlock_le_of_checked hblock

theorem estimateBody_within {synced acc : Bool} {e : Option CmdError} (ht : x.estimateBody synced acc = .ok (t, e)) :
    WritesWithin (estimateRegs acc) l (.legal (.estimate synced acc)) x t := by
  have hrs : estimateRegs false ⊆ estimateRegs acc := by
    rw [estimateRegs, if_neg Bool.false_ne_true, List.append_nil]
    exact List.subset_append_left _ _
  refine estimateBody_keeps ?results ?snr ?acc ?valid (.refl x) ht
  case results => exact fun _ _ _ hx => hx.trans (.perfRes hrs _)
  case snr =>
    intro y a b hx
    rw [writeSnr]
    split
    · exact (hx.trans (.perfRes hrs _)).trans (.ofStatus ⟨{ y.status with snrInf := true }, rfl⟩)
    · exact (hx.trans (.perfRes hrs _)).trans (.ofStatus ⟨{ y.status with snrInf := false }, rfl⟩)
  case acc =>
    rintro rfl _ _ hx
    exact hx.trans (.acc (List.subset_append_right _ _) _)
  case valid => exact fun y hx => hx.trans (.ofStatus ⟨{ y.status with estValid := true }, rfl⟩)

/-- The rule of a command writes within its write set, given that its checks pass. -/
theorem ruleBody_within {i : Instr} {e : Option CmdError} (hc : ∀ c ∈ x.checkSet i, x.checkFails c = .ok false)
    (ht : ruleBody i x = .ok (t, e)) :
    WritesWithin (x.writeSetRegs (.legal i)) (x.writeSetRanges (.legal i)) (.legal i) x t := by
  cases i with
  | nop | checkLayout => cases ht; exact .refl _
  | accClear => cases ht; exact .acc (List.Subset.refl _) _
  | initTaps =>
    cases ht
    have hc : ∀ c ∈ initTapsChecks, x.checkFails c = .ok false := hc
    exact initTapsWrites_keeps (modes_le_of_checked (hc _ (by decide))) (centre_lt_of_checked (hc _ (by decide)))
      (tapClosed_within le_rfl le_rfl fun _ ha => ha) (.refl x)
  | sync seed =>
    exact syncBody_within (List.Subset.refl _) (fun _ ha => ha) (writesSyncStatus_sync seed)
      (hc _ (pilotLenZero_mem_syncChecks _)) (hc _ (modesRange_mem_syncChecks _))
      (hc _ (sampleLenRange_mem_syncChecks _)) (fun hi => hc _ (tapsInvalid_mem_syncChecks hi)) ht
  | equalize seed =>
    have hc : ∀ c ∈ equalizeChecks, x.checkFails c = .ok false := hc
    have hblock := hc .pilotBlockOverrun (by decide)
    exact equalizeBody_within (List.Subset.refl _) (fun _ ha => ha) (writesEqStatus_equalize seed)
      (equalizeBounds_of_checked hblock (hc _ (by decide)) (hc _ (by decide)) (hc _ (by decide)))
      (pilotBlock_le_of_checked hblock) ht
  | recover seed => exact recoverBody_within hc ht
  | estimate synced acc => exact estimateBody_within ht

/-- The write set and the checks of a command do not look at STATUS. -/
theorem clearValid_writeSet (i : Instr) (s : State) :
    (s.clearValid (.legal i)).writeSetRegs (.legal i) = s.writeSetRegs (.legal i) ∧
      (s.clearValid (.legal i)).writeSetRanges (.legal i) = s.writeSetRanges (.legal i) ∧
      (s.clearValid (.legal i)).checkSet i = s.checkSet i := by
  cases i
  all_goals exact ⟨rfl, rfl, rfl⟩

/-- What a command does: within its write set it leaves a state, from which it completes (R132). -/
theorem exec_within {i : Instr} (ht : exec i s = .next t) :
    ∃ u e, WritesWithin (s.writeSetRegs (.legal i)) (s.writeSetRanges (.legal i)) (.legal i) s u ∧
      ((e = none ∧ t = u.complete) ∨ ∃ y, e = some y ∧ t = u.raise y) := by
  rw [exec_eq_finish] at ht
  obtain ⟨u, e, hu, ht⟩ := finish_next ht
  obtain ⟨hregs, hranges, hchecks⟩ := clearValid_writeSet i s
  have hclear : WritesWithin (s.writeSetRegs (.legal i)) (s.writeSetRanges (.legal i)) (.legal i) s
      (s.clearValid (.legal i)) := by
    rw [clearValid_eq]
    exact .ofStatus (clearValid_status i s)
  refine ⟨u, e, hclear.trans (validated_keeps (.refl _) (fun hc v ev hv => ?_) hu), ht⟩
  rw [← hchecks] at hc
  rw [← hregs, ← hranges]
  exact ruleBody_within hc hv

theorem WritesWithin.host (h : WritesWithin rs l d s t) :
    (t.irqEn, t.cmd, t.irqStatus) = (s.irqEn, s.cmd, s.irqStatus) ∧
    (t.rstN, t.requests, t.schedule, t.response) = (s.rstN, s.requests, s.schedule, s.response) := by
  have hc := h.control
  simp only [State.control, Prod.mk.injEq] at hc ⊢
  tauto

end State

/-- Settles O53: the rule writes within its write set, and its completion writes ERR, IRQ_STATUS and BUSY. -/
theorem commandsWriteOnlyTheirWriteSet : Obligations.CommandsWriteOnlyTheirWriteSet := by
  intro i s t ht
  obtain ⟨u, e, hu, ht⟩ := State.exec_within ht
  have hcomplete : ∃ code sub, t = u.completeWith code sub := by
    rcases ht with ⟨-, rfl⟩ | ⟨y, -, rfl⟩
    · exact ⟨0, 0, rfl⟩
    · exact ⟨y.code, y.sub, rfl⟩
  obtain ⟨code, sub, rfl⟩ := hcomplete
  obtain ⟨hown, hhost⟩ := hu.host
  refine ⟨fun q herr hst hirq hq => ?_, hu.status, hu.mem, ?_⟩
  · rw [Reg.read_completeWith u herr hst hirq, hu.regs q hst hq]
  · simp only [Prod.mk.injEq] at hown hhost ⊢
    exact ⟨hown.2.1, hhost⟩

end Sys2Proof.Machine
end

section
/-! PROOFS. The end of a command and the host beside it (spec/40_control.md R132 to R134): every engine turn completes
its command, and a host step cannot touch a running one. -/

namespace Sys2Proof.Machine

namespace State

/-! ## Completion (R132) -/

/-- `t` is a completion with a legal code and sub-code from a state with the control fields of `s` (R132, R281). -/
def CompletedFrom (s t : State) : Prop :=
  ∃ (u : State) (code sub : Nat),
    u.control = s.control ∧ t = u.completeWith code sub ∧ code < 2 ^ 8 ∧ (code = 0 → sub = 0)

theorem completedFrom_complete {s u : State} (h : u.control = s.control) : CompletedFrom s u.complete :=
  ⟨u, 0, 0, h, rfl, by decide, fun _ => rfl⟩

theorem completedFrom_raise {s u : State} (h : u.control = s.control) (e : CmdError) : CompletedFrom s (u.raise e) := by
  refine ⟨u, e.code, e.sub, h, rfl, ?_, fun h0 => ?_⟩
  · cases e
    all_goals simp [CmdError.code]
  · have := e.code_bne_zero
    rw [h0] at this
    cases this

theorem completedFrom_exec {i : Instr} {s t : State} (ht : exec i s = .next t) : CompletedFrom s t := by
  obtain ⟨u, e, hu, ⟨-, rfl⟩ | ⟨y, -, rfl⟩⟩ := exec_within ht
  · exact completedFrom_complete hu.control
  · exact completedFrom_raise hu.control y

/-- The free values an abort draws reach no control field (R292). -/
theorem completedFrom_abortCommand (c : Decoded) (s : State) : CompletedFrom s (s.abortCommand c) := by
  refine completedFrom_raise ?_ .aborted
  rw [clearValid_eq]
  exact drawRegs_keeps control (fun w r x => by cases r <;> rfl) _ s

theorem completedFrom_engineMove {s t : State} {c : Decoded} (hs : s.engine = .running c)
    (ht : engineMove s = .next t) : CompletedFrom s t := by
  cases ha : s.abortReq with
  | true =>
    rw [engineMove_abort hs ha] at ht
    cases ht
    exact completedFrom_abortCommand c s
  | false =>
    cases c with
    | legal i => rw [engineMove_legal hs ha] at ht; exact completedFrom_exec ht
    | illegal x =>
      rw [engineMove_illegal hs ha] at ht
      cases ht
      exact completedFrom_raise rfl _

/-! ## The host beside a running command (R134) -/

/-- Every write of a busy block is a reset, or reaches at most IRQ_EN, the interrupt flags and the abort request. -/
theorem busWrite_busy {s : State} (hs : s.busy = true) (a : Nat) (w : Word) (x : Target) :
    s.busWrite a w x = s.resetBlock ∨
      ∃ en q req, s.busWrite a w x = { s with irqEn := en, irqStatus := q, abortReq := req } := by
  cases x with
  | hole => exact .inr ⟨_, _, _, rfl⟩
  | entry e =>
    cases he : e.hostWritable with
    | false => exact .inr ⟨_, _, _, by rw [busWrite, writeEntry, he]; rfl⟩
    | true => exact .inr ⟨_, _, _, by rw [busWrite, writeEntry_busy hs he]; rfl⟩
  | register r =>
    cases r with
    | none => exact .inr ⟨_, _, _, rfl⟩
    | some r =>
      rw [busWrite]
      cases hr : r.access with
      | readOnly => exact .inr ⟨_, _, _, by rw [writeReg_readOnly s hr]⟩
      | config => exact .inr ⟨_, _, _, by rw [writeReg_busy hs hr]; rfl⟩
      | clearOnes => exact .inr ⟨_, _, _, by simp only [writeReg, hr]; rfl⟩
      | command => exact .inr ⟨_, _, _, by simp only [writeReg, hr]; rw [writeCmd_busy hs]⟩
      | control =>
        simp only [writeReg, hr]
        cases hw : w.getLsbD 2 with
        | true => exact .inl (by rw [writeCtrl, if_pos hw])
        | false => exact .inr ⟨_, _, _, by rw [writeCtrl_noReset s hw]⟩

/-- From `t` to `u` only what the host may change beside a running command has changed (R134, R96). -/
def HostOnly (t u : State) : Prop :=
  u = { t with
    irqEn := u.irqEn
    irqStatus := u.irqStatus
    abortReq := u.abortReq
    requests := u.requests
    response := u.response
    draws := u.draws }

theorem hostOnly_transact {s : State} (hs : s.busy = true) (q : Request) (hu : (s.transact q).busy = true) :
    HostOnly s (s.transact q) := by
  by_cases h : q.Rejected
  · rw [transact_slverr h]; rfl
  cases hk : q.kind with
  | read => rw [transact_of_read h hk]; rfl
  | write =>
    rw [transact_of_write h hk] at hu ⊢
    rcases busWrite_busy hs q.addr.toNat q.wdata (Target.ofOffset q.addr.toNat) with he | ⟨en, f, req, he⟩
    · -- a reset leaves the engine idle
      rw [he] at hu
      have hidle : ({ s.resetBlock with response := some (.write .okay) } : State).busy = false :=
        busy_eq_false (resetBlock_engine s)
      rw [hidle] at hu
      cases hu
    · rw [he]; rfl

theorem hostOnly_hostMove {s : State} (hs : s.busy = true) (hu : s.hostMove.busy = true) : HostOnly s s.hostMove := by
  by_cases hwait : s.rstN = false ∨ s.requests = []
  · rw [hostMove_waiting hwait]; rfl
  · obtain ⟨hr, hq⟩ := not_or.1 hwait
    obtain ⟨q, rest, hq⟩ := List.exists_cons_of_ne_nil hq
    rw [hostMove_pending (by simpa using hr) hq] at hu ⊢
    exact hostOnly_transact (s := { s with requests := rest }) hs q hu

theorem nextTurn_engine (s : State) : s.nextTurn.2.engine = s.engine := by
  unfold nextTurn
  split
  · rfl
  · rfl

theorem busy_congr {s t : State} (h : t.engine = s.engine) : t.busy = s.busy := by rw [busy, busy, h]

end State

/-- Settles O23: the turn completes the command from a state with the same control fields. -/
theorem everyCommandCompletesOnce : Obligations.EveryCommandCompletesOnce := by
  intro s t c hs ht
  obtain ⟨u, code, sub, hu, rfl, hlt, hsub⟩ := State.completedFrom_engineMove hs ht
  simp only [State.control, Prod.mk.injEq] at hu
  obtain ⟨hen, hcmd, -, hirq, -, -, hrst, hreq, hsched, hresp, -⟩ := hu
  have hcode : BitVec.ofNat 8 code = 0 ↔ code = 0 := by
    rw [BitVec.toNat_eq, BitVec.toNat_ofNat, Nat.mod_eq_of_lt hlt]
    rfl
  refine ⟨rfl, rfl, rfl, rfl, ?_, fun h0 => ?_, ?_, ?_, ?_⟩
  · change (u.irqStatus.error || code != 0) = (s.irqStatus.error || BitVec.ofNat 8 code != 0)
    rw [hirq, Bool.eq_iff_iff]
    simp only [Bool.or_eq_true, bne_iff_ne, ne_eq, hcode]
  · change BitVec.ofNat 8 sub = 0
    rw [hsub (hcode.1 h0)]
    rfl
  · exact (congrArg IrqStatus.wrIgnored hirq :)
  · exact (congrArg IrqStatus.cmdRejected hirq :)
  · simp only [State.completeWith, hcmd, hen, hrst, hreq, hsched, hresp]

/-- Settles O24, by the host's transaction. -/
theorem hostCannotTouchARunningCommand : Obligations.HostCannotTouchARunningCommand := by
  intro s t u hs hturn ht hu
  have hengine : t.engine = s.engine := by rw [← State.nextTurn_engine s, hturn]
  rw [step_of_hostTurn hturn] at ht
  cases ht
  exact State.hostOnly_hostMove ((State.busy_congr hengine).trans hs) hu

end Sys2Proof.Machine
end

section
/-! PROOFS. INIT_TAPS and the valid bits (spec/40_control.md R135, R142; spec/42_equalizer.md R225): the bank that
INIT_TAPS leaves, and each valid bit as the outcome of its command leaves it. -/

namespace Sys2Proof.Machine

namespace State

/-! ## INIT_TAPS (R142) -/

/-- A pass that stores one value in distinct taps leaves it in each of them. -/
theorem bankPass_const {z : Cplx} {ps : List (Nat × Nat × Nat)} {s u : State} (hz : z.Valid)
    (hps : ∀ p ∈ ps, p ∈ triples Config.mMax Config.nMax) (hnd : ps.Nodup)
    (h : bankPass (fun _ _ => .ok z) ps s = .ok u) {p : Nat × Nat × Nat} (hp : p ∈ ps) :
    u.readCplx (tapEntry p) = .ok z := by
  obtain ⟨w, hw, hu⟩ := bankPass_ok (c := s.cfg) hps hnd (fun _ _ w hw => by cases hw; exact hz)
    (fun _ _ _ _ _ _ _ _ => rfl) rfl h p hp
  cases hw
  exact hu

/-- The taps INIT_TAPS gives the value ONE (R142). -/
def unitTaps (s : State) : List (Nat × Nat × Nat) := (List.range s.modes).map fun t => (t, t, s.centre)

theorem mem_unitTaps {s : State} {p : Nat × Nat × Nat} :
    p ∈ s.unitTaps ↔ p.1 = p.2.1 ∧ p.1 < s.modes ∧ p.2.2 = s.centre := by
  obtain ⟨t, r, j⟩ := p
  simp only [unitTaps, List.mem_map, List.mem_range, Prod.mk.injEq]
  constructor
  · rintro ⟨a, ha, rfl, rfl, rfl⟩
    exact ⟨rfl, ha, rfl⟩
  · rintro ⟨rfl, ht, rfl⟩
    exact ⟨t, ht, rfl, rfl, rfl⟩

/-- INIT_TAPS clears the whole bank, then stores ONE in its unit taps. -/
theorem initTapsWrites_passes (s : State) : ∃ cleared,
    bankPass (fun _ _ => .ok Cplx.zero) (triples Config.mMax Config.nMax) s = .ok cleared ∧
      bankPass (fun _ _ => .ok Cplx.one) s.unitTaps cleared = .ok (initTapsWrites s) := by
  refine ⟨_, foldlM_ok _ (fun _ _ _ => rfl) s, ?_⟩
  rw [bankPass, unitTaps, List.foldlM_map]
  exact foldlM_ok _ (fun _ _ _ => rfl) _

theorem initTapsWrites_tap {s : State} (hm : s.modes ≤ Config.mMax) (hc : s.centre < Config.nMax)
    {p : Nat × Nat × Nat} (hp : p ∈ triples Config.mMax Config.nMax) :
    (initTapsWrites s).readCplx (tapEntry p) =
      .ok (if p.1 = p.2.1 ∧ p.1 < s.modes ∧ p.2.2 = s.centre then Cplx.one else Cplx.zero) := by
  obtain ⟨cleared, hclear, hunit⟩ := s.initTapsWrites_passes
  have hbank : ∀ q ∈ s.unitTaps, q ∈ triples Config.mMax Config.nMax := by
    intro q hq
    obtain ⟨h1, h2, h3⟩ := mem_unitTaps.1 hq
    exact mem_triples.2 (by omega)
  have hnd : s.unitTaps.Nodup := List.Nodup.map (fun a b h => congrArg Prod.fst h) List.nodup_range
  by_cases hq : p ∈ s.unitTaps
  · rw [if_pos (mem_unitTaps.1 hq)]
    exact bankPass_const Cplx.valid_one hbank hnd hunit hq
  · rw [if_neg (mt mem_unitTaps.2 hq), bankPass_other hbank hp hq hunit]
    exact bankPass_const Cplx.valid_zero (fun _ h => h) (nodup_triples _ _) hclear hp

theorem initTapsWrites_onlyMem {s : State} (hm : s.modes ≤ Config.mMax) (hc : s.centre < Config.nMax) :
    initTapsWrites s = { s with mem := (initTapsWrites s).mem } :=
  initTapsWrites_keeps (P := fun x => x = { s with mem := x.mem }) hm hc (tapClosed_onlyMem _ _ s) rfl

theorem initTapsWrites_read_outside {s : State} (hm : s.modes ≤ Config.mMax) (hc : s.centre < Config.nMax) {a : Nat}
    (ha : ∀ i r j, i < Config.mMax → r < Config.mMax → j < Config.nMax →
      a < (Entry.tap i r j).offset ∨ (Entry.tap i r j).offset + 16 ≤ a) :
    (initTapsWrites s).mem.read a = s.mem.read a :=
  initTapsWrites_keeps (P := fun x => x.mem.read a = s.mem.read a) hm hc
    (fun x t r j z ht hr hj _ hx => (read_putCplx_other _ z x (ha t r j ht hr hj)).trans hx) rfl

/-! ## How the rules end -/

/-- The writes of a search keep the valid bits of SYNC and EQUALIZE. -/
theorem searchClosed_validBits (n : Nat) (b : Bool × Bool) :
    SearchClosed n fun x => (x.status.syncValid, x.status.eqValid) = b :=
  ⟨fun _ _ _ hx => hx, fun _ _ hx => hx, fun _ _ _ _ hx => hx⟩

/-- SyncBody sets SYNC_VALID on its success alone, and leaves EQ_VALID (R135, R180). -/
theorem syncBody_ending {seed : Bool} {s t : State} {e : Option CmdError} (hp : 1 ≤ s.pilotLen)
    (ht : s.syncBody seed = .ok (t, e)) :
    (e = none ∧ (t.status.syncValid, t.status.eqValid) = (true, s.status.eqValid)) ∨
      ∃ f, e = some (.syncFailure f) ∧
        (t.status.syncValid, t.status.eqValid) = (s.status.syncValid, s.status.eqValid) := by
  obtain ⟨⟨s1, r⟩, hse, ht⟩ := bind_eq_ok ht
  have h1 := search_keeps (s := (s.setSyncState .coarse).setSyncIters 0)
    (searchClosed_validBits _ (s.status.syncValid, s.status.eqValid)) rfl hse
  have hcfg : s1.cfg = s.cfg := search_cfg (s := (s.setSyncState .coarse).setSyncIters 0) hse
  cases r with
  | error f => cases ht; exact .inr ⟨f, rfl, h1⟩
  | ok f =>
    dsimp only at ht
    have h2 : ∃ s2 : State, s2 = { s1 with syncRes := { s1.syncRes with coarseOffset := word f.offset } } ∧
        s2.cfg = s.cfg ∧ (s2.status.syncValid, s2.status.eqValid) = (s.status.syncValid, s.status.eqValid) :=
      ⟨_, rfl, hcfg, h1⟩
    obtain ⟨s2, hs2, hcfg2, h2⟩ := h2
    rw [← hs2] at ht
    split at ht
    · cases ht; exact .inr ⟨_, rfl, h2⟩
    · obtain ⟨⟨s3, r3⟩, hre, ht⟩ := bind_eq_ok ht
      have h3 := refine_keeps (P := fun x => (x.status.syncValid, x.status.eqValid) = _)
        (by simpa [pilotLen, hcfg2] using hp) (fun _ _ _ _ _ _ _ _ _ hx => by simpa using hx) (fun _ _ hx => hx)
        (searchClosed_validBits _ (s.status.syncValid, s.status.eqValid)) (fun _ _ hx => hx) h2 hre
      cases r3 with
      | error f => cases ht; exact .inr ⟨f, rfl, h3⟩
      | ok p =>
        obtain ⟨s4, hch, ht⟩ := bind_eq_ok ht
        cases ht
        have h4 := writeChest_keeps (P := fun x => (x.status.syncValid, x.status.eqValid) = _)
          (fun _ _ _ _ _ _ hx => hx) h3 hch
        exact .inl ⟨rfl, Prod.ext rfl (congrArg Prod.snd h4 :)⟩

theorem equalizeLoop_ending {d : Nat} {ks : List Nat} {s t : State} {e : Option CmdError}
    (ht : s.equalizeLoop d ks = .ok (t, e)) : t.status = s.status ∧ (e = none ∨ ∃ k, e = some (.divergence k)) := by
  refine ⟨equalizeLoop_keeps (P := fun x => x.status = s.status) (fun _ _ _ _ _ _ _ _ _ hx => by simpa using hx)
    (fun _ _ _ _ _ _ _ hx => by simpa using hx) (fun _ _ hx => hx) rfl ht, ?_⟩
  induction ks generalizing s with
  | nil => cases ht; exact .inl rfl
  | cons k ks ih =>
    obtain ⟨ys, -, ht⟩ := bind_eq_ok ht
    obtain ⟨ts, -, ht⟩ := bind_eq_ok ht
    obtain ⟨⟨s1, dv⟩, -, ht⟩ := bind_eq_ok ht
    cases dv with
    | some v => cases ht; exact .inr ⟨_, rfl⟩
    | none => exact ih ht

theorem powerTest_ending {s t : State} {e : Option CmdError} (ht : s.powerTest = .ok (t, e)) :
    t.status = s.status ∧ (e = none ∨ ∃ k, e = some (.divergence k)) := by
  refine ⟨powerTest_keeps (P := fun x => x.status = s.status) (fun _ _ _ _ _ hx => hx) (fun _ _ hx => hx) rfl ht, ?_⟩
  obtain ⟨pc, -, ht⟩ := bind_eq_ok ht
  obtain ⟨ps, -, ht⟩ := bind_eq_ok ht
  dsimp only at ht
  split at ht
  · cases ht; exact .inr ⟨_, rfl⟩
  · cases ht; exact .inl rfl

/-- EqualizeBody sets EQ_VALID on its success alone; its only error is DIVERGENCE (R135, R220). -/
theorem equalizeBody_ending {seed : Bool} {s t : State} {e : Option CmdError} (ht : s.equalizeBody seed = .ok (t, e)) :
    (e = none ∧ t.status = { s.status with eqValid := true }) ∨
      ∃ k, e = some (.divergence k) ∧ t.status = s.status := by
  obtain ⟨⟨s1, e1⟩, hl, ht⟩ := bind_eq_ok ht
  have h0 : (if seed then s else s.writeIdentity).status = s.status := by
    split
    · rfl
    · rw [writeIdentity_onlyMem]
  obtain ⟨hs1, he1⟩ := equalizeLoop_ending hl
  have h1 := hs1.trans h0
  rcases he1 with rfl | ⟨k, rfl⟩
  · obtain ⟨⟨s2, e2⟩, hpow, ht⟩ := bind_eq_ok ht
    obtain ⟨hs2, he2⟩ := powerTest_ending hpow
    have h2 := hs2.trans h1
    rcases he2 with rfl | ⟨k, rfl⟩
    · cases ht; exact .inl ⟨rfl, by rw [setEqValid_status, h2]⟩
    · cases ht; exact .inr ⟨k, rfl, h2⟩
  · cases ht; exact .inr ⟨k, rfl, h1⟩

/-- RecoverBody, by the part it ends in (R225): on success, in SYNC, or in EQUALIZE or its check 26. -/
theorem recoverBody_ending {seed : Bool} {s t : State} {e : Option CmdError} (hp : 1 ≤ s.pilotLen)
    (ht : s.recoverBody seed = .ok (t, e)) :
    (e = none ∧ (t.status.syncValid, t.status.eqValid) = (true, true)) ∨
    (∃ f, e = some (.syncFailure f) ∧
      (t.status.syncValid, t.status.eqValid) = (s.status.syncValid, s.status.eqValid)) ∨
    ((e = some (.invalidLayout .frameOutOfBuffer) ∨ ∃ k, e = some (.divergence k)) ∧
      (t.status.syncValid, t.status.eqValid) = (true, s.status.eqValid)) := by
  obtain ⟨⟨u, eu⟩, hsync, ht⟩ := bind_eq_ok ht
  rcases syncBody_ending hp hsync with ⟨rfl, hu⟩ | ⟨f, rfl, hu⟩
  · simp only [Prod.mk.injEq] at hu
    obtain ⟨hsv, hev⟩ := hu
    rcases validated_ok ht with ⟨c, hc, he⟩ | ⟨-, hrun⟩
    · cases he
      obtain rfl := List.mem_singleton.1 (mem_of_firstFailing_eq_some hc)
      exact .inr (.inr ⟨.inl rfl, by rw [hsv, hev]⟩)
    · rcases equalizeBody_ending hrun with ⟨rfl, h⟩ | ⟨k, rfl, h⟩
      · exact .inl ⟨rfl, by rw [h, hsv]⟩
      · exact .inr (.inr ⟨.inr ⟨k, rfl⟩, by rw [h, hsv, hev]⟩)
  · cases ht; exact .inr (.inl ⟨f, rfl, hu⟩)

/-- ESTIMATE sets EST_VALID on its success alone (R135, R260). -/
theorem estimateBody_ending {synced acc : Bool} {s t : State} {e : Option CmdError}
    (ht : s.estimateBody synced acc = .ok (t, e)) :
    (e = none ∧ t.status.estValid = true) ∨ (∃ y, e = some y ∧ t = s) := by
  obtain ⟨b, -, ht⟩ := bind_eq_ok ht
  cases b with
  | none => cases ht; exact .inr ⟨_, rfl, rfl⟩
  | some p => cases ht; exact .inl ⟨rfl, rfl⟩

/-! ## The outcome of a command -/

/-- ERR as a command's outcome writes it (R132, R281). -/
def errOf (e : Option CmdError) : Err :=
  e.elim ⟨0, 0⟩ fun y => ⟨BitVec.ofNat 8 y.code, BitVec.ofNat 8 y.sub⟩

theorem errOf_code_beq_zero (e : Option CmdError) : ((errOf e).code == 0) = e.isNone := by
  cases e with
  | none => rfl
  | some y =>
    cases y
    all_goals rfl

/-- What STATUS and ERR come from: the first failing check after the valid bits are cleared, or the rule's ending. -/
theorem exec_outcome {i : Instr} {s t : State} (ht : exec i s = .next t) :
    ∃ u e, t.status = u.status ∧ t.err = errOf e ∧
      ((∃ c ∈ s.checkSet i, u = s.clearValid (.legal i) ∧ e = some (.invalidLayout c)) ∨
        ((∀ c ∈ s.checkSet i, s.checkFails c = .ok false) ∧ ruleBody i (s.clearValid (.legal i)) = .ok (u, e))) := by
  rw [exec_eq_finish] at ht
  obtain ⟨u, e, hu, ht⟩ := finish_next ht
  refine ⟨u, e, ?_, ?_, ?_⟩
  · rcases ht with ⟨-, rfl⟩ | ⟨y, -, rfl⟩
    · rfl
    · rfl
  · rcases ht with ⟨rfl, rfl⟩ | ⟨y, rfl, rfl⟩
    · rfl
    · rfl
  · rcases validated_ok hu with ⟨c, hc, he⟩ | ⟨hpass, hrun⟩
    · cases he
      exact .inl ⟨c, mem_of_firstFailing_eq_some hc, rfl, rfl⟩
    · refine .inr ⟨fun c hc => ?_, hrun⟩
      rw [← checkFails_clearValid s (.legal i)]
      exact checkFails_of_firstFailing_none hpass hc

theorem exec_sync_syncValid {seed : Bool} {s t : State} (ht : exec (.sync seed) s = .next t) :
    t.status.syncValid = (t.err.code == 0) := by
  obtain ⟨u, e, hst, herr, hend⟩ := exec_outcome ht
  rw [hst, herr, errOf_code_beq_zero]
  rcases hend with ⟨c, -, rfl, rfl⟩ | ⟨hpass, hrun⟩
  · rfl
  · have hpilot := pilotLen_pos_of_checked (hpass _ (pilotLenZero_mem_syncChecks _))
    rcases syncBody_ending (s := s.clearValid (.legal (.sync seed))) hpilot hrun with ⟨rfl, h⟩ | ⟨f, rfl, h⟩
    · exact congrArg Prod.fst h
    · exact congrArg Prod.fst h

theorem exec_equalize_eqValid {seed : Bool} {s t : State} (ht : exec (.equalize seed) s = .next t) :
    t.status.eqValid = (t.err.code == 0) := by
  obtain ⟨u, e, hst, herr, hend⟩ := exec_outcome ht
  rw [hst, herr, errOf_code_beq_zero]
  rcases hend with ⟨c, -, rfl, rfl⟩ | ⟨-, hrun⟩
  · rfl
  · rcases equalizeBody_ending hrun with ⟨rfl, h⟩ | ⟨k, rfl, h⟩
    · rw [h]; rfl
    · rw [h]; rfl

theorem exec_estimate_estValid {synced acc : Bool} {s t : State} (ht : exec (.estimate synced acc) s = .next t) :
    t.status.estValid = (t.err.code == 0) := by
  obtain ⟨u, e, hst, herr, hend⟩ := exec_outcome ht
  rw [hst, herr, errOf_code_beq_zero]
  rcases hend with ⟨c, -, rfl, rfl⟩ | ⟨-, hrun⟩
  · rfl
  · rcases estimateBody_ending hrun with ⟨rfl, h⟩ | ⟨y, rfl, rfl⟩
    · exact h
    · rfl

/-- Check 26 is not among the checks RECOVER makes first (R138, R225). -/
theorem recoverChecks_number : ∀ c ∈ recoverChecks, (BitVec.ofNat 8 c.number == 26) = false := by decide

theorem exec_recover_valid {seed : Bool} {s t : State} (ht : exec (.recover seed) s = .next t) :
    t.status.eqValid = (t.err.code == 0) ∧
      t.status.syncValid = (t.err.code == 0 || t.err.code == 2 || (t.err.code == 3 && t.err.sub == 26)) := by
  obtain ⟨u, e, hst, herr, hend⟩ := exec_outcome ht
  rw [hst, herr]
  rcases hend with ⟨c, hc, rfl, rfl⟩ | ⟨hpass, hrun⟩
  · refine ⟨rfl, ?_⟩
    change false = ((3 : BitVec 8) == 3 && BitVec.ofNat 8 c.number == 26)
    rw [recoverChecks_number c hc]
    rfl
  · have hpilot := pilotLen_pos_of_checked (hpass .pilotLenZero (by decide : _ ∈ recoverChecks))
    rcases recoverBody_ending (s := s.clearValid (.legal (.recover seed))) hpilot hrun with
      ⟨rfl, h⟩ | ⟨f, rfl, h⟩ | ⟨rfl | ⟨k, rfl⟩, h⟩
    all_goals exact ⟨congrArg Prod.snd h, congrArg Prod.fst h⟩

end State

/-- Settles O30, by the two passes of INIT_TAPS over the bank. -/
theorem initTapsWritesTheIdentityBank : Obligations.InitTapsWritesTheIdentityBank := by
  intro s hm1 hm2 hodd hn
  have hpasses : s.passes .initTaps := by
    simp only [State.passes, State.checkSet, initTapsChecks, List.forall_mem_cons, State.checkFails, Except.ok.injEq,
      Bool.or_eq_false_iff, decide_eq_false_iff_not]
    exact ⟨⟨by omega, not_lt.2 hm2⟩, ⟨⟨by omega, by omega⟩, not_lt.2 hn⟩, fun c hc => absurd hc List.not_mem_nil⟩
  have hc : s.centre < 63 := by rw [State.centre]; omega
  have hrun : State.ruleBody .initTaps (s.clearValid (.legal .initTaps)) = .ok (initTapsWrites s, none) := rfl
  refine ⟨(initTapsWrites s).complete, ?_, ?_, fun i r j hi hr hj => ?_, fun a ha => ?_⟩
  · rw [State.exec_of_passes hpasses, hrun, State.finish_success]
  · have honly := State.initTapsWrites_onlyMem hm2 hc
    rw [State.complete_eq]
    generalize (initTapsWrites s).mem = m at honly
    rw [honly]
  · have hread := State.readCplx_congr (State.complete_mem (initTapsWrites s)) (.tap i r j)
    have hbank : (i, r, j) ∈ triples Config.mMax Config.nMax := mem_triples.2 ⟨hi, hr, hj⟩
    have htap := State.initTapsWrites_tap hm2 hc hbank
    rw [State.tap, hread]
    exact htap
  · rw [State.complete_mem]
    exact State.initTapsWrites_read_outside hm2 hc ha

/-- Settles O25: its own bit follows the command's outcome, and the others are not in its write set. -/
theorem validBitsAreSetOnlyBySuccess : Obligations.ValidBitsAreSetOnlyBySuccess := by
  intro i s t ht
  obtain ⟨-, ⟨f, hf⟩, -, -⟩ := commandsWriteOnlyTheirWriteSet i s t ht
  cases i with
  | nop | checkLayout | initTaps | accClear => exact hf
  | sync seed => exact ⟨State.exec_sync_syncValid ht, by rw [hf]; rfl, by rw [hf]; rfl⟩
  | equalize seed => exact ⟨State.exec_equalize_eqValid ht, by rw [hf]; rfl, by rw [hf]; rfl⟩
  | recover seed =>
    obtain ⟨heq, hsync⟩ := State.exec_recover_valid ht
    exact ⟨heq, hsync, by rw [hf]; rfl⟩
  | estimate synced acc => exact ⟨State.exec_estimate_estValid ht, by rw [hf]; rfl, by rw [hf]; rfl⟩

end Sys2Proof.Machine
end

section
/-! PROOFS. The search of SYNC (spec/41_sync.md R163 to R170): the first of the greatest finite metrics, the mean of the
far ones, and everything a search that finds a candidate writes. -/

namespace Sys2Proof.Machine

/-! ## The order of finite values (R17) -/

namespace F64

theorem gt_fin (s t : Bool) (k l : Nat) : (fin s k).gt (fin t l) = true ↔ signed t l < signed s k := decide_eq_true_iff

theorem gt_fin_eq_false (s t : Bool) (k l : Nat) : (fin s k).gt (fin t l) = false ↔ signed s k ≤ signed t l := by
  rw [Bool.eq_false_iff, ne_eq, gt_fin, not_lt]

theorem gt_self {a : F64} (ha : a.isFinite = true) : a.gt a = false := by
  obtain ⟨s, k, rfl⟩ := isFinite_iff.1 ha
  exact (gt_fin_eq_false s s k k).2 le_rfl

/-- What is above `b` is above everything that is not. -/
theorem gt_of_gt_of_not_gt {a b c : F64} (ha : a.isFinite = true) (hb : b.isFinite = true) (hc : c.isFinite = true)
    (hab : a.gt b = true) (hcb : c.gt b = false) : a.gt c = true := by
  obtain ⟨s, k, rfl⟩ := isFinite_iff.1 ha
  obtain ⟨t, l, rfl⟩ := isFinite_iff.1 hb
  obtain ⟨u, m, rfl⟩ := isFinite_iff.1 hc
  rw [gt_fin] at hab ⊢
  rw [gt_fin_eq_false] at hcb
  omega

theorem not_gt_of_gt {a b : F64} (ha : a.isFinite = true) (hb : b.isFinite = true) (h : a.gt b = true) :
    b.gt a = false := by
  obtain ⟨s, k, rfl⟩ := isFinite_iff.1 ha
  obtain ⟨t, l, rfl⟩ := isFinite_iff.1 hb
  rw [gt_fin] at h
  rw [gt_fin_eq_false]
  omega

end F64

/-! ## Folds that answer -/

/-- A fold that answers has answered at every element. -/
theorem foldlM_ok_at {α β : Type} {f : β → α → Eng β} {l : List α} {b r : β} (h : l.foldlM f b = .ok r) {a : α}
    (ha : a ∈ l) : ∃ x y, f x a = .ok y := by
  induction l generalizing b with
  | nil => cases ha
  | cons c l ih =>
    rw [List.foldlM_cons] at h
    obtain ⟨x, hx, h⟩ := bind_eq_ok h
    rcases List.mem_cons.1 ha with rfl | ha
    · exact ⟨b, x, hx⟩
    · exact ih h ha

theorem sumReal_ok_at {α : Type} {l : List α} {f : α → Eng F64} {v : F64} (h : sumReal l f = .ok v) {a : α}
    (ha : a ∈ l) : ∃ x, f a = .ok x := by
  obtain ⟨b, y, hy⟩ := foldlM_ok_at h ha
  obtain ⟨x, hx, -⟩ := bind_eq_ok hy
  exact ⟨x, hx⟩

theorem mapM_ok_at {α β : Type} {f : α → Eng β} {l : List α} {r : List β} (h : l.mapM f = .ok r) {a : α}
    (ha : a ∈ l) : ∃ x, f a = .ok x := by
  obtain ⟨i, hi, rfl⟩ := List.getElem_of_mem ha
  obtain ⟨hr, hx⟩ := mapM_getElem h i hi
  exact ⟨_, hx⟩

/-- A monadic map over 0, 1, ... of a function that answers the elements of a list is that list. -/
theorem mapM_range_ok {β : Type} {f : Nat → Eng β} {es : List β} (h : ∀ i e, es[i]? = some e → f i = .ok e) :
    (List.range es.length).mapM f = .ok es := by
  induction es generalizing f with
  | nil => rfl
  | cons e es ih =>
    rw [List.length_cons, List.range_succ_eq_map, List.mapM_cons, h 0 e rfl, List.mapM_map]
    have := ih (f := f ∘ Nat.succ) fun i x hx => h (i + 1) x (by simpa using hx)
    rw [this]
    rfl

theorem foldlM_congr {α β : Type} {f g : β → α → Eng β} {l : List α} (h : ∀ b, ∀ a ∈ l, f b a = g b a) (b : β) :
    l.foldlM f b = l.foldlM g b := by
  induction l generalizing b with
  | nil => rfl
  | cons a l ih =>
    rw [List.foldlM_cons, List.foldlM_cons, h b a List.mem_cons_self]
    exact congrArg _ (funext fun c => ih (fun b a ha => h b a (List.mem_cons_of_mem _ ha)) c)

theorem sumReal_congr {α : Type} {f g : α → Eng F64} {l : List α} (h : ∀ a ∈ l, f a = g a) :
    sumReal l f = sumReal l g :=
  foldlM_congr (fun b a ha => by rw [h a ha]) _

theorem sumCplx_congr {α : Type} {f g : α → Eng Cplx} {l : List α} (h : ∀ a ∈ l, f a = g a) :
    sumCplx l f = sumCplx l g :=
  foldlM_congr (fun b a ha => by rw [h a ha]) _

namespace State

/-! ## Correlation, energy and metric (R139, R163, R166) -/

theorem rawCorr_ok {s : State} {d t r : Nat} {p x : Nat → Cplx}
    (h : ∀ k, k < s.pilotLen → s.pilot t k = .ok (p k) ∧
      s.sampleAt r (d + s.os * (s.pilotPos + k) : Nat) = .ok (x k)) :
    s.rawCorr d t r = .ok (cplxSum ((List.range s.pilotLen).map fun k => (p k).conj.mul (x k))) := by
  refine sumCplx_ok fun k hk => ?_
  obtain ⟨hp, hx⟩ := h k (List.mem_range.1 hk)
  rw [hp, symbolSample, hx]
  rfl

theorem pilotEnergy_ok {s : State} {t : Nat} {p : Nat → Cplx} (h : ∀ k, k < s.pilotLen → s.pilot t k = .ok (p k)) :
    s.pilotEnergy t = .ok (realSum ((List.range s.pilotLen).map fun k => (p k).abs2)) := by
  refine sumReal_ok fun k hk => ?_
  rw [h k (List.mem_range.1 hk)]
  rfl

/-- A metric that can be computed has every entry of its matrix (R166). -/
theorem aggregate_ok_at {s : State} {c : Nat → Nat → Eng Cplx} {v : F64} (h : s.aggregate c = .ok v) {t r : Nat}
    (ht : t < s.modes) (hr : r < s.modes) : ∃ z, c t r = .ok z := by
  have hp : (t, r) ∈ pairs s.modes s.modes := mem_pairs.2 ⟨ht, hr⟩
  have hentry : ∀ (g : Cplx → F64) y, (do pure (g (← c t r)) : Eng F64) = .ok y → ∃ z, c t r = .ok z := by
    intro g y hy
    obtain ⟨z, hz, -⟩ := bind_eq_ok hy
    exact ⟨z, hz⟩
  unfold aggregate at h
  split at h
  · obtain ⟨vs, hvs, -⟩ := bind_eq_ok h
    obtain ⟨y, hy⟩ := mapM_ok_at hvs hp
    exact hentry _ y hy
  · split at h
    · obtain ⟨y, hy⟩ := sumReal_ok_at h hp
      exact hentry _ y hy
    · obtain ⟨y, hy⟩ := sumReal_ok_at h hp
      exact hentry _ y hy

theorem maxReal_valid {a b : F64} (ha : a.Valid) (hb : b.Valid) : (maxReal a b).Valid := by
  unfold maxReal
  split
  · trivial
  · split
    · exact hb
    · exact ha

/-- A metric is a value binary64 can hold (R14, R166). -/
theorem aggregate_valid {s : State} {c : Nat → Nat → Eng Cplx} {v : F64} (h : s.aggregate c = .ok v) : v.Valid := by
  unfold aggregate at h
  split at h
  · obtain ⟨vs, hvs, h⟩ := bind_eq_ok h
    have hvalid : ∀ w ∈ vs, F64.Valid w := by
      intro w hw
      obtain ⟨p, -, hp⟩ := mem_mapM hvs hw
      obtain ⟨z, -, hz⟩ := bind_eq_ok hp
      cases hz
      exact F64.add_valid
    cases vs with
    | nil => cases h; exact F64.valid_zero
    | cons w ws =>
      cases h
      exact foldl_keeps F64.Valid _ ws (fun a b hb ha => maxReal_valid ha (hvalid b (List.mem_cons_of_mem w hb)))
        (hvalid w List.mem_cons_self)
  · split at h
    · exact sumReal_valid h
    · exact sumReal_valid h

/-! ## The choice of a candidate (R167) -/

theorem getElem?_concat_eq_some {es : List F64} {e x : F64} {j : Nat} :
    (es ++ [e])[j]? = some x ↔ es[j]? = some x ∨ (j = es.length ∧ x = e) := by
  grind

theorem bestIndex_concat_of_none {es : List F64} (h : bestIndex es = none) (e : F64) :
    bestIndex (es ++ [e]) = if e.isFinite then some (es.length, e) else none := by
  unfold bestIndex at *
  rw [List.zipIdx_append, List.foldl_append, h, Nat.zero_add]
  rfl

theorem bestIndex_concat_of_some {es : List F64} {b : Nat} {eb : F64} (h : bestIndex es = some (b, eb)) (e : F64) :
    bestIndex (es ++ [e]) = if e.isFinite && e.gt eb then some (es.length, e) else some (b, eb) := by
  unfold bestIndex at *
  rw [List.zipIdx_append, List.foldl_append, h, Nat.zero_add]
  rfl

/-- The first finite metric is the maximum so far. -/
theorem firstMaximum_concat_of_nonfinite {es : List F64} {e : F64} (hes : ∀ x ∈ es, F64.isFinite x = false)
    (he : e.isFinite = true) : FirstMaximum (es ++ [e]) es.length e where
  value := getElem?_concat_eq_some.2 (.inr ⟨rfl, rfl⟩)
  finite := he
  greatest j x hx hfin := by
    rcases getElem?_concat_eq_some.1 hx with hx | ⟨-, rfl⟩
    · rw [hes x (List.mem_of_getElem? hx)] at hfin; cases hfin
    · exact F64.gt_self he
  first j x hj hx hfin := by
    rcases getElem?_concat_eq_some.1 hx with hx | ⟨rfl, -⟩
    · rw [hes x (List.mem_of_getElem? hx)] at hfin; cases hfin
    · exact absurd hj (lt_irrefl _)

/-- A metric that is not above the maximum leaves it. -/
theorem FirstMaximum.concat_of_not_gt {es : List F64} {b : Nat} {peak e : F64} (h : FirstMaximum es b peak)
    (he : e.isFinite = true → e.gt peak = false) : FirstMaximum (es ++ [e]) b peak where
  value := getElem?_concat_eq_some.2 (.inl h.value)
  finite := h.finite
  greatest j x hx hfin := by
    rcases getElem?_concat_eq_some.1 hx with hx | ⟨-, rfl⟩
    · exact h.greatest j x hx hfin
    · exact he hfin
  first j x hj hx hfin := by
    rcases getElem?_concat_eq_some.1 hx with hx | ⟨rfl, -⟩
    · exact h.first j x hj hx hfin
    · exact absurd hj (not_lt.2 (List.getElem?_eq_some_iff.1 h.value).1.le)

/-- A finite metric above the maximum is the new one. -/
theorem FirstMaximum.concat_of_gt {es : List F64} {b : Nat} {peak e : F64} (h : FirstMaximum es b peak)
    (he : e.isFinite = true) (hgt : e.gt peak = true) : FirstMaximum (es ++ [e]) es.length e where
  value := getElem?_concat_eq_some.2 (.inr ⟨rfl, rfl⟩)
  finite := he
  greatest j x hx hfin := by
    rcases getElem?_concat_eq_some.1 hx with hx | ⟨-, rfl⟩
    · exact F64.not_gt_of_gt he hfin (F64.gt_of_gt_of_not_gt he h.finite hfin hgt (h.greatest j x hx hfin))
    · exact F64.gt_self he
  first j x hj hx hfin := by
    rcases getElem?_concat_eq_some.1 hx with hx | ⟨rfl, -⟩
    · exact F64.gt_of_gt_of_not_gt he h.finite hfin hgt (h.greatest j x hx hfin)
    · exact absurd hj (lt_irrefl _)

/-- R167: a search chooses the first of the greatest finite metrics, or none when there is no finite one. -/
theorem bestIndex_cases (es : List F64) :
    (bestIndex es = none ∧ ∀ e ∈ es, F64.isFinite e = false) ∨
      ∃ b peak, bestIndex es = some (b, peak) ∧ FirstMaximum es b peak := by
  induction es using List.reverseRecOn with
  | nil => exact .inl ⟨rfl, fun _ he => absurd he List.not_mem_nil⟩
  | append_singleton es e ih =>
    rcases ih with ⟨hnone, hes⟩ | ⟨b, peak, hsome, hmax⟩
    · rw [bestIndex_concat_of_none hnone]
      cases he : e.isFinite with
      | true => exact .inr ⟨_, _, if_pos rfl, firstMaximum_concat_of_nonfinite hes he⟩
      | false =>
        refine .inl ⟨if_neg Bool.false_ne_true, fun x hx => ?_⟩
        rcases List.mem_append.1 hx with hx | hx
        · exact hes x hx
        · rw [List.mem_singleton.1 hx, he]
    · rw [bestIndex_concat_of_some hsome]
      by_cases hgt : e.isFinite = true ∧ e.gt peak = true
      · exact .inr ⟨_, _, if_pos (Bool.and_eq_true_iff.2 hgt), hmax.concat_of_gt hgt.1 hgt.2⟩
      · refine .inr ⟨b, peak, if_neg fun h => hgt (Bool.and_eq_true_iff.1 h), hmax.concat_of_not_gt fun he => ?_⟩
        exact Bool.eq_false_iff.2 fun h => hgt ⟨he, h⟩

/-- There is one first maximum. -/
theorem FirstMaximum.unique {es : List F64} {b b' : Nat} {peak peak' : F64} (h : FirstMaximum es b peak)
    (h' : FirstMaximum es b' peak') : b = b' ∧ peak = peak' := by
  have hle : ∀ {b b' : Nat} {peak peak' : F64}, FirstMaximum es b peak → FirstMaximum es b' peak' → ¬ b < b' := by
    intro b b' peak peak' h h' hlt
    have hgt := h'.first b peak hlt h.value h.finite
    rw [h.greatest b' peak' h'.value h'.finite] at hgt
    cases hgt
  obtain rfl : b = b' := by have := hle h h'; have := hle h' h; omega
  exact ⟨rfl, Option.some_injective _ (h.value.symm.trans h'.value)⟩

theorem bestIndex_of_firstMaximum {es : List F64} {b : Nat} {peak : F64} (h : FirstMaximum es b peak) :
    bestIndex es = some (b, peak) := by
  rcases bestIndex_cases es with ⟨-, hes⟩ | ⟨b', peak', hsome, h'⟩
  · have hfin := h.finite
    rw [hes peak (List.mem_of_getElem? h.value)] at hfin
    cases hfin
  · obtain ⟨rfl, rfl⟩ := h.unique h'
    exact hsome

/-! ## The noise floor (R168) -/

/-- A fold that adds and counts the elements that pass a test is the sum and the number of those elements. -/
theorem foldl_filter_add_count (p : F64 × Nat → Bool) (l : List (F64 × Nat)) (a : F64) (n : Nat) :
    l.foldl (fun ((a, n) : F64 × Nat) (x : F64 × Nat) => if p x then (a.add x.1, n + 1) else (a, n)) (a, n) =
      (((l.filter p).map (·.1)).foldl F64.add a, n + ((l.filter p).map (·.1)).length) := by
  induction l generalizing a n with
  | nil => rfl
  | cons x l ih =>
    rw [List.foldl_cons]
    dsimp only
    by_cases hx : p x = true
    · rw [if_pos hx, ih, List.filter_cons_of_pos hx, List.map_cons, List.foldl_cons, List.length_cons,
        Nat.add_assoc, Nat.add_comm 1]
    · rw [if_neg hx, ih, List.filter_cons_of_neg hx]

/-- R168: the floor is the mean of the finite metrics at least OS samples from the peak. -/
theorem noiseFloor_eq_meanFloor (s : State) (es : List F64) (b : Nat) : s.noiseFloor es b = s.meanFloor es b := by
  have hfold := foldl_filter_add_count
    (fun x => x.1.isFinite && decide (s.os ≤ ((x.2 : Int) - (b : Int)).natAbs)) es.zipIdx F64.zero 0
  unfold noiseFloor meanFloor farMetrics
  rw [hfold, Nat.zero_add]
  refine if_congr ?_ rfl rfl
  exact List.length_eq_zero_iff

theorem meanFloor_valid (s : State) (es : List F64) (b : Nat) : (s.meanFloor es b).Valid := by
  unfold meanFloor
  split
  · exact F64.valid_zero
  · exact F64.div_valid

/-! ## CORR (R72, R167) -/

theorem writeCorr_concat (es : List F64) (e : F64) (s : State) :
    s.writeCorr (es ++ [e]) = (s.writeCorr es).putCorr es.length e := by
  rw [writeCorr, List.zipIdx_append, List.foldl_append, Nat.zero_add]
  rfl

theorem writeCorr_onlyMem (es : List F64) (s : State) : s.writeCorr es = { s with mem := (s.writeCorr es).mem } :=
  foldl_keeps (fun x : State => x = { s with mem := x.mem }) _ _ (fun x p _ hx =>
    congrArg (fun y : State => { y with mem := (x.putCorr p.2 p.1).mem }) hx) rfl

/-- The metrics are stored whatever the SYNC results and STATUS hold. -/
theorem writeCorr_withResults (es : List F64) (s : State) (st : Status) (r : SyncResults) :
    writeCorr es { s with status := st, syncRes := r } = { s.writeCorr es with status := st, syncRes := r } := by
  unfold writeCorr
  refine List.foldl_hom (fun x : State => { x with status := st, syncRes := r }) fun x p => ?_
  rfl

theorem writeCorr_mem_withResults (es : List F64) (s : State) (st : Status) (r : SyncResults) :
    (writeCorr es { s with status := st, syncRes := r }).mem = (s.writeCorr es).mem := by
  rw [writeCorr_withResults]

theorem corr_writeCorr {es : List F64} (hv : ∀ e ∈ es, F64.Valid e) (s : State) {i : Nat} {e : F64}
    (he : es[i]? = some e) :
    ((s.writeCorr es).mem.readBits64 (Entry.corr i).offset).map F64.ofBits = some e := by
  induction es using List.reverseRecOn with
  | nil => cases he
  | append_singleton es x ih =>
    rw [writeCorr_concat]
    rcases getElem?_concat_eq_some.1 he with he | ⟨rfl, rfl⟩
    · have hlt := (List.getElem?_eq_some_iff.1 he).1
      rw [putCorr_mem, Memory.readBits64_writeBits64_other _ _ (by simp only [Entry.offset]; omega)]
      exact ih (fun y hy => hv y (List.mem_append_left _ hy)) he
    · exact corr_putCorr_same _ _ (hv e (by simp))

theorem read_writeCorr_outside (es : List F64) (s : State) {a : Nat}
    (h : a < 0xC00000 ∨ 0xC00000 + 8 * es.length ≤ a) : (s.writeCorr es).mem.read a = s.mem.read a := by
  refine foldl_keeps (fun x : State => x.mem.read a = s.mem.read a) _ _ (fun x p hp hx => ?_) rfl
  obtain ⟨v, i⟩ := p
  have hi := List.mem_zipIdx hp
  exact (read_putCorr_other i v x (by simp only [Entry.offset]; omega)).trans hx

theorem readCplx_writeCorr (es : List F64) (s : State) {f : Entry} (hf : f.offset + 16 ≤ 0xC00000) :
    (s.writeCorr es).readCplx f = s.readCplx f := by
  refine foldl_keeps (fun x : State => x.readCplx f = s.readCplx f) _ _ (fun x p _ hx => ?_) rfl
  obtain ⟨v, i⟩ := p
  have hi : (Entry.corr i).offset = 0xC00000 + 8 * i := rfl
  exact (readCplx_putCorr_other v x (by omega)).trans hx

/-! ## A search that finds a candidate (R167, R170) -/

/-- CONF as R170 gives it. -/
def confBits (s : State) (peak floor : F64) : Bits64 :=
  if floor.gt F64.zero then s.realBits (Reg.syncConf .lo).offset (peak.div floor) else 0

theorem confidence_eq_confBits (s : State) (peak floor : F64) : s.confidence peak floor =
    { s with
      syncRes := { s.syncRes with conf := s.confBits peak floor }
      status := { s.status with confInf := !floor.gt F64.zero } } := by
  unfold confidence confBits
  cases floor.gt F64.zero with
  | true => rfl
  | false => rfl

theorem ofBits_confBits (s : State) (peak floor : F64) :
    F64.ofBits (s.confBits peak floor) = if floor.gt F64.zero then peak.div floor else F64.zero := by
  unfold confBits
  split
  · exact realBits_ofBits s _ F64.div_valid
  · decide

/-- What a search over the metrics `es` from `lo` on leaves when it chooses candidate `b` (R167, R170). -/
def afterSearch (s : State) (lo : Nat) (es : List F64) (b : Nat) (peak : F64) : State :=
  { s with
    status := { s.status with confInf := !(s.meanFloor es b).gt F64.zero }
    syncRes := { s.syncRes with
      candStart := word lo
      candCount := word es.length
      offset := word (lo + b)
      peak := s.realBits (Reg.syncPeak .lo).offset peak
      floor := s.realBits (Reg.syncFloor .lo).offset (s.meanFloor es b)
      conf := s.confBits peak (s.meanFloor es b) }
    mem := (s.writeCorr es).mem }

theorem search_found {s : State} {metric : Nat → Eng F64} {lo : Nat} {hi : Int} {es : List F64} {b : Nat} {peak : F64}
    (hcount : es.length = (hi - lo + 1).toNat) (hmetric : ∀ i e, es[i]? = some e → metric (lo + i) = .ok e)
    (hbest : FirstMaximum es b peak) :
    s.search metric lo hi = .ok (s.afterSearch lo es b peak, .ok ⟨lo + b, peak, s.meanFloor es b⟩) := by
  have hpos : es.length ≠ 0 := by have := (List.getElem?_eq_some_iff.1 hbest.value).1; omega
  have hmap : (List.range es.length).mapM (fun i => metric (lo + i)) = .ok es := mapM_range_ok hmetric
  unfold search
  dsimp only
  rw [← hcount, if_neg hpos, hmap]
  change (match bestIndex es with | none => _ | some (best, peak) => _ : Eng _) = _
  rw [bestIndex_of_firstMaximum hbest]
  dsimp only
  rw [noiseFloor_eq_meanFloor, confidence_eq_confBits, writeCorr_withResults es s s.status, writeCorr_onlyMem es s]
  rfl

end State

end Sys2Proof.Machine
end

section
/-! PROOFS. SYNC without refinement (spec/41_sync.md R164, R165, R176, R177, R180): the coarse search, the channel
estimate at the offset found, and every register and byte the command leaves. -/

namespace Sys2Proof.Machine

theorem ok_bind {α β : Type} (x : α) (f : α → Eng β) : (Except.ok x : Eng α) >>= f = f x := rfl

namespace State

/-! ## What the search leaves of the operands -/

/-- The configuration is the same, and every entry below CORR reads the same. -/
structure SameOperands (s t : State) : Prop where
  cfg : t.cfg = s.cfg
  entries : ∀ e : Entry, e.offset + 16 ≤ 0xC00000 → t.readCplx e = s.readCplx e

/-- The bounds that validation sets on the pilots and samples (R137, checks 6, 8 and 12). -/
structure PilotBounds (s : State) : Prop where
  modes : s.modes ≤ Config.mMax
  pilotLen : s.pilotLen ≤ Config.pMax
  sampleLen : s.sampleLen ≤ Config.sMax

section
variable {s t : State} (h : SameOperands s t) (hb : s.PilotBounds)
include h hb

theorem pilot_congr {i k : Nat} (hi : i < s.modes) (hk : k < s.pilotLen) : t.pilot i k = s.pilot i k := by
  refine h.entries _ ?_
  have hm := hb.modes
  have hp := hb.pilotLen
  simp only [Entry.offset, Config.mMax, Config.pMax] at *
  omega

theorem sampleAt_congr {r : Nat} (hr : r < s.modes) (n : Int) : t.sampleAt r n = s.sampleAt r n := by
  have hlen : t.sampleLen = s.sampleLen := congrArg (fun c : ConfigRegs => c.sampleLen.toNat) h.cfg
  unfold sampleAt
  rw [hlen]
  split
  · next hn =>
    refine h.entries _ ?_
    have hm := hb.modes
    have hs := hb.sampleLen
    simp only [Entry.offset, Config.mMax, Config.sMax] at *
    omega
  · rfl

theorem rawCorr_congr {i r : Nat} (hi : i < s.modes) (hr : r < s.modes) (d : Nat) :
    t.rawCorr d i r = s.rawCorr d i r := by
  have hlen : t.pilotLen = s.pilotLen := congrArg (fun c : ConfigRegs => c.pilotLen.toNat) h.cfg
  have hsym : ∀ k, t.symbolSample d (t.pilotPos + k) = s.symbolSample d (s.pilotPos + k) := fun k =>
    congrArg (fun c : ConfigRegs => d + c.os.toNat * (c.pilotPos.toNat + k)) h.cfg
  unfold rawCorr
  rw [hlen]
  refine sumCplx_congr fun k hk => ?_
  rw [pilot_congr h hb hi (List.mem_range.1 hk), hsym, sampleAt_congr h hb hr]

theorem pilotEnergy_congr {i : Nat} (hi : i < s.modes) : t.pilotEnergy i = s.pilotEnergy i := by
  have hlen : t.pilotLen = s.pilotLen := congrArg (fun c : ConfigRegs => c.pilotLen.toNat) h.cfg
  unfold pilotEnergy
  rw [hlen]
  refine sumReal_congr fun k hk => ?_
  rw [pilot_congr h hb hi (List.mem_range.1 hk)]

end

/-! ## The candidates (R164, R165) -/

theorem coarseHi_le_dmax (s : State) : s.coarseHi ≤ s.dmax := by
  unfold coarseHi
  split
  · exact le_rfl
  · exact min_le_right _ _

theorem dmax_lt_sampleLen {s : State} (hp : 1 ≤ s.pilotLen) : s.dmax < s.sampleLen := by
  have : 0 ≤ (s.os : Int) * ((s.pilotPos : Int) + (s.pilotLen : Int) - 1) := mul_nonneg (by omega) (by omega)
  unfold dmax
  omega

/-- A coarse search has at most SAMPLE_LEN candidates, all of them in the buffer. -/
theorem CoarseFinds.candidate_lt {s : State} {es : List F64} {b : Nat} {peak : F64} (h : s.CoarseFinds es b peak)
    (hp : 1 ≤ s.pilotLen) : s.searchStart + b < s.sampleLen ∧ es.length ≤ s.sampleLen := by
  have hlt := (List.getElem?_eq_some_iff.1 h.best.value).1
  have hcount := h.count
  have hhi := s.coarseHi_le_dmax
  have hd := dmax_lt_sampleLen hp
  omega

theorem CoarseFinds.valid {s : State} {es : List F64} {b : Nat} {peak : F64} (h : s.CoarseFinds es b peak) :
    ∀ e ∈ es, F64.Valid e := by
  intro e he
  obtain ⟨i, hi⟩ := List.getElem?_of_mem he
  exact aggregate_valid (h.metrics i e hi)

theorem someMode_eq_false_at {bad : Nat → Eng Bool} {ts : List Nat} (h : someMode bad ts = .ok false) {t : Nat}
    (ht : t ∈ ts) : bad t = .ok false := by
  induction ts with
  | nil => cases ht
  | cons u ts ih =>
    obtain ⟨b, hb, h⟩ := bind_eq_ok h
    cases b with
    | true => cases h
    | false =>
      rcases List.mem_cons.1 ht with rfl | ht
      · exact hb
      · exact ih h ht

/-- Validation has computed the pilot energies (R137, check 9). -/
theorem pilotEnergy_of_checked {s : State} (h : s.checkFails .pilotZeroEnergy = .ok false) {t : Nat}
    (ht : t < s.modes) : ∃ ep, s.pilotEnergy t = .ok ep := by
  obtain ⟨ep, hep, -⟩ := bind_eq_ok (someMode_eq_false_at h (List.mem_range.2 ht))
  exact ⟨ep, hep⟩

/-! ## The channel estimate (R176) -/

/-- CHEST with `z t r` stored in each pair of a list. -/
def putChests (z : Nat → Nat → Cplx) (ps : List (Nat × Nat)) (s : State) : State :=
  ps.foldl (fun x p => x.putChest p.1 p.2 (z p.1 p.2)) s

theorem writeChest_ok {s : State} {d : Nat} {c : Nat → Nat → Cplx} {ep : Nat → F64}
    (h : ∀ t r, t < s.modes → r < s.modes → s.rawCorr d t r = .ok (c t r) ∧ s.pilotEnergy t = .ok (ep t)) :
    s.writeChest d = .ok (s.putChests (fun t r => (c t r).divReal (ep t)) (pairs s.modes s.modes)) := by
  refine foldlM_ok _ (fun x p hp => ?_) s
  obtain ⟨ht, hr⟩ := mem_pairs.1 hp
  obtain ⟨hc, hep⟩ := h p.1 p.2 ht hr
  dsimp only
  rw [hc, ok_bind, hep]
  rfl

theorem putChests_onlyChest (z : Nat → Nat → Cplx) (ps : List (Nat × Nat)) (s : State) :
    s.putChests z ps = { s with syncRes := { s.syncRes with chest := (s.putChests z ps).syncRes.chest } } :=
  foldl_keeps (fun x : State => x = { s with syncRes := { s.syncRes with chest := x.syncRes.chest } }) _ _
    (fun x p _ hx => congrArg
      (fun y : State =>
        { y with syncRes := { y.syncRes with chest := (x.putChest p.1 p.2 (z p.1 p.2)).syncRes.chest } }) hx) rfl

theorem putChests_chest (z : Nat → Nat → Cplx) (ps : List (Nat × Nat)) (s : State) (t r : Fin 4) :
    (s.putChests z ps).syncRes.chest[t][r] =
      if (t.val, r.val) ∈ ps then s.cplxBits (Reg.chestRe t r .lo).offset (z t r) else s.syncRes.chest[t][r] := by
  induction ps generalizing s with
  | nil => rfl
  | cons p ps ih =>
    have hstep := ih (s.putChest p.1 p.2 (z p.1 p.2))
    rw [putChest_chest] at hstep
    refine hstep.trans ?_
    by_cases hps : (t.val, r.val) ∈ ps
    · rw [if_pos hps, if_pos (List.mem_cons_of_mem p hps)]
      rfl
    · rw [if_neg hps]
      refine if_ctx_congr ?_ (fun hp => ?_) fun _ => rfl
      · rw [List.mem_cons, or_iff_left hps, Prod.ext_iff]
      · rw [List.mem_cons, or_iff_left hps] at hp
        rw [← hp]

/-! ## The coarse pass (R180) -/

/-- What a SYNC without refinement leaves when its coarse search finds candidate `b` (R167 to R170, R176, R177). -/
def afterCoarse (s : State) (es : List F64) (b : Nat) (peak : F64) (chest : Vector (Vector CplxBits 4) 4) : State :=
  { s with
    status := { s.status with
      syncValid := true
      syncState := .converged
      confInf := !(s.meanFloor es b).gt F64.zero }
    syncRes :=
      { offset := word (s.searchStart + b)
        iters := word 0
        candStart := word s.searchStart
        candCount := word es.length
        peak := s.realBits (Reg.syncPeak .lo).offset peak
        floor := s.realBits (Reg.syncFloor .lo).offset (s.meanFloor es b)
        conf := s.confBits peak (s.meanFloor es b)
        coarseOffset := word (s.searchStart + b)
        chest := chest }
    cfg := { s.cfg with frameOffset := word (s.searchStart + b) }
    mem := (s.writeCorr es).mem }

/-- The state in which a coarse search ends, with COARSE_OFFSET written (R180). -/
def coarseDone (s : State) (es : List F64) (b : Nat) (peak : F64) : State :=
  let x := ((s.setSyncState .coarse).setSyncIters 0).afterSearch s.searchStart es b peak
  { x with syncRes := { x.syncRes with coarseOffset := word (s.searchStart + b) } }

theorem coarseDone_sameOperands (s : State) (es : List F64) (b : Nat) (peak : F64) :
    SameOperands s (s.coarseDone es b peak) :=
  ⟨rfl, fun _ he => (readCplx_congr rfl _).trans
    ((readCplx_writeCorr es ((s.setSyncState .coarse).setSyncIters 0) he).trans (readCplx_congr rfl _))⟩

/-- The coarse search chooses and detects its candidate, and without refinement SYNC goes on to its results. -/
theorem syncBody_coarse {s : State} {seed : Bool} {es : List F64} {b : Nat} {peak : F64} (hi : s.iterations = 0)
    (h : s.CoarseFinds es b peak) :
    s.syncBody seed = (s.coarseDone es b peak).syncSucceed (s.searchStart + b) .converged := by
  have hsearch := search_found (s := (s.setSyncState .coarse).setSyncIters 0)
    (metric := ((s.setSyncState .coarse).setSyncIters 0).rawMetric) h.count (fun i e he => h.metrics i e he) h.best
  have hdetected : (s.coarseDone es b peak).detected ⟨s.searchStart + b, peak, s.meanFloor es b⟩ = true := by
    simp only [detected, Bool.and_eq_true]
    exact ⟨⟨h.best.finite, h.positive⟩, h.threshold⟩
  unfold syncBody
  dsimp only
  rw [hsearch, ok_bind, hi]
  change (if (!(s.coarseDone es b peak).detected ⟨s.searchStart + b, peak, s.meanFloor es b⟩) = true then _ else _ :
    Eng Ending) = _
  rw [hdetected]
  rfl

/-- R176, R177, R180: the results of a SYNC without refinement. -/
theorem syncBody_found {s : State} {seed : Bool} {es : List F64} {b : Nat} {peak : F64} {c : Nat → Nat → Cplx}
    {ep : Nat → F64} (hi : s.iterations = 0) (h : s.CoarseFinds es b peak) (hb : s.PilotBounds)
    (hc : ∀ t r, t < s.modes → r < s.modes →
      s.rawCorr (s.searchStart + b) t r = .ok (c t r) ∧ s.pilotEnergy t = .ok (ep t)) :
    ∃ chest : Vector (Vector CplxBits 4) 4, s.syncBody seed = .ok (s.afterCoarse es b peak chest, none) ∧
      ∀ t r : Fin 4, chest[t][r] = if t.val < s.modes ∧ r.val < s.modes then
        s.cplxBits (Reg.chestRe t r .lo).offset ((c t r).divReal (ep t)) else s.syncRes.chest[t][r] := by
  have hsame := s.coarseDone_sameOperands es b peak
  have hchest := writeChest_ok (s := s.coarseDone es b peak) (d := s.searchStart + b) fun t r ht hr => by
    rw [rawCorr_congr hsame hb ht hr, pilotEnergy_congr hsame hb ht]
    exact hc t r ht hr
  refine ⟨(putChests (fun t r => (c t r).divReal (ep t)) (pairs s.modes s.modes)
    (s.coarseDone es b peak)).syncRes.chest, ?_, fun t r => ?_⟩
  · have hmem : (s.coarseDone es b peak).mem = (s.writeCorr es).mem :=
      writeCorr_mem_withResults es s _ _
    rw [syncBody_coarse hi h, syncSucceed, hchest, ok_bind, putChests_onlyChest, afterCoarse, ← hmem]
    rfl
  · rw [putChests_chest]
    exact if_congr mem_pairs rfl rfl

theorem toNat_word {n : Nat} (h : n < 2 ^ 32) : (word n).toNat = n := by
  rw [word, BitVec.toNat_ofNat, Nat.mod_eq_of_lt h]

theorem bounds_of_passes_sync {s : State} {seed : Bool} (h : s.passes (.sync seed)) :
    s.PilotBounds ∧ 1 ≤ s.pilotLen ∧ s.checkFails .pilotZeroEnergy = .ok false := by
  have hlayout : ∀ c ∈ layoutChecks, s.checkFails c = .ok false := by
    intro c hc
    refine h c ?_
    simp only [checkSet, syncChecks]
    split
    · exact List.mem_append_left _ hc
    · exact List.mem_append_left _ hc
  have hlong := hlayout .pilotTooLong (by decide)
  simp only [checkFails, Except.ok.injEq, decide_eq_false_iff_not, not_lt] at hlong
  exact ⟨⟨modes_le_of_checked (hlayout _ (by decide)), hlong,
    sampleLen_le_of_checked (h _ (sampleLenRange_mem_syncChecks _))⟩,
    pilotLen_pos_of_checked (hlayout _ (by decide)), hlayout _ (by decide)⟩

end State

/-- Settles O34: the sums of R163 and R139 term by term, then the results of the coarse pass, read back. -/
theorem coarseSyncWritesTheOffsetFound : Obligations.CoarseSyncWritesTheOffsetFound := by
  refine ⟨fun s d t r p x h => State.rawCorr_ok h, fun s t p h => State.pilotEnergy_ok h, fun s d => rfl, ?_⟩
  intro s seed es b peak hi hpass hfind
  obtain ⟨hb, hpilot, henergy⟩ := State.bounds_of_passes_sync hpass
  -- the entries of the channel estimate
  choose! ep hep using fun t ht => State.pilotEnergy_of_checked henergy (t := t) ht
  choose! c hc using fun t r ht hr =>
    State.aggregate_ok_at (hfind.metrics b peak hfind.best.value) (t := t) (r := r) ht hr
  -- the command runs on the state with SYNC_VALID cleared
  obtain ⟨chest, hrun, hchest⟩ := State.syncBody_found (s := s.setSyncValid false) (seed := seed) (c := c) (ep := ep) hi
    ⟨hfind.count, hfind.metrics, hfind.best, hfind.positive, hfind.threshold⟩
    ⟨hb.modes, hb.pilotLen, hb.sampleLen⟩ fun t r ht hr => ⟨hc t r ht hr, hep t ht⟩
  obtain ⟨hoffset, hcount⟩ := hfind.candidate_lt hpilot
  have hsample : s.sampleLen < 2 ^ 32 := s.cfg.sampleLen.isLt
  have hword : (State.word (s.searchStart + b)).toNat = s.searchStart + b := State.toNat_word (by omega)
  have hpeak : peak.Valid := hfind.valid peak (List.mem_of_getElem? hfind.best.value)
  refine ⟨((s.setSyncValid false).afterCoarse es b peak chest).complete, ?_, ?_, rfl, hword, hword, hword, rfl, ?_, ?_,
    State.realBits_ofBits _ _ hpeak, State.realBits_ofBits _ _ (s.meanFloor_valid es b), State.ofBits_confBits _ _ _,
    fun i j hi hj => ?_, fun i j hij => ?_, fun i e he => ?_, fun a ha => ?_⟩
  · rw [State.exec_of_passes hpass]
    change finish (State.syncBody seed (s.setSyncValid false)) = _
    rw [hrun, State.finish_success]
  · rw [State.complete_eq]; rfl
  · exact State.toNat_word (n := s.searchStart) (by omega)
  · exact State.toNat_word (by omega)
  · refine ⟨c i j, ep i, hc i j hi hj, hep i hi, ?_⟩
    refine (congrArg State.cplxOf ((hchest i j).trans (if_pos ⟨hi, hj⟩))).trans ?_
    exact State.cplxOf_cplxBits _ _ Cplx.divReal_valid
  · exact (hchest i j).trans (if_neg fun h : i.val < s.modes ∧ j.val < s.modes => by omega)
  · exact State.corr_writeCorr hfind.valid (s.setSyncValid false) he
  · exact State.read_writeCorr_outside es (s.setSyncValid false) ha

end Sys2Proof.Machine
end

section
/-! PROOFS. The metrics of SYNC (spec/41_sync.md R162, R166 to R168): a sample outside the buffer, what the aggregate of a
correlation matrix is in each of its modes, and the candidate and the noise floor of a list of metrics. -/

namespace Sys2Proof.Machine

/-! ## The order of all values (R17) -/

namespace F64

theorem isNaN_iff {a : F64} : a.isNaN = true ↔ a = nan := by
  cases a with
  | nan => exact ⟨fun _ => rfl, fun _ => rfl⟩
  | inf s => exact ⟨fun h => absurd h Bool.false_ne_true, fun h => nomatch h⟩
  | fin s k => exact ⟨fun h => absurd h Bool.false_ne_true, fun h => nomatch h⟩

theorem lt_self (a : F64) : a.lt a = false := by
  cases a with
  | nan => rfl
  | inf s => exact Bool.and_not_self s
  | fin s k => exact decide_eq_false (lt_irrefl _)

theorem lt_trans {a b c : F64} (hab : a.lt b = true) (hbc : b.lt c = true) : a.lt c = true := by
  cases b with
  | nan => cases hbc
  | inf t =>
    cases t with
    | true => cases a <;> simp [lt] at hab
    | false => cases c <;> simp [lt] at hbc
  | fin t l =>
    cases a with
    | nan => cases hab
    | inf s =>
      cases c with
      | nan => cases hbc
      | inf u => exact Bool.and_eq_true_iff.2 ⟨hab, hbc⟩
      | fin u m => exact hab
    | fin s k =>
      cases c with
      | nan => cases hbc
      | inf u => exact hbc
      | fin u m => exact decide_eq_true ((of_decide_eq_true hab).trans (of_decide_eq_true hbc))

end F64

/-- A monadic map that answers has the answer for each element of its argument. -/
theorem exists_mem_of_mapM {α β : Type} {f : α → Eng β} {l : List α} {r : List β} (h : l.mapM f = .ok r) {a : α}
    (ha : a ∈ l) : ∃ x ∈ r, f a = .ok x := by
  obtain ⟨i, hi, rfl⟩ := List.getElem_of_mem ha
  obtain ⟨hr, hx⟩ := mapM_getElem h i hi
  exact ⟨_, List.getElem_mem hr, hx⟩

namespace State

/-! ## The larger of two metrics (R166) -/

theorem maxReal_of_nan {a b : F64} (h : a = .nan ∨ b = .nan) : maxReal a b = .nan := by
  refine if_pos (Bool.or_eq_true_iff.2 ?_)
  rwa [F64.isNaN_iff, F64.isNaN_iff]

theorem maxReal_of_not_nan {a b : F64} (ha : a ≠ .nan) (hb : b ≠ .nan) : maxReal a b = if a.lt b then b else a := by
  refine if_neg fun h => ?_
  rw [Bool.or_eq_true_iff, F64.isNaN_iff, F64.isNaN_iff] at h
  exact h.elim ha hb

/-- `m` is one of the values of a list, none is greater, and it is NaN when one of them is (R166). -/
structure MaximumOf (vs : List F64) (m : F64) : Prop where
  mem : m ∈ vs
  nan : ∀ w ∈ vs, w = .nan → m = .nan
  greatest : ∀ w ∈ vs, F64.gt w m = false

theorem MaximumOf.concat {vs : List F64} {m : F64} (h : MaximumOf vs m) (x : F64) :
    MaximumOf (vs ++ [x]) (maxReal m x) := by
  by_cases hnan : m = .nan ∨ x = .nan
  · rw [maxReal_of_nan hnan]
    refine ⟨?_, fun _ _ _ => rfl, fun _ _ => rfl⟩
    rcases hnan with rfl | rfl
    · exact List.mem_append_left _ h.mem
    · exact List.mem_append_right _ (List.mem_singleton_self _)
  · obtain ⟨hm, hx⟩ := not_or.1 hnan
    rw [maxReal_of_not_nan hm hx]
    have hnone : ∀ w ∈ vs ++ [x], w ≠ F64.nan := List.forall_mem_append.2
      ⟨fun w hw he => hm (h.nan w hw he), List.forall_mem_singleton.2 hx⟩
    by_cases hlt : m.lt x = true
    · rw [if_pos hlt]
      refine ⟨List.mem_append_right _ (List.mem_singleton_self _), fun w hw he => absurd he (hnone w hw),
        List.forall_mem_append.2 ⟨fun w hw => ?_, List.forall_mem_singleton.2 (F64.lt_self x)⟩⟩
      refine Bool.eq_false_iff.2 fun hxw => ?_
      exact Bool.false_ne_true ((h.greatest w hw).symm.trans (F64.lt_trans hlt hxw))
    · rw [if_neg hlt]
      exact ⟨List.mem_append_left _ h.mem, fun w hw he => absurd he (hnone w hw),
        List.forall_mem_append.2 ⟨h.greatest, List.forall_mem_singleton.2 (Bool.eq_false_iff.2 hlt)⟩⟩

theorem maximumOf_foldl (v : F64) (vs : List F64) : MaximumOf (v :: vs) (vs.foldl maxReal v) := by
  induction vs using List.reverseRecOn with
  | nil => exact ⟨List.mem_singleton_self v, fun w hw he => (List.mem_singleton.1 hw).symm.trans he,
      fun w hw => by rw [List.mem_singleton.1 hw]; exact F64.lt_self v⟩
  | append_singleton vs x ih =>
    rw [List.foldl_append]
    exact ih.concat x

/-! ## The aggregate (R166) -/

theorem aggregate_sum {s : State} {c : Nat → Nat → Eng Cplx} {z : Nat → Nat → Cplx}
    (h : ∀ t r, t < s.modes → r < s.modes → c t r = .ok (z t r)) (hmode : s.aggMode = 0) :
    s.aggregate c = .ok (realSum (terms s.modes s.modes fun t r => (z t r).abs2)) := by
  rw [aggregate, hmode]
  exact sumReal_pairs fun t r ht hr => by dsimp only; rw [h t r ht hr]; rfl

theorem aggregate_weighted {s : State} {c : Nat → Nat → Eng Cplx} {z : Nat → Nat → Cplx}
    (h : ∀ t r, t < s.modes → r < s.modes → c t r = .ok (z t r)) (hmode : s.aggMode = 2) :
    s.aggregate c = .ok (realSum (terms s.modes s.modes fun t r => (s.aggWeight t r).mul (z t r).abs2)) := by
  rw [aggregate, hmode]
  exact sumReal_pairs fun t r ht hr => by dsimp only; rw [h t r ht hr]; rfl

/-- In MAX mode the aggregate is the maximum of the squared magnitudes, which all can be read. -/
theorem aggregate_max {s : State} {c : Nat → Nat → Eng Cplx} {v : F64} (hmode : s.aggMode = 1) (hm : 1 ≤ s.modes)
    (h : s.aggregate c = .ok v) :
    ∃ vs, (pairs s.modes s.modes).mapM (fun (t, r) => do pure (← c t r).abs2) = .ok vs ∧ MaximumOf vs v := by
  rw [aggregate, if_pos hmode] at h
  obtain ⟨vs, hvs, h⟩ := bind_eq_ok h
  refine ⟨vs, hvs, ?_⟩
  cases vs with
  | nil =>
    obtain ⟨x, hx, -⟩ := exists_mem_of_mapM hvs (mem_pairs.2 ⟨hm, hm⟩ : (0, 0) ∈ pairs s.modes s.modes)
    cases hx
  | cons w ws => cases h; exact maximumOf_foldl w ws

end State

/-- Settles O31, by the cases of the choice: some first maximum, or no finite metric. -/
theorem searchChoosesTheFirstMaximum : Obligations.SearchChoosesTheFirstMaximum := by
  refine fun es => ⟨fun b peak => ⟨fun h => ?_, State.bestIndex_of_firstMaximum⟩, fun h => ?_, fun h => ?_⟩
  · rcases State.bestIndex_cases es with ⟨hnone, -⟩ | ⟨b', peak', hsome, hmax⟩
    · rw [hnone] at h; cases h
    · rw [hsome] at h; cases h; exact hmax
  · rcases State.bestIndex_cases es with ⟨-, hes⟩ | ⟨b, peak, hsome, -⟩
    · exact hes
    · rw [hsome] at h; cases h
  · rcases State.bestIndex_cases es with ⟨hnone, -⟩ | ⟨b, peak, -, hmax⟩
    · exact hnone
    · exact absurd hmax.finite (by rw [h peak (List.mem_of_getElem? hmax.value)]; exact Bool.false_ne_true)

/-- Settles O32: the fold of R168 is the sum and the number of the far metrics. -/
theorem noiseFloorIsTheMeanOfFarMetrics : Obligations.NoiseFloorIsTheMeanOfFarMetrics :=
  State.noiseFloor_eq_meanFloor

/-- Settles O33: the sums term by term, and the maximum by the fold of `maxReal`. -/
theorem aggregateFollowsItsMode : Obligations.AggregateFollowsItsMode := by
  refine ⟨fun s c z h => ⟨State.aggregate_sum h, State.aggregate_weighted h⟩, fun s c v hmode hm h => ?_⟩
  obtain ⟨vs, hvs, hmax⟩ := State.aggregate_max hmode hm h
  refine ⟨fun t r ht hr => ?_, ?_⟩
  · obtain ⟨w, hw, hentry⟩ := exists_mem_of_mapM hvs (mem_pairs.2 ⟨ht, hr⟩ : (t, r) ∈ pairs s.modes s.modes)
    obtain ⟨z, hz, hzw⟩ := bind_eq_ok hentry
    cases hzw
    exact ⟨z, hz, fun hnan => F64.isNaN_iff.2 (hmax.nan _ hw (F64.isNaN_iff.1 hnan)), hmax.greatest _ hw⟩
  · obtain ⟨⟨t, r⟩, hp, hentry⟩ := mem_mapM hvs hmax.mem
    obtain ⟨z, hz, hzv⟩ := bind_eq_ok hentry
    obtain ⟨ht, hr⟩ := mem_pairs.1 hp
    cases hzv
    exact ⟨t, r, z, ht, hr, hz, rfl⟩

/-- Settles O38, by whether the index lies in the buffer. -/
theorem sampleOutsideTheBufferIsZero : Obligations.SampleOutsideTheBufferIsZero := by
  refine fun s r n => ⟨fun h => if_neg (by omega), fun m hn hm => ?_⟩
  subst hn
  exact if_pos (by omega)

end Sys2Proof.Machine
end

section
/-! PROOFS. How SYNC ends (spec/41_sync.md R164 to R180): what a search, an iteration and the whole rule can end in, the
results each ending leaves, and that every offset found lies in the buffer. -/

namespace Sys2Proof.Machine

theorem SyncFailure.sub_pos (f : SyncFailure) : 1 ≤ f.sub ∧ f.sub ≤ 4 := by
  cases f
  all_goals decide

theorem SyncFailure.sub_injective : Function.Injective SyncFailure.sub := by
  intro f g
  cases f
  all_goals cases g
  all_goals decide

namespace State

/-! ## A search (R167) -/

/-- The start and the number of candidates, written before a search begins (R167). -/
def withWindow (s : State) (lo n : Nat) : State :=
  { s with syncRes := { s.syncRes with candStart := word lo, candCount := word n } }

/-- What a search of the candidates from `lo` to `hi` ends in (R167). -/
inductive SearchEnds (s : State) (lo : Nat) (hi : Int) : State → Except SyncFailure Found → Prop
  | empty : hi < lo → SearchEnds s lo hi ((s.withWindow lo 0).searchFailed lo) (.error .emptyWindow)
  | nonfinite (es : List F64) :
    SearchEnds s lo hi (((s.withWindow lo es.length).writeCorr es).searchFailed lo) (.error .nonfinite)
  | found {es : List F64} {b : Nat} {peak : F64} : es.length = (hi - lo + 1).toNat → FirstMaximum es b peak →
    SearchEnds s lo hi (s.afterSearch lo es b peak) (.ok ⟨lo + b, peak, s.meanFloor es b⟩)

theorem search_ends {metric : Nat → Eng F64} {lo : Nat} {hi : Int} {s t : State} {r : Except SyncFailure Found}
    (h : s.search metric lo hi = .ok (t, r)) : s.SearchEnds lo hi t r := by
  have hsearch := h
  unfold search at h
  dsimp only at h
  split at h
  · next hcount =>
    cases h
    rw [hcount]
    exact .empty (by omega)
  · obtain ⟨es, hes, h⟩ := bind_eq_ok h
    have hlen : es.length = (hi - lo + 1).toNat := by simpa using length_mapM hes
    rcases bestIndex_cases es with ⟨hnone, -⟩ | ⟨b, peak, -, hmax⟩
    · rw [hnone] at h
      cases h
      rw [← hlen]
      exact .nonfinite es
    · have hmetric : ∀ i e, es[i]? = some e → metric (lo + i) = .ok e := by
        intro i e he
        obtain ⟨hlt, rfl⟩ := List.getElem?_eq_some_iff.1 he
        obtain ⟨hlt', hf⟩ := mapM_getElem hes i (by rw [List.length_range, ← hlen]; exact hlt)
        rwa [List.getElem_range] at hf
      rw [search_found hlen hmetric hmax] at hsearch
      cases hsearch
      exact .found hlen hmax

/-- The results of a search that chose no candidate (R167, R282). -/
structure NoCandidate (t : State) : Prop where
  offset : t.syncRes.offset = t.syncRes.candStart
  peak : t.syncRes.peak = 0
  floor : t.syncRes.floor = 0
  conf : t.syncRes.conf = 0
  confInf : t.status.confInf = false

theorem writeCorr_syncRes (es : List F64) (s : State) : (s.writeCorr es).syncRes = s.syncRes := by
  rw [writeCorr_onlyMem]

section
variable {s t : State} {lo : Nat} {hi : Int}

/-- A search writes the other results of SYNC, whatever it ends in. -/
theorem SearchEnds.keeps {r : Except SyncFailure Found} (h : s.SearchEnds lo hi t r) :
    t.syncRes.iters = s.syncRes.iters ∧ t.syncRes.coarseOffset = s.syncRes.coarseOffset ∧
      t.syncRes.chest = s.syncRes.chest ∧ t.cfg = s.cfg := by
  cases h with
  | empty => exact ⟨rfl, rfl, rfl, rfl⟩
  | nonfinite es => rw [writeCorr_onlyMem]; exact ⟨rfl, rfl, rfl, rfl⟩
  | found => exact ⟨rfl, rfl, rfl, rfl⟩

theorem SearchEnds.of_error {f : SyncFailure} (h : s.SearchEnds lo hi t (.error f)) :
    t.NoCandidate ∧ t.syncRes.offset = word lo ∧
      ((f = .emptyWindow ∧ hi < lo ∧ t.syncRes.candCount = 0) ∨ f = .nonfinite) := by
  cases h with
  | empty hlt => exact ⟨⟨rfl, rfl, rfl, rfl, rfl⟩, rfl, .inl ⟨rfl, hlt, rfl⟩⟩
  | nonfinite es => rw [writeCorr_onlyMem]; exact ⟨⟨rfl, rfl, rfl, rfl, rfl⟩, rfl, .inr rfl⟩

/-- The offset found is one of the candidates. -/
theorem SearchEnds.of_ok {f : Found} (h : s.SearchEnds lo hi t (.ok f)) :
    t.syncRes.offset = word f.offset ∧ lo ≤ f.offset ∧ (f.offset : Int) ≤ hi := by
  cases h with
  | found hlen hmax =>
    have hlt := (List.getElem?_eq_some_iff.1 hmax.value).1
    refine ⟨rfl, Nat.le_add_right _ _, ?_⟩
    push_cast
    omega

end

/-! ## One iteration (R171 to R175) -/

/-- The state in which iteration `i` trains (R171, R174, R178). -/
def startIteration (s : State) (seed : Bool) (i : Nat) : State :=
  let s0 := (s.setSyncState .refine).setSyncIters i
  if seed then s0 else s0.writeIdentity

theorem startIteration_fields (s : State) (seed : Bool) (i : Nat) :
    (s.startIteration seed i).cfg = s.cfg ∧ (s.startIteration seed i).syncRes = { s.syncRes with iters := word i } := by
  cases seed with
  | true => exact ⟨rfl, rfl⟩
  | false =>
    rw [startIteration, if_neg Bool.false_ne_true, writeIdentity_onlyMem]
    exact ⟨rfl, rfl⟩

theorem trainPilots_syncRes {d : Nat} {s t : State} {b : Bool} (h : s.trainPilots d = .ok (t, b)) :
    t.syncRes = s.syncRes :=
  trainPilots_keeps (P := fun x => x.syncRes = s.syncRes) (fun x _ _ _ _ _ _ _ _ hx => by simpa using hx)
    (fun _ _ hx => hx) rfl h

/-- Iteration `i` from estimate `d` trains without a divergence, and its search ends in `r` (R171 to R173). -/
def IterationSearch (s : State) (seed : Bool) (i d : Nat) (v : State) (r : Except SyncFailure Found) : Prop :=
  ∃ u, (s.startIteration seed i).trainPilots d = .ok (u, true) ∧
    u.SearchEnds (s.refineStart d) (min ((d : Int) + (s.refineHalf : Int)) s.dmax) v r

/-- What the iterations from number `i` on end in, by what iteration `i` does (R171 to R175, R180). -/
inductive IterationEnds (s : State) (seed : Bool) (left i d : Nat) :
    State → Except SyncFailure (Nat × SyncState) → Prop
  | diverged {u : State} : (s.startIteration seed i).trainPilots d = .ok (u, false) →
    IterationEnds s seed left i d u (.error .interimDiverged)
  | searchFailed {v : State} {f : SyncFailure} : s.IterationSearch seed i d v (.error f) →
    IterationEnds s seed left i d v (.error f)
  | undetected {v : State} {f : Found} : s.IterationSearch seed i d v (.ok f) →
    IterationEnds s seed left i d v (.error .belowThreshold)
  | settled {v : State} {f : Found} : s.IterationSearch seed i d v (.ok f) → f.offset = d →
    IterationEnds s seed left i d v (.ok (d, .converged))
  | moved {v t : State} {f : Found} {r : Except SyncFailure (Nat × SyncState)} :
    s.IterationSearch seed i d v (.ok f) → f.offset ≠ d →
    v.refine seed left (i + 1) f.offset .iterLimit = .ok (t, r) → IterationEnds s seed left i d t r

theorem refine_ends {s t : State} {seed : Bool} {left i d : Nat} {final : SyncState}
    {r : Except SyncFailure (Nat × SyncState)} (h : s.refine seed (left + 1) i d final = .ok (t, r)) :
    s.IterationEnds seed left i d t r := by
  obtain ⟨⟨u, trained⟩, htrain, h⟩ := bind_eq_ok h
  have htrain : (s.startIteration seed i).trainPilots d = .ok (u, trained) := htrain
  cases trained with
  | false => cases h; exact .diverged htrain
  | true =>
    obtain ⟨⟨v, q⟩, hsearch, h⟩ := bind_eq_ok h
    have hv : s.IterationSearch seed i d v q := ⟨u, htrain, search_ends hsearch⟩
    cases q with
    | error f => cases h; exact .searchFailed hv
    | ok f =>
      dsimp only at h
      split at h
      · cases h; exact .undetected hv
      · split at h
        · next heq => cases h; exact .settled hv heq
        · next hne => exact .moved hv hne h

theorem IterationSearch.keeps {s v : State} {seed : Bool} {i d : Nat} {r : Except SyncFailure Found}
    (h : s.IterationSearch seed i d v r) :
    v.syncRes.iters = word i ∧ v.syncRes.coarseOffset = s.syncRes.coarseOffset ∧ v.cfg = s.cfg := by
  obtain ⟨u, htrain, hsearch⟩ := h
  obtain ⟨hcfg, hres⟩ := s.startIteration_fields seed i
  obtain ⟨hiters, hcoarse, -, hc⟩ := hsearch.keeps
  rw [hiters, hcoarse, hc, trainPilots_syncRes htrain, trainPilots_cfg htrain, hres, hcfg]
  exact ⟨rfl, rfl, rfl⟩

/-- An iteration finds an offset around the one it starts from, within the buffer (R173). -/
theorem IterationSearch.of_ok {s v : State} {seed : Bool} {i d : Nat} {f : Found}
    (h : s.IterationSearch seed i d v (.ok f)) :
    v.syncRes.offset = word f.offset ∧ s.refineStart d ≤ f.offset ∧ (f.offset : Int) ≤ d + s.refineHalf ∧
      (f.offset : Int) ≤ s.dmax := by
  obtain ⟨u, -, hsearch⟩ := h
  obtain ⟨hoffset, hlo, hhi⟩ := hsearch.of_ok
  exact ⟨hoffset, hlo, hhi.trans (min_le_left _ _), hhi.trans (min_le_right _ _)⟩

/-- The window of an iteration holds the estimate it starts from (R173). -/
theorem IterationSearch.of_error {s v : State} {seed : Bool} {i d : Nat} {f : SyncFailure} (hd : (d : Int) ≤ s.dmax)
    (h : s.IterationSearch seed i d v (.error f)) : v.NoCandidate ∧ f = .nonfinite := by
  obtain ⟨u, -, hsearch⟩ := h
  obtain ⟨hnone, -, ⟨-, hempty, -⟩ | hf⟩ := hsearch.of_error
  · have hlo : s.refineStart d ≤ d := Nat.sub_le _ _
    exact absurd hempty (not_lt.2 (le_min (by omega) (by omega)))
  · exact ⟨hnone, hf⟩

theorem dmax_congr {s t : State} (h : t.cfg = s.cfg) : t.dmax = s.dmax := by
  simp only [dmax, sampleLen, os, pilotPos, pilotLen, h]

/-! ## A chain of iterations (R175, R178, R180) -/

/-- What a chain of at most `left` iterations ends in, after `n` others, with the buffer's last offset `D`. -/
inductive RefineEnding (D : Int) (n left : Nat) : State → Except SyncFailure (Nat × SyncState) → Prop
  | success {t : State} {d m : Nat} {y : SyncState} : m ≤ n + left → t.syncRes.iters = word m →
    (d : Int) ≤ D → t.syncRes.offset = word d → (y = .converged ∨ (y = .iterLimit ∧ m = n + left ∧ 1 ≤ m)) →
    RefineEnding D n left t (.ok (d, y))
  | failure {t : State} {m : Nat} {f : SyncFailure} : n < m → m ≤ n + left → t.syncRes.iters = word m →
    f ≠ .emptyWindow → (f = .nonfinite → t.NoCandidate) → RefineEnding D n left t (.error f)

theorem RefineEnding.before {D : Int} {n left : Nat} {t : State} {r : Except SyncFailure (Nat × SyncState)}
    (h : RefineEnding D (n + 1) left t r) : RefineEnding D n (left + 1) t r := by
  cases h with
  | success hm hiters hd hoffset hy =>
    exact .success (by omega) hiters hd hoffset (hy.imp_right fun ⟨hy, hm, hpos⟩ => ⟨hy, by omega, hpos⟩)
  | failure hn hm hiters hf hnone => exact .failure (by omega) (by omega) hiters hf hnone

theorem refine_ending {s t : State} {seed : Bool} {left n d : Nat} {final : SyncState}
    {r : Except SyncFailure (Nat × SyncState)} (hd : (d : Int) ≤ s.dmax) (hoffset : s.syncRes.offset = word d)
    (hiters : s.syncRes.iters = word n) (hfinal : final = .converged ∨ (final = .iterLimit ∧ 1 ≤ n))
    (h : s.refine seed left (n + 1) d final = .ok (t, r)) : RefineEnding s.dmax n left t r := by
  induction left generalizing n d final s with
  | zero =>
    cases h
    exact .success le_rfl hiters hd hoffset (hfinal.imp_right fun ⟨hy, hn⟩ => ⟨hy, rfl, hn⟩)
  | succ left ih =>
    cases refine_ends h with
    | diverged htrain =>
      have hi : t.syncRes.iters = word (n + 1) := by
        rw [trainPilots_syncRes htrain, (s.startIteration_fields seed (n + 1)).2]
      exact .failure (Nat.lt_succ_self n) (by omega) hi (by decide) fun hf => nomatch hf
    | searchFailed hv =>
      obtain ⟨hnone, rfl⟩ := hv.of_error hd
      exact .failure (Nat.lt_succ_self n) (by omega) hv.keeps.1 (by decide) fun _ => hnone
    | undetected hv =>
      exact .failure (Nat.lt_succ_self n) (by omega) hv.keeps.1 (by decide) fun hf => nomatch hf
    | settled hv heq =>
      obtain ⟨hoff, -, -, -⟩ := hv.of_ok
      exact .success (by omega) hv.keeps.1 hd (heq ▸ hoff) (.inl rfl)
    | @moved v _ f _ hv hne hrest =>
      obtain ⟨hi, -, hcfg⟩ := hv.keeps
      obtain ⟨hoff, -, -, hmax⟩ := hv.of_ok
      rw [← dmax_congr hcfg] at hmax ⊢
      exact (ih hmax hoff hi (.inr ⟨rfl, by omega⟩) hrest).before

/-! ## The rule of SYNC (R180) -/

/-- The state in which the coarse search starts (R174, R178). -/
def coarseStart (s : State) : State := (s.setSyncState .coarse).setSyncIters 0

/-- COARSE_OFFSET <- d -/
def withCoarseOffset (s : State) (d : Nat) : State :=
  { s with syncRes := { s.syncRes with coarseOffset := word d } }

/-- The results of a success at offset `d`, after the channel estimate (R177). -/
def withSuccess (s : State) (d : Nat) (y : SyncState) : State :=
  ((({ s with cfg := { s.cfg with frameOffset := word d } } : State).setSyncState y).setSyncValid true)

/-- The coarse search of SYNC ends in `r` (R165, R167). -/
def CoarseSearch (s u : State) (r : Except SyncFailure Found) : Prop :=
  s.coarseStart.SearchEnds s.searchStart s.coarseHi u r

/-- What SyncBody ends in, by the part that it stops in (R180). -/
inductive SyncBodyEnds (s : State) (seed : Bool) : State → Option CmdError → Prop
  | coarseFailed {u : State} {f : SyncFailure} : s.CoarseSearch u (.error f) →
    SyncBodyEnds s seed (u.setSyncState .failed) (some (.syncFailure f))
  | undetected {u : State} {f : Found} : s.CoarseSearch u (.ok f) →
    SyncBodyEnds s seed ((u.withCoarseOffset f.offset).setSyncState .failed) (some (.syncFailure .belowThreshold))
  | refineFailed {u v : State} {f : Found} {g : SyncFailure} : s.CoarseSearch u (.ok f) →
    (u.withCoarseOffset f.offset).refine seed s.iterations 1 f.offset .converged = .ok (v, .error g) →
    SyncBodyEnds s seed (v.setSyncState .failed) (some (.syncFailure g))
  | succeeded {u v w : State} {f : Found} {d : Nat} {y : SyncState} : s.CoarseSearch u (.ok f) →
    (u.withCoarseOffset f.offset).refine seed s.iterations 1 f.offset .converged = .ok (v, .ok (d, y)) →
    v.writeChest d = .ok w → SyncBodyEnds s seed (w.withSuccess d y) none

theorem syncBody_ends {s t : State} {seed : Bool} {e : Option CmdError} (h : s.syncBody seed = .ok (t, e)) :
    s.SyncBodyEnds seed t e := by
  obtain ⟨⟨u, q⟩, hsearch, h⟩ := bind_eq_ok h
  have hu : s.CoarseSearch u q := search_ends hsearch
  cases q with
  | error f => cases h; exact .coarseFailed hu
  | ok f =>
    dsimp only at h
    split at h
    · cases h; exact .undetected hu
    · obtain ⟨⟨v, q⟩, hrefine, h⟩ := bind_eq_ok h
      cases q with
      | error g => cases h; exact .refineFailed hu hrefine
      | ok p =>
        obtain ⟨w, hchest, h⟩ := bind_eq_ok h
        cases h
        exact .succeeded hu hrefine hchest

/-- A coarse search that finds an offset, up to the refinement (R165, R180). -/
theorem CoarseSearch.of_ok {s u : State} {f : Found} (h : s.CoarseSearch u (.ok f)) :
    (f.offset : Int) ≤ s.dmax ∧ u.syncRes.offset = word f.offset ∧ u.syncRes.iters = word 0 ∧
      u.syncRes.chest = s.syncRes.chest ∧ u.cfg = s.cfg := by
  obtain ⟨hoffset, -, hhi⟩ := SearchEnds.of_ok h
  obtain ⟨hiters, -, hchest, hcfg⟩ := SearchEnds.keeps h
  exact ⟨hhi.trans s.coarseHi_le_dmax, hoffset, hiters, hchest, hcfg⟩

/-- The refinement that follows a coarse search (R175, R178, R180). -/
theorem CoarseSearch.refine_ending {s u t : State} {f : Found} {seed : Bool}
    {r : Except SyncFailure (Nat × SyncState)} (h : s.CoarseSearch u (.ok f))
    (hr : (u.withCoarseOffset f.offset).refine seed s.iterations 1 f.offset .converged = .ok (t, r)) :
    RefineEnding s.dmax 0 s.iterations t r := by
  obtain ⟨hmax, hoffset, hiters, -, hcfg⟩ := h.of_ok
  have hD : (u.withCoarseOffset f.offset).dmax = s.dmax := dmax_congr hcfg
  rw [← hD] at hmax ⊢
  exact State.refine_ending hmax hoffset hiters (.inl rfl) hr

theorem refine_chest {seed : Bool} {left i d : Nat} {final : SyncState} {s t : State}
    {r : Except SyncFailure (Nat × SyncState)} (hp : 1 ≤ s.pilotLen)
    (ht : s.refine seed left i d final = .ok (t, r)) : t.syncRes.chest = s.syncRes.chest :=
  refine_keeps (P := fun x => x.syncRes.chest = s.syncRes.chest) hp
    (fun _ _ _ _ _ _ _ _ _ hx => by simpa using hx) (fun _ _ hx => hx)
    ⟨fun _ _ hr hx => hr.trans hx, fun _ _ hx => hx, fun _ _ _ _ hx => hx⟩ (fun _ _ hx => hx) rfl ht

/-- CHEST is the only result the channel estimate writes (R176). -/
theorem writeChest_keepsResults {d : Nat} {s t : State} (h : s.writeChest d = .ok t) :
    t.syncRes = { s.syncRes with chest := t.syncRes.chest } ∧ t.cfg = s.cfg :=
  writeChest_keeps (P := fun x => x.syncRes = { s.syncRes with chest := x.syncRes.chest } ∧ x.cfg = s.cfg)
    (fun x i j z _ _ hx => ⟨congrArg (fun r : SyncResults => { r with chest := (x.putChest i j z).syncRes.chest }) hx.1,
      hx.2⟩) ⟨rfl, rfl⟩ h

/-- The results of a success with offset `d` after `m` iterations (R175, R177). -/
structure SyncSucceeds (s t : State) (d m : Nat) : Prop where
  inBuffer : (d : Int) ≤ s.dmax
  cfg : t.cfg = { s.cfg with frameOffset := word d }
  offset : t.syncRes.offset = word d
  iters : t.syncRes.iters = word m
  iters_le : m ≤ s.iterations
  syncState : t.status.syncState = .converged ∨ (t.status.syncState = .iterLimit ∧ m = s.iterations ∧ 1 ≤ m)

/-- The results of a failure `f` after `m` iterations (R178, R282). -/
structure SyncFails (s t : State) (f : SyncFailure) (m : Nat) : Prop where
  cfg : t.cfg = s.cfg
  chest : t.syncRes.chest = s.syncRes.chest
  iters : t.syncRes.iters = word m
  iters_le : m ≤ s.iterations
  syncState : t.status.syncState = .failed
  noCandidate : f = .emptyWindow ∨ f = .nonfinite → t.NoCandidate
  emptyWindow : f = .emptyWindow → m = 0 ∧ t.syncRes.candCount = 0 ∧ t.syncRes.offset = word s.searchStart
  diverged : f = .interimDiverged → 1 ≤ m

theorem SyncBodyEnds.success {s t : State} {seed : Bool} (hp : 1 ≤ s.pilotLen) (h : s.SyncBodyEnds seed t none) :
    ∃ d m, SyncSucceeds s t d m := by
  cases h with
  | @succeeded u v w f d y hu hr hw =>
    obtain ⟨-, -, -, -, hcfg⟩ := hu.of_ok
    have hcfg : (u.withCoarseOffset f.offset).cfg = s.cfg := hcfg
    have hv : v.cfg = s.cfg := (refine_cfg (by rwa [pilotLen, hcfg]) hr).trans hcfg
    obtain ⟨hres, hwcfg⟩ := writeChest_keepsResults hw
    cases hu.refine_ending hr with
    | success hm hiters hd hoffset hy =>
      rw [Nat.zero_add] at hm hy
      refine ⟨d, _, hd, ?_, ?_, ?_, hm, hy⟩
      · exact congrArg (fun c : ConfigRegs => { c with frameOffset := word d }) (hwcfg.trans hv)
      · exact (congrArg SyncResults.offset hres).trans hoffset
      · exact (congrArg SyncResults.iters hres).trans hiters

theorem SyncBodyEnds.failure {s t : State} {seed : Bool} {e : CmdError} (hp : 1 ≤ s.pilotLen)
    (h : s.SyncBodyEnds seed t (some e)) : ∃ f m, e = .syncFailure f ∧ SyncFails s t f m := by
  cases h with
  | @coarseFailed u f hu =>
    obtain ⟨hnone, hoffset, hf⟩ := SearchEnds.of_error hu
    obtain ⟨hiters, -, hchest, hcfg⟩ := SearchEnds.keeps hu
    refine ⟨f, 0, rfl, hcfg, hchest, hiters, Nat.zero_le _, rfl,
      fun _ => ⟨hnone.offset, hnone.peak, hnone.floor, hnone.conf, hnone.confInf⟩, fun he => ?_, fun he => ?_⟩
    · rcases hf with ⟨-, -, hcount⟩ | hf
      · exact ⟨rfl, hcount, hoffset⟩
      · exact nomatch hf.symm.trans he
    · rcases hf with ⟨hf, -⟩ | hf
      · exact nomatch hf.symm.trans he
      · exact nomatch hf.symm.trans he
  | undetected hu =>
    obtain ⟨-, -, hiters, hchest, hcfg⟩ := hu.of_ok
    exact ⟨_, 0, rfl, hcfg, hchest, hiters, Nat.zero_le _, rfl, fun he => he.elim nofun nofun, nofun, nofun⟩
  | @refineFailed u v f g hu hr =>
    obtain ⟨-, -, -, hchest, hcfg⟩ := hu.of_ok
    have hcfg : (u.withCoarseOffset f.offset).cfg = s.cfg := hcfg
    have hpu : 1 ≤ (u.withCoarseOffset f.offset).pilotLen := by rwa [pilotLen, hcfg]
    cases hu.refine_ending hr with
    | failure hpos hm hiters hne hnone =>
      rw [Nat.zero_add] at hm
      refine ⟨g, _, rfl, (refine_cfg hpu hr).trans hcfg, (refine_chest hpu hr).trans hchest, hiters, hm, rfl,
        fun he => ?_, fun he => absurd he hne, fun _ => hpos⟩
      obtain ⟨hoffset, hpeak, hfloor, hconf, hinf⟩ := hnone (he.resolve_left hne)
      exact ⟨hoffset, hpeak, hfloor, hconf, hinf⟩

/-! ## The command -/

/-- A command that completes with code 0 has passed its validation (R136). -/
theorem passes_of_success {i : Instr} {s t : State} (ht : exec i s = .next t) (herr : t.err = ⟨0, 0⟩) : s.passes i := by
  obtain ⟨u, e, -, he, ⟨c, -, -, rfl⟩ | ⟨hpass, -⟩⟩ := exec_outcome ht
  · exact absurd (congrArg Err.code (he.symm.trans herr)) (show (3 : BitVec 8) ≠ 0 by decide)
  · exact hpass

theorem exec_sync_ends {seed : Bool} {s t : State} (hpass : s.passes (.sync seed))
    (ht : exec (.sync seed) s = .next t) :
    ∃ u e, (s.setSyncValid false).SyncBodyEnds seed u e ∧ t.err = errOf e ∧ t.status = u.status ∧
      t.syncRes = u.syncRes ∧ t.cfg = u.cfg := by
  rw [exec_of_passes hpass] at ht
  obtain ⟨u, e, hu, ht⟩ := finish_next ht
  refine ⟨u, e, syncBody_ends hu, ?_⟩
  rcases ht with ⟨rfl, rfl⟩ | ⟨y, rfl, rfl⟩
  · exact ⟨rfl, rfl, rfl, rfl⟩
  · exact ⟨rfl, rfl, rfl, rfl⟩

/-- A SYNC that completes with code 0. -/
theorem exec_sync_success {seed : Bool} {s t : State} (ht : exec (.sync seed) s = .next t) (herr : t.err = ⟨0, 0⟩) :
    ∃ u, (s.setSyncValid false).SyncBodyEnds seed u none ∧ t.status = u.status ∧ t.syncRes = u.syncRes ∧
      t.cfg = u.cfg := by
  obtain ⟨u, e, hu, he, hrest⟩ := exec_sync_ends (passes_of_success ht herr) ht
  have hnone : e.isNone = true := by rw [← errOf_code_beq_zero, ← he, herr]; rfl
  rw [Option.isNone_iff_eq_none.1 hnone] at hu
  exact ⟨u, hu, hrest⟩

theorem toNat_word_le {m : Nat} {s : State} (h : m ≤ s.iterations) : (word m).toNat = m := by
  have hi : s.iterations < 2 ^ 8 := s.cfg.iterations.isLt
  exact toNat_word (by omega)

end State

/-- Settles O35, by the part of the rule that SYNC ends in. -/
theorem syncEndsConvergedAtLimitOrFailed : Obligations.SyncEndsConvergedAtLimitOrFailed := by
  intro s t seed hpass ht
  obtain ⟨-, hpilot, -⟩ := State.bounds_of_passes_sync hpass
  have hvalid := State.exec_sync_syncValid ht
  obtain ⟨u, e, hu, herr, hst, hres, hcfg⟩ := State.exec_sync_ends hpass ht
  rw [hcfg, hres]
  cases e with
  | none =>
    obtain ⟨d, m, h⟩ := State.SyncBodyEnds.success (s := s.setSyncValid false) hpilot hu
    have hm : (State.word m).toNat = m := State.toNat_word_le h.iters_le
    rw [h.iters, hm, h.offset]
    refine ⟨h.iters_le, .inl ⟨herr, by rw [hvalid, herr]; rfl, ?_, h.cfg⟩⟩
    rw [hst]
    exact h.syncState.imp_right fun ⟨hy, hlast, hpos⟩ => ⟨hy, hlast, hlast ▸ hpos⟩
  | some y =>
    obtain ⟨f, m, rfl, h⟩ := State.SyncBodyEnds.failure (s := s.setSyncValid false) hpilot hu
    have hm : (State.word m).toNat = m := State.toNat_word_le h.iters_le
    have hf : ∀ g : SyncFailure, f.sub = g.sub → f = g := fun g => @SyncFailure.sub_injective f g
    obtain ⟨h1, h4⟩ := f.sub_pos
    refine ⟨by rw [h.iters, hm]; exact h.iters_le, .inr ⟨f.sub, h1, h4, herr, by rw [hvalid, herr]; rfl,
      by rw [hst]; exact h.syncState, h.cfg, h.chest, fun hk => ?_, fun hk => ?_, fun hk => ?_⟩⟩
    · obtain ⟨rfl, hcount, hoffset⟩ := h.emptyWindow (hf .emptyWindow hk)
      exact ⟨h.iters, hcount, hoffset.trans ((BitVec.ofNat_toNat 32 _).trans (BitVec.setWidth_eq _))⟩
    · have hnone := h.noCandidate (hk.imp (hf .emptyWindow) (hf .nonfinite))
      rw [hst]
      exact ⟨hnone.offset, hnone.peak, hnone.floor, hnone.conf, hnone.confInf⟩
    · rw [h.iters, hm]
      exact h.diverged (hf .interimDiverged hk)

/-- Settles O36: with h = 0 the window of the first iteration is its start alone. -/
theorem zeroRefineHalfConvergesAtOnce : Obligations.ZeroRefineHalfConvergesAtOnce := by
  intro s t seed hi hh hpass ht herr
  obtain ⟨u, hu, hst, hres, -⟩ := State.exec_sync_success ht herr
  rw [hst, hres]
  obtain ⟨left, hleft⟩ := Nat.exists_eq_add_of_le' hi
  cases hu with
  | @succeeded u v w f d y hu hr hw =>
    obtain ⟨-, -, -, -, hcfg⟩ := hu.of_ok
    have hhalf : (u.withCoarseOffset f.offset).refineHalf = 0 :=
      (congrArg (fun c : ConfigRegs => c.refineHalf.toNat) hcfg).trans hh
    obtain ⟨hkeep, -⟩ := State.writeChest_keepsResults hw
    rw [show (s.setSyncValid false).iterations = left + 1 from hleft] at hr
    cases State.refine_ends hr with
    | settled hv heq =>
      obtain ⟨hiters, hcoarse, -⟩ := hv.keeps
      obtain ⟨hoffset, -⟩ := hv.of_ok
      refine ⟨rfl, (congrArg SyncResults.iters hkeep).trans hiters, ?_⟩
      refine (congrArg SyncResults.offset hkeep).trans ?_
      rw [hoffset, heq]
      exact ((congrArg SyncResults.coarseOffset hkeep).trans hcoarse).symm
    | moved hv hne _ =>
      obtain ⟨-, hlo, hhi, -⟩ := hv.of_ok
      rw [State.refineStart, hhalf] at hlo
      rw [hhalf] at hhi
      omega

/-- Settles O37: the offset found is at most dmax. -/
theorem syncReportsAnOffsetInTheBuffer : Obligations.SyncReportsAnOffsetInTheBuffer := by
  intro s t seed ht herr
  obtain ⟨-, hpilot, -⟩ := State.bounds_of_passes_sync (State.passes_of_success ht herr)
  obtain ⟨u, hu, -, -, hcfg⟩ := State.exec_sync_success ht herr
  obtain ⟨d, m, h⟩ := State.SyncBodyEnds.success (s := s.setSyncValid false) hpilot hu
  have hmax : (d : Int) ≤ s.dmax := h.inBuffer
  have hlt := State.dmax_lt_sampleLen hpilot
  have hsample : s.sampleLen < 2 ^ 32 := s.cfg.sampleLen.isLt
  have hframe : t.frameOffset = d := by
    rw [State.frameOffset, hcfg, h.cfg]
    exact State.toNat_word (by omega)
  have hspan : ((s.os * (s.pilotPos + s.pilotLen - 1) : Nat) : Int) =
      (s.os : Int) * ((s.pilotPos : Int) + (s.pilotLen : Int) - 1) := by
    rw [Nat.cast_mul, Nat.cast_sub (by omega)]
    push_cast
    rfl
  rw [State.dmax] at hmax
  rw [hframe]
  omega

end Sys2Proof.Machine
end

section
/-! PROOFS. States that agree on what the equalizer reads (spec/41_sync.md R163, R172; spec/42_equalizer.md R202 to
R209, R214): a correlation, a metric and a training pass depend on the configuration, the draw and the bytes they read,
whatever else the state holds. -/

namespace Sys2Proof.Machine

/-! ## Memories that hold the same byte at an address -/

namespace Memory

theorem read_write_congr {m m' : Memory} {a : Nat} (h : m'.read a = m.read a) (b : Nat) (v : Byte) :
    (m'.write b v).read a = (m.write b v).read a := by
  rw [read_write, read_write, h]

theorem read_writeWord_congr {m m' : Memory} {a : Nat} (h : m'.read a = m.read a) (b : Nat) (w : Word) :
    (m'.writeWord b w).read a = (m.writeWord b w).read a :=
  read_write_congr (read_write_congr (read_write_congr (read_write_congr h _ _) _ _) _ _) _ _

theorem read_writeBits64_congr {m m' : Memory} {a : Nat} (h : m'.read a = m.read a) (b : Nat) (v : Bits64) :
    (m'.writeBits64 b v).read a = (m.writeBits64 b v).read a :=
  read_writeWord_congr (read_writeWord_congr h _ _) _ _

theorem readBits64_congr {m m' : Memory} {a : Nat} (h : ∀ b, a ≤ b → b < a + 8 → m'.read b = m.read b) :
    m'.readBits64 a = m.readBits64 a := by
  have hword : ∀ c, a ≤ c → c + 4 ≤ a + 8 → m'.readWord c = m.readWord c := by
    intro c h1 h2
    unfold readWord
    rw [h c h1 (by omega), h (c + 1) (by omega) (by omega), h (c + 2) (by omega) (by omega),
      h (c + 3) (by omega) (by omega)]
  unfold readBits64
  rw [hword a le_rfl (by omega), hword (a + 4) (by omega) le_rfl]

end Memory

/-! ## Folds and maps that run alike -/

theorem foldlM_related {α β γ : Type} {f : β → α → Eng β} {g : γ → α → Eng γ} (R : β → γ → Prop) {l : List α}
    (h : ∀ b c b', ∀ a ∈ l, R b c → f b a = .ok b' → ∃ c', g c a = .ok c' ∧ R b' c') {b b' : β} {c : γ} (hr : R b c)
    (hb : l.foldlM f b = .ok b') : ∃ c', l.foldlM g c = .ok c' ∧ R b' c' := by
  induction l generalizing b c with
  | nil => cases hb; exact ⟨c, rfl, hr⟩
  | cons a l ih =>
    rw [List.foldlM_cons] at hb
    obtain ⟨b1, hb1, hb⟩ := bind_eq_ok hb
    obtain ⟨c1, hc1, hr1⟩ := h b c b1 a List.mem_cons_self hr hb1
    obtain ⟨c', hc', hr'⟩ := ih (fun b c b' a ha => h b c b' a (List.mem_cons_of_mem _ ha)) hr1 hb
    exact ⟨c', by rw [List.foldlM_cons, hc1]; exact hc', hr'⟩

theorem mapM_congr {α β : Type} {f g : α → Eng β} {l : List α} (h : ∀ a ∈ l, f a = g a) : l.mapM f = l.mapM g := by
  induction l with
  | nil => rfl
  | cons a l ih =>
    rw [List.mapM_cons, List.mapM_cons, h a List.mem_cons_self, ih fun b hb => h b (List.mem_cons_of_mem _ hb)]

theorem sumCplx_ok_at {α : Type} {l : List α} {f : α → Eng Cplx} {v : Cplx} (h : sumCplx l f = .ok v) {a : α}
    (ha : a ∈ l) : ∃ x, f a = .ok x := by
  obtain ⟨b, y, hy⟩ := foldlM_ok_at h ha
  obtain ⟨x, hx, -⟩ := bind_eq_ok hy
  exact ⟨x, hx⟩

namespace State

/-! ## Agreement -/

/-- `t` has the configuration and the draw of `s`, and the same byte at every address of `A`. (`SameOperands` asks for
every entry below CORR, which a training pass does not keep.) -/
structure Agree (A : Nat → Prop) (s t : State) : Prop where
  cfg : t.cfg = s.cfg
  draws : t.draws = s.draws
  reads : ∀ a, A a → t.mem.read a = s.mem.read a

/-- The addresses below the taps: the samples and the pilots among them (R84). -/
def BelowTaps (a : Nat) : Prop := a < 0xB00000

/-- The addresses outside CORR[0..n-1] (R84). -/
def OutsideCorr (n a : Nat) : Prop := a < 0xC00000 ∨ 0xC00000 + 8 * n ≤ a

theorem outsideCorr_of_belowTaps {n a : Nat} (h : BelowTaps a) : OutsideCorr n a := by
  unfold BelowTaps OutsideCorr at *
  omega

variable {A : Nat → Prop} {n : Nat} {s t u : State}

theorem Agree.trans (h : Agree A s t) (h' : Agree A t u) : Agree A s u :=
  ⟨h'.cfg.trans h.cfg, h'.draws.trans h.draws, fun a ha => (h'.reads a ha).trans (h.reads a ha)⟩

theorem Agree.mono {B : Nat → Prop} (h : Agree A s t) (hB : ∀ a, B a → A a) : Agree B s t :=
  ⟨h.cfg, h.draws, fun a ha => h.reads a (hB a ha)⟩

theorem Agree.readCplx (h : Agree A s t) {e : Entry} (he : ∀ a, e.offset ≤ a → a < e.offset + 16 → A a) :
    t.readCplx e = s.readCplx e := by
  have hreads : ∀ b, e.offset ≤ b → b + 8 ≤ e.offset + 16 → t.mem.readBits64 b = s.mem.readBits64 b :=
    fun b h1 h2 => Memory.readBits64_congr fun a h3 h4 => h.reads a (he a (by omega) (by omega))
  unfold State.readCplx
  rw [hreads e.offset le_rfl (by omega), hreads (e.offset + 8) (by omega) le_rfl]

theorem Agree.putCplx (h : Agree A s t) (e : Entry) (z : Cplx) : Agree A (s.putCplx e z) (t.putCplx e z) := by
  have hbits : ∀ loc v, t.realBits loc v = s.realBits loc v := by
    intro loc v
    rw [realBits, realBits, freeBits, freeBits, h.draws]
  refine ⟨by simpa using h.cfg, by simpa using h.draws, fun a ha => ?_⟩
  rw [putCplx_mem, putCplx_mem, hbits, hbits]
  exact Memory.read_writeBits64_congr (Memory.read_writeBits64_congr (h.reads a ha) _ _) _ _

/-! ## What the configuration gives -/

theorem pilotLen_congr (h : t.cfg = s.cfg) : t.pilotLen = s.pilotLen := by rw [pilotLen, pilotLen, h]

theorem sampleLen_congr (h : t.cfg = s.cfg) : t.sampleLen = s.sampleLen := by rw [sampleLen, sampleLen, h]

theorem pilotPos_congr (h : t.cfg = s.cfg) : t.pilotPos = s.pilotPos := by rw [pilotPos, pilotPos, h]

theorem centre_congr (h : t.cfg = s.cfg) : t.centre = s.centre := by rw [centre, centre, numTaps_congr h]

theorem symbolSample_congr (h : t.cfg = s.cfg) (d k : Nat) : t.symbolSample d k = s.symbolSample d k := by
  rw [symbolSample, symbolSample, os, os, h]

/-! ## Samples and pilots -/

section
variable (h : Agree BelowTaps s t) (hb : s.PilotBounds)
include h hb

theorem pilot_agree {i k : Nat} (hi : i < s.modes) (hk : k < s.pilotLen) : t.pilot i k = s.pilot i k := by
  have hm := hb.modes
  have hp := hb.pilotLen
  refine h.readCplx fun a h1 h2 => ?_
  simp only [BelowTaps, Entry.offset, Config.mMax, Config.pMax] at *
  omega

theorem sampleAt_agree {r : Nat} (hr : r < s.modes) (j : Int) : t.sampleAt r j = s.sampleAt r j := by
  unfold sampleAt
  rw [sampleLen_congr h.cfg]
  split
  · next hj =>
    have hm := hb.modes
    have hs := hb.sampleLen
    refine h.readCplx fun a h1 h2 => ?_
    simp only [BelowTaps, Entry.offset, Config.mMax, Config.sMax] at *
    omega
  · rfl

theorem rawCorr_agree {i r : Nat} (hi : i < s.modes) (hr : r < s.modes) (d : Nat) :
    t.rawCorr d i r = s.rawCorr d i r := by
  unfold rawCorr
  rw [pilotLen_congr h.cfg]
  refine sumCplx_congr fun k hk => ?_
  rw [pilot_agree h hb hi (List.mem_range.1 hk), symbolSample_congr h.cfg, pilotPos_congr h.cfg, sampleAt_agree h hb hr]

theorem pilotEnergy_agree {i : Nat} (hi : i < s.modes) : t.pilotEnergy i = s.pilotEnergy i := by
  unfold pilotEnergy
  rw [pilotLen_congr h.cfg]
  refine sumReal_congr fun k hk => ?_
  rw [pilot_agree h hb hi (List.mem_range.1 hk)]

end

/-! ## The filter bank -/

/-- The bounds that validation sets on the pilots, the samples and the bank (R137, checks 6, 8, 11 and 12). -/
structure BankBounds (s : State) : Prop extends PilotBounds s where
  numTaps : s.numTaps ≤ Config.nMax

theorem BankBounds.congr (hb : s.BankBounds) (hc : t.cfg = s.cfg) : t.BankBounds := by
  refine ⟨⟨?_, ?_, ?_⟩, ?_⟩
  · rw [modes_congr hc]; exact hb.modes
  · rw [pilotLen_congr hc]; exact hb.pilotLen
  · rw [sampleLen_congr hc]; exact hb.sampleLen
  · rw [numTaps_congr hc]; exact hb.numTaps

section
variable (h : Agree (OutsideCorr n) s t) (hb : s.BankBounds)
include h

theorem Agree.belowTaps : Agree BelowTaps s t := h.mono fun _ => outsideCorr_of_belowTaps

include hb

theorem tap_agree {i r j : Nat} (hi : i < s.modes) (hr : r < s.modes) (hj : j < s.numTaps) :
    t.tap i r j = s.tap i r j := by
  have hm := hb.modes
  have hn := hb.numTaps
  refine h.readCplx fun a h1 h2 => ?_
  simp only [OutsideCorr, Entry.offset, Config.mMax, Config.nMax] at *
  omega

theorem firOutput_agree {i : Nat} (hi : i < s.modes) (m : Int) : t.firOutput m i = s.firOutput m i := by
  unfold firOutput
  rw [modes_congr h.cfg, numTaps_congr h.cfg, centre_congr h.cfg]
  refine sumCplx_congr fun p hp => ?_
  obtain ⟨hr, hj⟩ := mem_pairs.1 hp
  dsimp only
  rw [tap_agree h hb hi hr hj, sampleAt_agree h.belowTaps hb.toPilotBounds hr]

theorem eqCorr_agree {i r : Nat} (hi : i < s.modes) (hr : r < s.modes) (d : Nat) :
    t.eqCorr d i r = s.eqCorr d i r := by
  unfold eqCorr
  rw [pilotLen_congr h.cfg]
  refine sumCplx_congr fun k hk => ?_
  rw [pilot_agree h.belowTaps hb.toPilotBounds hi (List.mem_range.1 hk), symbolSample_congr h.cfg,
    pilotPos_congr h.cfg, firOutput_agree h hb hr]

end

/-- The aggregate depends on the configuration and on the entries of the matrix (R166). -/
theorem aggregate_congr {c c' : Nat → Nat → Eng Cplx} (hcfg : t.cfg = s.cfg)
    (h : ∀ i r, i < s.modes → r < s.modes → c' i r = c i r) : t.aggregate c' = s.aggregate c := by
  have hweight : t.aggWeight = s.aggWeight := by funext i r; rw [aggWeight, aggWeight, hcfg]
  have hmode : t.aggMode = s.aggMode := congrArg (fun c : ConfigRegs => c.aggMode.toNat) hcfg
  unfold aggregate
  rw [hmode, hweight, modes_congr hcfg]
  have hentry : ∀ p ∈ pairs s.modes s.modes, c' p.1 p.2 = c p.1 p.2 := fun p hp =>
    h p.1 p.2 (mem_pairs.1 hp).1 (mem_pairs.1 hp).2
  refine if_congr Iff.rfl (congrArg (· >>= _) (mapM_congr fun p hp => ?_)) (if_congr Iff.rfl ?_ ?_)
  · dsimp only; rw [hentry p hp]
  · exact sumReal_congr fun p hp => by dsimp only; rw [hentry p hp]
  · exact sumReal_congr fun p hp => by dsimp only; rw [hentry p hp]

section
variable (h : Agree (OutsideCorr n) s t) (hb : s.BankBounds)
include h hb

theorem eqMetric_agree (d : Nat) : t.eqMetric d = s.eqMetric d :=
  aggregate_congr h.cfg fun _ _ hi hr => eqCorr_agree h hb hi hr d

/-! ## A training pass -/

theorem outputs_agree (m : Int) : t.outputs m = s.outputs m := by
  unfold outputs
  rw [modes_congr h.cfg]
  exact mapM_congr fun i hi => firOutput_agree h hb (List.mem_range.1 hi) m

theorem adapt_agree {m : Int} {es : List Cplx} (hu : s.adapt m es = .ok u) :
    ∃ v, t.adapt m es = .ok v ∧ Agree (OutsideCorr n) u v := by
  have hmu : t.mu = s.mu := by funext i; rw [mu, mu, h.cfg]
  rw [adapt_eq_bankPass] at hu ⊢
  rw [modes_congr h.cfg, numTaps_congr h.cfg]
  -- the pass keeps the configuration, which bounds the addresses it reads
  refine (foldlM_related (fun x y => Agree (OutsideCorr n) x y ∧ x.cfg = s.cfg)
    (g := fun y p => do pure (y.putCplx (tapEntry p) (← t.updatedTap m es y p)))
    (fun x y x' p hp hxy hx' => ?_) ⟨h, rfl⟩ hu).imp fun v hv => ⟨hv.1, hv.2.1⟩
  obtain ⟨hxy, hx⟩ := hxy
  obtain ⟨z, hz, hx'⟩ := bind_eq_ok hx'
  obtain ⟨hi, hr, hj⟩ := mem_triples.1 hp
  cases hx'
  have hbx := hb.congr hx
  rw [← modes_congr hx] at hi hr
  rw [← numTaps_congr hx] at hj
  have hread : t.updatedTap m es y p = s.updatedTap m es x p := by
    unfold updatedTap
    rw [centre_congr h.cfg, hmu, sampleAt_agree hxy.belowTaps hbx.toPilotBounds hr]
    exact congrArg (· >>= _) (tap_agree hxy hbx hi hr hj)
  exact ⟨y.putCplx (tapEntry p) z, by rw [hread, hz]; rfl, hxy.putCplx _ z, by simpa using hx⟩

theorem tapTest_agree (k : Nat) : t.tapTest k = s.tapTest k := by
  have hlimit : t.tapLimit = s.tapLimit := congrArg (fun c : ConfigRegs => F64.ofBits c.tapLimit) h.cfg
  have hover : ∀ ps : List (Nat × Nat × Nat), (∀ p ∈ ps, p ∈ triples s.modes s.numTaps) →
      t.tapTestOver k ps = s.tapTestOver k ps := by
    intro ps hps
    induction ps with
    | nil => rfl
    | cons p ps ih =>
      obtain ⟨hi, hr, hj⟩ := mem_triples.1 (hps p List.mem_cons_self)
      simp only [tapTestOver]
      rw [tap_agree h hb hi hr hj, hlimit, ih fun q hq => hps q (List.mem_cons_of_mem p hq)]
  unfold tapTest
  rw [modes_congr h.cfg, numTaps_congr h.cfg]
  exact hover _ fun _ hp => hp

omit hb in
theorem writeIdentity_agree : Agree (OutsideCorr n) s.writeIdentity t.writeIdentity := by
  unfold writeIdentity
  rw [modes_congr h.cfg, numTaps_congr h.cfg, centre_congr h.cfg]
  exact List.foldl_rel h fun p _ x y hxy => hxy.putCplx _ _

end

theorem learn_agree (h : Agree (OutsideCorr n) s t) (hb : s.BankBounds) {m : Int} {k : Nat} {ys targets : List Cplx}
    {dv : Option Divergence} (hu : s.learn m k ys targets = .ok (u, dv)) :
    ∃ v, t.learn m k ys targets = .ok (v, dv) ∧ Agree (OutsideCorr n) u v := by
  obtain ⟨hadapt, htest⟩ := learn_eq_ok hu
  obtain ⟨v, hv, huv⟩ := adapt_agree h hb hadapt
  refine ⟨v, ?_, huv⟩
  rw [learn, hv, ok_bind, tapTest_agree huv (hb.congr (learn_cfg hu)), htest]
  rfl

/-- What one symbol of a training pass does, and the rest of the pass (R214). -/
theorem trainLoop_cons {d k : Nat} {rest : List Nat} {b : Bool} (h : s.trainLoop d (k :: rest) = .ok (u, b)) :
    ∃ ys targets s1 dv, s.outputs (d + s.os * k : Nat) = .ok ys ∧
      ((List.range s.modes).mapM fun t => s.pilot t (k - s.pilotPos)) = .ok targets ∧
      s.learn (d + s.os * k : Nat) k ys targets = .ok (s1, dv) ∧
      (dv = none → s1.trainLoop d rest = .ok (u, b)) ∧ ∀ v, dv = some v → u = s1.recordDivergence v ∧ b = false := by
  obtain ⟨ys, hys, h⟩ := bind_eq_ok h
  obtain ⟨targets, htargets, h⟩ := bind_eq_ok h
  obtain ⟨⟨s1, dv⟩, hlearn, h⟩ := bind_eq_ok h
  refine ⟨ys, targets, s1, dv, hys, htargets, hlearn, ?_⟩
  cases dv with
  | none => exact ⟨fun _ => h, nofun⟩
  | some v =>
    cases h
    exact ⟨nofun, fun w hw => by cases hw; exact ⟨rfl, rfl⟩⟩

theorem trainLoop_agree {d : Nat} {ks : List Nat} (h : Agree (OutsideCorr n) s t) (hb : s.BankBounds)
    (hks : ∀ k ∈ ks, k - s.pilotPos < s.pilotLen) (hu : s.trainLoop d ks = .ok (u, true)) :
    ∃ v, t.trainLoop d ks = .ok (v, true) ∧ Agree (OutsideCorr n) u v := by
  induction ks generalizing s t with
  | nil => cases hu; exact ⟨t, rfl, h⟩
  | cons k ks ih =>
    obtain ⟨ys, targets, s1, dv, hys, htargets, hlearn, hnone, hsome⟩ := trainLoop_cons hu
    cases dv with
    | some v => exact absurd (hsome v rfl).2 (by decide)
    | none =>
      have hcfg := learn_cfg hlearn
      obtain ⟨t1, ht1, h1⟩ := learn_agree h hb hlearn
      obtain ⟨v, hv, huv⟩ := ih h1 (hb.congr hcfg) (fun j hj => by
        rw [pilotPos_congr hcfg, pilotLen_congr hcfg]; exact hks j (List.mem_cons_of_mem k hj)) (hnone rfl)
      refine ⟨v, ?_, huv⟩
      have hos : t.symbolSample d k = d + s.os * k := symbolSample_congr h.cfg d k
      have hpilots : ((List.range t.modes).mapM fun i => t.pilot i (k - t.pilotPos)) = .ok targets := by
        rw [modes_congr h.cfg, pilotPos_congr h.cfg, ← htargets]
        exact mapM_congr fun i hi =>
          pilot_agree h.belowTaps hb.toPilotBounds (List.mem_range.1 hi) (hks k List.mem_cons_self)
      rw [trainLoop]
      dsimp only
      rw [hos, outputs_agree h hb, hys, ok_bind, hpilots, ok_bind, ht1, ok_bind]
      exact hv

theorem trainPilots_agree {d : Nat} (h : Agree (OutsideCorr n) s t) (hb : s.BankBounds)
    (hu : s.trainPilots d = .ok (u, true)) : ∃ v, t.trainPilots d = .ok (v, true) ∧ Agree (OutsideCorr n) u v := by
  rw [trainPilots] at hu ⊢
  rw [pilotLen_congr h.cfg, pilotPos_congr h.cfg]
  refine trainLoop_agree h hb (fun k hk => ?_) hu
  obtain ⟨j, hj, rfl⟩ := List.mem_map.1 hk
  rw [Nat.add_sub_cancel_left]
  exact List.mem_range.1 hj

/-- A training pass without a divergence changes the memory alone (R214). -/
theorem trainPilots_onlyMem {d : Nat} (h : s.trainPilots d = .ok (u, true)) : u = { s with mem := u.mem } := by
  rw [trainPilots] at h
  generalize ((List.range s.pilotLen).map fun k => s.pilotPos + k) = ks at h
  induction ks generalizing s with
  | nil => cases h; rfl
  | cons k ks ih =>
    obtain ⟨ys, targets, s1, dv, -, -, hlearn, hnone, hsome⟩ := trainLoop_cons h
    cases dv with
    | some v => exact absurd (hsome v rfl).2 (by decide)
    | none =>
      have hu := ih (hnone rfl)
      rw [adapt_onlyMem (learn_eq_ok hlearn).1] at hu
      exact hu

/-- Stores to the bank leave every byte below it (R84). -/
theorem tapClosed_belowTaps (m k : Nat) (s : State) {a : Nat} (ha : BelowTaps a) :
    TapClosed m k fun x => x.mem.read a = s.mem.read a := fun x i r j z _ _ _ _ hx =>
  (read_putCplx_other _ z x (by simp only [BelowTaps, Entry.offset] at *; omega)).trans hx

theorem trainPilots_belowTaps {d : Nat} {b : Bool} (h : s.trainPilots d = .ok (u, b)) {a : Nat} (ha : BelowTaps a) :
    u.mem.read a = s.mem.read a :=
  trainPilots_keeps (tapClosed_belowTaps _ _ s ha) (fun _ _ hx => hx) rfl h

theorem writeIdentity_belowTaps (s : State) {a : Nat} (ha : BelowTaps a) :
    s.writeIdentity.mem.read a = s.mem.read a :=
  writeIdentity_keeps (tapClosed_belowTaps _ _ s ha) rfl

end State
end Sys2Proof.Machine
end

section
/-! PROOFS. SYNC with refinement (spec/41_sync.md R171 to R180): each iteration trains and searches as the statement's
chain says, so the rule ends with the offset of the last one and its results. -/

namespace Sys2Proof.Machine

namespace State

/-! ## Correlation over the filter outputs (R172) -/

theorem eqCorr_ok {s : State} {d t u : Nat} {p y : Nat → Cplx}
    (h : ∀ k, k < s.pilotLen → s.pilot t k = .ok (p k) ∧
      s.firOutput (d + s.os * (s.pilotPos + k) : Nat) u = .ok (y k)) :
    s.eqCorr d t u = .ok (cplxSum ((List.range s.pilotLen).map fun k => (p k).conj.mul (y k))) := by
  refine sumCplx_ok fun k hk => ?_
  obtain ⟨hp, hy⟩ := h k (List.mem_range.1 hk)
  rw [hp, symbolSample, hy]
  rfl

/-- An output that can be computed has the sample under its centre tap (R202). -/
theorem sampleAt_of_firOutput {s : State} {m : Int} {t r : Nat} {y : Cplx} (hn : 1 ≤ s.numTaps) (hr : r < s.modes)
    (h : s.firOutput m t = .ok y) : ∃ x, s.sampleAt r m = .ok x := by
  have hc : s.centre < s.numTaps := by rw [centre]; omega
  obtain ⟨v, hv⟩ := sumCplx_ok_at h (mem_pairs.2 ⟨hr, hc⟩ : (r, s.centre) ∈ pairs s.modes s.numTaps)
  obtain ⟨w, -, hv⟩ := bind_eq_ok hv
  obtain ⟨x, hx, -⟩ := bind_eq_ok hv
  rw [add_sub_cancel_right] at hx
  exact ⟨x, hx⟩

/-- Where the correlation over the outputs can be computed, so can the one over the samples (R163, R172). -/
theorem rawCorr_of_eqCorr {s : State} {d t r : Nat} {z : Cplx} (hn : 1 ≤ s.numTaps) (hr : r < s.modes)
    (h : s.eqCorr d t r = .ok z) : ∃ c, s.rawCorr d t r = .ok c := by
  have hterm : ∀ k, k < s.pilotLen → ∃ p x, s.pilot t k = .ok p ∧
      s.sampleAt r (d + s.os * (s.pilotPos + k) : Nat) = .ok x := by
    intro k hk
    obtain ⟨v, hv⟩ := sumCplx_ok_at h (List.mem_range.2 hk)
    obtain ⟨p, hp, hv⟩ := bind_eq_ok hv
    obtain ⟨y, hy, -⟩ := bind_eq_ok hv
    obtain ⟨x, hx⟩ := sampleAt_of_firOutput hn hr hy
    exact ⟨p, x, hp, hx⟩
  choose! p x hp hx using hterm
  exact ⟨_, rawCorr_ok fun k hk => ⟨hp k hk, hx k hk⟩⟩

/-- The training pass of one symbol, with every value it reads (R214). -/
theorem trainLoop_symbol {s u : State} {d k : Nat} {rest : List Nat} {b : Bool}
    (h : s.trainLoop d (k :: rest) = .ok (u, b)) :
    ∃ (ys targets : List Cplx) (s1 : State) (dv : Option Divergence),
      ys.length = s.modes ∧ targets.length = s.modes ∧
      (∀ t, t < s.modes → s.firOutput (d + s.os * k : Nat) t = .ok (ys.getD t Cplx.zero) ∧
        s.pilot t (k - s.pilotPos) = .ok (targets.getD t Cplx.zero)) ∧
      s.learn (d + s.os * k : Nat) k ys targets = .ok (s1, dv) ∧
      (dv = none → s1.trainLoop d rest = .ok (u, b)) ∧
      ∀ v, dv = some v → u = s1.recordDivergence v ∧ b = false := by
  obtain ⟨ys, targets, s1, dv, hys, htargets, hlearn, hrest⟩ := trainLoop_cons h
  obtain ⟨hylen, hy⟩ := mapM_range hys
  obtain ⟨htlen, ht⟩ := mapM_range htargets
  exact ⟨ys, targets, s1, dv, hylen, htlen, fun i hi => ⟨hy i hi _, ht i hi _⟩, hlearn, hrest⟩

/-! ## One iteration (R171 to R173) -/

/-- The state in which iteration `i` searches, with the memory its training left. -/
def refining (s : State) (i : Nat) (m : Memory) : State := { (s.setSyncState .refine).setSyncIters i with mem := m }

theorem meanFloor_congr {s t : State} (h : t.cfg = s.cfg) (es : List F64) (b : Nat) :
    t.meanFloor es b = s.meanFloor es b := by
  have hos : t.os = s.os := by rw [os, os, h]
  unfold meanFloor farMetrics
  rw [hos]

section
variable {s u : State} {seed : Bool} {m : Memory} {x : Refinement}

/-- What an iteration finds lies in the buffer, and so do all of its candidates (R164, R173). -/
theorem Iterates.inBuffer (h : s.Iterates seed m x) :
    (s.foundBy x : Int) ≤ s.dmax ∧ (x.metrics.length : Int) ≤ s.dmax + 1 := by
  have hlt := (List.getElem?_eq_some_iff.1 h.best.value).1
  have hcount := h.count
  have hmin := min_le_right ((x.start : Int) + (s.refineHalf : Int)) s.dmax
  unfold foundBy
  push_cast
  omega

theorem Iterates.valid (h : s.Iterates seed m x) : ∀ e ∈ x.metrics, F64.Valid e := by
  intro e he
  obtain ⟨i, hi⟩ := List.getElem?_of_mem he
  exact aggregate_valid (h.metric i e hi)

/-- An iteration writes no sample and no pilot. -/
theorem Iterates.belowTaps (h : s.Iterates seed m x) (hm : Agree BelowTaps s { s with mem := m }) :
    Agree BelowTaps s { s with mem := x.mem } := by
  refine ⟨rfl, rfl, fun a ha => ?_⟩
  have htrain := trainPilots_belowTaps h.trained ha
  refine htrain.trans (Eq.trans ?_ (hm.reads a ha))
  split
  · rfl
  · exact writeIdentity_belowTaps _ ha

/-- The metric that was chosen has been computed, so the channel estimate at its offset can be (R176). -/
theorem Iterates.rawCorr (h : s.Iterates seed m x) (hb : s.PilotBounds) (hn : 1 ≤ s.numTaps)
    (hx : Agree BelowTaps s { s with mem := x.mem }) {t r : Nat} (ht : t < s.modes) (hr : r < s.modes) :
    ∃ c, s.rawCorr (s.foundBy x) t r = .ok c := by
  obtain ⟨z, hz⟩ := aggregate_ok_at (s := { s with mem := x.mem }) (h.metric x.best x.peak h.best.value) ht hr
  obtain ⟨c, hc⟩ := rawCorr_of_eqCorr (s := { s with mem := x.mem }) hn hr hz
  rw [rawCorr_agree hx hb ht hr] at hc
  exact ⟨c, hc⟩

/-- The training of an iteration, in a state that agrees with the chain's memory outside CORR. -/
theorem Iterates.train {n : Nat} (h : s.Iterates seed m x) (hb : s.BankBounds) (i : Nat)
    (hu : Agree (OutsideCorr n) { s with mem := m } u) :
    ∃ m', (u.startIteration seed i).trainPilots x.start = .ok (u.refining i m', true) ∧
      Agree (OutsideCorr n) { s with mem := x.mem } (u.refining i m') := by
  have hstart : Agree (OutsideCorr n) (if seed = true then { s with mem := m } else writeIdentity { s with mem := m })
      (u.startIteration seed i) := by
    have hu0 : Agree (OutsideCorr n) { s with mem := m } ((u.setSyncState .refine).setSyncIters i) :=
      ⟨hu.cfg, hu.draws, hu.reads⟩
    unfold startIteration
    split
    · exact hu0
    · exact writeIdentity_agree hu0
  have hbounds : BankBounds (if seed = true then { s with mem := m } else writeIdentity { s with mem := m }) := by
    refine hb.congr ?_
    split
    · rfl
    · exact writeIdentity_cfg _
  obtain ⟨v, hv, hagree⟩ := trainPilots_agree hstart hbounds h.trained
  have hmem : v = u.refining i v.mem := by
    have honly := trainPilots_onlyMem hv
    have hs : u.startIteration seed i = u.refining i (u.startIteration seed i).mem := by
      unfold startIteration
      split
      · rfl
      · rw [writeIdentity_onlyMem]; rfl
    rw [hs] at honly
    exact honly
  rw [hmem] at hv hagree
  exact ⟨_, hv, hagree⟩

/-- The state an iteration leaves (R167, R173). -/
def afterIteration (s u : State) (i : Nat) (m : Memory) (x : Refinement) : State :=
  (u.refining i m).afterSearch (s.refineStart x.start) x.metrics x.best x.peak

/-- An iteration that trains, finds a candidate and detects it settles on its start or goes on (R175, R180). -/
theorem refine_of_detected {s v w : State} {seed : Bool} {left i d : Nat} {final : SyncState} {f : Found}
    (htrain : (s.startIteration seed i).trainPilots d = .ok (v, true))
    (hsearch : v.search v.eqMetric (s.refineStart d) (min ((d : Int) + (s.refineHalf : Int)) s.dmax) = .ok (w, .ok f))
    (hdetected : w.detected f = true) :
    s.refine seed (left + 1) i d final = if f.offset = d then .ok (w, .ok (d, .converged))
      else w.refine seed left (i + 1) f.offset .iterLimit := by
  rw [State.refine]
  change ((s.startIteration seed i).trainPilots d >>= _) = _
  rw [htrain, ok_bind]
  change (v.search v.eqMetric (s.refineStart d) (min ((d : Int) + (s.refineHalf : Int)) s.dmax) >>= _) = _
  rw [hsearch, ok_bind]
  change (if (!w.detected f) = true then _ else _ : Eng _) = _
  rw [hdetected]
  rfl

/-- One iteration of the rule, in a state that agrees with the chain's memory outside CORR (R171 to R175). -/
theorem Iterates.refine (h : s.Iterates seed m x) (hb : s.BankBounds) (hp : 1 ≤ s.pilotLen)
    (hu : Agree (OutsideCorr s.sampleLen) { s with mem := m } u) (left i : Nat) (final : SyncState) :
    ∃ m', Agree (OutsideCorr s.sampleLen) { s with mem := x.mem } (s.afterIteration u i m' x) ∧
      u.refine seed (left + 1) i x.start final =
        if s.foundBy x = x.start then .ok (s.afterIteration u i m' x, .ok (x.start, .converged))
        else (s.afterIteration u i m' x).refine seed left (i + 1) (s.foundBy x) .iterLimit := by
  obtain ⟨m', htrain, hagree⟩ := h.train hb i hu
  have hcfg : u.cfg = s.cfg := hu.cfg
  obtain ⟨-, hlen⟩ := h.inBuffer
  have hmax := dmax_lt_sampleLen hp
  have hsearch := search_found (s := u.refining i m') (metric := (u.refining i m').eqMetric)
    (lo := s.refineStart x.start) (hi := min ((x.start : Int) + (s.refineHalf : Int)) s.dmax)
    (by have := h.count; omega)
    (fun j e he => (eqMetric_agree hagree (hb.congr rfl) _).trans (h.metric j e he)) h.best
  have hdetected : (s.afterIteration u i m' x).detected
      ⟨s.refineStart x.start + x.best, x.peak, (u.refining i m').meanFloor x.metrics x.best⟩ = true := by
    have hthreshold : (s.afterIteration u i m' x).threshold = s.threshold :=
      congrArg (fun c : ConfigRegs => F64.ofBits c.threshold) hcfg
    simp only [detected, Bool.and_eq_true]
    rw [hthreshold, meanFloor_congr (s := s) (t := u.refining i m') hcfg]
    exact ⟨⟨h.best.finite, h.positive⟩, h.threshold⟩
  refine ⟨m', ⟨hagree.cfg, hagree.draws, fun a ha => ?_⟩, ?_⟩
  · refine (read_writeCorr_outside x.metrics (u.refining i m') ?_).trans (hagree.reads a ha)
    unfold OutsideCorr at ha
    omega
  · have hhalf : u.refineHalf = s.refineHalf := congrArg (fun c : ConfigRegs => c.refineHalf.toNat) hcfg
    have hlo : u.refineStart x.start = s.refineStart x.start := by rw [refineStart, refineStart, hhalf]
    exact refine_of_detected htrain (by rw [hlo, hhalf, dmax_congr hcfg]; exact hsearch) hdetected

/-! ## The chain of iterations (R175, R179) -/

/-- Each iteration of a chain is one of R171, and none of them writes a sample or a pilot. -/
theorem Refines.of_mem {xs : List Refinement} {d : Nat} (h : s.Refines seed d m xs)
    (hm : Agree BelowTaps s { s with mem := m }) (hx : x ∈ xs) :
    (∃ m', s.Iterates seed m' x) ∧ Agree BelowTaps s { s with mem := x.mem } := by
  induction xs generalizing d m with
  | nil => cases hx
  | cons y xs ih =>
    obtain ⟨-, hy, -, hrest⟩ := h
    have hymem := hy.belowTaps hm
    rcases List.mem_cons.1 hx with rfl | hx
    · exact ⟨⟨m, hy⟩, hymem⟩
    · exact ih hrest hymem hx

/-- An iteration overwrites what the search of the one before it wrote. -/
theorem afterIteration_afterIteration (s u : State) (i j : Nat) (m m' : Memory) (x y : Refinement) :
    s.afterIteration (s.afterIteration u i m x) j m' y = s.afterIteration u j m' y := by
  have hmem : (((s.afterIteration u i m x).refining j m').writeCorr y.metrics).mem =
      ((u.refining j m').writeCorr y.metrics).mem :=
    (writeCorr_mem_withResults y.metrics { u with mem := m' } _ _).trans
      (writeCorr_mem_withResults y.metrics { u with mem := m' } _ _).symm
  exact congrArg (fun q => { s.afterIteration u j m' y with mem := q }) hmem

/-- The state SYNC ends in after its last iteration (R175). -/
def finalState (s : State) (x : Refinement) : SyncState := if s.foundBy x = x.start then .converged else .iterLimit

/-- A chain of iterations that ends by settling or at the limit, from number `n + 1` on (R175, R180). -/
theorem Refines.refine (hb : s.BankBounds) (hp : 1 ≤ s.pilotLen) {xs : List Refinement} {n d left : Nat}
    {final : SyncState} (hu : Agree (OutsideCorr s.sampleLen) { s with mem := m } u) (h : s.Refines seed d m xs)
    (hlast : xs.getLast? = some x) (hleft : xs.length ≤ left) (hend : s.foundBy x = x.start ∨ xs.length = left) :
    ∃ m', Agree (OutsideCorr s.sampleLen) { s with mem := x.mem } (s.afterIteration u (n + xs.length) m' x) ∧
      u.refine seed left (n + 1) d final =
        .ok (s.afterIteration u (n + xs.length) m' x, .ok (s.foundBy x, s.finalState x)) := by
  induction xs generalizing n d m left final u with
  | nil => cases hlast
  | cons y rest ih =>
    obtain ⟨rfl, hy, hne, hrest⟩ := h
    obtain ⟨left, rfl⟩ : ∃ k, left = k + 1 := ⟨left - 1, by simp only [List.length_cons] at hleft; omega⟩
    obtain ⟨m', hagree, hiter⟩ := hy.refine hb hp hu left (n + 1) final
    rw [hiter]
    cases rest with
    | nil =>
      obtain rfl : y = x := Option.some_injective _ hlast
      refine ⟨m', hagree, ?_⟩
      unfold finalState
      split
      · next hsettled => rw [hsettled]; rfl
      · next hmoved =>
        obtain rfl : left = 0 := by
          have := hend.resolve_left hmoved
          simp only [List.length_cons, List.length_nil] at this
          omega
        rfl
    | cons z rest =>
      rw [if_neg (hne (List.cons_ne_nil z rest))]
      rw [List.getLast?_cons_cons] at hlast
      obtain ⟨m'', hagree', hrefine⟩ := ih (n := n + 1) hagree hrest hlast (Nat.le_of_succ_le_succ hleft)
        (hend.imp_right Nat.succ.inj)
      rw [afterIteration_afterIteration, Nat.add_right_comm n 1 (z :: rest).length] at hagree' hrefine
      exact ⟨m'', hagree', hrefine⟩

end

/-! ## The rule (R176, R177, R180) -/

/-- A coarse search that is detected leads to the refinement, and its success to the results (R180). -/
theorem syncBody_of_refine {s v : State} {seed : Bool} {es : List F64} {b d : Nat} {peak : F64} {y : SyncState}
    (h : s.CoarseFinds es b peak)
    (hr : (s.coarseDone es b peak).refine seed s.iterations 1 (s.searchStart + b) .converged = .ok (v, .ok (d, y))) :
    s.syncBody seed = v.syncSucceed d y := by
  have hsearch := search_found (s := s.coarseStart) (metric := s.coarseStart.rawMetric) h.count
    (fun i e he => h.metrics i e he) h.best
  have hdetected : (s.coarseDone es b peak).detected ⟨s.searchStart + b, peak, s.meanFloor es b⟩ = true := by
    simp only [detected, Bool.and_eq_true]
    exact ⟨⟨h.best.finite, h.positive⟩, h.threshold⟩
  rw [syncBody]
  change (s.coarseStart.search s.coarseStart.rawMetric s.searchStart s.coarseHi >>= _) = _
  rw [hsearch, ok_bind]
  change (if (!(s.coarseDone es b peak).detected ⟨s.searchStart + b, peak, s.meanFloor es b⟩) = true then _
    else (s.coarseDone es b peak).refine seed s.iterations 1 (s.searchStart + b) .converged >>= _ : Eng Ending) = _
  rw [hdetected, hr]
  rfl

/-- What a SYNC leaves whose coarse search found `coarse` and whose last of `n` iterations is `x`, but for the memory
and CHEST (R167 to R170, R175, R177, R178). -/
def afterRefinement (s : State) (coarse n : Nat) (x : Refinement) (m : Memory)
    (chest : Vector (Vector CplxBits 4) 4) : State :=
  { s with
    status := { s.status with
      syncValid := true
      syncState := s.finalState x
      confInf := !(s.meanFloor x.metrics x.best).gt F64.zero }
    syncRes :=
      { offset := word (s.foundBy x)
        iters := word n
        candStart := word (s.refineStart x.start)
        candCount := word x.metrics.length
        peak := s.realBits (Reg.syncPeak .lo).offset x.peak
        floor := s.realBits (Reg.syncFloor .lo).offset (s.meanFloor x.metrics x.best)
        conf := s.confBits x.peak (s.meanFloor x.metrics x.best)
        coarseOffset := word coarse
        chest := chest }
    cfg := { s.cfg with frameOffset := word (s.foundBy x) }
    mem := m }

/-- R171 to R177, R180: the results of a SYNC with refinement. It runs on the state with SYNC_VALID cleared. -/
theorem syncBody_refined {s : State} {seed : Bool} {es : List F64} {b : Nat} {peak : F64} {xs : List Refinement}
    {x : Refinement} {c : Nat → Nat → Cplx} {ep : Nat → F64} (hb : s.BankBounds) (hp : 1 ≤ s.pilotLen)
    (hfind : s.CoarseFinds es b peak) (h : s.Refines seed (s.searchStart + b) s.mem xs) (hlast : xs.getLast? = some x)
    (hleft : xs.length ≤ s.iterations) (hend : s.foundBy x = x.start ∨ xs.length = s.iterations)
    (hc : ∀ t r, t < s.modes → r < s.modes → s.rawCorr (s.foundBy x) t r = .ok (c t r) ∧ s.pilotEnergy t = .ok (ep t)) :
    ∃ (m : Memory) (chest : Vector (Vector CplxBits 4) 4),
      (s.setSyncValid false).syncBody seed =
        .ok (s.afterRefinement (s.searchStart + b) xs.length x m chest, none) ∧
      (∀ (i : Nat) (e : F64), x.metrics[i]? = some e → (m.readBits64 (0xC00000 + 8 * i)).map F64.ofBits = some e) ∧
      (∀ a, OutsideCorr s.sampleLen a → m.read a = x.mem.read a) ∧
      ∀ t r : Fin 4, chest[t][r] = if t.val < s.modes ∧ r.val < s.modes then
        s.cplxBits (Reg.chestRe t r .lo).offset ((c t r).divReal (ep t)) else s.syncRes.chest[t][r] := by
  obtain ⟨⟨m0, hx⟩, hxmem⟩ := h.of_mem ⟨rfl, rfl, fun _ _ => rfl⟩ (List.mem_of_getLast? hlast)
  have hcoarse : Agree (OutsideCorr s.sampleLen) s ((s.setSyncValid false).coarseDone es b peak) := by
    refine ⟨rfl, rfl, fun a ha => read_writeCorr_outside es (s.setSyncValid false).coarseStart ?_⟩
    obtain ⟨-, hlen⟩ := hfind.candidate_lt hp
    unfold OutsideCorr at ha
    omega
  obtain ⟨m', hagree, hrefine⟩ := h.refine hb hp (n := 0) (final := .converged) hcoarse hlast hleft hend
  rw [Nat.zero_add xs.length] at hagree hrefine
  generalize hv : s.afterIteration ((s.setSyncValid false).coarseDone es b peak) xs.length m' x = v at hagree hrefine
  have hsignals : Agree BelowTaps s v := hxmem.trans hagree.belowTaps
  have hchest := writeChest_ok (s := v) (d := s.foundBy x) (c := c) (ep := ep) fun t r ht hr => by
    rw [modes_congr hsignals.cfg] at ht hr
    rw [rawCorr_agree hsignals hb.toPilotBounds ht hr, pilotEnergy_agree hsignals hb.toPilotBounds ht]
    exact hc t r ht hr
  refine ⟨v.mem, (putChests (fun t r => (c t r).divReal (ep t)) (pairs v.modes v.modes) v).syncRes.chest, ?_,
    fun i e he => ?_, hagree.reads, fun t r => ?_⟩
  · rw [syncBody_of_refine (s := s.setSyncValid false)
      ⟨hfind.count, hfind.metrics, hfind.best, hfind.positive, hfind.threshold⟩ hrefine, syncSucceed, hchest, ok_bind,
      putChests_onlyChest]
    subst hv
    rfl
  · subst hv
    exact corr_writeCorr hx.valid _ he
  · rw [putChests_chest, modes_congr hsignals.cfg]
    subst hv
    exact if_congr mem_pairs rfl rfl

theorem numTaps_pos_of_checked {s : State} (h : s.checkFails .tapsInvalid = .ok false) : 1 ≤ s.numTaps := by
  simp only [checkFails, Except.ok.injEq, Bool.or_eq_false_iff, decide_eq_false_iff_not] at h
  omega

end State

/-- Settles O60: R172 and R214 term by term, then the chain of iterations, and the results of the last one read back. -/
theorem refiningSyncWritesTheOffsetFound : Obligations.RefiningSyncWritesTheOffsetFound := by
  refine ⟨fun s d t u p y h => State.eqCorr_ok h, fun s d => rfl, fun s d => rfl,
    fun s u d k rest b h => State.trainLoop_symbol h, ?_⟩
  intro s seed es b peak xs x hi hpass hfind hrefines hlast hleft hend
  obtain ⟨hpilots, hpilot, henergy⟩ := State.bounds_of_passes_sync hpass
  have htaps := hpass _ (State.tapsInvalid_mem_syncChecks hi)
  have hb : s.BankBounds := ⟨hpilots, State.numTaps_le_of_checked htaps⟩
  obtain ⟨⟨m0, hx⟩, hxmem⟩ := hrefines.of_mem ⟨rfl, rfl, fun _ _ => rfl⟩ (List.mem_of_getLast? hlast)
  -- the entries of the channel estimate
  choose! ep hep using fun t ht => State.pilotEnergy_of_checked henergy (t := t) ht
  choose! c hc using fun t r ht hr =>
    hx.rawCorr hpilots (State.numTaps_pos_of_checked htaps) hxmem (t := t) (r := r) ht hr
  obtain ⟨m, chest, hrun, hcorr, hmem, hchest⟩ := State.syncBody_refined hb hpilot hfind hrefines hlast hleft hend
    fun t r ht hr => ⟨hc t r ht hr, hep t ht⟩
  -- the numbers written fit their registers
  obtain ⟨hfound, hlen⟩ := hx.inBuffer
  have hmax := State.dmax_lt_sampleLen hpilot
  have hsample : s.sampleLen < 2 ^ 32 := s.cfg.sampleLen.isLt
  have hstart : s.refineStart x.start ≤ s.foundBy x := Nat.le_add_right _ _
  have hword : (State.word (s.foundBy x)).toNat = s.foundBy x := State.toNat_word (by omega)
  obtain ⟨hcoarse, -⟩ := hfind.candidate_lt hpilot
  have hexec : exec (.sync seed) s =
      .next (s.afterRefinement (s.searchStart + b) xs.length x m chest).complete := by
    rw [State.exec_of_passes hpass]
    change finish (State.syncBody seed (s.setSyncValid false)) = _
    rw [hrun, State.finish_success]
  obtain ⟨-, -, hframe, -⟩ := commandsWriteOnlyTheirWriteSet _ _ _ hexec
  refine ⟨_, hexec, ?_, rfl, hword, State.toNat_word (by omega), hword, State.toNat_word_le hleft,
    State.toNat_word (by omega), State.toNat_word (by omega),
    State.realBits_ofBits _ _ (hx.valid _ (List.mem_of_getElem? hx.best.value)),
    State.realBits_ofBits _ _ (s.meanFloor_valid _ _), State.ofBits_confBits _ _ _,
    fun i j hi hj => ?_, fun i j hij => ?_, hcorr, hmem, hframe⟩
  · rw [State.complete_eq]; rfl
  · refine ⟨c i j, ep i, hc i j hi hj, hep i hi, ?_⟩
    refine (congrArg State.cplxOf ((hchest i j).trans (if_pos ⟨hi, hj⟩))).trans ?_
    exact State.cplxOf_cplxBits _ _ Cplx.divReal_valid
  · exact (hchest i j).trans (if_neg fun h : i.val < s.modes ∧ j.val < s.modes => by omega)

end Sys2Proof.Machine
end

section
/-! PROOFS. The decision and the processing order of the equalizer (spec/42_equalizer.md R206, R207): the decision's
loop holds the first nearest of the points it has seen, and the order is that of the frame with the payload before
the pilot block moved to its end. -/

namespace Sys2Proof.Machine

namespace F64

/-- What is not NaN and does not lie below `b` is greater than what does (R17). -/
theorem lt_of_lt_of_not_lt {a b c : F64} (hab : a.lt b = true) (hcb : c.lt b = false) (hc : c.isNaN = false) :
    a.lt c = true := by
  cases a <;> cases b <;> cases c
  all_goals simp_all [lt, isNaN]
  omega

end F64

namespace State

/-! ## The decision (R206) -/

/-- The distance of R206 from `z` to point `p`. -/
def distanceTo (s : State) (z : Cplx) (p : Nat) : Eng F64 := do pure (z.sub (← s.point p)).abs2

/-- One point of the decision's loop: a nearer one is the new best. -/
def decideStep (s : State) (z : Cplx) (best : Nat × F64) (q : Nat) : Eng (Nat × F64) := do
  let d ← s.distanceTo z q
  pure (if d.lt best.2 then (q, d) else best)

theorem distanceTo_of_point {s : State} {p : Nat} {c : Cplx} (h : s.point p = .ok c) (z : Cplx) :
    s.distanceTo z p = .ok (z.sub c).abs2 := by
  rw [distanceTo, h]
  rfl

theorem distanceTo_eq_ok {s : State} {z : Cplx} {p : Nat} {d : F64} (h : s.distanceTo z p = .ok d) :
    ∃ c, s.point p = .ok c ∧ d = (z.sub c).abs2 := by
  obtain ⟨c, hc, h⟩ := bind_eq_ok h
  cases h
  exact ⟨c, hc, rfl⟩

theorem decideIndex_eq (s : State) (z : Cplx) : s.decideIndex z = (do
    let d ← s.distanceTo z 0
    let best ← (List.range' 1 (s.constSize - 1)).foldlM (s.decideStep z) (0, d)
    pure best.1) := by
  have hstep : ∀ (best : Nat × F64) (q : Nat), s.decideStep z best q = (do
      let p ← s.point q
      pure (if (z.sub p).abs2.lt best.2 then (q, (z.sub p).abs2) else best)) := by
    intro best q
    rw [decideStep, distanceTo, bind_assoc]
    rfl
  rw [decideIndex, distanceTo, bind_assoc, List.range_eq_range', List.drop_range']
  simp only [pure_bind, funext₂ hstep, Nat.zero_add, Nat.mul_one]

/-- `best` is the first nearest of the points below `m`, with its distance. -/
def NearestBelow (s : State) (z : Cplx) (m : Nat) (best : Nat × F64) : Prop :=
  best.1 < m ∧ s.distanceTo z best.1 = .ok best.2 ∧
    ∀ p, p < m → ∃ d, s.distanceTo z p = .ok d ∧ d.lt best.2 = false ∧
      (p < best.1 → d.isNaN = false → best.2.lt d = true)

theorem nearestBelow_one {s : State} {z : Cplx} {d : F64} (h : s.distanceTo z 0 = .ok d) : s.NearestBelow z 1 (0, d) := by
  refine ⟨Nat.one_pos, h, fun p hp => ?_⟩
  obtain rfl := Nat.lt_one_iff.1 hp
  exact ⟨d, h, F64.lt_self d, fun h => absurd h (Nat.lt_irrefl 0)⟩

theorem NearestBelow.step {s : State} {z : Cplx} {m : Nat} {best best' : Nat × F64} (h : s.NearestBelow z m best)
    (hs : s.decideStep z best m = .ok best') : s.NearestBelow z (m + 1) best' := by
  obtain ⟨hlt, hbest, hall⟩ := h
  obtain ⟨d, hd, hs⟩ := bind_eq_ok hs
  by_cases hnear : d.lt best.2 = true
  · -- the new point is nearer than the best so far, which no earlier point is
    rw [if_pos hnear] at hs
    cases hs
    refine ⟨Nat.lt_succ_self m, hd, fun p hp => ?_⟩
    rcases Nat.lt_succ_iff_lt_or_eq.1 hp with hp | rfl
    · obtain ⟨e, he, hfar, -⟩ := hall p hp
      refine ⟨e, he, Bool.eq_false_iff.2 fun hlt => ?_, fun _ hnan => F64.lt_of_lt_of_not_lt hnear hfar hnan⟩
      exact Bool.eq_false_iff.1 hfar (F64.lt_trans hlt hnear)
    · exact ⟨d, hd, F64.lt_self d, fun h => absurd h (Nat.lt_irrefl p)⟩
  · rw [if_neg hnear] at hs
    cases hs
    refine ⟨Nat.lt_succ_of_lt hlt, hbest, fun p hp => ?_⟩
    rcases Nat.lt_succ_iff_lt_or_eq.1 hp with hp | rfl
    · exact hall p hp
    · exact ⟨d, hd, Bool.eq_false_iff.2 hnear, fun h => absurd hlt (Nat.lt_asymm h)⟩

theorem NearestBelow.foldlM {s : State} {z : Cplx} {m n : Nat} {best best' : Nat × F64} (h : s.NearestBelow z m best)
    (hf : (List.range' m n).foldlM (s.decideStep z) best = .ok best') : s.NearestBelow z (m + n) best' := by
  induction n generalizing m best with
  | zero => cases hf; exact h
  | succ n ih =>
    rw [List.range'_succ, List.foldlM_cons] at hf
    obtain ⟨b, hb, hf⟩ := bind_eq_ok hf
    have := ih (h.step hb) hf
    rwa [Nat.add_right_comm] at this

/-- The decision is the first nearest of point 0 and the constellation's other points. -/
theorem nearestBelow_of_decideIndex {s : State} {z : Cplx} {q : Nat} (h : s.decideIndex z = .ok q) :
    ∃ d, s.NearestBelow z (1 + (s.constSize - 1)) (q, d) := by
  rw [decideIndex_eq] at h
  obtain ⟨d, hd, h⟩ := bind_eq_ok h
  obtain ⟨best, hbest, h⟩ := bind_eq_ok h
  cases h
  exact ⟨best.2, (nearestBelow_one hd).foldlM hbest⟩

/-- A distance that is NaN is not below any, so the loop stays at point 0. -/
theorem decideIndex_of_nan {s : State} {z : Cplx} (hsize : 1 ≤ s.constSize)
    (h : ∀ p, p < s.constSize → ∃ d, s.distanceTo z p = .ok d ∧ d.isNaN = true) : s.decideIndex z = .ok 0 := by
  obtain ⟨d0, h0, -⟩ := h 0 hsize
  have hloop : (List.range' 1 (s.constSize - 1)).foldlM (s.decideStep z) (0, d0) = .ok (0, d0) := by
    have hstay := foldlM_ok (f := s.decideStep z) (g := fun best _ => best) (List.range' 1 (s.constSize - 1))
      (fun best p hp => ?_) (0, d0)
    · rw [hstay, List.foldl_fixed]
    · obtain ⟨d, hd, hnan⟩ := h p (by have := List.mem_range'_1.1 hp; omega)
      rw [decideStep, hd, F64.isNaN_iff.1 hnan]
      rfl
  rw [decideIndex_eq, h0, ok_bind, hloop]
  rfl

/-! ## The processing order (R207) -/

theorem range_eq_parts {s : State} (h : s.pilotPos + s.pilotLen ≤ s.frameLen) :
    List.range s.frameLen = List.range s.pilotPos ++ (((List.range s.pilotLen).map fun k => s.pilotPos + k) ++
      (List.range (s.frameLen - (s.pilotPos + s.pilotLen))).map fun k => s.pilotPos + s.pilotLen + k) := by
  rw [← List.append_assoc, ← List.range_add, ← List.range_add, Nat.add_sub_cancel' h]

end State

/-- Settles O40: at every point the loop holds the first nearest of the points before it. -/
theorem hardDecisionIsTheFirstNearestPoint : Obligations.HardDecisionIsTheFirstNearestPoint := by
  refine ⟨fun s z hsize h => State.decideIndex_of_nan hsize fun p hp => ?_, fun s z q hsize h => ?_⟩
  · obtain ⟨c, hc, hnan⟩ := h p hp
    exact ⟨_, State.distanceTo_of_point hc z, hnan⟩
  · obtain ⟨d, hnear⟩ := State.nearestBelow_of_decideIndex h
    rw [Nat.add_sub_cancel' hsize] at hnear
    obtain ⟨hq, hd, hall⟩ := hnear
    obtain ⟨cq, hcq, rfl⟩ := State.distanceTo_eq_ok hd
    refine ⟨hq, fun p hp => ?_⟩
    obtain ⟨e, he, hfar, hfirst⟩ := hall p hp
    obtain ⟨cp, hcp, rfl⟩ := State.distanceTo_eq_ok he
    exact ⟨cp, cq, hcp, hcq, hfar, hfirst⟩

/-- Settles O41: the order is the frame's ascending one with its first part moved to the end. -/
theorem symbolOrderVisitsEachSymbolOnce : Obligations.SymbolOrderVisitsEachSymbolOnce := by
  intro s h
  refine ⟨?_, ?_, fun i h1 h2 => ?_⟩
  · rw [State.range_eq_parts h, State.symbolOrder]
    exact List.perm_append_comm
  · rw [State.symbolOrder, List.append_assoc]
    exact List.take_left' (by simp)
  · rw [State.symbolOrder]
    by_cases hi : s.pilotPos + i < s.frameLen
    · rw [if_pos hi, List.append_assoc, List.getElem?_append_right (by simpa using h1),
        List.getElem?_append_left (by simp; omega), List.getElem?_map, List.getElem?_range (by simp; omega)]
      simp only [List.length_map, List.length_range, Option.map_some]
      exact congrArg some (by omega)
    · rw [if_neg hi, List.getElem?_append_right (by simp; omega), List.getElem?_range (by simp; omega)]
      simp only [List.length_append, List.length_map, List.length_range]
      exact congrArg some (by omega)

end Sys2Proof.Machine
end

section
/-! PROOFS. One symbol of EQUALIZE (spec/42_equalizer.md R208, R213, R220): no command writes what the host supplies, so
the outputs stored by a symbol leave its targets, its samples and the outputs of other symbols as they were. -/

namespace Sys2Proof.Machine

/-- A monadic map over the elements of a list with their indices, element by element. -/
theorem mapM_zipIdx {α β : Type} {f : α × Nat → Eng β} {l : List α} {r : List β} (h : l.zipIdx.mapM f = .ok r) :
    r.length = l.length ∧ ∀ i (hi : i < l.length) (z : β), f (l[i], i) = .ok (r.getD i z) := by
  have hlen : r.length = l.length := by simpa using length_mapM h
  refine ⟨hlen, fun i hi z => ?_⟩
  obtain ⟨hr, hf⟩ := mapM_getElem h i (by simpa using hi)
  rw [List.getElem_zipIdx, Nat.zero_add] at hf
  rw [List.getD_eq_getElem _ _ hr, hf]

namespace State

variable {s t u : State}

/-! ## What the host supplies -/

/-- The addresses of SAMPLE, PILOT, REF and CONST (R84), the memories no command writes. -/
def HostInput (a : Nat) : Prop := a < 0xA00000 ∨ (0xB10000 ≤ a ∧ a < 0xC00000)

theorem Agree.refl (A : Nat → Prop) (s : State) : Agree A s s := ⟨rfl, rfl, fun _ _ => rfl⟩

/-- A store outside `A` keeps agreement on `A`. -/
theorem Agree.putCplx_right {A : Nat → Prop} (h : Agree A s t) {e : Entry} (z : Cplx)
    (he : ∀ a, A a → a < e.offset ∨ e.offset + 16 ≤ a) : Agree A s (t.putCplx e z) :=
  ⟨by simpa using h.cfg, by simpa using h.draws, fun a ha => (read_putCplx_other e z t (he a ha)).trans (h.reads a ha)⟩

theorem tapClosed_hostInput {m n : Nat} (hm : m ≤ Config.mMax) (hn : n ≤ Config.nMax) (s : State) :
    TapClosed m n (Agree HostInput s) := by
  intro x t r j z ht hr hj _ hx
  refine hx.putCplx_right z fun a ha => ?_
  simp only [HostInput, Entry.offset, Config.mMax, Config.nMax] at *
  omega

theorem outClosed_hostInput {m : Nat} {ks : List Nat} (hm : m ≤ Config.mMax) (hk : ∀ k ∈ ks, k < Config.lMax)
    (s : State) : OutClosed m ks (Agree HostInput s) := by
  intro x t k z ht hks _ hx
  have := hk k hks
  refine hx.putCplx_right z fun a ha => ?_
  simp only [HostInput, Entry.offset, Config.mMax, Config.lMax] at *
  omega

theorem constSize_congr (h : t.cfg = s.cfg) : t.constSize = s.constSize := by rw [constSize, constSize, h]

section
variable (h : Agree HostInput s t)
include h

theorem Agree.hostPilot {i k : Nat} (hm : s.modes ≤ Config.mMax) (hp : s.pilotLen ≤ Config.pMax) (hi : i < s.modes)
    (hk : k < s.pilotLen) : t.pilot i k = s.pilot i k := by
  refine h.readCplx fun a h1 h2 => ?_
  simp only [HostInput, Entry.offset, Config.mMax, Config.pMax] at *
  omega

theorem Agree.hostSample {r n : Nat} (hr : r < Config.mMax) (hn : n < Config.sMax) :
    t.readCplx (.sample r n) = s.readCplx (.sample r n) := by
  refine h.readCplx fun a h1 h2 => ?_
  simp only [HostInput, Entry.offset, Config.mMax, Config.sMax] at *
  omega

variable (hq : s.constSize ≤ Config.qMax)
include hq

theorem Agree.hostPoint {q : Nat} (hle : q ≤ s.constSize) : t.point q = s.point q := by
  refine h.readCplx fun a h1 h2 => ?_
  simp only [HostInput, Entry.offset, Config.qMax] at *
  omega

theorem Agree.hostConstPower : t.constPower = s.constPower := by
  unfold constPower
  rw [constSize_congr h.cfg]
  refine congrArg (· >>= _) (sumReal_congr fun q hmem => ?_)
  rw [h.hostPoint hq (List.mem_range.1 hmem).le]

/-- The decision depends on the constellation alone (R206). -/
theorem Agree.hostDecision (z : Cplx) : t.decideIndex z = s.decideIndex z := by
  have hdist : ∀ q, q ≤ s.constSize → t.distanceTo z q = s.distanceTo z q := by
    intro q hle
    rw [distanceTo, distanceTo, h.hostPoint hq hle]
  rw [decideIndex_eq, decideIndex_eq, hdist 0 (Nat.zero_le _), constSize_congr h.cfg]
  refine congrArg (_ >>= ·) (funext fun d => congrArg (· >>= _) (foldlM_congr (fun b q hmem => ?_) _))
  rw [decideStep, decideStep, hdist q (by have := List.mem_range'_1.1 hmem; omega)]

end

theorem decideIndex_le {z : Cplx} {q : Nat} (hd : s.decideIndex z = .ok q) : q ≤ s.constSize := by
  obtain ⟨d, hlt, -⟩ := nearestBelow_of_decideIndex hd
  dsimp only at hlt
  omega

/-- The target of a symbol depends on the pilots and the constellation alone (R208). -/
theorem Agree.hostTarget (h : Agree HostInput s t) (hm : s.modes ≤ Config.mMax) (hp : s.pilotLen ≤ Config.pMax)
    (hq : s.constSize ≤ Config.qMax) {i : Nat} (hi : i < s.modes) (k : Nat) (y : Cplx) :
    t.target k i y = s.target k i y := by
  unfold target
  rw [pilotPos_congr h.cfg, pilotLen_congr h.cfg, h.hostDecision hq]
  split
  · next hk => exact h.hostPilot hm hp hi (by omega)
  · cases hd : s.decideIndex y with
    | error x => rfl
    | ok q => exact h.hostPoint hq (decideIndex_le hd)

theorem target_pilot {i k : Nat} {y : Cplx} (h : s.pilotPos ≤ k ∧ k < s.pilotPos + s.pilotLen) :
    s.target k i y = s.pilot i (k - s.pilotPos) := if_pos h

theorem target_payload {i k : Nat} {y z : Cplx} (h : ¬ (s.pilotPos ≤ k ∧ k < s.pilotPos + s.pilotLen)) :
    s.target k i y = .ok z ↔ ∃ q, s.decideIndex y = .ok q ∧ s.point q = .ok z := by
  rw [target, if_neg h]
  refine ⟨bind_eq_ok, ?_⟩
  rintro ⟨q, hq, hz⟩
  rw [hq]
  exact hz

/-! ## Storing the outputs of a symbol (R213) -/

theorem writeOutputs_concat (k : Nat) (ys : List Cplx) (y : Cplx) (s : State) :
    s.writeOutputs k (ys ++ [y]) = (s.writeOutputs k ys).putCplx (.out ys.length k) y := by
  simp [writeOutputs, List.zipIdx_append]

/-- A mode's output reads back as stored. -/
theorem outSym_writeOutputs {k i : Nat} {ys : List Cplx} (hv : ∀ y ∈ ys, y.Valid) (s : State)
    {y : Cplx} (hi : ys[i]? = some y) :
    (s.writeOutputs k ys).outSym i k = .ok y := by
  induction ys using List.reverseRecOn with
  | nil => cases hi
  | append_singleton ys x ih =>
    rw [List.forall_mem_append] at hv
    rw [writeOutputs_concat]
    rcases Nat.lt_or_ge i ys.length with hlt | hge
    · rw [List.getElem?_append_left hlt] at hi
      refine (readCplx_putCplx_other x _ ?_).trans (ih hv.1 hi)
      simp only [Entry.offset]
      omega
    · obtain ⟨rfl, rfl⟩ : i = ys.length ∧ x = y := by
        rw [List.getElem?_append_right hge] at hi
        obtain ⟨hlt, hx⟩ := List.getElem?_eq_some_iff.1 hi
        simp only [List.length_singleton, Nat.lt_one_iff] at hlt
        simp only [hlt, List.getElem_cons_zero] at hx
        exact ⟨by omega, hx⟩
      exact readCplx_putCplx_same _ _ (hv.2 x List.mem_cons_self)

theorem writeOutputs_onlyMem {k : Nat} {ys : List Cplx} (hv : ∀ y ∈ ys, y.Valid) (s : State) :
    s.writeOutputs k ys = { s with mem := (s.writeOutputs k ys).mem } := by
  refine writeOutputs_keeps (P := fun x => x = { s with mem := x.mem }) (ks := [k]) (fun x i j z _ _ _ hx => ?_)
    List.mem_cons_self hv rfl
  rw [putCplx]
  generalize Memory.writeBits64 _ _ _ = mem
  exact congrArg (fun y : State => { y with mem := mem }) hx

theorem read_writeOutputs_other {k : Nat} {ys : List Cplx} (hv : ∀ y ∈ ys, y.Valid) (s : State) {a : Nat}
    (ha : ∀ i, i < ys.length → a < (Entry.out i k).offset ∨ (Entry.out i k).offset + 16 ≤ a) :
    (s.writeOutputs k ys).mem.read a = s.mem.read a := by
  refine writeOutputs_keeps (P := fun x => x.mem.read a = s.mem.read a) (ks := [k]) (fun x i j z hi hj _ hx => ?_)
    List.mem_cons_self hv rfl
  obtain rfl := List.mem_singleton.1 hj
  exact (read_putCplx_other _ z x (ha i hi)).trans hx

theorem writeOutputs_hostInput {k : Nat} {ys : List Cplx} (hv : ∀ y ∈ ys, y.Valid) (hm : ys.length ≤ Config.mMax)
    (hk : k < Config.lMax) (s : State) : Agree HostInput s (s.writeOutputs k ys) :=
  writeOutputs_keeps (outClosed_hostInput hm (ks := [k]) (by simpa using hk) s) List.mem_cons_self hv (Agree.refl _ s)

/-! ## One symbol (R220) -/

/-- What one symbol of the pass does, and the rest of the pass. -/
theorem equalizeLoop_cons {d k : Nat} {rest : List Nat} {e : Option CmdError}
    (h : s.equalizeLoop d (k :: rest) = .ok (u, e)) :
    ∃ ys targets s2 dv, s.outputs (d + s.os * k : Nat) = .ok ys ∧
      (ys.zipIdx.mapM fun p => (s.writeOutputs k ys).target k p.2 p.1) = .ok targets ∧
      (s.writeOutputs k ys).learn (d + s.os * k : Nat) k ys targets = .ok (s2, dv) ∧
      (dv = none → s2.equalizeLoop d rest = .ok (u, e)) ∧
      ∀ v, dv = some v → u = s2.recordDivergence v ∧ e = some (.divergence v.kind) := by
  obtain ⟨ys, hys, h⟩ := bind_eq_ok h
  obtain ⟨targets, htargets, h⟩ := bind_eq_ok h
  obtain ⟨⟨s2, dv⟩, hlearn, h⟩ := bind_eq_ok h
  refine ⟨ys, targets, s2, dv, hys, htargets, hlearn, ?_⟩
  cases dv with
  | none => exact ⟨fun _ => h, nofun⟩
  | some v =>
    cases h
    exact ⟨nofun, fun w hw => by cases hw; exact ⟨rfl, rfl⟩⟩

end State

end Sys2Proof.Machine
end

section
/-! PROOFS. How EQUALIZE ends (spec/42_equalizer.md R209 to R213, R220, R283): the pass over the symbols and the power
test each end without a failure or name their first one, and the command ends as they do. -/

namespace Sys2Proof.Machine

namespace State

variable {s t u : State}

/-! ## The registers of a divergence (R62, R212) -/

/-- The context registers hold `v`. -/
structure Records (t : State) (v : Divergence) : Prop where
  divMag : F64.ofBits t.eqRes.divMag = v.value
  divSymbol : t.eqRes.divSymbol = word v.symbol
  divWhere : t.eqRes.divWhere = v.whereWord

theorem records_recordDivergence (s : State) {v : Divergence} (hv : v.value.Valid) :
    (s.recordDivergence v).Records v := ⟨realBits_ofBits _ _ hv, rfl, rfl⟩

theorem toNat_whereWord {v : Divergence} (ht : v.t < 2 ^ 4) (hr : v.r < 2 ^ 4) (hj : v.j < 2 ^ 8) :
    v.whereWord.toNat = v.t + 2 ^ 4 * v.r + 2 ^ 8 * v.j + 2 ^ 16 * v.kind.code := by
  have hcode : v.kind.code ≤ 1 := by cases v.kind <;> decide
  rw [Divergence.whereWord, BitVec.toNat_ofNat]
  omega

/-! ## The pass over the symbols -/

/-- `v` is the first failure of the tap test on the bank, and the context registers hold it (R209, R212). -/
structure TapDivergence (t : State) (v : Divergence) : Prop where
  mode : v.t < t.modes
  input : v.r < t.modes
  tap : v.j < t.numTaps
  earlier : t.earlierTapsPass v.t v.r v.j
  fails : t.TapFails v
  records : t.Records v

theorem equalizeLoop_cfg {d : Nat} {ks : List Nat} {e : Option CmdError} (h : s.equalizeLoop d ks = .ok (u, e)) :
    u.cfg = s.cfg :=
  equalizeLoop_keeps (P := fun x => x.cfg = s.cfg) (fun _ _ _ _ _ _ _ _ _ hx => by simpa using hx)
    (fun _ _ _ _ _ _ _ hx => by simpa using hx) (fun _ _ hx => hx) rfl h

/-- A pass over at least one symbol leaves a bank that passes the tap test, or stops at the first test that fails. -/
theorem equalizeLoop_ends {d : Nat} {ks : List Nat} {e : Option CmdError} (hks : ks ≠ [])
    (h : s.equalizeLoop d ks = .ok (u, e)) :
    (e = none ∧ ∀ i r j, i < u.modes → r < u.modes → j < u.numTaps → u.tapPasses i r j) ∨
      ∃ v, e = some (.divergence v.kind) ∧ v.symbol ∈ ks ∧ u.TapDivergence v := by
  induction ks generalizing s with
  | nil => exact absurd rfl hks
  | cons k ks ih =>
    obtain ⟨ys, targets, s2, dv, -, -, hlearn, hnone, hsome⟩ := equalizeLoop_cons h
    obtain ⟨-, htest⟩ := learn_eq_ok hlearn
    cases dv with
    | some v =>
      obtain ⟨rfl, rfl⟩ := hsome v rfl
      obtain ⟨hk, ht, hr, hj, hearlier, hfails⟩ := tapTest_some htest
      have hvalid : v.value.Valid := by
        obtain ⟨w, -, hvalue, -⟩ := hfails
        exact hvalue ▸ F64.add_valid
      exact .inr ⟨v, rfl, hk ▸ List.mem_cons_self, ht, hr, hj, hearlier, hfails, records_recordDivergence s2 hvalid⟩
    | none =>
      by_cases hlast : ks = []
      · subst hlast
        cases hnone rfl
        exact .inl ⟨rfl, fun _ _ _ => tapTest_none htest⟩
      · exact (ih hlast (hnone rfl)).imp id fun ⟨v, he, hk, hv⟩ => ⟨v, he, List.mem_cons_of_mem k hk, hv⟩

/-! ## The power test -/

theorem sub_of_powerFailure {pc p : F64} {kind : DivergenceKind} (h : s.powerFailure pc p = some kind) :
    3 ≤ kind.sub ∧ kind.code = 1 := by
  unfold powerFailure at h
  repeat' split at h
  all_goals cases h
  all_goals decide

/-- The power test passes every mode, or names the first that fails and its power (R210). -/
theorem powerTestOver_none {pc : F64} {ps : List F64} {n : Nat} (h : s.powerTestOver pc (ps.zipIdx n) = none) :
    ∀ p ∈ ps, s.powerFailure pc p = none := by
  induction ps generalizing n with
  | nil => simp
  | cons p ps ih =>
    rw [List.zipIdx_cons, powerTestOver] at h
    split at h
    · cases h
    · next hp => exact List.forall_mem_cons.2 ⟨hp, ih h⟩

theorem powerTestOver_some {pc : F64} {ps : List F64} {n : Nat} {v : Divergence}
    (h : s.powerTestOver pc (ps.zipIdx n) = some v) :
    ∃ i p kind, ps[i]? = some p ∧ s.powerFailure pc p = some kind ∧ v = ⟨n + i, 0, 0, kind, s.frameLen, p⟩ ∧
      ∀ j q, j < i → ps[j]? = some q → s.powerFailure pc q = none := by
  induction ps generalizing n with
  | nil => cases h
  | cons p ps ih =>
    rw [List.zipIdx_cons, powerTestOver] at h
    split at h
    · next kind hkind =>
      cases h
      exact ⟨0, p, kind, rfl, hkind, rfl, fun j _ hj => absurd hj (Nat.not_lt_zero j)⟩
    · next hp =>
      obtain ⟨i, q, kind, hi, hkind, rfl, hearlier⟩ := ih h
      refine ⟨i + 1, q, kind, hi, hkind, by rw [Nat.add_right_comm, Nat.add_assoc], fun j x hj hx => ?_⟩
      cases j with
      | zero => cases hx; exact hp
      | succ j => exact hearlier j x (by omega) hx

/-- OUT_POWER[t] with the power of every mode. -/
def putOutPowers (ps : List F64) (s : State) : State := ps.zipIdx.foldl (fun x p => x.putOutPower p.2 p.1) s

theorem putOutPowers_concat (ps : List F64) (p : F64) (s : State) :
    s.putOutPowers (ps ++ [p]) = (s.putOutPowers ps).putOutPower ps.length p := by
  simp [putOutPowers, List.zipIdx_append]

theorem putOutPowers_onlyEqRes (ps : List F64) (s : State) :
    s.putOutPowers ps = { s with eqRes := (s.putOutPowers ps).eqRes } :=
  foldl_keeps (fun x : State => x = { s with eqRes := x.eqRes }) _ _
    (fun x p _ hx => congrArg (fun y : State => { y with eqRes := (x.putOutPower p.2 p.1).eqRes }) hx) rfl

theorem putOutPower_outPower_same (x : State) (v : F64) (i : Fin 4) :
    (x.putOutPower i.val v).eqRes.outPower[i] = x.realBits (Reg.outPower (Fin.ofNat 4 i.val) .lo).offset v :=
  (Vector.getElem_setIfInBounds i.isLt).trans (if_pos rfl)

theorem putOutPowers_mem (ps : List F64) (s : State) : (s.putOutPowers ps).mem = s.mem := by
  rw [putOutPowers_onlyEqRes]

theorem putOutPowers_cfg (ps : List F64) (s : State) : (s.putOutPowers ps).cfg = s.cfg := by
  rw [putOutPowers_onlyEqRes]

theorem outPower_putOutPowers {ps : List F64} (hv : ∀ p ∈ ps, F64.Valid p) (s : State) {i : Fin 4} {p : F64}
    (hi : ps[i.val]? = some p) : F64.ofBits (s.putOutPowers ps).eqRes.outPower[i] = p := by
  induction ps using List.reverseRecOn with
  | nil => cases hi
  | append_singleton ps x ih =>
    rw [List.forall_mem_append] at hv
    rw [putOutPowers_concat]
    by_cases he : i.val = ps.length
    · rw [he, List.getElem?_concat_length] at hi
      cases hi
      rw [← he, putOutPower_outPower_same]
      exact realBits_ofBits _ _ (hv.2 _ List.mem_cons_self)
    · rw [putOutPower_outPower_ne _ _ he]
      refine ih hv.1 ?_
      have hlt := (List.getElem?_eq_some_iff.1 hi).1
      rw [List.length_append, List.length_singleton] at hlt
      rwa [List.getElem?_append_left (by omega)] at hi

/-- The powers the power test compares: of the constellation, and of the outputs by mode (R210, R211). -/
structure Powers (s : State) (pc : F64) (ps : List F64) : Prop where
  constPower : s.constPower = .ok pc
  outputs : (List.range s.modes).mapM s.outputPower = .ok ps

theorem Powers.length_eq {pc : F64} {ps : List F64} (h : s.Powers pc ps) : ps.length = s.modes :=
  (mapM_range h.outputs).1

theorem Powers.valid {pc : F64} {ps : List F64} (h : s.Powers pc ps) : ∀ p ∈ ps, F64.Valid p := by
  intro p hp
  obtain ⟨t, -, ht⟩ := mem_mapM h.outputs hp
  obtain ⟨x, -, hx⟩ := bind_eq_ok ht
  cases hx
  exact F64.div_valid

theorem Powers.outputPower {pc : F64} {ps : List F64} (h : s.Powers pc ps) {i : Nat} {p : F64} (hi : ps[i]? = some p) :
    i < s.modes ∧ s.outputPower i = .ok p := by
  obtain ⟨hlt, rfl⟩ := List.getElem?_eq_some_iff.1 hi
  have hmode : i < s.modes := h.length_eq ▸ hlt
  have hpower := (mapM_range h.outputs).2 i hmode F64.zero
  rw [List.getD_eq_getElem _ _ hlt] at hpower
  exact ⟨hmode, hpower⟩

theorem powerTest_of_powers {pc : F64} {ps : List F64} (h : s.Powers pc ps) :
    s.powerTest = match (s.putOutPowers ps).powerTestOver pc ps.zipIdx with
      | some v => .ok ((s.putOutPowers ps).recordDivergence v, some (.divergence v.kind))
      | none => .ok (s.putOutPowers ps, none) := by
  rw [powerTest, h.constPower, ok_bind, h.outputs, ok_bind]
  rfl

theorem powers_of_powerTest {r : Ending} (h : s.powerTest = .ok r) : ∃ pc ps, s.Powers pc ps := by
  obtain ⟨pc, hpc, h⟩ := bind_eq_ok h
  obtain ⟨ps, hps, -⟩ := bind_eq_ok h
  exact ⟨pc, ps, hpc, hps⟩

/-- OUT_POWER holds the power of every mode. -/
structure ShowsPowers (t : State) (pc : F64) (ps : List F64) : Prop extends Powers t pc ps where
  shown : ∀ (i : Fin 4) (p : F64), ps[i.val]? = some p → F64.ofBits t.eqRes.outPower[i] = p

theorem ShowsPowers.mode {pc : F64} {ps : List F64} (h : t.ShowsPowers pc ps) {i : Fin 4} (hi : i.val < t.modes) :
    ∃ p, ps[i.val]? = some p ∧ t.outputPower i = .ok p ∧ F64.ofBits t.eqRes.outPower[i] = p := by
  have hget : ps[i.val]? = some (ps[i.val]'(h.length_eq.symm ▸ hi)) := List.getElem?_eq_getElem _
  exact ⟨_, hget, (h.outputPower hget).2, h.shown i _ hget⟩

/-! ## The rule (R220) -/

/-- How the rule ends, by the state it leaves: a failure of the tap test or of the power test is the first one. -/
inductive EqualizeEnds (t : State) : Option CmdError → Prop
  | tapDiverged {v : Divergence} : v.symbol ∈ t.symbolOrder → t.TapDivergence v →
      EqualizeEnds t (some (.divergence v.kind))
  | powerDiverged {pc p : F64} {ps : List F64} {i : Nat} {kind : DivergenceKind} : t.ShowsPowers pc ps →
      ps[i]? = some p → t.powerFailure pc p = some kind →
      (∀ j q, j < i → ps[j]? = some q → t.powerFailure pc q = none) → t.Records ⟨i, 0, 0, kind, t.frameLen, p⟩ →
      EqualizeEnds t (some (.divergence kind))
  | success {pc : F64} {ps : List F64} :
      (∀ i r j, i < t.modes → r < t.modes → j < t.numTaps → t.tapPasses i r j) → t.ShowsPowers pc ps →
      (∀ p ∈ ps, t.powerFailure pc p = none) → EqualizeEnds t none

section
variable (hmem : t.mem = s.mem) (hcfg : t.cfg = s.cfg)
include hcfg

theorem powerFailure_congr : t.powerFailure = s.powerFailure := by
  funext pc p
  rw [powerFailure, powerFailure, divFactor, divFactor, hcfg]

theorem frameLen_congr : t.frameLen = s.frameLen := by rw [frameLen, frameLen, hcfg]

theorem symbolOrder_congr : t.symbolOrder = s.symbolOrder := by
  rw [symbolOrder, symbolOrder, pilotPos_congr hcfg, pilotLen_congr hcfg, frameLen_congr hcfg]

include hmem

theorem tapPasses_congr : t.tapPasses = s.tapPasses := by
  funext i r j
  simp only [tapPasses, State.tap, readCplx, tapLimit, hmem, hcfg]

theorem TapDivergence.congr {v : Divergence} (h : s.TapDivergence v) (hrecords : t.Records v) : t.TapDivergence v := by
  obtain ⟨ht, hr, hj, hearlier, hfails, -⟩ := h
  refine ⟨modes_congr hcfg ▸ ht, modes_congr hcfg ▸ hr, numTaps_congr hcfg ▸ hj, ?_, ?_, hrecords⟩
  · simpa only [earlierTapsPass, tapPasses_congr hmem hcfg, modes_congr hcfg, numTaps_congr hcfg] using hearlier
  · simpa only [TapFails, State.tap, readCplx, tapLimit, hmem, hcfg] using hfails

theorem Powers.congr {pc : F64} {ps : List F64} (h : s.Powers pc ps) : t.Powers pc ps := by
  have hout : t.outputPower = s.outputPower := by
    funext i
    simp only [State.outputPower, outSym, readCplx, frameLen, hmem, hcfg]
  refine ⟨Eq.trans ?_ h.constPower, by rw [hout, modes_congr hcfg, h.outputs]⟩
  simp only [State.constPower, point, readCplx, constSize, hmem, hcfg]

theorem EqualizeEnds.congr {e : Option CmdError} (h : s.EqualizeEnds e) (hres : t.eqRes = s.eqRes) :
    t.EqualizeEnds e := by
  have hrecords : ∀ v, s.Records v → t.Records v := fun v ⟨h1, h2, h3⟩ => ⟨hres ▸ h1, hres ▸ h2, hres ▸ h3⟩
  have hpower := powerFailure_congr hcfg
  cases h with
  | tapDiverged hsymbol hv =>
    exact .tapDiverged (symbolOrder_congr hcfg ▸ hsymbol) (hv.congr hmem hcfg (hrecords _ hv.records))
  | powerDiverged hps hi hkind hearlier hv =>
    exact .powerDiverged ⟨hps.congr hmem hcfg, hres ▸ hps.shown⟩ hi (hpower ▸ hkind) (hpower ▸ hearlier)
      (frameLen_congr hcfg ▸ hrecords _ hv)
  | success htaps hps hpass =>
    refine .success ?_ ⟨hps.congr hmem hcfg, hres ▸ hps.shown⟩ (hpower ▸ hpass)
    rwa [modes_congr hcfg, numTaps_congr hcfg, tapPasses_congr hmem hcfg]

end

theorem symbolOrder_ne_nil (h : 1 ≤ s.pilotLen) : s.symbolOrder ≠ [] := by
  intro hnil
  have hlen := congrArg List.length hnil
  simp only [symbolOrder, List.length_append, List.length_map, List.length_range, List.length_nil] at hlen
  omega

theorem equalizeBody_ends {seed : Bool} {e : Option CmdError} (hks : s.symbolOrder ≠ [])
    (h : s.equalizeBody seed = .ok (t, e)) :
    t.EqualizeEnds e ∧ t.cfg = s.cfg ∧ 
    ∃ u e', (if seed = true then s else s.writeIdentity).equalizeLoop s.frameOffset s.symbolOrder = .ok (u, e') ∧
      t.mem = u.mem := by
  obtain ⟨⟨u, e'⟩, hloop, h⟩ := bind_eq_ok h
  have hcfg : u.cfg = s.cfg := (equalizeLoop_cfg hloop).trans (by split; exacts [rfl, writeIdentity_cfg s])
  rcases equalizeLoop_ends hks hloop with ⟨rfl, htaps⟩ | ⟨v, rfl, hsymbol, hv⟩
  · obtain ⟨⟨x, e2⟩, hpower, h⟩ := bind_eq_ok h
    obtain ⟨pc, ps, hps⟩ := powers_of_powerTest hpower
    have hmem := putOutPowers_mem ps u
    have hsame := putOutPowers_cfg ps u
    have hshown : (u.putOutPowers ps).ShowsPowers pc ps :=
      ⟨hps.congr hmem hsame, fun i p hi => outPower_putOutPowers hps.valid u hi⟩
    rw [powerTest_of_powers hps] at hpower
    split at hpower
    · next v hv =>
      cases hpower
      cases h
      obtain ⟨i, p, kind, hi, hkind, rfl, hearlier⟩ := powerTestOver_some hv
      rw [Nat.zero_add]
      refine ⟨.powerDiverged ⟨⟨hshown.constPower, hshown.outputs⟩, hshown.shown⟩ hi hkind hearlier
        (records_recordDivergence _ (hps.valid p (List.mem_of_getElem? hi))), hsame.trans hcfg, u, _, hloop, hmem⟩
    · next hv =>
      cases hpower
      cases h
      refine ⟨.success (fun i r j hi hr hj => ?_) ⟨⟨hshown.constPower, hshown.outputs⟩, hshown.shown⟩
        (fun p hp => powerTestOver_none hv p hp), hsame.trans hcfg, u, _, hloop, hmem⟩
      change (u.putOutPowers ps).tapPasses i r j
      rw [tapPasses_congr hmem hsame]
      exact htaps i r j (modes_congr hsame ▸ hi) (modes_congr hsame ▸ hr) (numTaps_congr hsame ▸ hj)
  · cases h
    exact ⟨.tapDiverged (symbolOrder_congr hcfg ▸ hsymbol) hv, hcfg, t, _, hloop, rfl⟩

/-- How the command ends, once its checks have passed. -/
theorem exec_equalize_ends {seed : Bool} (hpass : s.passes (.equalize seed)) (ht : exec (.equalize seed) s = .next t) :
    t.cfg = s.cfg ∧ (∃ u e', (if seed = true then s.clearValid (.legal (.equalize seed))
      else (s.clearValid (.legal (.equalize seed))).writeIdentity).equalizeLoop s.frameOffset s.symbolOrder =
        .ok (u, e') ∧ t.mem = u.mem) ∧
    ∃ e, t.EqualizeEnds e ∧ t.err = errOf e ∧ t.status.eqValid = e.isNone := by
  have hks := symbolOrder_ne_nil (pilotLen_pos_of_checked (hpass .pilotLenZero (by decide : _ ∈ equalizeChecks)))
  rw [exec_of_passes hpass] at ht
  obtain ⟨v, e, hbody, ht⟩ := finish_next ht
  obtain ⟨hends, hcfg, hloop⟩ := equalizeBody_ends (s := s.clearValid (.legal (.equalize seed))) hks hbody
  have hvalid : v.status.eqValid = e.isNone := by
    rcases equalizeBody_ending hbody with ⟨rfl, hv⟩ | ⟨k, rfl, hv⟩
    · rw [hv]; rfl
    · rw [hv]; rfl
  rcases ht with ⟨rfl, rfl⟩ | ⟨x, rfl, rfl⟩
  · exact ⟨hcfg, hloop, _, EqualizeEnds.congr (s := v) (t := v.complete) rfl rfl hends rfl, rfl, hvalid⟩
  · exact ⟨hcfg, hloop, _, EqualizeEnds.congr (s := v) (t := v.raise x) rfl rfl hends rfl, rfl, hvalid⟩

end State

/-- Settles O42: one symbol is taken apart, and each of the rule's ends is read off the state it leaves. -/
theorem equalizeSucceedsOrNamesItsDivergence : Obligations.EqualizeSucceedsOrNamesItsDivergence := by
  refine ⟨?_, fun s t seed hpass ht => ?_⟩
  · intro s u d k rest e hm hframe hpilot hconst hk h
    obtain ⟨ys, targets, s2, dv, hys, htargets, hrest⟩ := State.equalizeLoop_cons h
    obtain ⟨hlen, hy⟩ := mapM_range hys
    obtain ⟨htlen, ht⟩ := mapM_zipIdx htargets
    have hv : ∀ y ∈ ys, y.Valid := fun y hmem => State.outputs_valid hys hmem
    have hkl : k < Config.lMax := by simp only [Config.lMax]; omega
    have hagree := State.writeOutputs_hostInput hv (hlen ▸ hm) hkl s
    refine ⟨ys, targets, s.writeOutputs k ys, s2, dv, hlen, htlen.trans hlen, fun t hlt => hy t hlt _,
      State.writeOutputs_onlyMem hv s, fun t hlt => ?_, fun a ha => State.read_writeOutputs_other hv s (hlen ▸ ha),
      fun t hlt => ?_, hrest⟩
    · have hlt := hlen.symm ▸ hlt
      exact State.outSym_writeOutputs hv s (by rw [List.getD_eq_getElem _ _ hlt, List.getElem?_eq_getElem])
    · have hi : t < ys.length := hlen.symm ▸ hlt
      have htarget := ht t hi Cplx.zero
      rw [hagree.hostTarget hm hpilot hconst hlt] at htarget
      rw [List.getD_eq_getElem _ _ hi]
      split
      · next hblock => exact (State.target_pilot hblock).symm.trans htarget
      · next hblock => exact (State.target_payload hblock).1 htarget
  · have hchecks : ∀ c ∈ equalizeChecks, s.checkFails c = .ok false := hpass
    have hblock := State.pilotBlock_le_of_checked (hchecks .pilotBlockOverrun (by decide))
    have hmodes := State.modes_le_of_checked (hchecks .modesRange (by decide))
    have htaps := State.numTaps_le_of_checked (hchecks .tapsInvalid (by decide))
    have hpilot := State.pilotLen_pos_of_checked (hchecks .pilotLenZero (by decide))
    have hframe : s.frameLen < 2 ^ 32 := s.cfg.frameLen.isLt
    obtain ⟨hcfg, hloop, e, hends, herr, hvalid⟩ := State.exec_equalize_ends hpass ht
    refine ⟨hloop, ?_⟩
    have hpower := State.powerFailure_congr hcfg
    have hlimit : t.tapLimit = s.tapLimit := congrArg (fun c : ConfigRegs => F64.ofBits c.tapLimit) hcfg
    simp only [Config.mMax, Config.nMax] at hmodes htaps
    rw [← State.pilotPos_congr hcfg, ← State.pilotLen_congr hcfg, ← State.frameLen_congr hcfg] at hblock
    rw [← State.modes_congr hcfg] at hmodes
    rw [← State.numTaps_congr hcfg] at htaps
    rw [← State.frameLen_congr hcfg] at hframe
    cases hends with
    | @tapDiverged v hsymbol hv =>
      obtain ⟨ht, hr, hj, hearlier, ⟨w, hw, hvalue, hkind⟩, hmag, hsym, hwhere⟩ := hv
      have hk := State.lt_frameLen_of_mem_symbolOrder hblock hsymbol
      have hplace := State.toNat_whereWord (v := v) (by omega) (by omega) (by omega)
      have hcode : v.kind.code = 0 := by rcases hkind with ⟨h, -⟩ | ⟨h, -⟩ <;> rw [h] <;> rfl
      rw [hcode, ← hwhere] at hplace
      rw [hlimit] at hkind
      refine .inr (.inl ⟨v.symbol, v.t, v.r, v.j, w, State.frameLen_congr hcfg ▸ hk, State.modes_congr hcfg ▸ ht,
        State.modes_congr hcfg ▸ hr, State.numTaps_congr hcfg ▸ hj, hvalid, hw, hearlier, hmag.trans hvalue, ?_, hplace,
        hkind.imp (fun ⟨h, hfin⟩ => ⟨by rw [herr, h]; rfl, hfin⟩) fun ⟨h, hfin⟩ => ⟨by rw [herr, h]; rfl, hfin⟩⟩)
      rw [hsym]
      exact State.toNat_word (hk.trans hframe)
    | @powerDiverged pc p ps i kind hps hi hkind hearlier hv =>
      obtain ⟨hmode, hout⟩ := hps.outputPower hi
      obtain ⟨hmag, hsym, hwhere⟩ := hv
      obtain ⟨hsub, hcode⟩ := State.sub_of_powerFailure hkind
      have hplace := State.toNat_whereWord (v := ⟨i, 0, 0, kind, t.frameLen, p⟩)
        (show i < 2 ^ 4 by omega) (show 0 < 2 ^ 4 by omega) (show 0 < 2 ^ 8 by omega)
      rw [← hwhere] at hplace
      simp only [hcode, Nat.mul_zero, Nat.add_zero, Nat.mul_one] at hplace
      refine .inr (.inr ⟨i, p, pc, kind, State.modes_congr hcfg ▸ hmode, hvalid, hout, hps.constPower, hpower ▸ hkind,
        herr, hsub, hmag, ?_, hplace, fun m hm => ?_⟩)
      · rw [hsym, State.toNat_word hframe, State.frameLen_congr hcfg]
      · obtain ⟨q, hq, hout, hreg⟩ := hps.mode (State.modes_congr hcfg ▸ hm)
        exact ⟨q, hout, hreg, fun hlt => hpower ▸ hearlier m q hlt hq⟩
    | @success pc ps htaps hps hpass =>
      refine .inl ⟨herr, hvalid, fun i r j hi hr hj => ?_, fun i hi => ?_⟩
      · obtain ⟨w, hw, hfin, hle⟩ := htaps i r j (State.modes_congr hcfg ▸ hi) (State.modes_congr hcfg ▸ hr)
          (State.numTaps_congr hcfg ▸ hj)
        exact ⟨w, hw, hfin, hlimit ▸ hle⟩
      · obtain ⟨p, hp, hout, hreg⟩ := hps.mode (State.modes_congr hcfg ▸ hi)
        exact ⟨p, pc, hout, hps.constPower, hreg, hpower ▸ hpass p (List.mem_of_getElem? hp)⟩

end Sys2Proof.Machine
end

section
/-! PROOFS. Numbers up to the sign of a zero (spec/00_scope.md R14 to R17): the operations on zeros and on 1.0 that a
bank at the identity performs are exact, whatever the signs of the zeros they meet. -/

namespace Sys2Proof.Machine

namespace F64

/-- A zero of either sign. -/
def IsZero (a : F64) : Prop := ∃ s, a = fin s 0

/-- The same number: the same value, or zeros of either sign. -/
def Same (a b : F64) : Prop := a = b ∨ (a.IsZero ∧ b.IsZero)

theorem isZero_zero : zero.IsZero := ⟨false, rfl⟩

theorem IsZero.isFinite {a : F64} (h : a.IsZero) : a.isFinite = true := by
  obtain ⟨s, rfl⟩ := h
  rfl

theorem IsZero.neg {a : F64} (h : a.IsZero) : a.neg.IsZero := by
  obtain ⟨s, rfl⟩ := h
  exact ⟨!s, rfl⟩

theorem Same.refl (a : F64) : a.Same a := .inl rfl

theorem Same.symm {a b : F64} (h : a.Same b) : b.Same a := h.imp Eq.symm And.symm

theorem Same.trans {a b c : F64} (h : a.Same b) (h' : b.Same c) : a.Same c := by
  rcases h with rfl | ⟨ha, hb⟩
  · exact h'
  · rcases h' with rfl | ⟨-, hc⟩
    · exact .inr ⟨ha, hb⟩
    · exact .inr ⟨ha, hc⟩

theorem Same.isFinite {a b : F64} (h : a.Same b) (hb : b.isFinite = true) : a.isFinite = true := by
  rcases h with rfl | ⟨ha, -⟩
  · exact hb
  · exact ha.isFinite

theorem Same.isZero {a b : F64} (h : a.Same b) (hb : b.IsZero) : a.IsZero := by
  rcases h with rfl | ⟨ha, -⟩
  · exact hb
  · exact ha

theorem signed_eq_iff {s t : Bool} {k l : Nat} : signed s k = signed t l ↔ k = l ∧ (s = t ∨ k = 0) := by
  cases s <;> cases t <;> simp <;> omega

/-- The comparison of R17 finds values equal when they are the same number. -/
theorem same_of_eqv {a b : F64} (h : a.eqv b = true) : a.Same b := by
  cases a <;> cases b <;> simp only [eqv, decide_eq_true_eq, Bool.false_eq_true, beq_iff_eq] at h
  case inf.inf => exact .inl (congrArg inf h)
  case fin.fin s k t l =>
    obtain ⟨rfl, rfl | rfl⟩ := signed_eq_iff.1 h
    · exact .inl rfl
    · exact .inr ⟨⟨s, rfl⟩, ⟨t, rfl⟩⟩

theorem Same.eqv {a b : F64} (h : a.Same b) (hb : b.isFinite = true) : a.eqv b = true := by
  rcases h with rfl | ⟨⟨s, rfl⟩, ⟨t, rfl⟩⟩
  · obtain ⟨s, k, rfl⟩ := isFinite_iff.1 hb
    exact decide_eq_true rfl
  · exact decide_eq_true (signed_eq_iff.2 ⟨rfl, .inr rfl⟩)

/-! ## Addition -/

theorem IsZero.add {a b : F64} (ha : a.IsZero) (hb : b.IsZero) : (a.add b).IsZero := by
  obtain ⟨s, rfl⟩ := ha
  obtain ⟨t, rfl⟩ := hb
  exact ⟨s && t, by cases s <;> cases t <;> rfl⟩

theorem zero_add_isZero {z : F64} (hz : z.IsZero) : zero.add z = zero := by
  obtain ⟨s, rfl⟩ := hz
  cases s <;> rfl

theorem add_comm (a b : F64) : a.add b = b.add a := by
  cases a <;> cases b
  case inf.inf s t => cases s <;> cases t <;> rfl
  case fin.fin s k t l =>
    have hzero : signed s k + signed t l = 0 → (s && t && (k == 0)) = (t && s && (l == 0)) := by
      cases s <;> cases t <;> simp
      omega
    simp only [add, Int.add_comm (signed t l)]
    split
    · next h => rw [hzero h]
    · rfl
  all_goals rfl

/-- Adding a zero to a number that is not one leaves its bits. -/
theorem add_isZero_of_ne {s : Bool} {k : Nat} {z : F64} (hv : (fin s k).Valid) (hk : k ≠ 0) (hz : z.IsZero) :
    (fin s k).add z = fin s k := by
  obtain ⟨t, rfl⟩ := hz
  obtain ⟨hrep, hlim⟩ := hv
  have hz : signed t 0 = 0 := by cases t <;> rfl
  have hs : signed s k ≠ 0 := by cases s <;> simpa
  have hneg : decide (signed s k < 0) = s := by cases s <;> simp [signed, Nat.pos_of_ne_zero hk]
  have habs : (signed s k).natAbs = k * 1 := by cases s <;> simp
  simp only [add, hz, Int.add_zero, if_neg hs, hneg, habs]
  exact round_exact s hrep hlim Nat.one_pos

theorem add_isZero {a z : F64} (hv : a.Valid) (hz : z.IsZero) : (a.add z).Same a := by
  cases a with
  | nan => exact .inl rfl
  | inf s => obtain ⟨t, rfl⟩ := hz; exact .inl rfl
  | fin s k =>
    rcases Nat.eq_zero_or_pos k with rfl | hk
    · exact .inr ⟨IsZero.add ⟨s, rfl⟩ hz, s, rfl⟩
    · exact .inl (add_isZero_of_ne hv hk.ne' hz)

theorem isZero_add {a z : F64} (hv : a.Valid) (hz : z.IsZero) : (z.add a).Same a := by
  rw [add_comm]
  exact add_isZero hv hz

/-! ## Subtraction -/

/-- The difference of one number in two signs of zero, or in one, is a zero. -/
theorem Same.sub_isZero {a b : F64} (h : a.Same b) (hb : b.isFinite = true) : (a.sub b).IsZero := by
  rcases h with rfl | ⟨ha, hz⟩
  · obtain ⟨s, k, rfl⟩ := isFinite_iff.1 hb
    have hsum : signed s k + signed (!s) k = 0 := by cases s <;> simp
    exact ⟨_, by simp only [sub, neg, add, hsum, if_pos]; rfl⟩
  · exact ha.add hz.neg

/-- Subtracting from the same number gives the same number. -/
theorem Same.sub_right {a b : F64} (h : a.Same b) (c : F64) : (a.sub c).Same (b.sub c) := by
  rcases h with rfl | ⟨⟨s, rfl⟩, ⟨t, rfl⟩⟩
  · exact .inl rfl
  · cases c with
    | nan => exact .inl rfl
    | inf u => exact .inl rfl
    | fin u k =>
      have hs : signed s 0 = signed t 0 := signed_eq_iff.2 ⟨rfl, .inr rfl⟩
      simp only [sub, neg, add, hs]
      split
      · exact .inr ⟨⟨_, rfl⟩, ⟨_, rfl⟩⟩
      · exact .inl rfl

/-! ## Multiplication -/

theorem round_zero (s : Bool) : round s 0 one = fin s 0 := by
  have h := round_exact s Representable.zero limit_pos one_pos
  rwa [Nat.zero_mul] at h

theorem IsZero.mul {z a : F64} (hz : z.IsZero) (ha : a.isFinite = true) : (z.mul a).IsZero := by
  obtain ⟨s, rfl⟩ := hz
  obtain ⟨t, k, rfl⟩ := isFinite_iff.1 ha
  exact ⟨s ^^ t, by simp only [F64.mul, Nat.zero_mul, round_zero]⟩

theorem mul_isZero {a z : F64} (ha : a.isFinite = true) (hz : z.IsZero) : (a.mul z).IsZero := by
  obtain ⟨s, rfl⟩ := hz
  obtain ⟨t, k, rfl⟩ := isFinite_iff.1 ha
  exact ⟨t ^^ s, by simp only [F64.mul, Nat.mul_zero, round_zero]⟩

theorem oneVal_mul {a : F64} (hv : a.Valid) : oneVal.mul a = a := by
  cases a with
  | nan => rfl
  | inf s => simp [oneVal, mul, one_pos.ne']
  | fin s k => simp only [oneVal, mul, Bool.false_xor, Nat.mul_comm one, round_exact s hv.1 hv.2 one_pos]

/-- A square does not see the sign of a zero. -/
theorem Same.mul_self {a b : F64} (h : a.Same b) : a.mul a = b.mul b := by
  rcases h with rfl | ⟨⟨s, rfl⟩, ⟨t, rfl⟩⟩
  · rfl
  · cases s <;> cases t <;> rfl

end F64

namespace Cplx

/-- Both parts are zeros of either sign. -/
def IsZero (a : Cplx) : Prop := a.re.IsZero ∧ a.im.IsZero

/-- The same number, part by part. -/
def Same (a b : Cplx) : Prop := a.re.Same b.re ∧ a.im.Same b.im

theorem isFinite_iff {a : Cplx} : a.isFinite = true ↔ a.re.isFinite = true ∧ a.im.isFinite = true :=
  Bool.and_eq_true_iff

theorem isZero_zero : zero.IsZero := ⟨F64.isZero_zero, F64.isZero_zero⟩

theorem Same.symm {a b : Cplx} (h : a.Same b) : b.Same a := ⟨h.1.symm, h.2.symm⟩

theorem Same.trans {a b c : Cplx} (h : a.Same b) (h' : b.Same c) : a.Same c := ⟨h.1.trans h'.1, h.2.trans h'.2⟩

theorem Same.isZero {a b : Cplx} (h : a.Same b) (hb : b.IsZero) : a.IsZero := ⟨h.1.isZero hb.1, h.2.isZero hb.2⟩

theorem Same.isFinite {a b : Cplx} (h : a.Same b) (hb : b.isFinite = true) : a.isFinite = true := by
  obtain ⟨hre, him⟩ := isFinite_iff.1 hb
  exact isFinite_iff.2 ⟨h.1.isFinite hre, h.2.isFinite him⟩

theorem same_of_eqv {a b : Cplx} (h : a.eqv b = true) : a.Same b := by
  obtain ⟨hre, him⟩ := Bool.and_eq_true_iff.1 h
  exact ⟨F64.same_of_eqv hre, F64.same_of_eqv him⟩

theorem Same.eqv {a b : Cplx} (h : a.Same b) (hb : b.isFinite = true) : a.eqv b = true := by
  obtain ⟨hre, him⟩ := isFinite_iff.1 hb
  exact Bool.and_eq_true_iff.2 ⟨h.1.eqv hre, h.2.eqv him⟩

theorem Same.sub_isZero {a b : Cplx} (h : a.Same b) (hb : b.isFinite = true) : (a.sub b).IsZero := by
  obtain ⟨hre, him⟩ := isFinite_iff.1 hb
  exact ⟨h.1.sub_isZero hre, h.2.sub_isZero him⟩

/-- Distances from the same number are equal. -/
theorem Same.abs2_sub {a b : Cplx} (h : a.Same b) (c : Cplx) : (a.sub c).abs2 = (b.sub c).abs2 := by
  simp only [abs2, sub, (h.1.sub_right c.re).mul_self, (h.2.sub_right c.im).mul_self]

theorem Same.abs2 {a b : Cplx} (h : a.Same b) : a.abs2 = b.abs2 := by
  rw [Cplx.abs2, Cplx.abs2, h.1.mul_self, h.2.mul_self]

theorem add_isZero {a z : Cplx} (hv : a.Valid) (hz : z.IsZero) : (a.add z).Same a :=
  ⟨F64.add_isZero hv.1 hz.1, F64.add_isZero hv.2 hz.2⟩

theorem isZero_add {a z : Cplx} (hv : a.Valid) (hz : z.IsZero) : (z.add a).Same a :=
  ⟨F64.isZero_add hv.1 hz.1, F64.isZero_add hv.2 hz.2⟩

theorem isFinite_conj {a : Cplx} (h : a.isFinite = true) : a.conj.isFinite = true := by
  obtain ⟨hre, him⟩ := isFinite_iff.1 h
  exact isFinite_iff.2 ⟨hre, (F64.isFinite_neg a.im).trans him⟩

theorem IsZero.mul {z a : Cplx} (hz : z.IsZero) (ha : a.isFinite = true) : (z.mul a).IsZero := by
  obtain ⟨hre, him⟩ := isFinite_iff.1 ha
  exact ⟨(hz.1.mul hre).add (hz.2.mul him).neg, (hz.1.mul him).add (hz.2.mul hre)⟩

theorem IsZero.scale {z : Cplx} (hz : z.IsZero) {m : F64} (hm : m.isFinite = true) : (scale m z).IsZero :=
  ⟨F64.mul_isZero hm hz.1, F64.mul_isZero hm hz.2⟩

/-- ONE times a finite number is the number (R15). -/
theorem one_mul_same {a : Cplx} (hv : a.Valid) (ha : a.isFinite = true) : (one.mul a).Same a := by
  obtain ⟨hre, him⟩ := isFinite_iff.1 ha
  simp only [mul, one, F64.oneVal_mul hv.1, F64.oneVal_mul hv.2]
  exact ⟨F64.add_isZero hv.1 (F64.isZero_zero.mul him).neg, F64.add_isZero hv.2 (F64.isZero_zero.mul hre)⟩

/-- A tap of the identity keeps its bits when a zero is added. -/
theorem zero_add_isZero {z : Cplx} (hz : z.IsZero) : zero.add z = zero :=
  congrArg₂ mk (F64.zero_add_isZero hz.1) (F64.zero_add_isZero hz.2)

theorem one_add_isZero {z : Cplx} (hz : z.IsZero) : one.add z = one :=
  congrArg₂ mk (F64.add_isZero_of_ne F64.valid_oneVal F64.one_pos.ne' hz.1) (F64.zero_add_isZero hz.2)

/-! ## Sums -/

theorem foldl_add_isZero {zs : List Cplx} (h : ∀ z ∈ zs, IsZero z) {a : Cplx} (ha : a.Valid) :
    (zs.foldl add a).Same a := by
  induction zs generalizing a with
  | nil => exact ⟨.inl rfl, .inl rfl⟩
  | cons z zs ih =>
    rw [List.forall_mem_cons] at h
    exact (ih h.2 add_valid).trans (add_isZero ha h.1)

/-- A sum whose terms but one are zeros is that term. -/
theorem cplxSum_single {l₁ l₂ : List Cplx} {a : Cplx} (h₁ : ∀ z ∈ l₁, IsZero z) (h₂ : ∀ z ∈ l₂, IsZero z)
    (ha : a.Valid) : (cplxSum (l₁ ++ a :: l₂)).Same a := by
  rw [cplxSum, List.foldl_append, List.foldl_cons]
  have hbefore := (foldl_add_isZero h₁ valid_zero).isZero isZero_zero
  exact (foldl_add_isZero h₂ add_valid).trans (isZero_add ha hbefore)

end Cplx
end Sys2Proof.Machine
end

section
/-! PROOFS. EQUALIZE on a noiseless frame (spec/42_equalizer.md R226): an identity bank gives back each sample as a
number, so every error is a zero, no update moves a tap, and the powers are those received. -/

namespace Sys2Proof.Machine

/-! ## Folds and maps that go through -/

/-- A monadic fold goes through when every step goes on and keeps `P`. -/
theorem foldlM_goes_on {α β : Type} (P : β → Prop) {f : β → α → Eng β} {l : List α}
    (h : ∀ b, ∀ a ∈ l, P b → ∃ b', f b a = .ok b' ∧ P b') {b : β} (hb : P b) : ∃ r, l.foldlM f b = .ok r ∧ P r := by
  induction l generalizing b with
  | nil => exact ⟨b, rfl, hb⟩
  | cons a l ih =>
    obtain ⟨b', hf, hb'⟩ := h b a List.mem_cons_self hb
    obtain ⟨r, hr, hP⟩ := ih (fun b c hc => h b c (List.mem_cons_of_mem a hc)) hb'
    exact ⟨r, by rw [List.foldlM_cons, hf]; exact hr, hP⟩

theorem exists_mapM {α β : Type} {f : α → Eng β} {l : List α} (h : ∀ a ∈ l, ∃ b, f a = .ok b) :
    ∃ r, l.mapM f = .ok r := by
  induction l with
  | nil => exact ⟨[], rfl⟩
  | cons a l ih =>
    obtain ⟨b, hb⟩ := h a List.mem_cons_self
    obtain ⟨r, hr⟩ := ih fun c hc => h c (List.mem_cons_of_mem a hc)
    exact ⟨b :: r, by rw [List.mapM_cons, hb, ok_bind, hr]; rfl⟩

theorem nodup_pairs (m n : Nat) : (pairs m n).Nodup := List.nodup_range.product List.nodup_range

namespace State

variable {s t u : State} {d : Nat}

/-! ## The frame -/

/-- What validation has established of the frame at offset `d` (R137, checks 4, 6 to 8, 11 to 13, 19 and 26). -/
structure FrameBounds (s : State) (d : Nat) : Prop extends BankBounds s where
  taps : 1 ≤ s.numTaps
  frameLen : s.frameLen ≤ Config.lMax
  constSize : s.constSize ≤ Config.qMax
  block : s.pilotPos + s.pilotLen ≤ s.frameLen
  steps : ∀ i, i < s.modes → (s.mu i).isFinite = true
  inBuffer : ∀ k, k < s.frameLen → d + s.os * k < s.sampleLen

theorem sampleAt_valid {r : Nat} {n : Int} {x : Cplx} (h : s.sampleAt r n = .ok x) : x.Valid := by
  unfold sampleAt at h
  split at h
  · exact readCplx_valid h
  · cases h; exact Cplx.valid_zero

theorem Noiseless.sampleAt (h : s.Noiseless d) {r : Nat} (hr : r < s.modes) (n : Int) :
    ∃ x, s.sampleAt r n = .ok x ∧ x.isFinite = true := by
  unfold State.sampleAt
  split
  · next hn => exact h.samples r n.toNat hr (by omega)
  · exact ⟨_, rfl, rfl⟩

/-- A frame symbol's sample is in the buffer (R20, R162). -/
theorem FrameBounds.sampleAt_symbol (hb : s.FrameBounds d) {k : Nat} (hk : k < s.frameLen) (i : Nat) :
    s.sampleAt i (d + s.os * k : Nat) = s.symbolValue d i k := by
  have := hb.inBuffer k hk
  rw [sampleAt, if_pos (by omega), Int.toNat_natCast]
  rfl

/-- The decision does not see the sign of a zero (R206). -/
theorem decideIndex_same {x y : Cplx} (h : y.Same x) : s.decideIndex y = s.decideIndex x := by
  have hdist : s.distanceTo y = s.distanceTo x := by
    funext p
    simp only [distanceTo, h.abs2_sub]
  have hstep : s.decideStep y = s.decideStep x := by
    funext best q
    rw [decideStep, decideStep, hdist]
  rw [decideIndex_eq, decideIndex_eq, hdist, hstep]

/-- On a noiseless frame the target of a symbol is its sample as a number (R208, R226). -/
theorem Noiseless.target (h : s.Noiseless d) {i k : Nat} (hi : i < s.modes) (hk : k < s.frameLen) {x y : Cplx}
    (hx : s.symbolValue d i k = .ok x) (hy : y.Same x) : ∃ z, s.target k i y = .ok z ∧ z.Same x := by
  by_cases hblock : s.pilotPos ≤ k ∧ k < s.pilotPos + s.pilotLen
  · obtain ⟨p, x', hp, hx', hpx⟩ := h.pilots i (k - s.pilotPos) hi (by omega)
    rw [Nat.add_sub_cancel' hblock.1, hx] at hx'
    cases hx'
    exact ⟨p, (target_pilot hblock).trans hp, Cplx.same_of_eqv hpx⟩
  · obtain ⟨q, p, x', hx', hq, hp, hpx⟩ := h.payload i k hi hk (by omega)
    rw [hx] at hx'
    cases hx'
    exact ⟨p, (target_payload hblock).2 ⟨q, (decideIndex_same hy).trans hq, hp⟩, Cplx.same_of_eqv hpx⟩

/-! ## An identity bank -/

theorem identityTap_valid (s : State) (i r j : Nat) : (s.identityTap i r j).Valid := by
  unfold identityTap
  split
  exacts [Cplx.valid_one, Cplx.valid_zero]

/-- The filter of an identity bank gives back the sample under its centre tap (R202, R205). -/
theorem firOutput_identity (hid : s.tapsIdentity) (htaps : 1 ≤ s.numTaps) {n : Int}
    (hsample : ∀ r j, r < s.modes → ∃ x, s.sampleAt r j = .ok x ∧ x.isFinite = true) {i : Nat} (hi : i < s.modes)
    {x : Cplx} (hx : s.sampleAt i n = .ok x) : ∃ y, s.firOutput n i = .ok y ∧ y.Same x := by
  choose! v hv hfin using hsample
  have hcentre : s.centre < s.numTaps := by rw [centre]; omega
  have hsum := firOutput_ok (s := s) (n := n) (t := i) (w := s.identityTap i) (x := fun r j => v r (n + j - s.centre))
    fun r j hr hj => ⟨hid i r j hi hr hj, hv r _ hr⟩
  refine ⟨_, hsum, ?_⟩
  obtain rfl : v i n = x := Except.ok.inj ((hv i n hi).symm.trans hx)
  -- the sum has one term under the tap ONE; the taps elsewhere are ZERO
  obtain ⟨l₁, l₂, hl⟩ := List.append_of_mem (mem_pairs.2 ⟨hi, hcentre⟩ : (i, s.centre) ∈ pairs s.modes s.numTaps)
  have hnd := nodup_pairs s.modes s.numTaps
  rw [hl, List.nodup_middle, List.nodup_cons, List.mem_append, not_or] at hnd
  have hzero : ∀ p ∈ pairs s.modes s.numTaps, p ≠ (i, s.centre) →
      Cplx.IsZero ((s.identityTap i p.1 p.2).mul (v p.1 (n + p.2 - s.centre))) := by
    intro p hp hne
    have : ¬ (i = p.1 ∧ p.2 = (s.numTaps - 1) / 2) := fun h => hne (Prod.ext h.1.symm h.2)
    rw [identityTap, if_neg this]
    exact Cplx.isZero_zero.mul (hfin _ _ (mem_pairs.1 hp).1)
  rw [← pairs_map, hl, List.map_append, List.map_cons]
  refine (Cplx.cplxSum_single ?_ ?_ Cplx.mul_valid).trans ?_
  · rw [List.forall_mem_map]
    exact fun p hp => hzero p (hl ▸ List.mem_append_left _ hp) fun he => hnd.1.1 (he ▸ hp)
  · rw [List.forall_mem_map]
    exact fun p hp => hzero p (hl ▸ List.mem_append_right _ (List.mem_cons_of_mem _ hp)) fun he => hnd.1.2 (he ▸ hp)
  · dsimp only
    rw [identityTap, if_pos ⟨rfl, rfl⟩, add_sub_cancel_right]
    exact Cplx.one_mul_same (sampleAt_valid hx) (hfin i n hi)

/-! ## The tap test on an identity bank (R209) -/

theorem tapTest_of_passes {k : Nat}
    (h : ∀ i r j, i < s.modes → r < s.modes → j < s.numTaps → s.tapPasses i r j) : s.tapTest k = .ok none := by
  have hover : ∀ ps : List (Nat × Nat × Nat), (∀ p ∈ ps, s.tapPasses p.1 p.2.1 p.2.2) →
      s.tapTestOver k ps = .ok none := by
    intro ps hps
    induction ps with
    | nil => rfl
    | cons p ps ih =>
      obtain ⟨⟨w, hw, hfin, hle⟩, hps⟩ := List.forall_mem_cons.1 hps
      simp only [tapTestOver, hw, ok_bind, hfin, hle, ih hps]
      rfl
  exact hover _ fun p hp => h _ _ _ (mem_triples.1 hp).1 (mem_triples.1 hp).2.1 (mem_triples.1 hp).2.2

/-- A tap limit that 1.0 does not exceed passes both values of an identity bank. -/
theorem identityTap_passes (hlimit : F64.oneVal.gt s.tapLimit = false) (i r j : Nat) :
    (s.identityTap i r j).isFinite = true ∧ (s.identityTap i r j).abs2.gt s.tapLimit = false := by
  have hzero : (Cplx.zero.abs2).IsZero := (F64.isZero_zero.mul rfl).add (F64.isZero_zero.mul rfl)
  unfold identityTap
  split
  · refine ⟨rfl, ?_⟩
    have hone : Cplx.one.abs2 = F64.oneVal := by
      rw [Cplx.abs2, Cplx.one, F64.oneVal_mul F64.valid_oneVal]
      exact F64.add_isZero_of_ne F64.valid_oneVal F64.one_pos.ne' (F64.isZero_zero.mul rfl)
    rwa [hone]
  · refine ⟨rfl, Bool.eq_false_iff.2 fun hlt => Bool.eq_false_iff.1 hlimit (F64.lt_trans hlt ?_)⟩
    obtain ⟨b, hb⟩ := hzero
    rw [hb]
    have := F64.one_pos
    cases b <;> simpa [F64.lt, F64.oneVal] using this

/-! ## The pass over the symbols -/

/-- What the pass keeps on the frame at offset `d`: only the memory differs from `s`, what the host supplied is there,
the bank is the identity, and OUT holds the samples of the symbols in `ks` as numbers. -/
structure Recovering (s : State) (d : Nat) (ks : List Nat) (u : State) : Prop where
  onlyMem : u = { s with mem := u.mem }
  inputs : Agree HostInput s u
  taps : u.tapsIdentity
  outs : ∀ i k, i < s.modes → k ∈ ks → k < s.frameLen →
    ∃ x y, s.symbolValue d i k = .ok x ∧ u.outSym i k = .ok y ∧ y.Same x

variable {ks : List Nat}

theorem identityTap_congr (h : t.cfg = s.cfg) : t.identityTap = s.identityTap := by
  funext i r j
  rw [identityTap, identityTap, numTaps_congr h]

/-- Storing the identity's own tap changes nothing that the pass keeps. -/
theorem Recovering.putTap (h : Recovering s d ks u) (hb : s.FrameBounds d) {i r j : Nat} (hi : i < s.modes)
    (hr : r < s.modes) (hj : j < s.numTaps) : Recovering s d ks (u.putCplx (.tap i r j) (s.identityTap i r j)) := by
  have hm := hb.modes
  have hn := hb.numTaps
  have hl := hb.frameLen
  have hcfg := h.inputs.cfg
  refine ⟨tapClosed_onlyMem _ _ s u i r j _ hi hr hj (identityTap_valid s i r j) h.onlyMem,
    tapClosed_hostInput hm hn s u i r j _ hi hr hj (identityTap_valid s i r j) h.inputs, fun i' r' j' hi' hr' hj' => ?_,
    fun i' k hi' hks hk => ?_⟩
  · have hid : State.identityTap (u.putCplx (.tap i r j) (s.identityTap i r j)) = s.identityTap :=
      identityTap_congr (by simpa using hcfg)
    rw [hid]
    have hmodes : State.modes (u.putCplx (.tap i r j) (s.identityTap i r j)) = s.modes :=
      modes_congr (by simpa using hcfg)
    have hnum : State.numTaps (u.putCplx (.tap i r j) (s.identityTap i r j)) = s.numTaps :=
      numTaps_congr (by simpa using hcfg)
    rw [hmodes] at hi' hr'
    rw [hnum] at hj'
    by_cases he : (i', r', j') = (i, r, j)
    · cases he
      exact readCplx_putCplx_same _ u (identityTap_valid s i r j)
    · have hbank : ∀ a b c, a < s.modes → b < s.modes → c < s.numTaps → (a, b, c) ∈ triples Config.mMax Config.nMax :=
        fun a b c ha hb' hc => triples_subset hm hn (mem_triples.2 ⟨ha, hb', hc⟩)
      refine (readCplx_putCplx_tap_ne (hbank i r j hi hr hj) (hbank i' r' j' hi' hr' hj') he u _).trans ?_
      have := h.taps i' r' j' (modes_congr hcfg ▸ hi') (modes_congr hcfg ▸ hr') (numTaps_congr hcfg ▸ hj')
      rwa [identityTap_congr hcfg] at this
  · obtain ⟨x, y, hx, hy, hxy⟩ := h.outs i' k hi' hks hk
    refine ⟨x, y, hx, (readCplx_putCplx_other _ u ?_).trans hy, hxy⟩
    simp only [Entry.offset, Config.mMax, Config.nMax, Config.lMax] at *
    omega

theorem Recovering.sampleAt (h : Recovering s d ks u) (hb : s.FrameBounds d) {r : Nat} (hr : r < s.modes) (n : Int) :
    u.sampleAt r n = s.sampleAt r n := by
  have hm := hb.modes
  have hs := hb.sampleLen
  unfold State.sampleAt
  rw [sampleLen_congr h.inputs.cfg]
  split
  · next hn => exact h.inputs.hostSample (by omega) (by omega)
  · rfl

/-- With every error a zero, the update stores the identity again (R203, R226). -/
theorem Recovering.adapt (h : Recovering s d ks u) (hb : s.FrameBounds d) (hn : s.Noiseless d) {n : Int}
    {es : List Cplx} (hes : ∀ i, (es.getD i Cplx.zero).IsZero) :
    ∃ v, u.adapt n es = .ok v ∧ Recovering s d ks v := by
  refine foldlM_goes_on (Recovering s d ks) (fun x p hp hx => ?_) h
  obtain ⟨i, r, j⟩ := p
  obtain ⟨hi, hr, hj⟩ := mem_triples.1 hp
  dsimp only at hi hr hj ⊢
  rw [modes_congr h.inputs.cfg] at hi hr
  rw [numTaps_congr h.inputs.cfg] at hj
  have hcfg := hx.inputs.cfg
  have htap : x.tap i r j = .ok (s.identityTap i r j) := by
    rw [hx.taps i r j (modes_congr hcfg ▸ hi) (modes_congr hcfg ▸ hr) (numTaps_congr hcfg ▸ hj), identityTap_congr hcfg]
  obtain ⟨v, hv, hfin⟩ := hn.sampleAt hr (n + j - u.centre)
  have hmu : u.mu i = s.mu i := by rw [mu, mu, h.inputs.cfg]
  have hstep : (s.identityTap i r j).add (Cplx.scale (s.mu i) ((es.getD i Cplx.zero).mul v.conj)) =
      s.identityTap i r j := by
    have hzero := ((hes i).mul (Cplx.isFinite_conj hfin)).scale (hb.steps i hi)
    unfold identityTap
    split
    exacts [Cplx.one_add_isZero hzero, Cplx.zero_add_isZero hzero]
  refine ⟨_, ?_, hx.putTap hb hi hr hj⟩
  rw [htap, ok_bind, hx.sampleAt hb hr, hv, ok_bind, hmu, hstep]
  rfl

theorem Recovering.learn (h : Recovering s d ks u) (hb : s.FrameBounds d) (hn : s.Noiseless d) {n : Int} {k : Nat}
    {ys targets : List Cplx} (hes : ∀ i, ((List.zipWith Cplx.sub targets ys).getD i Cplx.zero).IsZero) :
    ∃ v, u.learn n k ys targets = .ok (v, none) ∧ Recovering s d ks v := by
  obtain ⟨v, hv, hrec⟩ := h.adapt hb hn (n := n) hes
  have hcfg := hrec.inputs.cfg
  have hlimit : v.tapLimit = s.tapLimit := congrArg (fun c : ConfigRegs => F64.ofBits c.tapLimit) hcfg
  have htest : v.tapTest k = .ok none := tapTest_of_passes fun i r j hi hr hj =>
    ⟨_, hrec.taps i r j hi hr hj, identityTap_passes (hlimit ▸ hn.tapLimit) i r j⟩
  exact ⟨v, by rw [State.learn, hv, ok_bind, htest]; rfl, hrec⟩

theorem readCplx_writeOutputs_other {k : Nat} {ys : List Cplx} (hv : ∀ y ∈ ys, y.Valid) (s : State) {f : Entry}
    (hf : ∀ i, i < ys.length → (Entry.out i k).offset + 16 ≤ f.offset ∨ f.offset + 16 ≤ (Entry.out i k).offset) :
    (s.writeOutputs k ys).readCplx f = s.readCplx f := by
  refine writeOutputs_keeps (P := fun x => x.readCplx f = s.readCplx f) (ks := [k]) (fun x i j z hi hj _ hx => ?_)
    List.mem_cons_self hv rfl
  obtain rfl := List.mem_singleton.1 hj
  exact (readCplx_putCplx_other z x (hf i hi)).trans hx

/-- Storing a symbol's outputs adds it to the symbols recovered. -/
theorem Recovering.writeOutputs (h : Recovering s d ks u) (hb : s.FrameBounds d) {k : Nat} (hk : k < s.frameLen)
    {ys : List Cplx} (hlen : ys.length = s.modes) (hv : ∀ y ∈ ys, y.Valid)
    (hys : ∀ i, i < s.modes → ∃ x, s.symbolValue d i k = .ok x ∧ (ys.getD i Cplx.zero).Same x) :
    Recovering s d (k :: ks) (u.writeOutputs k ys) := by
  have hm := hb.modes
  have hn := hb.numTaps
  have hl := hb.frameLen
  have hcfg := writeOutputs_cfg k ys u
  refine ⟨(writeOutputs_onlyMem hv u).trans (congrArg
      (fun y : State => { y with mem := (u.writeOutputs k ys).mem }) h.onlyMem),
    h.inputs.trans (writeOutputs_hostInput hv (hlen ▸ hm) (by omega) u), fun i r j hi hr hj => ?_,
    fun i k' hi hks hk' => ?_⟩
  · rw [modes_congr hcfg] at hi hr
    rw [numTaps_congr hcfg] at hj
    rw [identityTap_congr hcfg, ← h.taps i r j hi hr hj]
    refine readCplx_writeOutputs_other hv u fun i' hi' => ?_
    simp only [Entry.offset, Config.mMax, Config.nMax, Config.lMax] at *
    omega
  · by_cases he : k' = k
    · subst he
      obtain ⟨x, hx, hxy⟩ := hys i hi
      have hi' : i < ys.length := hlen.symm ▸ hi
      rw [List.getD_eq_getElem _ _ hi'] at hxy
      exact ⟨x, ys[i], hx, outSym_writeOutputs hv u (List.getElem?_eq_getElem hi'), hxy⟩
    · obtain ⟨x, y, hx, hy, hxy⟩ := h.outs i k' hi ((List.mem_cons.1 hks).resolve_left he) hk'
      refine ⟨x, y, hx, (readCplx_writeOutputs_other hv u fun i' hi' => ?_).trans hy, hxy⟩
      simp only [Entry.offset, Config.mMax, Config.lMax] at *
      omega

/-- A symbol whose test passes leads to the next. -/
theorem equalizeLoop_of_learn {k : Nat} {rest : List Nat} {ys targets : List Cplx}
    (hys : s.outputs (d + s.os * k : Nat) = .ok ys)
    (htargets : (ys.zipIdx.mapM fun p => (s.writeOutputs k ys).target k p.2 p.1) = .ok targets)
    (hlearn : (s.writeOutputs k ys).learn (d + s.os * k : Nat) k ys targets = .ok (u, none)) :
    s.equalizeLoop d (k :: rest) = u.equalizeLoop d rest := by
  rw [equalizeLoop]
  dsimp only [symbolSample]
  rw [hys, ok_bind]
  refine (congrArg (· >>= _) htargets).trans ?_
  rw [ok_bind, hlearn]
  rfl

/-- One symbol of a noiseless frame: its outputs and its targets are its samples as numbers, so the bank stays. -/
theorem Recovering.symbol (h : Recovering s d ks u) (hb : s.FrameBounds d) (hn : s.Noiseless d) {k : Nat}
    (hk : k < s.frameLen) (rest : List Nat) :
    ∃ v, u.equalizeLoop d (k :: rest) = v.equalizeLoop d rest ∧ Recovering s d (k :: ks) v := by
  have hcfg := h.inputs.cfg
  have hmodes := modes_congr hcfg
  have hos : u.os = s.os := congrArg (fun c : ConfigRegs => c.os.toNat) hcfg
  have hout : ∀ i, i < s.modes → ∃ x y, s.symbolValue d i k = .ok x ∧ x.isFinite = true ∧
      u.firOutput (d + u.os * k : Nat) i = .ok y ∧ y.Same x := by
    intro i hi
    obtain ⟨x, hx, hfin⟩ := hn.sampleAt hi (d + s.os * k : Nat)
    obtain ⟨y, hy, hxy⟩ := firOutput_identity h.taps (numTaps_congr hcfg ▸ hb.taps) (n := (d + u.os * k : Nat))
      (fun r j hr => by rw [h.sampleAt hb (hmodes ▸ hr)]; exact hn.sampleAt (hmodes ▸ hr) j) (hmodes.symm ▸ hi)
      (by rw [h.sampleAt hb hi, hos]; exact hx)
    exact ⟨x, y, (hb.sampleAt_symbol hk i).symm.trans hx, hfin, hy, hxy⟩
  choose! x y hx hfin hy hxy using hout
  obtain ⟨ys, hys⟩ : ∃ ys, u.outputs (d + u.os * k : Nat) = .ok ys :=
    exists_mapM fun i hi => ⟨_, hy i (hmodes ▸ List.mem_range.1 hi)⟩
  obtain ⟨hlen, hget⟩ := mapM_range hys
  have hsame : ∀ i, i < s.modes → (ys.getD i Cplx.zero).Same (x i) := by
    intro i hi
    have := hget i (hmodes.symm ▸ hi) Cplx.zero
    rw [hy i hi] at this
    exact Except.ok.inj this ▸ hxy i hi
  have hw := h.writeOutputs hb hk (hlen.trans hmodes) (fun z hz => outputs_valid hys hz)
    fun i hi => ⟨x i, hx i hi, hsame i hi⟩
  have htarget : ∀ i, i < s.modes → ∃ z, (u.writeOutputs k ys).target k i (ys.getD i Cplx.zero) = .ok z ∧
      z.Same (x i) := by
    intro i hi
    rw [hw.inputs.hostTarget hb.modes hb.pilotLen hb.constSize hi]
    exact hn.target hi hk (hx i hi) (hsame i hi)
  obtain ⟨targets, htargets⟩ : ∃ targets,
      (ys.zipIdx.mapM fun p => (u.writeOutputs k ys).target k p.2 p.1) = .ok targets := by
    refine exists_mapM fun p hp => ?_
    obtain ⟨z, i⟩ := p
    obtain ⟨-, hi, hz⟩ := List.mem_zipIdx hp
    obtain ⟨w, hw, -⟩ := htarget i (by omega)
    rw [List.getD_eq_getElem _ _ (by omega)] at hw
    exact ⟨w, by rw [hz]; exact hw⟩
  obtain ⟨htlen, htget⟩ := mapM_zipIdx htargets
  have hes : ∀ i, ((List.zipWith Cplx.sub targets ys).getD i Cplx.zero).IsZero := by
    intro i
    by_cases hi : i < s.modes
    · have hy' : i < ys.length := by omega
      rw [getD_zipWith_sub hy' (by omega)]
      obtain ⟨z, hz, hzx⟩ := htarget i hi
      have hti := htget i hy' Cplx.zero
      rw [List.getD_eq_getElem _ _ hy'] at hz
      rw [hz] at hti
      exact Except.ok.inj hti ▸ (hzx.trans (hsame i hi).symm).sub_isZero ((hsame i hi).isFinite (hfin i hi))
    · rw [List.getD_eq_default _ _ (by rw [List.length_zipWith]; omega)]
      exact Cplx.isZero_zero
  obtain ⟨v, hv, hrec⟩ := hw.learn hb hn (n := (d + u.os * k : Nat)) (k := k) hes
  exact ⟨v, equalizeLoop_of_learn hys htargets hv, hrec⟩

theorem Recovering.loop (h : Recovering s d ks u) (hb : s.FrameBounds d) (hn : s.Noiseless d) {l : List Nat}
    (hl : ∀ k ∈ l, k < s.frameLen) :
    ∃ v, u.equalizeLoop d l = .ok (v, none) ∧ Recovering s d (l.reverse ++ ks) v := by
  induction l generalizing u ks with
  | nil => exact ⟨u, rfl, h⟩
  | cons k l ih =>
    obtain ⟨hk, hl⟩ := List.forall_mem_cons.1 hl
    obtain ⟨w, hw, hrec⟩ := h.symbol hb hn hk l
    obtain ⟨v, hv, hrec⟩ := ih hrec hl
    refine ⟨v, hw.trans hv, ?_⟩
    rwa [List.reverse_cons, List.append_assoc]

/-! ## The rule -/

theorem powerTestOver_of_pass {pc : F64} {ps : List F64} (h : ∀ p ∈ ps, s.powerFailure pc p = none) (n : Nat) :
    s.powerTestOver pc (ps.zipIdx n) = none := by
  induction ps generalizing n with
  | nil => rfl
  | cons p ps ih =>
    obtain ⟨hp, hps⟩ := List.forall_mem_cons.1 h
    rw [List.zipIdx_cons, powerTestOver, hp]
    exact ih hps (n + 1)

/-- The power of the outputs is the power received (R210). -/
theorem Recovering.outputPower (h : Recovering s d ks u) (hks : ∀ k, k < s.frameLen → k ∈ ks) {i : Nat}
    (hi : i < s.modes) : u.outputPower i = s.receivedPower d i := by
  unfold State.outputPower receivedPower
  rw [frameLen_congr h.inputs.cfg]
  refine congrArg (· >>= _) (sumReal_congr fun k hk => ?_)
  rw [List.mem_range] at hk
  obtain ⟨x, y, hx, hy, hxy⟩ := h.outs i k hi (hks k hk) hk
  rw [hx, hy, ok_bind, ok_bind, hxy.abs2]

/-- EQUALIZE's rule on a noiseless frame. -/
theorem equalizeBody_noiseless {seed : Bool} (hb : s.FrameBounds s.frameOffset) (hn : s.Noiseless s.frameOffset)
    (hm : 1 ≤ s.modes) (hid : seed = true → s.tapsIdentity) :
    ∃ u ps, s.equalizeBody seed = .ok ((u.putOutPowers ps).setEqValid true, none) ∧ ∃ ks,
      Recovering s s.frameOffset ks u ∧ ∀ k, k < s.frameLen → k ∈ ks := by
  have hstart : Recovering s s.frameOffset [] (if seed = true then s else s.writeIdentity) := by
    split
    · next hs => exact ⟨rfl, Agree.refl _ s, hid hs, fun _ _ _ hk => absurd hk List.not_mem_nil⟩
    · exact ⟨writeIdentity_onlyMem s, writeIdentity_keeps (tapClosed_hostInput hb.modes hb.numTaps s) (Agree.refl _ s),
        tapsIdentity_writeIdentity hb.modes hb.numTaps, fun _ _ _ hk => absurd hk List.not_mem_nil⟩
  obtain ⟨u, hu, hrec⟩ := hstart.loop hb hn fun k hk => lt_frameLen_of_mem_symbolOrder hb.block hk
  rw [List.append_nil] at hrec
  have hall : ∀ k, k < s.frameLen → k ∈ s.symbolOrder.reverse := fun k hk =>
    List.mem_reverse.2 ((symbolOrderVisitsEachSymbolOnce s hb.block).1.mem_iff.2 (List.mem_range.2 hk))
  have hcfg := hrec.inputs.cfg
  have hpower : ∀ i, i < s.modes → ∃ p pc, u.outputPower i = .ok p ∧ s.constPower = .ok pc ∧
      s.powerFailure pc p = none := by
    intro i hi
    obtain ⟨p, pc, hp, hpc, hpass⟩ := hn.power i hi
    exact ⟨p, pc, (hrec.outputPower hall hi).trans hp, hpc, hpass⟩
  obtain ⟨-, pc, -, hpc, -⟩ := hpower 0 hm
  obtain ⟨ps, hps⟩ : ∃ ps, (List.range u.modes).mapM u.outputPower = .ok ps := by
    refine exists_mapM fun i hi => ?_
    obtain ⟨p, -, hp, -⟩ := hpower i (modes_congr hcfg ▸ List.mem_range.1 hi)
    exact ⟨p, hp⟩
  have hpowers : u.Powers pc ps := ⟨(hrec.inputs.hostConstPower hb.constSize).trans hpc, hps⟩
  have hpass : ∀ p ∈ ps, (u.putOutPowers ps).powerFailure pc p = none := by
    intro p hp
    obtain ⟨i, hi, hout⟩ := mem_mapM hps hp
    obtain ⟨p', pc', hp', hpc', hpass⟩ := hpower i (modes_congr hcfg ▸ List.mem_range.1 hi)
    rw [hout] at hp'
    rw [hpc] at hpc'
    cases hp'
    cases hpc'
    rwa [powerFailure_congr ((putOutPowers_cfg ps u).trans hcfg)]
  refine ⟨u, ps, ?_, _, hrec, hall⟩
  rw [equalizeBody]
  dsimp only
  rw [hu, ok_bind]
  dsimp only
  rw [powerTest_of_powers hpowers, powerTestOver_of_pass hpass 0]
  rfl

theorem frameBounds_of_passes {seed : Bool} (h : s.passes (.equalize seed)) :
    s.FrameBounds s.frameOffset ∧ 1 ≤ s.modes := by
  have hc : ∀ c ∈ equalizeChecks, s.checkFails c = .ok false := h
  have hmodes := hc .modesRange (by decide)
  have hlong := hc .frameTooLong (by decide)
  have hpilot := hc .pilotTooLong (by decide)
  have hmu := hc .muInvalid (by decide)
  have hsize := hc .constSizeRange (by decide)
  have hbuffer := hc .frameOutOfBuffer (by decide)
  have htaps := hc .tapsInvalid (by decide)
  simp only [checkFails, Except.ok.injEq, Bool.or_eq_false_iff, decide_eq_false_iff_not, not_lt, List.any_eq_false,
    List.mem_range, Bool.not_eq_true', Bool.not_eq_false, Bool.and_eq_true] at hmodes hlong hpilot hmu hsize hbuffer
  refine ⟨⟨⟨⟨modes_le_of_checked (hc _ (by decide)), hpilot, sampleLen_le_of_checked (hc _ (by decide))⟩,
    numTaps_le_of_checked htaps⟩, numTaps_pos_of_checked htaps, hlong, hsize.2,
    pilotBlock_le_of_checked (hc _ (by decide)), fun i hi => (hmu i hi).1, fun k hk => ?_⟩, by omega⟩
  have hstep : s.os * k ≤ s.os * (s.frameLen - 1) := Nat.mul_le_mul_left _ (by omega)
  zify [show 1 ≤ s.frameLen by omega] at hstep ⊢
  omega

/-- EQUALIZE on a noiseless frame completes with code 0, and changes no configuration register. -/
theorem exec_equalize_noiseless {seed : Bool} (hpass : s.passes (.equalize seed)) (hn : s.Noiseless s.frameOffset)
    (hid : seed = true → s.tapsIdentity) :
    ∃ u, exec (.equalize seed) s = .next u ∧ u.err = ⟨0, 0⟩ ∧ u.status.eqValid = true ∧ u.cfg = s.cfg ∧
      u.tapsIdentity ∧ ∀ i k, i < s.modes → k < s.frameLen →
        ∃ x y, s.symbolValue s.frameOffset i k = .ok x ∧ u.outSym i k = .ok y ∧ y.eqv x = true := by
  have hclear : (s.setEqValid false).passes (.equalize seed) := fun c hc =>
    (checkFails_withStatus s _ c).trans (hpass c hc)
  obtain ⟨hb, hm⟩ := frameBounds_of_passes hclear
  obtain ⟨u, ps, hbody, ks, hrec, hall⟩ := equalizeBody_noiseless (s := s.setEqValid false) (seed := seed) hb
    ⟨hn.samples, hn.pilots, hn.payload, hn.tapLimit, hn.power⟩ hm hid
  have hmem := putOutPowers_mem ps u
  have hcfg := putOutPowers_cfg ps u
  have hread : ∀ e, (u.putOutPowers ps).readCplx e = u.readCplx e := readCplx_congr hmem
  refine ⟨((u.putOutPowers ps).setEqValid true).complete, ?_, rfl, rfl, hcfg.trans hrec.inputs.cfg,
    fun i r j hi hr hj => ?_, fun i k hi hk => ?_⟩
  · rw [exec_of_passes hpass]
    exact congrArg finish hbody
  · refine (hread _).trans ((hrec.taps i r j ?_ ?_ ?_).trans (congrArg _ ?_))
    · exact modes_congr hcfg ▸ hi
    · exact modes_congr hcfg ▸ hr
    · exact numTaps_congr hcfg ▸ hj
    · exact congrArg (fun f => f i r j) (identityTap_congr hcfg).symm
  · obtain ⟨x, y, hx, hy, hxy⟩ := hrec.outs i k hi (hall k hk) hk
    obtain ⟨x', hx', hfin⟩ := hn.sampleAt hi (s.frameOffset + s.os * k : Nat)
    have hsame : x' = x := Except.ok.inj (hx'.symm.trans ((hb.sampleAt_symbol hk i).trans hx))
    exact ⟨x, y, hx, (hread _).trans hy, hxy.eqv (hsame ▸ hfin)⟩

end State

/-- Settles O43: the pass keeps an identity bank and stores each sample, so both divergence tests pass. -/
theorem equalizeRecoversANoiselessFrame : Obligations.EqualizeRecoversANoiselessFrame := by
  intro s seed hpass hn hid
  obtain ⟨u, hu, herr, hvalid, -, htaps, houts⟩ := State.exec_equalize_noiseless hpass hn hid
  exact ⟨u, hu, herr, hvalid, htaps, houts⟩

end Sys2Proof.Machine
end

section
/-! PROOFS. The rules of SYNC and EQUALIZE do not look at EQ_VALID, ERR, IRQ_STATUS or the engine (spec/41_sync.md R180,
spec/42_equalizer.md R220): from a state that differs in these alone they do the same to everything else. -/

namespace Sys2Proof.Machine

/-- A change of the flags that the rules of SYNC and EQUALIZE do not look at. -/
structure Relabel where
  eqValid : Bool → Bool
  err : Err → Err
  irqStatus : IrqStatus → IrqStatus
  engine : Engine → Engine
  abortReq : Bool → Bool

/-- The state with its flags changed. -/
def Relabel.apply (g : Relabel) (x : State) : State :=
  { x with
    status := { x.status with eqValid := g.eqValid x.status.eqValid }
    err := g.err x.err
    irqStatus := g.irqStatus x.irqStatus
    engine := g.engine x.engine
    abortReq := g.abortReq x.abortReq }

/-- An outcome with the flags of its state changed. -/
def Relabel.outcome {α : Type} (g : Relabel) (r : Eng (State × α)) : Eng (State × α) := r.map fun p => (g.apply p.1, p.2)

/-! ## Binds and folds over changed states -/

theorem bind_map {α β : Type} {φ : α → α} {ψ : β → β} {r r' : Eng α} {k k' : α → Eng β} (hr : r' = r.map φ)
    (hk : ∀ a, k' (φ a) = (k a).map ψ) : (r' >>= k') = (r >>= k).map ψ := by
  subst hr
  cases r with
  | error x => rfl
  | ok a => exact hk a

theorem bind_read {α β : Type} {ψ : β → β} {r : Eng α} {k k' : α → Eng β} (hk : ∀ a, k' a = (k a).map ψ) :
    (r >>= k') = (r >>= k).map ψ := by
  cases r with
  | error x => rfl
  | ok a => exact hk a

theorem foldlM_map {α β : Type} {φ : β → β} {f f' : β → α → Eng β} (h : ∀ b a, f' (φ b) a = (f b a).map φ) (l : List α)
    (b : β) : l.foldlM f' (φ b) = (l.foldlM f b).map φ := by
  induction l generalizing b with
  | nil => rfl
  | cons a l ih =>
    rw [List.foldlM_cons, List.foldlM_cons]
    exact bind_map (h b a) ih

namespace State

variable (g : Relabel) (s : State)

/-! ## The equalizer -/

theorem realBits_apply : (g.apply s).realBits = s.realBits := by
  funext loc v
  rw [realBits, realBits, freeBits, freeBits]
  rfl

theorem putCplx_apply (e : Entry) (z : Cplx) : (g.apply s).putCplx e z = g.apply (s.putCplx e z) := by
  rw [putCplx, putCplx, realBits_apply]
  rfl

theorem recordDivergence_apply (v : Divergence) :
    (g.apply s).recordDivergence v = g.apply (s.recordDivergence v) := by
  rw [recordDivergence, recordDivergence, realBits_apply]
  rfl

theorem putOutPower_apply (i : Nat) (p : F64) : (g.apply s).putOutPower i p = g.apply (s.putOutPower i p) := by
  rw [putOutPower, putOutPower, realBits_apply]
  rfl

theorem writeIdentity_apply : (g.apply s).writeIdentity = g.apply s.writeIdentity :=
  List.foldl_hom g.apply fun x ⟨_, _, _⟩ => putCplx_apply g x _ _

theorem writeOutputs_apply (k : Nat) (ys : List Cplx) : (g.apply s).writeOutputs k ys = g.apply (s.writeOutputs k ys) :=
  List.foldl_hom g.apply fun x _ => putCplx_apply g x _ _

theorem putOutPowers_apply (ps : List F64) : (g.apply s).putOutPowers ps = g.apply (s.putOutPowers ps) :=
  List.foldl_hom g.apply fun x _ => putOutPower_apply g x _ _

theorem adapt_apply (n : Int) (es : List Cplx) : (g.apply s).adapt n es = (s.adapt n es).map g.apply :=
  foldlM_map (φ := g.apply) (fun x ⟨_, _, _⟩ => bind_read fun _ => bind_read fun _ =>
    congrArg Except.ok (putCplx_apply g x _ _)) (triples s.modes s.numTaps) s

theorem tapTest_apply (k : Nat) : (g.apply s).tapTest k = s.tapTest k := by
  have hover : ∀ ps, (g.apply s).tapTestOver k ps = s.tapTestOver k ps := by
    intro ps
    induction ps with
    | nil => rfl
    | cons p ps ih =>
      simp only [tapTestOver, ih]
      rfl
  exact hover _

theorem learn_apply (n : Int) (k : Nat) (ys targets : List Cplx) :
    (g.apply s).learn n k ys targets = g.outcome (s.learn n k ys targets) :=
  bind_map (adapt_apply g s n _) fun x => by
    rw [tapTest_apply]
    exact bind_read fun _ => rfl

theorem trainLoop_apply (d : Nat) (ks : List Nat) : (g.apply s).trainLoop d ks = g.outcome (s.trainLoop d ks) := by
  induction ks generalizing s with
  | nil => rfl
  | cons k ks ih =>
    refine bind_read fun ys => bind_read fun targets => bind_map (learn_apply g s _ k ys targets) ?_
    rintro ⟨x, dv⟩
    cases dv with
    | none => exact ih x
    | some v => rfl

theorem trainPilots_apply (d : Nat) : (g.apply s).trainPilots d = g.outcome (s.trainPilots d) := trainLoop_apply g s d _

theorem equalizeLoop_apply (d : Nat) (ks : List Nat) :
    (g.apply s).equalizeLoop d ks = g.outcome (s.equalizeLoop d ks) := by
  induction ks generalizing s with
  | nil => rfl
  | cons k ks ih =>
    unfold equalizeLoop
    refine bind_read fun ys => ?_
    dsimp only
    rw [writeOutputs_apply]
    refine bind_read fun targets => bind_map (learn_apply g _ _ k ys targets) ?_
    rintro ⟨x, dv⟩
    cases dv with
    | none => exact ih x
    | some v => rfl

theorem powerTest_apply : (g.apply s).powerTest = g.outcome s.powerTest := by
  have hover : ∀ (x : State) pc l, (g.apply x).powerTestOver pc l = x.powerTestOver pc l := by
    intro x pc l
    induction l with
    | nil => rfl
    | cons p l ih =>
      simp only [powerTestOver, ih]
      rfl
  unfold powerTest
  refine bind_read fun pc => bind_read fun ps => ?_
  have hput := putOutPowers_apply g s ps
  unfold putOutPowers at hput
  dsimp only
  rw [hput, hover]
  split
  · rw [recordDivergence_apply]; rfl
  · rfl

/-- The rule of EQUALIZE, with a change that keeps the EQ_VALID it sets. -/
theorem equalizeBody_apply (hg : g.eqValid true = true) (seed : Bool) :
    (g.apply s).equalizeBody seed = g.outcome (s.equalizeBody seed) := by
  have hstart : (if seed then g.apply s else (g.apply s).writeIdentity) = g.apply (if seed then s else s.writeIdentity) := by
    rw [writeIdentity_apply]
    exact (apply_ite g.apply _ _ _).symm
  unfold equalizeBody
  dsimp only
  rw [hstart]
  refine bind_map (equalizeLoop_apply g _ _ _) ?_
  rintro ⟨x, e⟩
  cases e with
  | some e => rfl
  | none =>
    refine bind_map (powerTest_apply g x) ?_
    rintro ⟨y, e⟩
    cases e with
    | some e => rfl
    | none =>
      have hset : (g.apply y).setEqValid true = g.apply (y.setEqValid true) :=
        congrArg (fun b => (g.apply y).setEqValid b) hg.symm
      exact congrArg (fun z : State => Except.ok (z, none)) hset

/-! ## The correlator -/

theorem writeCorr_apply (es : List F64) : (g.apply s).writeCorr es = g.apply (s.writeCorr es) :=
  List.foldl_hom g.apply fun _ _ => rfl

theorem confidence_apply (peak floor : F64) : (g.apply s).confidence peak floor = g.apply (s.confidence peak floor) := by
  unfold confidence
  split
  · rfl
  · rfl

/-- The registers of a search that chose the candidate at offset `d`, in state `x` (R167). -/
def withFound (s x : State) (d : Nat) (peak floor : F64) : State :=
  { x with syncRes := { x.syncRes with
      offset := word d
      peak := s.realBits (Reg.syncPeak .lo).offset peak
      floor := s.realBits (Reg.syncFloor .lo).offset floor } }

theorem withFound_apply (x : State) (d : Nat) (peak floor : F64) :
    (g.apply s).withFound (g.apply x) d peak floor = g.apply (s.withFound x d peak floor) := by
  rw [withFound, withFound, realBits_apply]
  rfl

/-- What a search with the metrics `es` does once they are in CORR (R167, R170). -/
def afterMetrics (s : State) (lo : Nat) (es : List F64) (x : State) : State × Except SyncFailure Found :=
  match bestIndex es with
  | none => (x.searchFailed lo, .error .nonfinite)
  | some (best, peak) =>
    ((s.withFound x (lo + best) peak (s.noiseFloor es best)).confidence peak (s.noiseFloor es best),
      .ok ⟨lo + best, peak, s.noiseFloor es best⟩)

theorem search_eq (metric : Nat → Eng F64) (lo : Nat) (hi : Int) : s.search metric lo hi =
    if (hi - lo + 1).toNat = 0 then .ok ((s.withWindow lo (hi - lo + 1).toNat).searchFailed lo, .error .emptyWindow)
    else ((List.range (hi - lo + 1).toNat).mapM fun i => metric (lo + i)) >>= fun es =>
      .ok (s.afterMetrics lo es ((s.withWindow lo (hi - lo + 1).toNat).writeCorr es)) := by
  unfold search afterMetrics
  refine if_congr Iff.rfl rfl (congrArg (_ >>= ·) (funext fun es => ?_))
  cases bestIndex es with
  | none => rfl
  | some p => rfl

theorem afterMetrics_apply (lo : Nat) (es : List F64) (x : State) :
    (g.apply s).afterMetrics lo es (g.apply x) = (g.apply (s.afterMetrics lo es x).1, (s.afterMetrics lo es x).2) := by
  have hfloor : (g.apply s).noiseFloor es = s.noiseFloor es := rfl
  unfold afterMetrics
  split
  · rfl
  · rw [hfloor, withFound_apply, confidence_apply]

theorem search_apply (metric : Nat → Eng F64) (lo : Nat) (hi : Int) :
    (g.apply s).search metric lo hi = g.outcome (s.search metric lo hi) := by
  rw [search_eq, search_eq]
  split
  · rfl
  · refine bind_read fun es => ?_
    have hwrite := writeCorr_apply g (s.withWindow lo (hi - lo + 1).toNat) es
    exact congrArg Except.ok ((congrArg _ hwrite).trans (afterMetrics_apply g s lo es _))

theorem refine_apply (seed : Bool) (left i d : Nat) (final : SyncState) :
    (g.apply s).refine seed left i d final = g.outcome (s.refine seed left i d final) := by
  induction left generalizing s i d final with
  | zero => rfl
  | succ left ih =>
    unfold refine
    dsimp only
    have hstart : (if seed then ((g.apply s).setSyncState .refine).setSyncIters i
        else (((g.apply s).setSyncState .refine).setSyncIters i).writeIdentity) =
        g.apply (if seed then (s.setSyncState .refine).setSyncIters i
          else ((s.setSyncState .refine).setSyncIters i).writeIdentity) := by
      rw [apply_ite g.apply, ← writeIdentity_apply]
      rfl
    rw [hstart]
    refine bind_map (trainPilots_apply g _ d) ?_
    rintro ⟨x, trained⟩
    cases trained with
    | false => rfl
    | true =>
      refine bind_map (search_apply g x x.eqMetric _ _) ?_
      rintro ⟨y, r⟩
      cases r with
      | error f => rfl
      | ok f =>
        change (if (!y.detected f) = true then _ else if f.offset = d then _ else _) =
          Except.map _ (if (!y.detected f) = true then _ else if f.offset = d then _ else _)
        split
        · rfl
        · split
          · rfl
          · exact ih y _ _ _

theorem putChest_apply (i j : Nat) (z : Cplx) : (g.apply s).putChest i j z = g.apply (s.putChest i j z) := by
  rw [putChest, putChest, cplxBits, cplxBits, realBits_apply]
  rfl

theorem writeChest_apply (d : Nat) : (g.apply s).writeChest d = (s.writeChest d).map g.apply :=
  foldlM_map (φ := g.apply) (fun x ⟨_, _⟩ => bind_read fun _ => bind_read fun _ =>
    congrArg Except.ok (putChest_apply g x _ _ _)) (pairs s.modes s.modes) s

theorem syncSucceed_apply (d : Nat) (final : SyncState) :
    (g.apply s).syncSucceed d final = g.outcome (s.syncSucceed d final) :=
  bind_map (writeChest_apply g s d) fun _ => rfl

/-- The rule of SYNC. -/
theorem syncBody_apply (seed : Bool) : (g.apply s).syncBody seed = g.outcome (s.syncBody seed) := by
  refine bind_map (search_apply g ((s.setSyncState .coarse).setSyncIters 0) s.rawMetric _ _) ?_
  rintro ⟨x, r⟩
  cases r with
  | error f => rfl
  | ok f =>
    change (if (!x.detected f) = true then _ else _) = Except.map _ (if (!x.detected f) = true then _ else _)
    split
    · rfl
    · refine bind_map (refine_apply g (x.withCoarseOffset f.offset) seed _ _ _ _) ?_
      rintro ⟨y, r⟩
      cases r with
      | error f => rfl
      | ok p => exact syncSucceed_apply g y p.1 p.2

end State
end Sys2Proof.Machine
end

section
/-! PROOFS. RECOVER (spec/42_equalizer.md R225, R226): the SYNC part leaves what validation and the equalizer read, so
the command is SYNC followed by EQUALIZE, and it recovers a noiseless frame at the offset SYNC finds. -/

namespace Sys2Proof.Machine

/-- The flags as a completion with code 0 leaves them (R132). -/
def Relabel.completed : Relabel := ⟨id, fun _ => ⟨0, 0⟩, fun q => { q with done := true }, fun _ => .idle, fun _ => false⟩

/-- EQ_VALID at 0, the other flags as they are. -/
def Relabel.clearEqValid : Relabel := ⟨fun _ => false, id, id, id, id⟩

/-- A completion overwrites what an earlier one wrote. -/
theorem finish_completed (r : Eng Ending) : finish (Relabel.completed.outcome r) = finish r := by
  rcases r with x | ⟨x, e⟩
  · rfl
  · cases e with
    | none => exact congrArg Host.Outcome.next ((State.complete_eq _).trans (State.complete_eq x).symm)
    | some y => exact congrArg Host.Outcome.next ((State.raise_eq y _).trans (State.raise_eq y x).symm)

namespace State

variable {s t : State}

/-! ## Validation after the SYNC part -/

/-- The checks of EQUALIZE that RECOVER makes before its SYNC part (R138). -/
def sharedChecks : List Check :=
  layoutChecks ++ [.osRange, .tapsInvalid, .sampleLenRange, .muInvalid, .tapLimitInvalid, .divFactorInvalid,
    .constSizeRange, .constZeroPower]

theorem equalizeChecks_eq : equalizeChecks = sharedChecks ++ [.frameOutOfBuffer] := rfl

theorem sharedChecks_subset : sharedChecks ⊆ recoverChecks := by decide

theorem syncChecks_subset (n : Nat) : syncChecks n ⊆ recoverChecks := by
  unfold syncChecks
  split
  · decide
  · decide

theorem passes_sync_of_recover {seed : Bool} (h : s.passes (.recover seed)) : s.passes (.sync seed) :=
  fun c hc => h c (syncChecks_subset _ hc)

theorem checkFails_apply (g : Relabel) (s : State) (c : Check) : (g.apply s).checkFails c = s.checkFails c := by
  cases c
  all_goals rfl

theorem firstFailing_apply (g : Relabel) (s : State) (cs : List Check) :
    (g.apply s).firstFailing cs = s.firstFailing cs := by
  induction cs with
  | nil => rfl
  | cons c cs ih => rw [firstFailing, firstFailing, checkFails_apply, ih]

/-- Check 26 alone looks at FRAME_OFFSET. -/
theorem checkFails_withFrameOffset (s : State) (w : Word) {c : Check} (hc : c ≠ .frameOutOfBuffer) :
    checkFails { s with cfg := { s.cfg with frameOffset := w } } c = s.checkFails c := by
  cases c
  case frameOutOfBuffer => exact absurd rfl hc
  all_goals rfl

theorem someMode_congr {bad bad' : Nat → Eng Bool} {ts : List Nat} (h : ∀ i ∈ ts, bad' i = bad i) :
    someMode bad' ts = someMode bad ts := by
  induction ts with
  | nil => rfl
  | cons i ts ih => rw [someMode, someMode, h i List.mem_cons_self, ih fun j hj => h j (List.mem_cons_of_mem i hj)]

/-- All checks but two look at the configuration alone. -/
theorem checkFails_congr (h : t.cfg = s.cfg) {c : Check} (hp : c ≠ .pilotZeroEnergy) (hq : c ≠ .constZeroPower) :
    t.checkFails c = s.checkFails c := by
  have hcfg : t.checkFails c = checkFails { s with cfg := t.cfg } c := by
    cases c
    case pilotZeroEnergy => exact absurd rfl hp
    case constZeroPower => exact absurd rfl hq
    all_goals rfl
  rw [hcfg, h]

/-- Validation looks at the configuration and at what the host supplied. -/
theorem Agree.hostCheckFails (h : Agree HostInput s t) (hm : s.modes ≤ Config.mMax) (hp : s.pilotLen ≤ Config.pMax)
    (hq : s.constSize ≤ Config.qMax) (c : Check) : t.checkFails c = s.checkFails c := by
  by_cases hc : c = .pilotZeroEnergy
  · subst hc
    unfold checkFails
    rw [modes_congr h.cfg]
    refine someMode_congr fun i hi => congrArg (· >>= _) ?_
    unfold pilotEnergy
    rw [pilotLen_congr h.cfg]
    refine sumReal_congr fun k hk => ?_
    rw [h.hostPilot hm hp (List.mem_range.1 hi) (List.mem_range.1 hk)]
  · by_cases hc' : c = .constZeroPower
    · subst hc'
      exact congrArg (· >>= _) (h.hostConstPower hq)
    · exact checkFails_congr h.cfg hc hc'

/-! ## What the SYNC part leaves as it was -/

/-- `s` with the offset `w` in FRAME_OFFSET. -/
def atOffset (s : State) (w : Word) : State := { s with cfg := { s.cfg with frameOffset := w } }

/-- The memories the host supplies, and the draw, as in `s`. -/
structure HostKept (s x : State) : Prop where
  draws : x.draws = s.draws
  reads : ∀ a, HostInput a → x.mem.read a = s.mem.read a

theorem HostKept.congr {x y : State} (h : HostKept s x) (hm : y.mem = x.mem) (hd : y.draws = x.draws) :
    HostKept s y :=
  ⟨hd.trans h.draws, fun a ha => (congrArg (Memory.read · a) hm).trans (h.reads a ha)⟩

theorem HostKept.putCorr {x : State} (h : HostKept s x) (i : Nat) (v : F64) : HostKept s (x.putCorr i v) := by
  refine ⟨h.draws, fun a ha => (read_putCorr_other i v x ?_).trans (h.reads a ha)⟩
  simp only [HostInput, Entry.offset] at *
  omega

theorem tapClosed_hostKept {m n : Nat} (hm : m ≤ Config.mMax) (hn : n ≤ Config.nMax) (s : State) :
    TapClosed m n (HostKept s) := by
  intro x i r j z hi hr hj hz hx
  obtain ⟨-, hdraws, hreads⟩ := tapClosed_hostInput hm hn x x i r j z hi hr hj hz (Agree.refl _ x)
  exact ⟨hdraws.trans hx.draws, fun a ha => (hreads a ha).trans (hx.reads a ha)⟩

/-- SyncBody writes CORR, the taps and registers (R180, R181). -/
theorem syncClosed_hostKept (hm : s.modes ≤ Config.mMax) (hn : s.numTaps ≤ Config.nMax) : SyncClosed s (HostKept s) where
  taps _ := tapClosed_hostKept hm hn s
  divergence _ _ _ hx := hx.congr rfl rfl
  search := ⟨fun _ _ _ hx => hx.congr rfl rfl, fun _ _ hx => hx.congr rfl rfl, fun _ i v _ hx => hx.putCorr i v⟩
  syncState _ _ hx := hx.congr rfl rfl
  syncValid _ hx := hx.congr rfl rfl
  chest _ _ _ _ _ _ hx := hx.congr rfl rfl
  frame _ _ hx := hx.congr rfl rfl

/-- What validation before the SYNC part has established (R137, R138). -/
structure RecoverBounds (s : State) : Prop extends BankBounds s where
  pilotLen_pos : 1 ≤ s.pilotLen
  constSize : s.constSize ≤ Config.qMax

theorem recoverBounds_of_passes {seed : Bool} (h : s.passes (.recover seed)) : s.RecoverBounds := by
  have hsize := h .constSizeRange (by decide : _ ∈ recoverChecks)
  have htaps := h .tapsInvalid (by decide : _ ∈ recoverChecks)
  obtain ⟨hb, hpos, -⟩ := bounds_of_passes_sync (passes_sync_of_recover h)
  simp only [checkFails, Except.ok.injEq, Bool.or_eq_false_iff, decide_eq_false_iff_not, not_lt] at hsize
  exact ⟨⟨hb, numTaps_le_of_checked htaps⟩, hpos, hsize.2⟩

theorem syncBody_hostInput {seed : Bool} {e : Option CmdError} (hb : s.RecoverBounds)
    (h : s.syncBody seed = .ok (t, e)) : Agree HostInput (s.atOffset t.cfg.frameOffset) t := by
  have hcfg := syncBody_cfg hb.pilotLen_pos h
  obtain ⟨hdraws, hreads⟩ := syncBody_keeps hb.pilotLen_pos (syncClosed_hostKept hb.modes hb.numTaps)
    ⟨rfl, fun _ _ => rfl⟩ h
  exact ⟨hcfg, hdraws, hreads⟩

/-- The checks RECOVER has made hold of the state SYNC leaves. -/
theorem sharedChecks_pass {seed : Bool} {w : Word} (hpass : s.passes (.recover seed))
    (h : Agree HostInput (s.atOffset w) t) : ∀ c ∈ sharedChecks, t.checkFails c = .ok false := by
  intro c hc
  have hb := recoverBounds_of_passes hpass
  have hne : c ≠ .frameOutOfBuffer := fun h => absurd (h ▸ hc) (by decide)
  exact (h.hostCheckFails hb.modes hb.pilotLen hb.constSize c).trans
    ((checkFails_withFrameOffset s w hne).trans (hpass c (sharedChecks_subset hc)))

/-! ## The two halves of the command -/

theorem validated_shared {body : State → Eng Ending} (h : ∀ c ∈ sharedChecks, s.checkFails c = .ok false) :
    s.validated equalizeChecks body = s.validated [.frameOutOfBuffer] body := by
  rw [validated, equalizeChecks_eq, firstFailing_append h]
  rfl

theorem validated_apply (g : Relabel) (cs : List Check) {body : State → Eng Ending}
    (h : body (g.apply s) = g.outcome (body s)) : (g.apply s).validated cs body = g.outcome (s.validated cs body) := by
  rw [validated, firstFailing_apply]
  refine bind_read fun c => ?_
  cases c with
  | none => exact h
  | some c => rfl

/-- A SYNC that passes validation completes as its rule ends. -/
theorem exec_sync_completes {seed : Bool} (hpass : s.passes (.sync seed)) (hu : exec (.sync seed) s = .next u) :
    ∃ t e, (s.setSyncValid false).syncBody seed = .ok (t, e) ∧ u.err = errOf e ∧
      ((e = none ∧ u = t.complete) ∨ ∃ y, e = some y ∧ u = t.raise y) := by
  rw [exec_of_passes hpass] at hu
  obtain ⟨t, e, hbody, hend⟩ := finish_next hu
  refine ⟨t, e, hbody, ?_, hend⟩
  rcases hend with ⟨rfl, rfl⟩ | ⟨y, rfl, rfl⟩
  · rfl
  · rfl

theorem errOf_eq_zero_iff {e : Option CmdError} : errOf e = ⟨0, 0⟩ ↔ e = none := by
  refine ⟨fun h => ?_, fun h => h ▸ rfl⟩
  have hcode := errOf_code_beq_zero e
  rw [h] at hcode
  exact Option.isNone_iff_eq_none.1 hcode.symm

/-- The SYNC part of RECOVER is SYNC with EQ_VALID at 0 (R225). -/
theorem exec_recover_eq {seed : Bool} {e : Option CmdError} (hpass : s.passes (.recover seed))
    (h : (s.setSyncValid false).syncBody seed = .ok (t, e)) : exec (.recover seed) s = finish (e.elim
      ((t.setEqValid false).validated [.frameOutOfBuffer] (equalizeBody seed)) fun y => .ok (t.setEqValid false, some y)) := by
  have hsync : ((s.setSyncValid false).setEqValid false).syncBody seed = .ok (t.setEqValid false, e) :=
    (syncBody_apply Relabel.clearEqValid (s.setSyncValid false) seed).trans (congrArg Relabel.clearEqValid.outcome h)
  rw [exec_of_passes hpass]
  refine congrArg finish ?_
  change recoverBody seed ((s.setSyncValid false).setEqValid false) = _
  rw [recoverBody, hsync]
  cases e with
  | none => rfl
  | some y => rfl

/-- A completion but for the draw it takes. -/
theorem complete_withDraws (t : State) : { t.complete with draws := t.draws } = Relabel.completed.apply t := by
  rw [complete_eq]
  rfl

/-- EQUALIZE after a completed SYNC checks and does what is left of RECOVER. -/
theorem exec_equalize_completed {seed : Bool} (h : ∀ c ∈ sharedChecks, t.checkFails c = .ok false) :
    exec (.equalize seed) (Relabel.completed.apply t) =
      finish ((t.setEqValid false).validated [.frameOutOfBuffer] (equalizeBody seed)) := by
  have hshared : ∀ c ∈ sharedChecks, (Relabel.completed.apply (t.setEqValid false)).checkFails c = .ok false := by
    intro c hc
    rw [checkFails_apply]
    exact (checkFails_withStatus t _ c).trans (h c hc)
  rw [exec_eq_finish]
  refine (congrArg finish ((validated_shared hshared).trans
    (validated_apply Relabel.completed _ (equalizeBody_apply Relabel.completed _ rfl seed)))).trans ?_
  exact finish_completed _

end State

/-- Settles O44: the rules do not look at what a completion writes, and the SYNC part keeps what validation reads. -/
theorem recoverIsSyncThenEqualize : Obligations.RecoverIsSyncThenEqualize := by
  intro s u seed hpass hu
  obtain ⟨t, e, hbody, herr, hend⟩ := State.exec_sync_completes (State.passes_sync_of_recover hpass) hu
  have hclear : (s.setSyncValid false).passes (.recover seed) := fun c hc =>
    (State.checkFails_withStatus s _ c).trans (hpass c hc)
  have hagree := State.syncBody_hostInput (State.recoverBounds_of_passes hclear) hbody
  have hdraws : s.draws = t.draws := hagree.draws.symm
  rw [herr, Ne, State.errOf_eq_zero_iff, State.exec_recover_eq hpass hbody]
  rcases hend with ⟨rfl, rfl⟩ | ⟨y, rfl, rfl⟩
  · refine ⟨fun _ => ?_, fun h => absurd rfl h⟩
    have hshared := State.sharedChecks_pass hclear hagree
    rw [hdraws]
    exact (State.exec_equalize_completed hshared).symm.trans
      (congrArg (exec (.equalize seed)) (State.complete_withDraws t).symm)
  · exact ⟨nofun, fun _ => rfl⟩

end Sys2Proof.Machine
end

section
/-! PROOFS. RECOVER on a noiseless frame (spec/42_equalizer.md R225, R226): SYNC leaves the channel and the taps as they
were, so EQUALIZE recovers the frame at the offset SYNC wrote. -/

namespace Sys2Proof.Machine

namespace State

variable {s t : State} {d : Nat}

/-! ## A noiseless frame, seen from another state -/

/-- A frame symbol's sample is in the buffer, so the host supplied it. -/
theorem symbolValue_agree (h : Agree HostInput s t) (hb : s.FrameBounds d) {i k : Nat} (hi : i < s.modes)
    (hk : k < s.frameLen) : t.symbolValue d i k = s.symbolValue d i k := by
  have hos : t.os = s.os := by rw [os, os, h.cfg]
  unfold symbolValue
  rw [hos]
  exact h.hostSample (hi.trans_le hb.modes) ((hb.inBuffer k hk).trans_le hb.sampleLen)

theorem receivedPower_agree (h : Agree HostInput s t) (hb : s.FrameBounds d) {i : Nat} (hi : i < s.modes) :
    t.receivedPower d i = s.receivedPower d i := by
  unfold receivedPower
  rw [frameLen_congr h.cfg]
  refine congrArg (· >>= _) (sumReal_congr fun k hk => ?_)
  rw [symbolValue_agree h hb hi (List.mem_range.1 hk)]

/-- The channel is what the host supplied and the configuration. -/
theorem Noiseless.agree (hn : s.Noiseless d) (h : Agree HostInput s t) (hb : s.FrameBounds d) : t.Noiseless d := by
  have hmodes : t.modes = s.modes := modes_congr h.cfg
  have hpos : t.pilotPos = s.pilotPos := pilotPos_congr h.cfg
  have hlen : t.pilotLen = s.pilotLen := pilotLen_congr h.cfg
  have hlimit : t.tapLimit = s.tapLimit := by rw [State.tapLimit, State.tapLimit, h.cfg]
  have hblock := hb.block
  refine ⟨fun r n hr hns => ?_, fun i k hi hk => ?_, fun i k hi hk hout => ?_, hlimit ▸ hn.tapLimit, fun i hi => ?_⟩
  · rw [hmodes] at hr
    rw [sampleLen_congr h.cfg] at hns
    rw [h.hostSample (hr.trans_le hb.modes) (hns.trans_le hb.sampleLen)]
    exact hn.samples r n hr hns
  · rw [hmodes] at hi
    rw [hlen] at hk
    rw [h.hostPilot hb.modes hb.pilotLen hi hk, hpos, symbolValue_agree h hb hi (by omega)]
    exact hn.pilots i k hi hk
  · rw [hmodes] at hi
    rw [frameLen_congr h.cfg] at hk
    rw [hpos, hlen] at hout
    obtain ⟨q, p, x, hx, hq, hp, hpx⟩ := hn.payload i k hi hk hout
    exact ⟨q, p, x, (symbolValue_agree h hb hi hk).trans hx, (h.hostDecision hb.constSize x).trans hq,
      (h.hostPoint hb.constSize (decideIndex_le hq)).trans hp, hpx⟩
  · rw [hmodes] at hi
    rw [receivedPower_agree h hb hi, h.hostConstPower hb.constSize, powerFailure_congr h.cfg]
    exact hn.power i hi

/-! ## The state EQUALIZE starts from -/

variable {w : Word}

/-- RECOVER's checks and a frame that fits the buffer at the offset `w` are the checks of EQUALIZE (R138). -/
theorem passes_equalize_atOffset {seed : Bool} (h : s.passes (.recover seed))
    (hfit : w.toNat + s.os * (s.frameLen - 1) + 1 ≤ s.sampleLen) : (s.atOffset w).passes (.equalize seed) := by
  have hframe := h .frameLenZero (by decide : _ ∈ recoverChecks)
  simp only [checkFails, Except.ok.injEq, decide_eq_false_iff_not] at hframe
  have hcheck : (s.atOffset w).checkFails .frameOutOfBuffer = .ok false := by
    change Except.ok (decide ((w.toNat : Int) + s.os * ((s.frameLen : Int) - 1) > (s.sampleLen : Int) - 1)) = _
    rw [Except.ok.injEq, decide_eq_false_iff_not]
    zify [show 1 ≤ s.frameLen by omega] at hfit
    omega
  intro c hc
  rcases List.mem_append.1 (equalizeChecks_eq ▸ hc : c ∈ sharedChecks ++ [.frameOutOfBuffer]) with hs | hs
  · exact sharedChecks_pass h (Agree.refl _ _) c hs
  · rw [List.mem_singleton.1 hs]
    exact hcheck

theorem passes_equalize_agree {seed : Bool} (hpass : s.passes (.equalize seed)) (h : Agree HostInput s t)
    (hb : s.FrameBounds d) : t.passes (.equalize seed) := fun c hc =>
  (h.hostCheckFails hb.modes hb.pilotLen hb.constSize c).trans (hpass c hc)

theorem tapsIdentity_agree {n : Nat} (hid : s.tapsIdentity) (h : Agree (OutsideCorr n) s t) (hb : s.BankBounds) :
    t.tapsIdentity := by
  intro i r j hi hr hj
  rw [modes_congr h.cfg] at hi hr
  rw [numTaps_congr h.cfg] at hj
  rw [tap_agree h hb hi hr hj, identityTap_congr h.cfg]
  exact hid i r j hi hr hj

theorem outsideCorr_of_hostInput {n a : Nat} (h : HostInput a) : OutsideCorr n a := by
  unfold HostInput OutsideCorr at *
  omega

end State

/-- Settles O45: SYNC is EQUALIZE's start at the offset found, from which EQUALIZE recovers the frame. -/
theorem recoverRecoversANoiselessFrame : Obligations.RecoverRecoversANoiselessFrame := by
  intro s seed es b peak hi hpass hfind hfit hn hid
  have hsync := State.passes_sync_of_recover hpass
  obtain ⟨v, hv, hstate, -, -, -, hoffset, -, -, -, -, -, -, -, -, -, hreads⟩ :=
    coarseSyncWritesTheOffsetFound.2.2.2 s seed es b peak hi hsync hfind
  have hword : v.frameOffset = s.searchStart + b := hoffset
  have hverr : v.err = ⟨0, 0⟩ := by rw [hstate]
  have hvcfg : v.cfg = (s.atOffset v.cfg.frameOffset).cfg := by
    rw [hstate]
    rfl
  have hagree : State.Agree (State.OutsideCorr es.length) (s.atOffset v.cfg.frameOffset) { v with draws := s.draws } :=
    ⟨hvcfg, rfl, hreads⟩
  have hhost := hagree.mono fun _ => State.outsideCorr_of_hostInput
  have hequalize := State.passes_equalize_atOffset (w := v.cfg.frameOffset) hpass (by rwa [← hword] at hfit)
  have hb := (State.frameBounds_of_passes hequalize).1
  have hn' : (s.atOffset v.cfg.frameOffset).Noiseless v.frameOffset := by
    rw [hword]
    exact ⟨hn.samples, hn.pilots, hn.payload, hn.tapLimit, hn.power⟩
  obtain ⟨u, hu, herr, hvalid, hcfg, -, houts⟩ := State.exec_equalize_noiseless
    (State.passes_equalize_agree hequalize hhost hb) (hn'.agree hhost hb) fun hs =>
      State.tapsIdentity_agree (s := s.atOffset v.cfg.frameOffset) (hid hs) hagree hb.toBankBounds
  have hrecover : exec (.recover seed) s = .next u := ((recoverIsSyncThenEqualize s v seed hpass hv).1 hverr).trans hu
  have hsyncValid := (State.exec_recover_valid hrecover).2
  rw [herr] at hsyncValid
  refine ⟨u, hrecover, herr, hsyncValid, hvalid, ?_, fun i k hi hk => ?_⟩
  · exact (congrArg (fun c => c.frameOffset.toNat) hcfg).trans hword
  · obtain ⟨x, y, hx, hy, hxy⟩ := houts i k ((State.modes_congr hhost.cfg).symm ▸ hi)
      ((State.frameLen_congr hhost.cfg).symm ▸ hk)
    refine ⟨x, y, ?_, hy, hxy⟩
    rw [← hword]
    exact (State.symbolValue_agree hhost hb hi hk).symm.trans hx

end Sys2Proof.Machine
end

section
/-! PROOFS. The accumulators (spec/10_state.md R64; spec/40_control.md R143; spec/43_performance.md R270, R271): a step
that changes them ends an ESTIMATE with ACC = 1 or an ACC_CLEAR, or is a reset. -/

namespace Sys2Proof.Machine

theorem Half.eq_of_get {a b : Bits64} (h : ∀ k : Half, k.get a = k.get b) : a = b := by
  rw [← Memory.joinWords_lo_hi a, ← Memory.joinWords_lo_hi b]
  exact congrArg₂ Memory.joinWords (h .lo) (h .hi)

namespace State

variable {s t u : State} {q : Reg} {c : Decoded}

/-! ## Commands that do not write the accumulators -/

/-- The accumulators are what their registers read (R64). -/
theorem acc_eq_of_read (h : ∀ q ∈ accRegs, q.read t = q.read s) : t.acc = s.acc := by
  have herr : t.acc.errors = s.acc.errors := Half.eq_of_get fun k => h (.accErrors k) (by cases k <;> decide)
  have hsym : t.acc.symbols = s.acc.symbols := Half.eq_of_get fun k => h (.accSymbols k) (by cases k <;> decide)
  have hsig : t.acc.sigpow = s.acc.sigpow := Half.eq_of_get fun k => h (.accSigpow k) (by cases k <;> decide)
  have hep : t.acc.errpow = s.acc.errpow := Half.eq_of_get fun k => h (.accErrpow k) (by cases k <;> decide)
  have hframes : t.acc.frames = s.acc.frames := h .accFrames (by decide)
  calc t.acc = ⟨t.acc.errors, t.acc.symbols, t.acc.sigpow, t.acc.errpow, t.acc.frames⟩ := rfl
    _ = s.acc := by rw [herr, hsym, hsig, hep, hframes]

/-- The two kinds of command whose write set holds the accumulators (R143, R260). -/
def WritesAcc (c : Decoded) : Prop := c = .legal .accClear ∨ ∃ synced, c = .legal (.estimate synced true)

theorem notMem_syncRegs_of_accRegs : ∀ q ∈ accRegs, q ∉ s.syncRegs := by
  simp [accRegs, bothHalves, syncRegs, chestRegs, divRegs]

theorem notMem_equalizeRegs_of_accRegs : ∀ q ∈ accRegs, q ∉ s.equalizeRegs := by
  simp [accRegs, bothHalves, equalizeRegs, perMode, divRegs]

theorem notMem_writeSetRegs_of_accRegs (hc : ¬ WritesAcc c) (hq : q ∈ accRegs) : q ∉ s.writeSetRegs c := by
  cases c with
  | illegal x => exact List.not_mem_nil
  | legal i =>
    cases i with
    | nop | checkLayout | initTaps => exact List.not_mem_nil
    | sync seed => exact notMem_syncRegs_of_accRegs q hq
    | equalize seed => exact notMem_equalizeRegs_of_accRegs q hq
    | recover seed =>
      exact List.not_mem_append (notMem_syncRegs_of_accRegs q hq) (notMem_equalizeRegs_of_accRegs q hq)
    | accClear => exact absurd (.inl rfl) hc
    | estimate synced acc =>
      cases acc with
      | true => exact absurd (.inr ⟨synced, rfl⟩) hc
      | false => exact (by decide : ∀ q ∈ accRegs, q ∉ estimateRegs false) q hq

theorem exec_acc {i : Instr} (hi : ¬ WritesAcc (.legal i)) (ht : exec i s = .next t) : t.acc = s.acc := by
  obtain ⟨hregs, -⟩ := commandsWriteOnlyTheirWriteSet i s t ht
  refine acc_eq_of_read fun q hq => hregs q ?_ ?_ ?_ (notMem_writeSetRegs_of_accRegs hi hq)
  all_goals (rintro rfl; exact absurd hq (by decide))

/-- A free value drawn for another register leaves the accumulators (R292). -/
theorem putReg_acc (w : Word) (hq : q ∉ accRegs) : (s.putReg w q).acc = s.acc := by
  cases q with
  | accFrames => exact absurd (by decide) hq
  | accErrors h | accSymbols h | accSigpow h | accErrpow h => exact absurd (by cases h <;> decide) hq
  | _ => rfl

theorem abortCommand_acc (hc : ¬ WritesAcc c) : (s.abortCommand c).acc = s.acc := by
  have hdraw : (s.drawRegs (s.writeSetRegs c)).acc = s.acc :=
    foldl_keeps (fun x : State => x.acc = s.acc) _ _
      (fun x q hq hx => (putReg_acc _ fun ha => notMem_writeSetRegs_of_accRegs hc ha hq).trans hx) rfl
  rw [abortCommand, raise_acc, clearValid_acc, drawStatus_acc, drawMem_acc, hdraw]

/-! ## ESTIMATE -/

/-- An ESTIMATE succeeds, or leaves the accumulators as they were (R260). -/
theorem exec_estimate_acc {synced acc : Bool} (ht : exec (.estimate synced acc) s = .next t) :
    (t.err = ⟨0, 0⟩ ∧ t.status.estValid = true) ∨ t.acc = s.acc := by
  rw [exec_eq_finish] at ht
  obtain ⟨u, e, hu, ht⟩ := finish_next ht
  have hend : (e = none ∧ u.status.estValid = true) ∨ u.acc = s.acc := by
    rcases validated_ok hu with ⟨x, -, he⟩ | ⟨-, hrun⟩
    · cases he; exact .inr (clearValid_acc _ s)
    · exact (estimateBody_ending hrun).imp_right fun ⟨_, _, hu⟩ => by rw [hu, clearValid_acc]
  rcases ht with ⟨rfl, rfl⟩ | ⟨y, rfl, rfl⟩
  · exact hend.imp (fun ⟨_, hv⟩ => ⟨rfl, hv⟩) id
  · exact .inr (hend.resolve_left fun ⟨hy, _⟩ => nomatch hy)

/-! ## The engine's turn -/

/-- The engine's turn changes the accumulators by ESTIMATE with ACC = 1 and by ACC_CLEAR alone. -/
theorem engineMove_acc (ht : engineMove s = .next t) (hne : t.acc ≠ s.acc) :
    (∃ synced, s.engine = .running (.legal (.estimate synced true)) ∧
      (s.abortReq = true ∨ (t.err = ⟨0, 0⟩ ∧ t.status.estValid = true))) ∨
    (s.engine = .running (.legal .accClear) ∧
      (s.abortReq = true ∨ (t.err = ⟨0, 0⟩ ∧ t.acc = ⟨0, 0, 0, 0, 0⟩))) := by
  cases he : s.engine with
  | idle => rw [engineMove_idle he] at ht; cases ht; exact absurd rfl hne
  | running c =>
    cases ha : s.abortReq with
    | true =>
      rw [engineMove_abort he ha] at ht
      cases ht
      rcases not_not.1 (fun hc => hne (abortCommand_acc hc) : ¬ ¬ WritesAcc c) with rfl | ⟨synced, rfl⟩
      · exact .inr ⟨rfl, .inl rfl⟩
      · exact .inl ⟨synced, rfl, .inl rfl⟩
    | false =>
      cases c with
      | illegal x => rw [engineMove_illegal he ha] at ht; cases ht; exact absurd rfl hne
      | legal i =>
        rw [engineMove_legal he ha] at ht
        rcases not_not.1 (fun hc => hne (exec_acc hc ht) : ¬ ¬ WritesAcc (.legal i)) with h | ⟨synced, h⟩
        · cases h; cases ht; exact .inr ⟨rfl, .inr ⟨rfl, rfl⟩⟩
        · cases h; exact .inl ⟨synced, rfl, .inr ((exec_estimate_acc ht).resolve_right hne)⟩

/-! ## The turns of the host and of the pin -/

/-- The block is idle with its accumulators and its configuration reset (R74, R311, R313). -/
def IsCleared (t : State) : Prop := t.engine = .idle ∧ t.acc = ⟨0, 0, 0, 0, 0⟩ ∧ t.cfg = ConfigRegs.reset

theorem isCleared_resetBlock (s : State) : s.resetBlock.IsCleared := by
  unfold resetBlock
  split
  · exact ⟨rfl, rfl, rfl⟩
  · exact ⟨rfl, rfl, rfl⟩

theorem transact_acc (s : State) (r : Request) : (s.transact r).acc = s.acc ∨ (s.transact r).IsCleared := by
  by_cases h : r.Rejected
  · rw [transact_slverr h]; exact .inl rfl
  cases hk : r.kind with
  | read => rw [transact_of_read h hk]; exact .inl rfl
  | write =>
    rw [transact_of_write h hk]
    cases busWrite_effect s r.addr.toNat r.wdata (Target.ofOffset r.addr.toNat) with
    | reset hu => rw [hu]; exact .inr (isCleared_resetBlock s)
    | nothing hu | control _ _ hu | command hu | flags _ hu | config _ hu | memory _ _ hu => rw [hu]; exact .inl rfl

theorem hostMove_acc (s : State) : s.hostMove.acc = s.acc ∨ s.hostMove.IsCleared := by
  by_cases hwait : s.rstN = false ∨ s.requests = []
  · rw [hostMove_waiting hwait]; exact .inl rfl
  · obtain ⟨hr, hq⟩ := not_or.1 hwait
    obtain ⟨r, rest, hq⟩ := List.exists_cons_of_ne_nil hq
    rw [hostMove_pending (by simpa using hr) hq]
    exact transact_acc { s with requests := rest } r

theorem movePin_acc (level : Bool) (s : State) : (s.movePin level).acc = s.acc ∨ (s.movePin level).IsCleared := by
  cases level with
  | true => exact .inl rfl
  | false => exact .inr (isCleared_resetBlock s)

theorem nextTurn_eq (s : State) : s.nextTurn.2 = { s with schedule := s.nextTurn.2.schedule } := by
  unfold nextTurn
  split
  · rfl
  · rfl

end State

/-- What a step is, by whose turn it is (R133, R310). -/
theorem step_next {s t : State} (h : step s = .next t) :
    (s.nextTurn.1 = .host ∧ t = s.nextTurn.2.hostMove) ∨
    (∃ level, s.nextTurn.1 = .rstN level ∧ t = s.nextTurn.2.movePin level) ∨
    (s.nextTurn.1 = .engine ∧ engineMove s.nextTurn.2 = .next t) := by
  unfold step at h
  split at h
  · next u hu => rw [hu]; cases h; exact .inl ⟨rfl, rfl⟩
  · next level u hu => rw [hu]; cases h; exact .inr (.inl ⟨level, rfl, rfl⟩)
  · next u hu => rw [hu]; exact .inr (.inr ⟨rfl, h⟩)

/-- Settles O49, by whose turn it is: the host and the pin change the accumulators by a reset alone. -/
theorem accumulatorsChangeOnlyInThreeWays : Obligations.AccumulatorsChangeOnlyInThreeWays := by
  intro s t ht hne
  have hacc : s.nextTurn.2.acc = s.acc := by rw [State.nextTurn_eq]
  have hengine : s.nextTurn.2.engine = s.engine := by rw [State.nextTurn_eq]
  have habort : s.nextTurn.2.abortReq = s.abortReq := by rw [State.nextTurn_eq]
  rw [← hacc] at hne
  rcases step_next ht with ⟨hturn, rfl⟩ | ⟨level, hturn, rfl⟩ | ⟨hturn, hmove⟩
  · exact .inr (.inr ⟨by rw [hturn]; decide, (State.hostMove_acc _).resolve_left hne⟩)
  · exact .inr (.inr ⟨by rw [hturn]; exact Turn.noConfusion, (State.movePin_acc level _).resolve_left hne⟩)
  · have hcommand := State.engineMove_acc hmove hne
    rw [hengine, habort] at hcommand
    rcases hcommand with ⟨synced, he, hend⟩ | ⟨he, hend⟩
    · exact .inl ⟨synced, he, hturn, hend⟩
    · exact .inr (.inl ⟨he, hturn, hend⟩)

end Sys2Proof.Machine
end

section
/-! PROOFS. The permutations of the output modes (spec/43_performance.md R243): the recursion lists every permutation of
a list, once, and in lexicographic order when the list ascends. -/

namespace Sys2Proof.Machine

theorem length_permsOf (n : Nat) : ∀ {l : List Nat}, l.length = n → (permsOf n l).length = n.factorial := by
  induction n with
  | zero => exact fun _ => rfl
  | succ n ih =>
    intro l hl
    have hblock : ∀ x ∈ l, ((permsOf n (l.erase x)).map fun p => x :: p).length = n.factorial := fun x hx => by
      rw [List.length_map, ih (by rw [List.length_erase_of_mem hx, hl, Nat.add_sub_cancel])]
    rw [permsOf, List.length_flatMap, List.map_congr_left hblock, List.map_const', List.sum_replicate, hl,
      smul_eq_mul, Nat.factorial_succ]

theorem mem_permsOf (n : Nat) : ∀ {l p : List Nat}, l.length = n → (p ∈ permsOf n l ↔ p.Perm l) := by
  induction n with
  | zero =>
    intro l p hl
    rw [List.eq_nil_of_length_eq_zero hl, permsOf, List.mem_singleton, List.perm_nil]
  | succ n ih =>
    intro l p hl
    have hrest : ∀ {x : Nat} {r : List Nat}, x ∈ l → (r ∈ permsOf n (l.erase x) ↔ r.Perm (l.erase x)) := fun hx =>
      ih (by rw [List.length_erase_of_mem hx, hl, Nat.add_sub_cancel])
    simp only [permsOf, List.mem_flatMap, List.mem_map]
    constructor
    · rintro ⟨x, hx, r, hr, rfl⟩
      exact List.cons_perm_iff_perm_erase.2 ⟨hx, (hrest hx).1 hr⟩
    · intro hp
      cases p with
      | nil => rw [← hp.length_eq] at hl; cases hl
      | cons x r =>
        obtain ⟨hx, hr⟩ := List.cons_perm_iff_perm_erase.1 hp
        exact ⟨x, hx, r, (hrest hx).2 hr, rfl⟩

/-- The first entry decides between two blocks, and within a block the rest does. -/
theorem pairwise_lt_permsOf (n : Nat) : ∀ {l : List Nat}, l.Pairwise (· < ·) → (permsOf n l).Pairwise (· < ·) := by
  induction n with
  | zero => exact fun _ => List.pairwise_singleton _ _
  | succ n ih =>
    intro l hl
    rw [permsOf, List.pairwise_flatMap]
    refine ⟨fun x _ => ?_, hl.imp fun {x y} hxy p hp q hq => ?_⟩
    · have hrest := ih (hl.sublist (List.erase_sublist (a := x)))
      exact List.pairwise_map.2 (hrest.imp fun h => List.cons_lt_cons_iff.2 (.inr ⟨rfl, h⟩))
    · obtain ⟨p', -, rfl⟩ := List.mem_map.1 hp
      obtain ⟨q', -, rfl⟩ := List.mem_map.1 hq
      exact List.cons_lt_cons_iff.2 (.inl hxy)

theorem mem_perms {m : Nat} {p : List Nat} : p ∈ perms m ↔ p.Perm (List.range m) := mem_permsOf m List.length_range

/-- Settles O46, for every number of modes. -/
theorem permutationsAreInLexicographicOrder : Obligations.PermutationsAreInLexicographicOrder := fun m =>
  ⟨length_permsOf m List.length_range, fun _ => mem_perms.1, pairwise_lt_permsOf m List.pairwise_lt_range⟩

end Sys2Proof.Machine
end

section
/-! PROOFS. ESTIMATE (spec/43_performance.md R242 to R251, R260, R270): the score of an alignment over its symbols, the
alignments that are scored, the loop that keeps the earliest unbeaten one, and everything the command then writes. -/

namespace Sys2Proof.Machine

/-! ## The order of scores (R248) -/

namespace Score

/-- The symbol error rate of a score as a number (R250). -/
def rate (a : Score) : ℚ := a.err / a.sym

theorem better_iff (a b : Score) : a.better b = true ↔
    a.err * b.sym < b.err * a.sym ∨ (a.err * b.sym = b.err * a.sym ∧ a.ep.lt b.ep = true) := by
  rw [better, Bool.or_eq_true, Bool.and_eq_true, decide_eq_true_iff, decide_eq_true_iff]

variable {a b c : Score}

/-- The cross products of R248 compare the rates. -/
theorem better_iff_rate (ha : 0 < a.sym) (hb : 0 < b.sym) :
    a.better b = true ↔ a.rate < b.rate ∨ (a.rate = b.rate ∧ a.ep.lt b.ep = true) := by
  have ha' : (0 : ℚ) < a.sym := Nat.cast_pos.2 ha
  have hb' : (0 : ℚ) < b.sym := Nat.cast_pos.2 hb
  rw [better_iff, rate, rate, div_lt_div_iff₀ ha' hb', div_eq_div_iff ha'.ne' hb'.ne']
  norm_cast

theorem better_self (a : Score) : a.better a = false := by
  rw [Bool.eq_false_iff, ne_eq, better_iff, F64.lt_self]
  simp

theorem better_trans (ha : 0 < a.sym) (hb : 0 < b.sym) (hc : 0 < c.sym) (hab : a.better b = true)
    (hbc : b.better c = true) : a.better c = true := by
  rw [better_iff_rate ha hb] at hab
  rw [better_iff_rate hb hc] at hbc
  rw [better_iff_rate ha hc]
  rcases hab with hab | ⟨hab, hep⟩
  · exact .inl (hab.trans_le (hbc.elim le_of_lt fun h => h.1.le))
  · rw [hab]
    exact hbc.imp_right fun ⟨h, hep'⟩ => ⟨h, F64.lt_trans hep hep'⟩

/-- A score that does not beat `b`, and whose error power is a number, is beaten by whatever beats `b`. -/
theorem better_of_not_better (ha : 0 < a.sym) (hb : 0 < b.sym) (hc : 0 < c.sym) (hab : a.better b = true)
    (hcb : c.better b = false) (hnan : c.ep.isNaN = false) : a.better c = true := by
  rw [better_iff_rate ha hb] at hab
  rw [Bool.eq_false_iff, ne_eq, better_iff_rate hc hb, not_or, not_lt] at hcb
  rw [better_iff_rate ha hc]
  obtain ⟨hle, hep⟩ := hcb
  rcases hab with hab | ⟨hab, hab'⟩
  · exact .inl (hab.trans_le hle)
  · rcases hle.lt_or_eq with hlt | heq
    · exact .inl (hab.trans_lt hlt)
    · have hnot : c.ep.lt b.ep = false := Bool.eq_false_iff.2 fun h => hep ⟨heq.symm, h⟩
      exact .inr ⟨hab.trans heq, F64.lt_of_lt_of_not_lt hab' hnot hnan⟩

end Score

namespace State

variable {s t : State} {synced acc : Bool} {al : Alignment} {sc : Score}

/-! ## A score (R247) -/

/-- The symbols a score counts: t slowest, then the pair set in order (R247). -/
def scoredPairs (s : State) (delta : Int) : List (Nat × Nat) :=
  (List.range s.modes).flatMap fun t => (s.pairSet delta).map fun k => (t, k)

theorem mem_scoredPairs {delta : Int} {p : Nat × Nat} :
    p ∈ s.scoredPairs delta ↔ p.1 < s.modes ∧ p.2 ∈ s.pairSet delta := by
  obtain ⟨t, k⟩ := p
  simp [scoredPairs]

theorem length_scoredPairs (s : State) (delta : Int) :
    (s.scoredPairs delta).length = s.modes * (s.pairSet delta).length := by
  simp [scoredPairs, List.length_flatMap]

/-- The symbols an alignment compares, and the decisions on them, are there: outputs `o`, references `f`, decisions
`dz` of the rotated outputs and `ds` of the references. -/
def Compares (s : State) (al : Alignment) (o f : Nat → Nat → Cplx) (dz ds : Nat → Nat → Nat) : Prop :=
  ∀ t k, t < s.modes → k ∈ s.pairSet al.delta →
    s.outSym (al.perm.getD t 0) k = .ok (o t k) ∧ s.refSym t ((k : Int) + al.delta).toNat = .ok (f t k) ∧
    s.decideIndex ((s.rot al.rot).mul (o t k)) = .ok (dz t k) ∧ s.decideIndex (f t k) = .ok (ds t k)

/-- The score of R247 over the symbols themselves. -/
def scoreSum (s : State) (al : Alignment) (o f : Nat → Nat → Cplx) (dz ds : Nat → Nat → Nat) : Score :=
  { err := ((s.scoredPairs al.delta).filter fun p => dz p.1 p.2 != ds p.1 p.2).length
    sym := (s.scoredPairs al.delta).length
    sig := realSum ((s.scoredPairs al.delta).map fun p => (f p.1 p.2).abs2)
    ep := realSum ((s.scoredPairs al.delta).map fun p => (((s.rot al.rot).mul (o p.1 p.2)).sub (f p.1 p.2)).abs2) }

/-- The accumulation of one pair after another, in closed form. -/
theorem foldl_score {α : Type} (d : α → Bool) (x y : α → F64) (l : List α) (sc : Score) :
    l.foldl (fun sc p => ⟨if d p then sc.err + 1 else sc.err, sc.sym + 1, sc.sig.add (x p), sc.ep.add (y p)⟩) sc =
      ⟨sc.err + (l.filter d).length, sc.sym + l.length, (l.map x).foldl F64.add sc.sig,
        (l.map y).foldl F64.add sc.ep⟩ := by
  induction l generalizing sc with
  | nil => rfl
  | cons p l ih =>
    rw [List.foldl_cons, ih]
    cases hd : d p with
    | true => simp [hd, Nat.add_assoc, Nat.add_comm 1]
    | false => simp [hd, Nat.add_assoc, Nat.add_comm 1]

theorem Compares.scoreOf {o f : Nat → Nat → Cplx} {dz ds : Nat → Nat → Nat} (h : s.Compares al o f dz ds) :
    s.scoreOf al = .ok (s.scoreSum al o f dz ds) := by
  rw [State.scoreOf, foldlM_ok (g := fun sc p => ⟨if dz p.1 p.2 != ds p.1 p.2 then sc.err + 1 else sc.err, sc.sym + 1,
    sc.sig.add (f p.1 p.2).abs2, sc.ep.add (((s.rot al.rot).mul (o p.1 p.2)).sub (f p.1 p.2)).abs2⟩), foldl_score]
  · simp only [Nat.zero_add]; rfl
  · rintro sc ⟨t, k⟩ hp
    obtain ⟨ht, hk⟩ := mem_scoredPairs.1 hp
    obtain ⟨ho, hf, hz, hs⟩ := h t k ht hk
    simp only [ho, hf, hz, hs, ok_bind, bne_iff_ne, ne_eq]
    rfl

/-! ## Pair sets and alignments (R243 to R246) -/

theorem pairwise_pairSet (s : State) (delta : Int) : (s.pairSet delta).Pairwise (· < ·) := by
  refine List.Pairwise.filter _ (List.pairwise_map.2 (List.pairwise_lt_range.imp fun h => ?_))
  omega

theorem mem_pairSet {delta : Int} {k : Nat} : k ∈ s.pairSet delta ↔
    s.estStart ≤ k ∧ k < s.estStart + s.estLen ∧ 0 ≤ (k : Int) + delta ∧ (k : Int) + delta < s.refLen := by
  simp only [pairSet, List.mem_filter, List.mem_map, List.mem_range, Bool.and_eq_true, decide_eq_true_eq,
    Int.le_sub_one_iff]
  constructor
  · rintro ⟨⟨i, hi, rfl⟩, h⟩
    exact ⟨by omega, by omega, h⟩
  · rintro ⟨h1, h2, h⟩
    exact ⟨⟨k - s.estStart, by omega, by omega⟩, h⟩

theorem length_pairSet_le (s : State) (delta : Int) : (s.pairSet delta).length ≤ s.estLen := by
  have h := List.length_filter_le (fun k : Nat => decide (0 ≤ (k : Int) + delta) &&
    decide ((k : Int) + delta ≤ (s.refLen : Int) - 1)) ((List.range s.estLen).map fun i => s.estStart + i)
  rwa [List.length_map, List.length_range] at h

theorem mem_delaySet {delta : Int} : delta ∈ s.delaySet synced ↔
    if synced = true then delta = 0 else -(s.delayMax : Int) ≤ delta ∧ delta ≤ s.delayMax := by
  cases synced with
  | true => simp [delaySet]
  | false =>
    simp only [delaySet, Bool.false_eq_true, if_false, List.mem_map, List.mem_range]
    constructor
    · rintro ⟨i, hi, rfl⟩
      omega
    · intro h
      exact ⟨(delta + s.delayMax).toNat, by omega, by omega⟩

/-- The alignments of one delay: none when its pair set is empty (R246, R248). -/
def alignmentsAt (s : State) (delta : Int) : List Alignment :=
  if (s.pairSet delta).isEmpty then []
  else (perms s.modes).zipIdx.flatMap fun (p, i) => (List.range s.rotOrder).map fun q => ⟨delta, p, i, q⟩

theorem alignments_eq (s : State) (synced : Bool) :
    s.alignments synced = (s.delaySet synced).flatMap s.alignmentsAt := rfl

theorem mem_alignmentsAt {delta : Int} : al ∈ s.alignmentsAt delta ↔
    al.delta = delta ∧ s.pairSet al.delta ≠ [] ∧ (perms s.modes)[al.permIndex]? = some al.perm ∧ al.rot < s.rotOrder := by
  obtain ⟨d, p, i, q⟩ := al
  by_cases hempty : s.pairSet delta = []
  · simp only [alignmentsAt, hempty, List.isEmpty_nil, if_true, List.not_mem_nil, false_iff, not_and]
    rintro rfl h
    exact absurd hempty h
  · simp only [alignmentsAt, List.isEmpty_iff, hempty, if_false, List.mem_flatMap, List.mem_zipIdx_iff_getElem?,
      List.mem_map, List.mem_range, Alignment.mk.injEq, Prod.exists]
    constructor
    · rintro ⟨p, i, hp, q, hq, rfl, rfl, rfl, rfl⟩
      exact ⟨rfl, hempty, hp, hq⟩
    · rintro ⟨rfl, -, hp, hq⟩
      exact ⟨p, i, hp, q, hq, rfl, rfl, rfl, rfl⟩

theorem mem_alignments : al ∈ s.alignments synced ↔
    (if synced = true then al.delta = 0 else -(s.delayMax : Int) ≤ al.delta ∧ al.delta ≤ s.delayMax) ∧
    s.pairSet al.delta ≠ [] ∧ (perms s.modes)[al.permIndex]? = some al.perm ∧ al.rot < s.rotOrder := by
  simp only [alignments_eq, List.mem_flatMap, mem_alignmentsAt]
  constructor
  · rintro ⟨delta, hdelta, rfl, h⟩
    exact ⟨mem_delaySet.1 hdelta, h⟩
  · rintro ⟨hdelta, h⟩
    exact ⟨al.delta, mem_delaySet.2 hdelta, rfl, h⟩

/-- A permutation of the modes sends each mode to a mode. -/
theorem getD_perm_lt {p : List Nat} (hp : p ∈ perms s.modes) {t : Nat} (ht : t < s.modes) : p.getD t 0 < s.modes := by
  have hperm := mem_perms.1 hp
  have hlen : t < p.length := by rwa [hperm.length_eq, List.length_range]
  rw [List.getD_eq_getElem _ _ hlen]
  exact List.mem_range.1 (hperm.subset (List.getElem_mem hlen))

/-! ## The best alignment (R248, R249) -/

/-- `al`, with the score `sc`, is what R248's loop holds after the alignments `seen`: no other beats it, and it beats
every earlier one whose error power is a number. -/
structure BestOf (s : State) (seen : List Alignment) (sc : Score) (al : Alignment) : Prop where
  score : s.scoreOf al = .ok sc
  unbeaten : ∀ al' ∈ seen, ∃ sc', s.scoreOf al' = .ok sc' ∧ 0 < sc'.sym ∧ sc'.better sc = false
  earliest : ∃ before after, seen = before ++ al :: after ∧
    ∀ al' ∈ before, ∀ sc', s.scoreOf al' = .ok sc' → sc'.ep.isNaN = false → sc.better sc' = true

theorem BestOf.mem {seen : List Alignment} (h : s.BestOf seen sc al) : al ∈ seen := by
  obtain ⟨before, after, hsplit, -⟩ := h.earliest
  exact hsplit ▸ List.mem_append_right _ List.mem_cons_self

theorem BestOf.sym_pos {seen : List Alignment} (h : s.BestOf seen sc al) : 0 < sc.sym := by
  obtain ⟨sc', hsc', hpos, -⟩ := h.unbeaten al h.mem
  rw [h.score] at hsc'
  cases hsc'
  exact hpos

theorem bestOf_singleton (hsc : s.scoreOf al = .ok sc) (hpos : 0 < sc.sym) : s.BestOf [al] sc al where
  score := hsc
  unbeaten al' hal := by
    rw [List.mem_singleton.1 hal]
    exact ⟨sc, hsc, hpos, sc.better_self⟩
  earliest := ⟨[], [], rfl, fun _ h => absurd h List.not_mem_nil⟩

/-- A later alignment that is not better leaves the best one (R248). -/
theorem BestOf.concat_of_not_better {seen : List Alignment} {x : Alignment} {sx : Score} (h : s.BestOf seen sc al)
    (hx : s.scoreOf x = .ok sx) (hpos : 0 < sx.sym) (hnot : sx.better sc = false) : s.BestOf (seen ++ [x]) sc al where
  score := h.score
  unbeaten al' hal := by
    rcases List.mem_append.1 hal with hal | hal
    · exact h.unbeaten al' hal
    · rw [List.mem_singleton.1 hal]
      exact ⟨sx, hx, hpos, hnot⟩
  earliest := by
    obtain ⟨before, after, rfl, hbefore⟩ := h.earliest
    exact ⟨before, after ++ [x], by rw [List.append_assoc, List.cons_append], hbefore⟩

/-- A later alignment that is better takes its place (R248). -/
theorem BestOf.concat_of_better {seen : List Alignment} {x : Alignment} {sx : Score} (h : s.BestOf seen sc al)
    (hx : s.scoreOf x = .ok sx) (hpos : 0 < sx.sym) (hbetter : sx.better sc = true) : s.BestOf (seen ++ [x]) sx x where
  score := hx
  unbeaten al' hal := by
    rcases List.mem_append.1 hal with hal | hal
    · obtain ⟨sc', hsc', hpos', hnot⟩ := h.unbeaten al' hal
      refine ⟨sc', hsc', hpos', Bool.eq_false_iff.2 fun hb => Bool.eq_false_iff.1 hnot ?_⟩
      exact Score.better_trans hpos' hpos h.sym_pos hb hbetter
    · rw [List.mem_singleton.1 hal]
      exact ⟨sx, hx, hpos, sx.better_self⟩
  earliest := by
    refine ⟨seen, [], rfl, fun al' hal sc' hsc' hnan => ?_⟩
    obtain ⟨sc'', hsc'', hpos', hnot⟩ := h.unbeaten al' hal
    rw [hsc'] at hsc''
    cases hsc''
    exact Score.better_of_not_better hpos h.sym_pos hpos' hbetter hnot hnan

theorem BestOf.bestAlignment {seen rest : List Alignment} (h : s.BestOf seen sc al)
    (hrest : ∀ x ∈ rest, ∃ sx, s.scoreOf x = .ok sx ∧ 0 < sx.sym) :
    ∃ sc' al', s.bestAlignment rest (some (sc, al)) = .ok (some (sc', al')) ∧ s.BestOf (seen ++ rest) sc' al' := by
  induction rest generalizing seen sc al with
  | nil => exact ⟨sc, al, rfl, by rwa [List.append_nil]⟩
  | cons x rest ih =>
    rw [List.forall_mem_cons] at hrest
    obtain ⟨⟨sx, hx, hpos⟩, hrest⟩ := hrest
    rw [State.bestAlignment, hx, ok_bind, List.append_cons]
    cases hb : sx.better sc with
    | true => simpa only [hb, if_true] using ih (h.concat_of_better hx hpos hb) hrest
    | false => simpa only [hb, Bool.false_eq_true, if_false] using ih (h.concat_of_not_better hx hpos hb) hrest

/-- Where every alignment has a score, the loop answers the earliest unbeaten one. -/
theorem exists_bestAlignment {als : List Alignment} (hne : als ≠ [])
    (h : ∀ x ∈ als, ∃ sx, s.scoreOf x = .ok sx ∧ 0 < sx.sym) :
    ∃ sc al, s.bestAlignment als none = .ok (some (sc, al)) ∧ s.BestOf als sc al := by
  obtain ⟨x, rest, rfl⟩ := List.exists_cons_of_ne_nil hne
  rw [List.forall_mem_cons] at h
  obtain ⟨⟨sx, hx, hpos⟩, hrest⟩ := h
  rw [State.bestAlignment, hx, ok_bind]
  exact (bestOf_singleton hx hpos).bestAlignment hrest

/-! ## What validation has established (R138) -/

/-- The bounds of ESTIMATE's checks. -/
structure EstimateBounds (s : State) : Prop where
  modes_pos : 1 ≤ s.modes
  modes : s.modes ≤ Config.mMax
  constSize : 1 ≤ s.constSize
  rotOrder_pos : 1 ≤ s.rotOrder
  rotOrder : s.rotOrder ≤ Config.rotMax
  estLen : s.estLen ≤ Config.lMax

theorem estimateBounds_of_passes (h : s.passes (.estimate synced acc)) : s.EstimateBounds := by
  have hcheck : ∀ c ∈ estimateChecks synced, s.checkFails c = .ok false := h
  simp only [estimateChecks, List.forall_mem_append, List.forall_mem_cons, State.checkFails, Except.ok.injEq,
    Bool.or_eq_false_iff, decide_eq_false_iff_not, not_lt] at hcheck
  obtain ⟨⟨-, ⟨hm, hm'⟩, hframe, ⟨hq, -⟩, ⟨hr, hr'⟩, ⟨-, hwindow⟩, -⟩, -⟩ := hcheck
  exact ⟨by omega, hm', by omega, by omega, hr', by omega⟩

/-- Checks 22 and 24, or 25, leave a delay with a pair to score (R249). -/
theorem exists_pairSet_of_passes (h : s.passes (.estimate synced acc)) :
    ∃ delta ∈ s.delaySet synced, s.pairSet delta ≠ [] := by
  have hcheck : ∀ c ∈ estimateChecks synced, s.checkFails c = .ok false := h
  rw [estimateChecks, List.forall_mem_append] at hcheck
  obtain ⟨hbase, hlast⟩ := hcheck
  cases synced with
  | true =>
    have hwindow := hbase .estWindow (by decide)
    have hshort := hlast .refShort (by decide)
    simp only [State.checkFails, Except.ok.injEq, Bool.or_eq_false_iff, decide_eq_false_iff_not, not_lt] at hwindow hshort
    exact ⟨0, mem_delaySet.2 rfl, List.ne_nil_of_mem (mem_pairSet.2 ⟨le_refl s.estStart, by omega, by omega, by omega⟩)⟩
  | false =>
    have hoverlap := hlast .noOverlap (by decide)
    simp only [State.checkFails, Except.ok.injEq, List.all_eq_false, List.isEmpty_iff] at hoverlap
    exact hoverlap

theorem alignments_ne_nil (h : s.passes (.estimate synced acc)) : s.alignments synced ≠ [] := by
  have hb := estimateBounds_of_passes h
  obtain ⟨delta, hdelta, hpairs⟩ := exists_pairSet_of_passes h
  obtain ⟨i, hi⟩ := List.getElem?_of_mem (mem_perms.2 (List.Perm.refl (List.range s.modes)))
  exact List.ne_nil_of_mem (mem_alignments.2 ⟨mem_delaySet.1 hdelta, hpairs, hi, hb.rotOrder_pos⟩ :
    (⟨delta, List.range s.modes, i, 0⟩ : Alignment) ∈ _)

/-! ## Written inputs (R288) -/

theorem point_of_constWritten (h : s.constWritten) {q : Nat} (hq : q < s.constSize) : ∃ p, s.point q = .ok p := by
  obtain ⟨p, hp, -⟩ := readCplx_of_isWritten (h q hq)
  exact ⟨p, hp⟩

theorem exists_decideIndex (h : s.constWritten) (hsize : 1 ≤ s.constSize) (z : Cplx) : ∃ q, s.decideIndex z = .ok q := by
  obtain ⟨p, hp⟩ := point_of_constWritten h hsize
  have hstep : ∀ (best : Nat × F64), ∀ q ∈ List.range' 1 (s.constSize - 1), True →
      ∃ best', s.decideStep z best q = .ok best' ∧ True := by
    intro best q hq _
    obtain ⟨c, hc⟩ := point_of_constWritten h (q := q) (by have := List.mem_range'_1.1 hq; omega)
    exact ⟨_, by rw [decideStep, distanceTo_of_point hc, ok_bind]; rfl, trivial⟩
  obtain ⟨best, hbest, -⟩ := foldlM_goes_on (fun _ => True) hstep (b := (0, (z.sub p).abs2)) trivial
  exact ⟨best.1, by rw [decideIndex_eq, distanceTo_of_point hp, ok_bind, hbest]; rfl⟩

/-- Every alignment ESTIMATE scores has its symbols and decisions. -/
theorem exists_compares (hb : s.EstimateBounds) (hw : s.inputsWritten (.estimate synced acc))
    (hal : al ∈ s.alignments synced) : ∃ o f dz ds, s.Compares al o f dz ds := by
  obtain ⟨hconst, houts, hrefs⟩ := hw
  obtain ⟨-, -, hperm, -⟩ := mem_alignments.1 hal
  have hdata : ∀ t k, ∃ (o f : Cplx) (dz ds : Nat), t < s.modes → k ∈ s.pairSet al.delta →
      s.outSym (al.perm.getD t 0) k = .ok o ∧ s.refSym t ((k : Int) + al.delta).toNat = .ok f ∧
      s.decideIndex ((s.rot al.rot).mul o) = .ok dz ∧ s.decideIndex f = .ok ds := by
    intro t k
    by_cases h : t < s.modes ∧ k ∈ s.pairSet al.delta
    · obtain ⟨ht, hk⟩ := h
      obtain ⟨h1, h2, h3, h4⟩ := mem_pairSet.1 hk
      obtain ⟨o, ho, -⟩ := readCplx_of_isWritten (houts _ k (getD_perm_lt (List.mem_of_getElem? hperm) ht) h1 h2)
      obtain ⟨f, hf, -⟩ := readCplx_of_isWritten (hrefs t ((k : Int) + al.delta).toNat ht (by omega))
      obtain ⟨dz, hz⟩ := exists_decideIndex hconst hb.constSize ((s.rot al.rot).mul o)
      obtain ⟨ds, hs⟩ := exists_decideIndex hconst hb.constSize f
      exact ⟨o, f, dz, ds, fun _ _ => ⟨ho, hf, hz, hs⟩⟩
    · exact ⟨Cplx.zero, Cplx.zero, 0, 0, fun ht hk => absurd ⟨ht, hk⟩ h⟩
  choose o f dz ds hcompares using hdata
  exact ⟨o, f, dz, ds, hcompares⟩

theorem exists_score (hb : s.EstimateBounds) (hw : s.inputsWritten (.estimate synced acc))
    (hal : al ∈ s.alignments synced) : ∃ sc, s.scoreOf al = .ok sc := by
  obtain ⟨o, f, dz, ds, h⟩ := exists_compares hb hw hal
  exact ⟨_, h.scoreOf⟩

theorem exists_scoreSum (hb : s.EstimateBounds) (hw : s.inputsWritten (.estimate synced acc))
    (hal : al ∈ s.alignments synced) (hsc : s.scoreOf al = .ok sc) :
    ∃ o f dz ds, s.Compares al o f dz ds ∧ sc = s.scoreSum al o f dz ds := by
  obtain ⟨o, f, dz, ds, h⟩ := exists_compares hb hw hal
  exact ⟨o, f, dz, ds, h, Except.ok.inj (hsc.symm.trans h.scoreOf)⟩

/-- What the score of a scored alignment satisfies: as many symbols as pairs, of which there is one, at most as many
errors, and powers binary64 can hold (R247). -/
structure Counts (s : State) (al : Alignment) (sc : Score) : Prop where
  sym : sc.sym = s.modes * (s.pairSet al.delta).length
  sym_pos : 0 < sc.sym
  err : sc.err ≤ sc.sym
  sig : sc.sig.Valid
  ep : sc.ep.Valid

theorem realSum_valid (xs : List F64) : (realSum xs).Valid :=
  foldl_keeps F64.Valid _ _ (fun _ _ _ _ => F64.add_valid) F64.valid_zero

theorem counts_of_score (hb : s.EstimateBounds) (hw : s.inputsWritten (.estimate synced acc))
    (hal : al ∈ s.alignments synced) (hsc : s.scoreOf al = .ok sc) : s.Counts al sc := by
  obtain ⟨o, f, dz, ds, -, rfl⟩ := exists_scoreSum hb hw hal hsc
  obtain ⟨-, hpairs, -, -⟩ := mem_alignments.1 hal
  have hsym : (s.scoreSum al o f dz ds).sym = s.modes * (s.pairSet al.delta).length := length_scoredPairs s al.delta
  refine ⟨hsym, ?_, List.length_filter_le _ _, realSum_valid _, realSum_valid _⟩
  rw [hsym]
  exact Nat.mul_pos hb.modes_pos (List.length_pos_of_ne_nil hpairs)

/-! ## What the command writes (R249 to R251, R260, R270) -/

/-- The bits of EST_SNR (R251). -/
def snrBits (s : State) (sig ep : F64) : Bits64 :=
  if ep.eqv F64.zero = true then 0 else s.realBits (Reg.estSnr .lo).offset (sig.div ep)

theorem writeSnr_eq_snrBits (sig ep : F64) (s : State) : s.writeSnr sig ep =
    { s with
      perfRes := { s.perfRes with snr := s.snrBits sig ep }
      status := { s.status with snrInf := ep.eqv F64.zero } } := by
  rw [writeSnr, snrBits]
  cases ep.eqv F64.zero with
  | true => rfl
  | false => rfl

theorem ofBits_snrBits (s : State) (sig ep : F64) :
    F64.ofBits (s.snrBits sig ep) = if ep.eqv F64.zero = true then F64.zero else sig.div ep := by
  unfold snrBits
  split
  · rfl
  · exact realBits_ofBits s _ F64.div_valid

/-- The PERF results of the best alignment (R249 to R251). -/
def perfAfter (s : State) (sc : Score) (al : Alignment) : PerfResults :=
  { (s.writeEstimate sc al).perfRes with snr := s.snrBits sc.sig sc.ep }

/-- The accumulators after an ESTIMATE (R270). -/
def accAfter (s : State) (acc : Bool) (sc : Score) : Accumulators := if acc = true then (s.accumulate sc).acc else s.acc

/-- ESTIMATE completed on its best alignment (R132, R260). -/
def afterEstimate (s : State) (acc : Bool) (sc : Score) (al : Alignment) : State :=
  { s with
    status := { s.status with estValid := true, snrInf := sc.ep.eqv F64.zero }
    perfRes := s.perfAfter sc al
    acc := s.accAfter acc sc
    err := ⟨0, 0⟩
    engine := .idle
    abortReq := false
    irqStatus := { s.irqStatus with done := true }
    draws := s.draws + 1 }

theorem estimateBody_of_best (h : s.bestAlignment (s.alignments synced) none = .ok (some (sc, al))) :
    ∃ u, s.estimateBody synced acc = .ok (u, none) ∧ u.complete = s.afterEstimate acc sc al := by
  refine ⟨_, by rw [estimateBody, h, ok_bind]; rfl, ?_⟩
  simp only [complete_eq, writeSnr_eq_snrBits]
  cases acc with
  | true => rfl
  | false => rfl

/-- The scores do not look at STATUS. -/
theorem bestAlignment_withStatus (s : State) (st : Status) (als : List Alignment) (best : Option (Score × Alignment)) :
    bestAlignment { s with status := st } als best = s.bestAlignment als best := by
  have hscore : scoreOf { s with status := st } = s.scoreOf := rfl
  induction als generalizing best with
  | nil => rfl
  | cons al als ih => simp only [bestAlignment, hscore, ih]

/-- ESTIMATE completes on the earliest unbeaten alignment when every alignment has a score. -/
theorem exec_estimate_of_scores (hpass : s.passes (.estimate synced acc))
    (h : ∀ al ∈ s.alignments synced, ∃ sc, s.scoreOf al = .ok sc ∧ 0 < sc.sym) :
    ∃ sc al, exec (.estimate synced acc) s = .next (s.afterEstimate acc sc al) ∧
      s.BestOf (s.alignments synced) sc al := by
  obtain ⟨sc, al, hbest, hof⟩ := exists_bestAlignment (alignments_ne_nil hpass) h
  have hbest' : bestAlignment (s.setEstValid false) (s.alignments synced) none = .ok (some (sc, al)) :=
    (bestAlignment_withStatus s _ _ _).trans hbest
  obtain ⟨u, hu, hcomplete⟩ := estimateBody_of_best (s := s.setEstValid false) (synced := synced) (acc := acc) hbest'
  refine ⟨sc, al, ?_, hof⟩
  rw [exec_of_passes hpass]
  change finish ((s.setEstValid false).estimateBody synced acc) = _
  rw [hu, finish_success, hcomplete]
  rfl

/-! ## The values of the results -/

theorem Counts.sym_lt (hc : s.Counts al sc) (hb : s.EstimateBounds) : sc.sym < 2 ^ 32 := by
  have hlen := (length_pairSet_le s al.delta).trans hb.estLen
  have hcount : s.modes * (s.pairSet al.delta).length ≤ 2 * 16384 := Nat.mul_le_mul hb.modes hlen
  rw [hc.sym]
  omega

theorem toNat_best (hb : s.EstimateBounds) (hal : al ∈ s.alignments synced) :
    (s.perfAfter sc al).best.toNat = al.rot + 2 ^ 8 * al.permIndex := by
  obtain ⟨-, -, hperm, hrot⟩ := mem_alignments.1 hal
  have hcount : (perms s.modes).length ≤ 2 := by
    rw [perms, length_permsOf s.modes List.length_range]
    exact Nat.factorial_le hb.modes
  obtain ⟨hi, -⟩ := List.getElem?_eq_some_iff.1 hperm
  have hrot' : s.rotOrder ≤ 8 := hb.rotOrder
  change (word (al.permIndex % 2 ^ 8 * 2 ^ 8 + al.rot % 2 ^ 8)).toNat = _
  rw [toNat_word (by omega)]
  omega

theorem toInt_delay (hal : al ∈ s.alignments synced) : (s.perfAfter sc al).delay.toInt = al.delta := by
  obtain ⟨hdelta, -⟩ := mem_alignments.1 hal
  have hmax : s.delayMax < 2 ^ 16 := s.cfg.delayMax.isLt
  have hrange : -(s.delayMax : Int) ≤ al.delta ∧ al.delta ≤ s.delayMax := by
    split at hdelta
    · omega
    · exact hdelta
  change (BitVec.ofInt 32 al.delta).toInt = al.delta
  rw [BitVec.toInt_ofInt]
  exact Int.bmod_eq_of_le (by omega) (by omega)

end State

/-- Settles O47: the loop holds the earliest unbeaten alignment, and the results are those of its score. -/
theorem estimateReportsTheBestAlignment : Obligations.EstimateReportsTheBestAlignment := by
  refine ⟨fun s al o f dz ds h => State.Compares.scoreOf h,
    fun s delta => ⟨State.pairwise_pairSet s delta, fun _ => State.mem_pairSet⟩, fun s synced al => State.mem_alignments,
    Score.better_iff, fun s synced acc hpass hw => ?_⟩
  have hb := State.estimateBounds_of_passes hpass
  obtain ⟨sc, al, hexec, hbest⟩ := State.exec_estimate_of_scores hpass fun al hal => by
    obtain ⟨sc, hsc⟩ := State.exists_score hb hw hal
    exact ⟨sc, hsc, (State.counts_of_score hb hw hal hsc).sym_pos⟩
  have hc := State.counts_of_score hb hw hbest.mem hbest.score
  have hsym := hc.sym_lt hb
  obtain ⟨before, after, hsplit, hearliest⟩ := hbest.earliest
  refine ⟨_, sc, al, before, after, hexec, hsplit, hbest.score, fun al' hal' => ?_, hearliest, rfl, hc.sym, hc.sym_pos,
    hc.err, State.toNat_word (hc.err.trans_lt hsym), State.toNat_word hsym, State.realBits_ofBits s _ F64.div_valid,
    State.realBits_ofBits s _ hc.sig, State.realBits_ofBits s _ hc.ep, State.ofBits_snrBits s _ _,
    State.toNat_best hb hbest.mem, State.toInt_delay hbest.mem, ?_, ?_⟩
  · obtain ⟨sc', hsc', -, hnot⟩ := hbest.unbeaten al' hal'
    exact ⟨sc', hsc', hnot⟩
  · rintro rfl
    rfl
  · rintro rfl
    refine ⟨?_, ?_, State.realBits_ofBits s _ F64.add_valid, State.realBits_ofBits s _ F64.add_valid, ?_⟩
    · exact (BitVec.toNat_add _ _).trans (by rw [BitVec.toNat_ofNat, Nat.add_mod_mod])
    · exact (BitVec.toNat_add _ _).trans (by rw [BitVec.toNat_ofNat, Nat.add_mod_mod])
    · exact BitVec.toNat_add _ _

end Sys2Proof.Machine
end

section
/-! PROOFS. Multiplying by the quarter turns (spec/00_scope.md R14, R15; spec/43_performance.md R272): the product with
1, i, -1 or -i of a finite number is exact up to the signs of zeros, so a closed table of them is exact. -/

namespace Sys2Proof.Machine

namespace F64

theorem neg_neg (a : F64) : a.neg.neg = a := by cases a <;> simp [neg]

theorem round_not (s : Bool) (n d : Nat) : round (!s) n d = (round s n d).neg := by
  rw [round_eq, round_eq]
  split
  · rfl
  · rfl

theorem neg_mul (a b : F64) : a.neg.mul b = (a.mul b).neg := by
  cases a <;> cases b
  case inf.fin => simp only [neg, mul, Bool.not_xor]; split <;> rfl
  case fin.inf => simp only [neg, mul, Bool.not_xor]; split <;> rfl
  all_goals simp [neg, mul, round_not]

theorem Same.neg {a b : F64} (h : a.Same b) : a.neg.Same b.neg :=
  h.imp (congrArg F64.neg) fun ⟨ha, hb⟩ => ⟨ha.neg, hb.neg⟩

theorem Same.eq_of_not_isZero {a b : F64} (h : a.Same b) (hb : ¬ b.IsZero) : a = b := h.resolve_right fun h => hb h.2

theorem not_isZero_oneVal : ¬ oneVal.IsZero := fun ⟨_, h⟩ => one_pos.ne' (F64.fin.inj h).2

theorem not_isZero_neg_oneVal : ¬ oneVal.neg.IsZero := fun ⟨_, h⟩ => one_pos.ne' (F64.fin.inj h).2

theorem neg_oneVal_mul {a : F64} (hv : a.Valid) : oneVal.neg.mul a = a.neg := by rw [neg_mul, oneVal_mul hv]

theorem sub_isZero {a z : F64} (hv : a.Valid) (hz : z.IsZero) : (a.sub z).Same a := add_isZero hv hz.neg

theorem isZero_sub {a z : F64} (hv : a.Valid) (hz : z.IsZero) : (z.sub a).Same a.neg := isZero_add (neg_valid hv) hz

end F64

namespace Cplx

/-- A number turned by `i` quarter turns. -/
def turn : Fin 4 → Cplx → Cplx
  | 0, a => a
  | 1, a => ⟨a.im.neg, a.re⟩
  | 2, a => ⟨a.re.neg, a.im.neg⟩
  | 3, a => ⟨a.im, a.re.neg⟩

variable {a b z : Cplx}

theorem turn_turn (i j : Fin 4) (a : Cplx) : turn i (turn j a) = turn (i + j) a := by
  fin_cases i <;> fin_cases j <;> simp [turn, F64.neg_neg]

theorem turn_four : ∀ i j : Fin 4, i + j + j + j + j = i := by decide

theorem Same.turn (h : a.Same b) (i : Fin 4) : (turn i a).Same (turn i b) := by
  obtain ⟨hre, him⟩ := h
  fin_cases i
  · exact ⟨hre, him⟩
  · exact ⟨him.neg, hre⟩
  · exact ⟨hre.neg, him.neg⟩
  · exact ⟨him, hre.neg⟩

theorem isFinite_turn (ha : a.isFinite = true) (i : Fin 4) : (turn i a).isFinite = true := by
  obtain ⟨hre, him⟩ := isFinite_iff.1 ha
  fin_cases i <;> simp [turn, isFinite, F64.isFinite_neg, hre, him]

theorem exists_turn_of_isQuarterTurn (h : z.IsQuarterTurn) : ∃ i, z.Same (turn i one) := by
  rcases h with h | h | h | h
  · exact ⟨0, same_of_eqv h⟩
  · exact ⟨2, (same_of_eqv h).1, (same_of_eqv h).2.trans (.inr ⟨F64.isZero_zero, F64.isZero_zero.neg⟩)⟩
  · exact ⟨1, (same_of_eqv h).1.trans (.inr ⟨F64.isZero_zero, F64.isZero_zero.neg⟩), (same_of_eqv h).2⟩
  · exact ⟨3, (same_of_eqv h).1, (same_of_eqv h).2⟩

/-- Multiplying a finite number by a quarter turn turns it. -/
theorem mul_same_turn {i : Fin 4} (hz : z.Same (turn i one)) (hv : a.Valid) (ha : a.isFinite = true) :
    (z.mul a).Same (turn i a) := by
  obtain ⟨hre, him⟩ := isFinite_iff.1 ha
  obtain ⟨hzre, hzim⟩ := hz
  have hone : ∀ {x : F64}, x.Same F64.oneVal → x = F64.oneVal := fun h => h.eq_of_not_isZero F64.not_isZero_oneVal
  have hneg : ∀ {x : F64}, x.Same F64.oneVal.neg → x = F64.oneVal.neg := fun h =>
    h.eq_of_not_isZero F64.not_isZero_neg_oneVal
  fin_cases i
  · have hzero := hzim.isZero F64.isZero_zero
    rw [mul, hone hzre, F64.oneVal_mul hv.1, F64.oneVal_mul hv.2]
    exact ⟨F64.sub_isZero hv.1 (hzero.mul him), F64.add_isZero hv.2 (hzero.mul hre)⟩
  · have hzero := hzre.isZero F64.isZero_zero.neg
    rw [mul, hone hzim, F64.oneVal_mul hv.1, F64.oneVal_mul hv.2]
    exact ⟨F64.isZero_sub hv.2 (hzero.mul hre), F64.isZero_add hv.1 (hzero.mul him)⟩
  · have hzero := hzim.isZero F64.isZero_zero.neg
    rw [mul, hneg hzre, F64.neg_oneVal_mul hv.1, F64.neg_oneVal_mul hv.2]
    exact ⟨F64.sub_isZero (F64.neg_valid hv.1) (hzero.mul him), F64.add_isZero (F64.neg_valid hv.2) (hzero.mul hre)⟩
  · have hzero := hzre.isZero F64.isZero_zero
    rw [mul, hneg hzim, F64.neg_oneVal_mul hv.1, F64.neg_oneVal_mul hv.2]
    have hsub := F64.isZero_sub (F64.neg_valid hv.2) (hzero.mul hre)
    rw [F64.neg_neg] at hsub
    exact ⟨hsub, F64.isZero_add (F64.neg_valid hv.1) (hzero.mul him)⟩

theorem isFinite_one : one.isFinite = true := rfl

end Cplx

namespace State

variable {s : State} {g q p : Nat}

theorem rot_valid (s : State) (q : Nat) : (s.rot q).Valid := ⟨F64.ofBits_valid _, F64.ofBits_valid _⟩

/-- Entry `p` is entry `q` times entry `g`, exactly so on every symbol of the window (R272). -/
def Turned (s : State) (g q p : Nat) : Prop :=
  (s.rot p).eqv ((s.rot q).mul (s.rot g)) = true ∧
    ∀ t k x, t < s.modes → s.estStart ≤ k → k < s.estStart + s.estLen → s.outSym t k = .ok x →
      ((s.rot q).mul ((s.rot g).mul x)).eqv ((s.rot p).mul x) = true

theorem rotatesExactly_iff : s.RotatesExactly g ↔
    (∀ q, q < s.rotOrder → ∃ p, p < s.rotOrder ∧ s.Turned g q p) ∧
      ∀ p, p < s.rotOrder → ∃ q, q < s.rotOrder ∧ s.Turned g q p := Iff.rfl

/-- The product of two quarter turns of the table. -/
theorem rot_mul_same {i j : Fin 4} (hq : (s.rot q).Same (Cplx.turn i Cplx.one))
    (hg : (s.rot g).Same (Cplx.turn j Cplx.one)) :
    ((s.rot q).mul (s.rot g)).Same (Cplx.turn (i + j) Cplx.one) := by
  have hfin := hg.isFinite (Cplx.isFinite_turn Cplx.isFinite_one j)
  have hmul := (Cplx.mul_same_turn hq (rot_valid s g) hfin).trans (hg.turn i)
  rwa [Cplx.turn_turn] at hmul

theorem turned_of_turns {i j : Fin 4}
    (hfin : ∀ t k x, t < s.modes → s.estStart ≤ k → k < s.estStart + s.estLen → s.outSym t k = .ok x →
      x.isFinite = true)
    (hq : (s.rot q).Same (Cplx.turn i Cplx.one)) (hg : (s.rot g).Same (Cplx.turn j Cplx.one))
    (hp : (s.rot p).Same (Cplx.turn (i + j) Cplx.one)) : s.Turned g q p := by
  have hproduct := rot_mul_same hq hg
  refine ⟨(hp.trans hproduct.symm).eqv (hproduct.isFinite (Cplx.isFinite_turn Cplx.isFinite_one _)), ?_⟩
  intro t k x ht h1 h2 ho
  have hx := hfin t k x ht h1 h2 ho
  have hv : x.Valid := readCplx_valid ho
  have hgx := Cplx.mul_same_turn hg hv hx
  have hpx := Cplx.mul_same_turn hp hv hx
  have hqgx := (Cplx.mul_same_turn hq Cplx.mul_valid (hgx.isFinite (Cplx.isFinite_turn hx j))).trans (hgx.turn i)
  rw [Cplx.turn_turn] at hqgx
  exact (hqgx.trans hpx.symm).eqv (hpx.isFinite (Cplx.isFinite_turn hx _))

/-- A table of quarter turns closed under multiplication is exact on finite symbols: the entry that turns into `p` is
`p` times the third power of entry `g`. -/
theorem rotatesExactly_of_quarterTurns (hg : g < s.rotOrder) (hturns : ∀ q, q < s.rotOrder → (s.rot q).IsQuarterTurn)
    (hclosed : ∀ q p, q < s.rotOrder → p < s.rotOrder →
      ∃ x, x < s.rotOrder ∧ (s.rot x).eqv ((s.rot q).mul (s.rot p)) = true)
    (hfin : ∀ t k x, t < s.modes → s.estStart ≤ k → k < s.estStart + s.estLen → s.outSym t k = .ok x →
      x.isFinite = true) : s.RotatesExactly g := by
  obtain ⟨j, hj⟩ := Cplx.exists_turn_of_isQuarterTurn (hturns g hg)
  have hnext : ∀ {q : Nat} {i : Fin 4}, q < s.rotOrder → (s.rot q).Same (Cplx.turn i Cplx.one) →
      ∃ p, p < s.rotOrder ∧ (s.rot p).Same (Cplx.turn (i + j) Cplx.one) := fun hq hi => by
    obtain ⟨p, hp, heqv⟩ := hclosed _ g hq hg
    exact ⟨p, hp, (Cplx.same_of_eqv heqv).trans (rot_mul_same hi hj)⟩
  refine rotatesExactly_iff.2 ⟨fun q hq => ?_, fun p hp => ?_⟩
  · obtain ⟨i, hi⟩ := Cplx.exists_turn_of_isQuarterTurn (hturns q hq)
    obtain ⟨p, hp, hpi⟩ := hnext hq hi
    exact ⟨p, hp, turned_of_turns hfin hi hj hpi⟩
  · obtain ⟨i, hi⟩ := Cplx.exists_turn_of_isQuarterTurn (hturns p hp)
    obtain ⟨p1, hp1, h1⟩ := hnext hp hi
    obtain ⟨p2, hp2, h2⟩ := hnext hp1 h1
    obtain ⟨p3, hp3, h3⟩ := hnext hp2 h2
    exact ⟨p3, hp3, turned_of_turns hfin h3 hj (by rwa [Cplx.turn_four])⟩

end State
end Sys2Proof.Machine
end

section
/-! PROOFS. What ESTIMATE does not see (spec/43_performance.md R272): two states whose alignments have the same scores on
the same delays report the same values but for EST_BEST, and permuting the output modes or rotating them by an exact
table gives such states. -/

namespace Sys2Proof.Machine

/-! ## Numbers without a sign -/

namespace F64

/-- NaN, or a value whose sign bit is 0. -/
def Unsigned : F64 → Prop
  | nan => True
  | inf s => s = false
  | fin s _ => s = false

theorem unsigned_round (n d : Nat) : (round false n d).Unsigned := by
  rw [round_eq]
  split
  · rfl
  · rfl

theorem unsigned_mul_self (a : F64) : (a.mul a).Unsigned := by
  cases a with
  | nan => trivial
  | inf s => exact Bool.xor_self s
  | fin s k => simp only [mul, Bool.xor_self, unsigned_round]

theorem Unsigned.add {a b : F64} (ha : a.Unsigned) (hb : b.Unsigned) : (a.add b).Unsigned := by
  cases a <;> cases b
  case inf.inf s t => cases ha; cases hb; rfl
  case inf.fin s t l => exact ha
  case fin.inf s k t => exact hb
  case fin.fin s k t l =>
    cases ha
    cases hb
    have hsign : decide (signed false k + signed false l < 0) = false :=
      decide_eq_false (by simp only [signed_false]; omega)
    simp only [F64.add, hsign]
    split
    · rfl
    · exact unsigned_round _ _
  all_goals trivial

/-- Two numbers without a sign of which neither is less are one value. -/
theorem Unsigned.eq_of_not_lt {a b : F64} (ha : a.Unsigned) (hb : b.Unsigned) (hna : a.isNaN = false)
    (hnb : b.isNaN = false) (hab : a.lt b = false) (hba : b.lt a = false) : a = b := by
  cases a <;> cases b
  case inf.inf s t => cases ha; cases hb; rfl
  case inf.fin s t l => cases ha; cases hba
  case fin.inf s k t => cases hb; cases hab
  case fin.fin s k t l =>
    cases ha
    cases hb
    have hkl : ¬ (k : Int) < l := of_decide_eq_false hab
    have hlk : ¬ (l : Int) < k := of_decide_eq_false hba
    rw [show k = l by omega]
  all_goals contradiction

end F64

theorem unsigned_realSum {xs : List F64} (h : ∀ x ∈ xs, F64.Unsigned x) : (realSum xs).Unsigned :=
  foldl_keeps F64.Unsigned _ xs (fun _ x hx ha => ha.add (h x hx)) (rfl : F64.Unsigned F64.zero)

theorem Cplx.unsigned_abs2 (a : Cplx) : a.abs2.Unsigned := (F64.unsigned_mul_self a.re).add (F64.unsigned_mul_self a.im)

namespace State

variable {s t : State} {synced acc : Bool} {al al' : Alignment} {sc sc' : Score}

/-! ## Tied scores -/

/-- Scores of one delay agree in EST_SYMBOLS and EST_SIGPOW (R247). -/
theorem sameDelay_score (hb : s.EstimateBounds) (hw : s.inputsWritten (.estimate synced acc))
    (hal : al ∈ s.alignments synced) (hal' : al' ∈ s.alignments synced) (hdelta : al'.delta = al.delta)
    (hsc : s.scoreOf al = .ok sc) (hsc' : s.scoreOf al' = .ok sc') : sc'.sym = sc.sym ∧ sc'.sig = sc.sig := by
  obtain ⟨o, f, dz, ds, h, rfl⟩ := exists_scoreSum hb hw hal hsc
  obtain ⟨o', f', dz', ds', h', rfl⟩ := exists_scoreSum hb hw hal' hsc'
  refine ⟨by rw [scoreSum, scoreSum, hdelta], ?_⟩
  simp only [scoreSum, hdelta]
  refine congrArg realSum (List.map_congr_left fun p hp => ?_)
  obtain ⟨ht, hk⟩ := mem_scoredPairs.1 hp
  obtain ⟨-, hf, -⟩ := h p.1 p.2 ht hk
  obtain ⟨-, hf', -⟩ := h' p.1 p.2 ht (by rwa [hdelta])
  rw [hdelta, hf] at hf'
  rw [Except.ok.inj hf']

theorem unsigned_ep (hb : s.EstimateBounds) (hw : s.inputsWritten (.estimate synced acc))
    (hal : al ∈ s.alignments synced) (hsc : s.scoreOf al = .ok sc) : sc.ep.Unsigned := by
  obtain ⟨o, f, dz, ds, -, rfl⟩ := exists_scoreSum hb hw hal hsc
  refine unsigned_realSum fun x hx => ?_
  obtain ⟨p, -, rfl⟩ := List.mem_map.1 hx
  exact Cplx.unsigned_abs2 _

/-- Scores of one delay of which neither is better are one score, where no error power is NaN. -/
theorem tied_score (hb : s.EstimateBounds) (hw : s.inputsWritten (.estimate synced acc))
    (hnan : ∀ al ∈ s.alignments synced, ∀ sc, s.scoreOf al = .ok sc → sc.ep.isNaN = false)
    (hal : al ∈ s.alignments synced) (hal' : al' ∈ s.alignments synced) (hdelta : al'.delta = al.delta)
    (hsc : s.scoreOf al = .ok sc) (hsc' : s.scoreOf al' = .ok sc') (hnot : sc.better sc' = false)
    (hnot' : sc'.better sc = false) : sc' = sc := by
  obtain ⟨hsym, hsig⟩ := sameDelay_score hb hw hal hal' hdelta hsc hsc'
  have hpos := (counts_of_score hb hw hal hsc).sym_pos
  rw [Bool.eq_false_iff, ne_eq, Score.better_iff, hsym, Nat.mul_lt_mul_right hpos, not_or] at hnot
  rw [Bool.eq_false_iff, ne_eq, Score.better_iff, hsym, Nat.mul_lt_mul_right hpos, not_or] at hnot'
  have herr : sc'.err = sc.err := by omega
  have hlt : sc.ep.lt sc'.ep = false := Bool.eq_false_iff.2 fun h => hnot.2 ⟨by rw [herr], h⟩
  have hlt' : sc'.ep.lt sc.ep = false := Bool.eq_false_iff.2 fun h => hnot'.2 ⟨by rw [herr], h⟩
  have hep : sc'.ep = sc.ep := (unsigned_ep hb hw hal' hsc').eq_of_not_lt (unsigned_ep hb hw hal hsc)
    (hnan al' hal' sc' hsc') (hnan al hal sc hsc) hlt' hlt
  calc sc' = ⟨sc'.err, sc'.sym, sc'.sig, sc'.ep⟩ := rfl
    _ = sc := by rw [herr, hsym, hsig, hep]

/-! ## The order of delays (R245, R248) -/

theorem pairwise_delaySet (s : State) (synced : Bool) : (s.delaySet synced).Pairwise (· < ·) := by
  cases synced with
  | true => exact List.pairwise_singleton _ _
  | false => exact List.pairwise_map.2 (List.pairwise_lt_range.imp fun h => by omega)

theorem pairwise_delta_alignments (s : State) (synced : Bool) :
    (s.alignments synced).Pairwise fun x y => x.delta ≤ y.delta := by
  rw [alignments_eq, List.pairwise_flatMap]
  refine ⟨fun delta _ => ?_, (pairwise_delaySet s synced).imp fun {d e} hde x hx y hy => ?_⟩
  · refine List.Pairwise.imp_of_mem (R := fun _ _ => True) (fun {x y} hx hy _ => ?_)
      (List.pairwise_of_forall fun _ _ => trivial)
    rw [(mem_alignmentsAt.1 hx).1, (mem_alignmentsAt.1 hy).1]
  · rw [(mem_alignmentsAt.1 hx).1, (mem_alignmentsAt.1 hy).1]
    exact hde.le

/-- No alignment of an earlier delay ties with the best one, where no error power is NaN. -/
theorem BestOf.delta_le (h : s.BestOf (s.alignments synced) sc al) (hal' : al' ∈ s.alignments synced)
    (hsc' : s.scoreOf al' = .ok sc') (hnan : sc'.ep.isNaN = false) (hnot : sc.better sc' = false) :
    al.delta ≤ al'.delta := by
  obtain ⟨before, after, hsplit, hearliest⟩ := h.earliest
  have hsorted := pairwise_delta_alignments s synced
  rw [hsplit] at hsorted hal'
  rcases List.mem_append.1 hal' with hmem | hmem
  · exact absurd (hearliest al' hmem sc' hsc' hnan) (Bool.eq_false_iff.1 hnot)
  · rcases List.mem_cons.1 hmem with rfl | hmem
    · exact le_rfl
    · exact List.rel_of_pairwise_cons (List.pairwise_append.1 hsorted).2.1 hmem

/-! ## States with the same scores -/

/-- Every alignment of `s` has a counterpart with its delay and its score in `t`. -/
def ScoresWithin (s t : State) (als : List Alignment) : Prop :=
  ∀ al ∈ als, ∃ al' ∈ als, al'.delta = al.delta ∧ t.scoreOf al' = s.scoreOf al

theorem afterEstimate_sameScore {m : Memory} (hdelta : al'.delta = al.delta) :
    afterEstimate { s with mem := m } acc sc al' =
      { s.afterEstimate acc sc al with
        mem := m
        perfRes := { (s.afterEstimate acc sc al).perfRes with best := (s.perfAfter sc al').best } } := by
  simp only [afterEstimate, perfAfter, writeEstimate, hdelta]
  rfl

/-- The memories do not reach ESTIMATE's checks (R138). -/
theorem passes_estimate_withMem (h : s.passes (.estimate synced acc)) (m : Memory) :
    passes { s with mem := m } (.estimate synced acc) := by
  intro c hc
  have hown : c ≠ .pilotZeroEnergy ∧ c ≠ .constZeroPower :=
    (by decide : ∀ b, ∀ c ∈ estimateChecks b, c ≠ .pilotZeroEnergy ∧ c ≠ .constZeroPower) synced c hc
  exact (checkFails_congr (s := s) (t := { s with mem := m }) rfl hown.1 hown.2).trans (h c hc)

/-- ESTIMATE on two states with the same scores on the same delays: what both complete with (R272). -/
theorem exec_estimate_sameScores {m : Memory} (hpass : s.passes (.estimate synced acc))
    (hw : s.inputsWritten (.estimate synced acc))
    (hnan : ∀ al ∈ s.alignments synced, ∀ sc, s.scoreOf al = .ok sc → sc.ep.isNaN = false)
    (hto : s.ScoresWithin { s with mem := m } (s.alignments synced))
    (hfrom : ScoresWithin { s with mem := m } s (s.alignments synced)) :
    ∃ t t' : State, exec (.estimate synced acc) s = .next t ∧
      exec (.estimate synced acc) { s with mem := m } = .next t' ∧
      t' = { t with mem := m, perfRes := { t.perfRes with best := t'.perfRes.best } } := by
  have hb := estimateBounds_of_passes hpass
  have hscored : ∀ al ∈ s.alignments synced, ∃ sc, s.scoreOf al = .ok sc ∧ 0 < sc.sym := fun al hal => by
    obtain ⟨sc, hsc⟩ := exists_score hb hw hal
    exact ⟨sc, hsc, (counts_of_score hb hw hal hsc).sym_pos⟩
  obtain ⟨sc, al, hexec, hbest⟩ := exec_estimate_of_scores hpass hscored
  obtain ⟨sc', al', hexec', hbest'⟩ := exec_estimate_of_scores (passes_estimate_withMem hpass m) fun al hal => by
    obtain ⟨x, hx, -, hsx⟩ := hfrom al hal
    rw [← hsx]
    exact hscored x hx
  -- the best alignments of each state, seen in the other
  obtain ⟨x, hx, hxd, hxs⟩ := hfrom al' hbest'.mem
  obtain ⟨y, hy, hyd, hys⟩ := hto al hbest.mem
  rw [hbest'.score] at hxs
  rw [hbest.score] at hys
  have hnot : sc.better sc' = false := by
    obtain ⟨z, hz, -, hnot⟩ := hbest'.unbeaten y hy
    rw [hys] at hz
    cases hz
    exact hnot
  have hnot' : sc'.better sc = false := by
    obtain ⟨z, hz, -, hnot⟩ := hbest.unbeaten x hx
    rw [hxs] at hz
    cases hz
    exact hnot
  have hle : al.delta ≤ al'.delta := hxd ▸ hbest.delta_le hx hxs (hnan x hx sc' hxs) hnot
  have hge : al'.delta ≤ al.delta := hyd ▸ hbest'.delta_le hy hys (hnan al hbest.mem sc hbest.score) hnot'
  have hdelta : al'.delta = al.delta := le_antisymm hge hle
  obtain rfl : sc' = sc := tied_score hb hw hnan hbest.mem hx (hxd.trans hdelta) hbest.score hxs hnot hnot'
  exact ⟨_, _, hexec, hexec', afterEstimate_sameScore hdelta⟩

/-! ## Scores over equal symbols -/

/-- The same configuration, references and constellation. -/
structure SameReference (s t : State) : Prop where
  cfg : t.cfg = s.cfg
  ref : ∀ i k, t.refSym i k = s.refSym i k
  point : ∀ q, t.point q = s.point q

theorem SameReference.symm (h : SameReference s t) : SameReference t s :=
  ⟨h.cfg.symm, fun i k => (h.ref i k).symm, fun q => (h.point q).symm⟩

theorem SameReference.decideIndex (h : SameReference s t) (z : Cplx) : t.decideIndex z = s.decideIndex z := by
  have hdist : t.distanceTo z = s.distanceTo z := by
    funext q
    rw [distanceTo, distanceTo, h.point]
  have hstep : t.decideStep z = s.decideStep z := by
    funext best q
    rw [decideStep, decideStep, hdist]
  rw [decideIndex_eq, decideIndex_eq, hdist, hstep, constSize_congr h.cfg]

theorem pairSet_congr (h : t.cfg = s.cfg) : t.pairSet = s.pairSet := by
  unfold pairSet estLen estStart refLen
  rw [h]

theorem alignments_congr (h : t.cfg = s.cfg) : t.alignments = s.alignments := by
  unfold State.alignments delaySet delayMax rotOrder
  rw [pairSet_congr h, modes_congr h, h]

theorem rot_congr (h : t.cfg = s.cfg) : t.rot = s.rot := by
  unfold rot
  rw [h]

/-- Alignments of one delay have one score where the rotated outputs are the same numbers (R247). -/
theorem SameReference.scoreOf (h : SameReference s t) (hdelta : al'.delta = al.delta)
    (hsame : ∀ i k, i < s.modes → k ∈ s.pairSet al.delta →
      ∃ o o', t.outSym (al'.perm.getD i 0) k = .ok o' ∧ s.outSym (al.perm.getD i 0) k = .ok o ∧
        ((s.rot al'.rot).mul o').Same ((s.rot al.rot).mul o)) : t.scoreOf al' = s.scoreOf al := by
  rw [State.scoreOf, State.scoreOf, modes_congr h.cfg, pairSet_congr h.cfg, rot_congr h.cfg, hdelta]
  refine foldlM_congr (fun sc p hp => ?_) _
  obtain ⟨hi, hk⟩ := mem_scoredPairs.1 hp
  obtain ⟨o, o', ho', ho, hz⟩ := hsame p.1 p.2 hi hk
  simp only [ho, ho', ok_bind, h.ref, h.decideIndex, decideIndex_same hz, hz.abs2_sub]

/-! ## Permuted output modes -/

/-- A permutation of the modes, as a map. -/
structure Permutes (m : Nat) (σ : Nat → Nat) : Prop where
  maps : ∀ t, t < m → σ t < m
  injective : ∀ t r, t < m → r < m → σ t = σ r → t = r

theorem Permutes.map_perm {m : Nat} {σ : Nat → Nat} (h : Permutes m σ) {p : List Nat} (hp : p.Perm (List.range m)) :
    (p.map σ).Perm (List.range m) := by
  refine (hp.map σ).trans (List.Subperm.perm_of_length_le (List.subperm_of_subset ?_ ?_) (by simp))
  · refine List.nodup_range.map_on fun t ht r hr => ?_
    exact h.injective t r (List.mem_range.1 ht) (List.mem_range.1 hr)
  · intro x hx
    obtain ⟨t, ht, rfl⟩ := List.mem_map.1 hx
    exact List.mem_range.2 (h.maps t (List.mem_range.1 ht))

theorem Permutes.exists_inverse {m : Nat} {σ : Nat → Nat} (h : Permutes m σ) :
    ∃ τ, Permutes m τ ∧ ∀ t, t < m → σ (τ t) = t := by
  have hsurj : ∀ t, ∃ r, t < m → r < m ∧ σ r = t := fun t => by
    by_cases ht : t < m
    · have hmem := (h.map_perm (.refl _)).mem_iff.2 (List.mem_range.2 ht)
      obtain ⟨r, hr, hσ⟩ := List.mem_map.1 hmem
      exact ⟨r, fun _ => ⟨List.mem_range.1 hr, hσ⟩⟩
    · exact ⟨0, fun h => absurd h ht⟩
  choose τ hτ using hsurj
  refine ⟨τ, ⟨fun t ht => (hτ t ht).1, fun t r ht hr he => ?_⟩, fun t ht => (hτ t ht).2⟩
  rw [← (hτ t ht).2, ← (hτ r hr).2, he]

/-- `t` has at mode `i` of the window the output of `s` at mode `σ i`. -/
def OutputsAt (s t : State) (σ : Nat → Nat) : Prop :=
  ∀ i k, i < s.modes → s.estStart ≤ k → k < s.estStart + s.estLen →
    ∃ o, t.outSym i k = .ok o ∧ s.outSym (σ i) k = .ok o

/-- An alignment of the permuted outputs has the score of the alignment with the composed permutation. -/
theorem OutputsAt.scoresWithin {σ : Nat → Nat} (hout : s.OutputsAt t σ) (h : SameReference s t)
    (hσ : Permutes s.modes σ) : t.ScoresWithin s (s.alignments synced) := by
  intro al hal
  obtain ⟨hdelta, hpairs, hperm, hrot⟩ := mem_alignments.1 hal
  have hp := List.mem_of_getElem? hperm
  obtain ⟨i, hi⟩ := List.getElem?_of_mem (mem_perms.2 (hσ.map_perm (mem_perms.1 hp)))
  refine ⟨⟨al.delta, al.perm.map σ, i, al.rot⟩, mem_alignments.2 ⟨hdelta, hpairs, hi, hrot⟩, rfl, ?_⟩
  refine (h.scoreOf (al := ⟨al.delta, al.perm.map σ, i, al.rot⟩) (al' := al) rfl fun j k hj hk => ?_).symm
  obtain ⟨h1, h2, -⟩ := mem_pairSet.1 hk
  obtain ⟨o, ho, ho'⟩ := hout (al.perm.getD j 0) k (getD_perm_lt hp hj) h1 h2
  have hlen : j < al.perm.length := by rwa [(mem_perms.1 hp).length_eq, List.length_range]
  have hcomposed : (al.perm.map σ).getD j 0 = σ (al.perm.getD j 0) := by
    rw [List.getD_eq_getElem _ _ (by rwa [List.length_map]), List.getElem_map, List.getD_eq_getElem _ _ hlen]
  exact ⟨o, o, ho, by rw [hcomposed]; exact ho', .inl rfl, .inl rfl⟩

/-! ## Rotated outputs -/

/-- `t` has at every symbol of the window the output of `s` times table entry `g`. -/
def OutputsTurned (s t : State) (g : Nat) : Prop :=
  ∀ i k, i < s.modes → s.estStart ≤ k → k < s.estStart + s.estLen →
    ∃ x, s.outSym i k = .ok x ∧ t.outSym i k = .ok ((s.rot g).mul x)

/-- On the rotated outputs, entry `q` scores what the entry it turns into scores on the outputs. -/
theorem OutputsTurned.scoreOf {g q p i j : Nat} {delta : Int} {π : List Nat} (hout : s.OutputsTurned t g)
    (h : SameReference s t) (hturn : s.Turned g q p) (hπ : π ∈ perms s.modes) :
    t.scoreOf ⟨delta, π, i, q⟩ = s.scoreOf ⟨delta, π, j, p⟩ := by
  refine h.scoreOf rfl fun r k hr hk => ?_
  obtain ⟨h1, h2, -⟩ := mem_pairSet.1 hk
  have hmode := getD_perm_lt hπ hr
  obtain ⟨x, hx, hx'⟩ := hout (π.getD r 0) k hmode h1 h2
  exact ⟨x, _, hx', hx, Cplx.same_of_eqv (hturn.2 _ k x hmode h1 h2 hx)⟩

theorem OutputsTurned.scoresWithin {g : Nat} (hout : s.OutputsTurned t g) (h : SameReference s t)
    (hexact : s.RotatesExactly g) : s.ScoresWithin t (s.alignments synced) ∧ t.ScoresWithin s (s.alignments synced) := by
  obtain ⟨hnext, hprev⟩ := rotatesExactly_iff.1 hexact
  refine ⟨fun al hal => ?_, fun al hal => ?_⟩
  · obtain ⟨hdelta, hpairs, hperm, hrot⟩ := mem_alignments.1 hal
    obtain ⟨q, hq, hturn⟩ := hprev al.rot hrot
    exact ⟨⟨al.delta, al.perm, al.permIndex, q⟩, mem_alignments.2 ⟨hdelta, hpairs, hperm, hq⟩, rfl,
      hout.scoreOf h hturn (List.mem_of_getElem? hperm)⟩
  · obtain ⟨hdelta, hpairs, hperm, hrot⟩ := mem_alignments.1 hal
    obtain ⟨p, hp, hturn⟩ := hnext al.rot hrot
    exact ⟨⟨al.delta, al.perm, al.permIndex, p⟩, mem_alignments.2 ⟨hdelta, hpairs, hperm, hp⟩, rfl,
      (hout.scoreOf h hturn (List.mem_of_getElem? hperm)).symm⟩

end State

/-- Settles O48: permuted or rotated outputs have the same scores on the same delays. -/
theorem estimateIgnoresTheLabelsOfOutputModes : Obligations.EstimateIgnoresTheLabelsOfOutputModes := by
  refine ⟨fun s g hg hturns hclosed hfin => State.rotatesExactly_of_quarterTurns hg hturns hclosed hfin, ?_, ?_⟩
  · intro s synced acc m g hpass hw hg hexact s' hout href hpoint hnan
    have hsame : State.SameReference s s' := ⟨rfl, href, hpoint⟩
    obtain ⟨hto, hfrom⟩ := State.OutputsTurned.scoresWithin (synced := synced) hout hsame hexact
    exact State.exec_estimate_sameScores hpass hw hnan hto hfrom
  · intro s synced acc m σ hpass hw hmaps hinj s' hout href hpoint hnan
    have hsame : State.SameReference s s' := ⟨rfl, href, hpoint⟩
    have hσ : State.Permutes s.modes σ := ⟨hmaps, hinj⟩
    obtain ⟨τ, hτ, hinv⟩ := hσ.exists_inverse
    have houts : s.outsWritten := hw.2.1
    have hat : s.OutputsAt s' σ := fun i k hi h1 h2 => by
      obtain ⟨o, ho, -⟩ := State.readCplx_of_isWritten (houts _ k (hmaps i hi) h1 h2)
      exact ⟨o, (hout i k hi h1 h2).trans ho, ho⟩
    have hback : s'.OutputsAt s τ := fun i k hi h1 h2 => by
      obtain ⟨o, ho, hσo⟩ := hat (τ i) k (hτ.maps i hi) h1 h2
      rw [hinv i hi] at hσo
      exact ⟨o, hσo, ho⟩
    exact State.exec_estimate_sameScores hpass hw hnan (hback.scoresWithin hsame.symm hτ) (hat.scoresWithin hsame hσ)

end Sys2Proof.Machine
end

section
/-! PROOFS. Interrupt and abort (spec/60_exceptions.md R289, R290, R292): an acknowledge clears the bits written 1, and
an aborted command leaves every register and byte outside its write set as it found it. -/

namespace Sys2Proof.Machine

/-! ## Acknowledge and interrupt (R289, R290) -/

theorem bitAt_getLsbD (n i : Nat) (b : Bool) : (bitAt n b).getLsbD i = (b && (decide (i < 32) && decide (n = i))) := by
  cases b with
  | false => rw [bitAt, if_neg Bool.false_ne_true, Bool.false_and]; exact BitVec.getLsbD_zero
  | true => rw [bitAt, if_pos rfl, BitVec.getLsbD_ofNat, Nat.testBit_two_pow, Bool.true_and]

theorem bitAt_and_not (n : Nat) (b : Bool) (w : Word) : bitAt n (b && !w.getLsbD n) = bitAt n b &&& ~~~w := by
  refine BitVec.eq_of_getLsbD_eq fun i hi => ?_
  rw [BitVec.getLsbD_and, BitVec.getLsbD_not, bitAt_getLsbD, bitAt_getLsbD]
  by_cases hin : n = i
  · subst hin
    simp [hi]
  · simp [hin]

theorem IrqStatus.word_acknowledge (q : IrqStatus) (w : Word) : (q.acknowledge w).word = q.word &&& ~~~w := by
  refine BitVec.eq_of_getLsbD_eq fun i _ => ?_
  simp only [IrqStatus.word, acknowledge, bitAt_and_not, BitVec.getLsbD_or, BitVec.getLsbD_and,
    Bool.and_or_distrib_right]

/-- IRQ_STATUS[3:0] is not 0 exactly when one of the flags is set (R37). -/
theorem IrqStatus.word_and_flags_ne_zero (q : IrqStatus) :
    q.word &&& 0xF ≠ 0 ↔ (q.done || q.error || q.wrIgnored || q.cmdRejected) = true := by
  obtain ⟨done, error, wrIgnored, cmdRejected⟩ := q
  revert done error wrIgnored cmdRejected
  decide

/-- Settles O17, by the write of IRQ_STATUS and the word it leaves. -/
theorem acknowledgeClearsTheBitsWrittenOne : Obligations.AcknowledgeClearsTheBitsWrittenOne := by
  refine ⟨fun s w => ?_, fun s => ?_⟩
  · have hwrite := State.transact_writeRegister s .irqStatus w
    rw [show 0x050 = Reg.irqStatus.offset from rfl, hwrite]
    exact ⟨rfl, s.irqStatus.word_acknowledge w⟩
  · rw [Reg.read, Reg.read, bitAt_getLsbD_zero, IrqStatus.word_and_flags_ne_zero, State.irq, decide_eq_true rfl,
      Bool.and_true, Bool.and_eq_true]

/-! ## Abort (R292) -/

/-- A value given to one register word shows in no other. -/
theorem Reg.read_putReg_ne {q r : Reg} (hq : q ≠ r) (s : State) (w : Word) : q.read (s.putReg w r) = q.read s := by
  cases r with
  | syncPeak k | syncFloor k | syncConf k | divMag k | estSer k | estSigpow k | estErrpow k | estSnr k | accErrors k
  | accSymbols k | accSigpow k | accErrpow k =>
    -- only the other half of the same register shows the same field
    cases q
    all_goals first
      | rfl
      | exact Half.get_set_ne (fun hk => hq (by rw [hk])) w _
  | outPower t k =>
    cases q with
    | outPower t' k' =>
      exact apply_getElem_set k'.get _ fun ht => Half.get_set_ne (fun hk => hq (by rw [ht, hk])) w _
    | _ => rfl
  | chestRe t i k =>
    cases q with
    | chestRe t' i' k' =>
      exact apply_getElem_set (fun row : Vector CplxBits 4 => k'.get row[i'].re) _ fun ht =>
        apply_getElem_set (fun z : CplxBits => k'.get z.re) _ fun hi =>
          Half.get_set_ne (fun hk => hq (by rw [ht, hi, hk])) w _
    | chestIm t' i' k' =>
      exact apply_getElem_set (fun row : Vector CplxBits 4 => k'.get row[i'].im) _ fun _ =>
        apply_getElem_set (fun z : CplxBits => k'.get z.im) _ fun _ => rfl
    | _ => rfl
  | chestIm t i k =>
    cases q with
    | chestRe t' i' k' =>
      exact apply_getElem_set (fun row : Vector CplxBits 4 => k'.get row[i'].re) _ fun _ =>
        apply_getElem_set (fun z : CplxBits => k'.get z.re) _ fun _ => rfl
    | chestIm t' i' k' =>
      exact apply_getElem_set (fun row : Vector CplxBits 4 => k'.get row[i'].im) _ fun ht =>
        apply_getElem_set (fun z : CplxBits => k'.get z.im) _ fun hi =>
          Half.get_set_ne (fun hk => hq (by rw [ht, hi, hk])) w _
    | _ => rfl
  | _ =>
    -- a register of one word, or one that no command writes: no other register shows its field
    cases q
    all_goals first
      | rfl
      | exact absurd rfl hq

namespace State

variable {s : State} {c : Decoded}

theorem read_drawRegs_of_notMem {q : Reg} {rs : List Reg} (hq : q ∉ rs) (s : State) :
    q.read (s.drawRegs rs) = q.read s :=
  foldl_keeps (fun x : State => q.read x = q.read s) _ rs
    (fun x r hr hx => (Reg.read_putReg_ne (fun h : q = r => hq (h ▸ hr)) x _).trans hx) rfl

theorem read_drawMem_of_not_inRanges {l : List (Nat × Nat)} {a : Nat} (ha : ¬ inRanges l a) (s : State) :
    (s.drawMem l).mem.read a = s.mem.read a := by
  refine foldl_keeps (fun m : Memory => m.read a = s.mem.read a) _ l (fun m p hp hm => ?_) rfl
  refine (Memory.read_fillWords_other _ _ m _ ?_).trans hm
  by_contra hc
  exact ha ⟨p, hp, by omega⟩

/-- What an abort leaves in a register outside the write set but ERR, STATUS and IRQ_STATUS (R292). -/
theorem read_abortCommand {q : Reg} (herr : q ≠ .err) (hst : q ≠ .status) (hirq : q ≠ .irqStatus)
    (hq : q ∉ s.writeSetRegs c) : q.read (s.abortCommand c) = q.read s := by
  rw [abortCommand, raise, Reg.read_completeWith _ herr hst hirq, clearValid_eq, Reg.read_withStatus _ hst, drawStatus,
    Reg.read_withStatus _ hst, drawMem, Reg.read_withMem, read_drawRegs_of_notMem hq]

/-- The valid bits a command clears depend on STATUS alone. -/
theorem clearValid_status_congr {t : State} (h : t.status = s.status) (c : Decoded) :
    (t.clearValid c).status = (s.clearValid c).status := by
  cases c with
  | illegal x => exact h
  | legal i =>
    cases i with
    | nop | checkLayout | initTaps | accClear => exact h
    | sync seed => exact congrArg (fun st : Status => { st with syncValid := false }) h
    | equalize seed => exact congrArg (fun st : Status => { st with eqValid := false }) h
    | recover seed => exact congrArg (fun st : Status => { st with syncValid := false, eqValid := false }) h
    | estimate synced acc => exact congrArg (fun st : Status => { st with estValid := false }) h

/-- STATUS after an abort: free in the write set, with the valid bits of the command cleared (R292). -/
theorem abortCommand_status (c : Decoded) (s : State) : ∃ f, (s.abortCommand c).status =
    (clearValid c { s with status := writeSetStatus s.status f c }).status := by
  refine ⟨Status.free (Config.anyWord s.draws Reg.status.offset), ?_⟩
  have hstatus : (s.drawRegs (s.writeSetRegs c)).status = s.status :=
    drawRegs_keeps (·.status) (fun w r x => by cases r <;> rfl) _ s
  have hdraws : (s.drawRegs (s.writeSetRegs c)).draws = s.draws :=
    drawRegs_keeps (·.draws) (fun w r x => by cases r <;> rfl) _ s
  rw [abortCommand, raise_status]
  refine clearValid_status_congr ?_ c
  rw [drawStatus, drawMem_status, drawMem_draws, hstatus, hdraws]

theorem abortCommand_irqStatus (c : Decoded) (s : State) :
    (s.abortCommand c).irqStatus = { s.irqStatus with done := true, error := true } := by
  have hirq : (s.drawRegs (s.writeSetRegs c)).irqStatus = s.irqStatus :=
    drawRegs_keeps (·.irqStatus) (fun w r x => by cases r <;> rfl) _ s
  rw [abortCommand, raise, completeWith, clearValid_irqStatus, drawStatus_irqStatus, drawMem_irqStatus, hirq]
  simp [CmdError.code]

end State

/-- Settles O50, by the CTRL write and by what each draw of an abort can reach. -/
theorem abortLeavesTheWriteSetFreeAndNothingElse : Obligations.AbortLeavesTheWriteSetFreeAndNothingElse := by
  refine ⟨fun s w habort hreset => ?_, fun s c hs ha => ?_⟩
  · rw [show 0x040 = Reg.ctrl.offset from rfl, State.transact_writeRegister, State.writeReg_ctrl,
      State.writeCtrl_noReset s hreset, habort, Bool.and_true]
    exact Bool.or_comm _ _
  · refine ⟨s.abortCommand c, engineMove_abort hs ha, rfl, rfl, rfl, s.abortCommand_irqStatus c,
      fun q herr hst hirq hq => State.read_abortCommand herr hst hirq hq, s.abortCommand_status c, fun a hout => ?_⟩
    have hmem : (s.abortCommand c).mem = ((s.drawRegs (s.writeSetRegs c)).drawMem (s.writeSetRanges c)).mem := by
      simp [State.abortCommand]
    rw [hmem, State.read_drawMem_of_not_inRanges hout, State.drawRegs_mem]

end Sys2Proof.Machine
end

section
/-! PROOFS. The stops of the machine (spec/60_exceptions.md R288; spec/20_memory.md R103, R104; spec/
70_reset_and_hazards.md R315): the one way a computation of the engine goes wrong is the read of an entry that is not
written, so a command stops only at one of its own memory inputs. -/

namespace Sys2Proof.Machine

/-! ## The entries a computation can stop at -/

section
variable {α β : Type} {P : Entry → Prop}

/-- The computation stops, if it does, at an entry of which `P` holds. -/
def StopsIn (P : Entry → Prop) (x : Eng α) : Prop := ∀ e, x = .error (.uninitRead e) → P e

theorem StopsIn.ok (a : α) : StopsIn P (.ok a) := fun _ h => by cases h

theorem StopsIn.bind {x : Eng α} {f : α → Eng β} (hx : StopsIn P x) (hf : ∀ a, x = .ok a → StopsIn P (f a)) :
    StopsIn P (x >>= f) := by
  intro e he
  cases hxe : x with
  | error err => rw [hxe] at he; cases he; exact hx e hxe
  | ok a => rw [hxe] at he; exact hf a hxe e he

/-- A last step that reads nothing. -/
theorem StopsIn.map {x : Eng α} (hx : StopsIn P x) (f : α → β) : StopsIn P (x >>= fun a => pure (f a)) :=
  hx.bind fun a _ => .ok (f a)

/-- A fold stops where one of its steps does, from a state that the steps before it leave. -/
theorem StopsIn.foldlM {J : β → Prop} {f : β → α → Eng β} {l : List α}
    (hf : ∀ b, ∀ a ∈ l, J b → StopsIn P (f b a)) (hJ : ∀ b, ∀ a ∈ l, ∀ b', J b → f b a = .ok b' → J b') {b : β}
    (hb : J b) : StopsIn P (l.foldlM f b) := by
  induction l generalizing b with
  | nil => exact .ok b
  | cons a l ih =>
    rw [List.foldlM_cons]
    refine (hf b a List.mem_cons_self hb).bind fun b' hb' => ?_
    exact ih (fun b c hc => hf b c (List.mem_cons_of_mem a hc)) (fun b c hc => hJ b c (List.mem_cons_of_mem a hc))
      (hJ b a List.mem_cons_self b' hb hb')

theorem StopsIn.mapM {f : α → Eng β} {l : List α} (hf : ∀ a ∈ l, StopsIn P (f a)) : StopsIn P (l.mapM f) := by
  induction l with
  | nil => exact .ok []
  | cons a l ih =>
    rw [List.mapM_cons]
    exact (hf a List.mem_cons_self).bind fun b _ => (ih fun c hc => hf c (List.mem_cons_of_mem a hc)).map _

theorem StopsIn.sumReal {f : α → Eng F64} {l : List α} (hf : ∀ a ∈ l, StopsIn P (f a)) : StopsIn P (sumReal l f) :=
  .foldlM (J := fun _ => True) (fun _ a ha _ => (hf a ha).map _) (fun _ _ _ _ _ _ => trivial) trivial

theorem StopsIn.sumCplx {f : α → Eng Cplx} {l : List α} (hf : ∀ a ∈ l, StopsIn P (f a)) : StopsIn P (sumCplx l f) :=
  .foldlM (J := fun _ => True) (fun _ a ha _ => (hf a ha).map _) (fun _ _ _ _ _ _ => trivial) trivial

theorem StopsIn.someMode {bad : Nat → Eng Bool} {ts : List Nat} (h : ∀ t ∈ ts, StopsIn P (bad t)) :
    StopsIn P (State.someMode bad ts) := by
  induction ts with
  | nil => exact .ok false
  | cons t ts ih =>
    refine (h t List.mem_cons_self).bind fun b _ => ?_
    cases b with
    | true => exact .ok true
    | false => exact ih fun u hu => h u (List.mem_cons_of_mem t hu)

end

theorem finish_fault {r : Eng Ending} {f : Fault} (h : finish r = .fault f) : r = .error f := by
  unfold finish at h
  split at h
  · cases h; rfl
  · cases h
  · cases h

theorem finish_ne_refused (r : Eng Ending) (x : Refusal) : finish r ≠ .refused x := by
  unfold finish
  split
  all_goals exact fun h => by cases h

/-! ## Memory only grows -/

/-- Every byte of `m` that is written is written in `m'`. -/
def Memory.Grows (m m' : Memory) : Prop := ∀ a b, m.read a = some b → ∃ b', m'.read a = some b'

namespace Memory

variable {m m' : Memory}

theorem Grows.refl (m : Memory) : m.Grows m := fun _ b h => ⟨b, h⟩

theorem Grows.trans {m'' : Memory} (h : m.Grows m') (h' : m'.Grows m'') : m.Grows m'' := fun a b hb => by
  obtain ⟨b', hb'⟩ := h a b hb
  exact h' a b' hb'

theorem grows_write (m : Memory) (a : Nat) (v : Byte) : m.Grows (m.write a v) := by
  intro x b hb
  rw [read_write]
  split
  · exact ⟨v, rfl⟩
  · exact ⟨b, hb⟩

theorem grows_writeWord (m : Memory) (a : Nat) (w : Word) : m.Grows (m.writeWord a w) :=
  (((grows_write m _ _).trans (grows_write _ _ _)).trans (grows_write _ _ _)).trans (grows_write _ _ _)

theorem grows_writeBits64 (m : Memory) (a : Nat) (b : Bits64) : m.Grows (m.writeBits64 a b) :=
  (grows_writeWord m _ _).trans (grows_writeWord _ _ _)

theorem Grows.readWord (h : m.Grows m') {a : Nat} {w : Word} (hw : m.readWord a = some w) :
    ∃ w', m'.readWord a = some w' := by
  unfold Memory.readWord at hw
  split at hw
  · next h0 h1 h2 h3 =>
    obtain ⟨b0, hb0⟩ := h _ _ h0
    obtain ⟨b1, hb1⟩ := h _ _ h1
    obtain ⟨b2, hb2⟩ := h _ _ h2
    obtain ⟨b3, hb3⟩ := h _ _ h3
    exact ⟨wordOf b0 b1 b2 b3, by simp only [Memory.readWord, hb0, hb1, hb2, hb3]⟩
  · cases hw

theorem Grows.readBits64 (h : m.Grows m') {a : Nat} (ha : (m.readBits64 a).isSome = true) :
    (m'.readBits64 a).isSome = true := by
  unfold Memory.readBits64 at ha
  split at ha
  · next hlo hhi =>
    obtain ⟨lo, hlo'⟩ := h.readWord hlo
    obtain ⟨hi, hhi'⟩ := h.readWord hhi
    simp only [Memory.readBits64, hlo', hhi', Option.isSome_some]
  · cases ha

end Memory

namespace State

theorem isWritten_of_grows {s t : State} (h : s.mem.Grows t.mem) {e : Entry} (he : s.isWritten e = true) :
    t.isWritten e = true := by
  rw [isWritten, Bool.and_eq_true] at he ⊢
  exact ⟨h.readBits64 he.1, h.readBits64 he.2⟩

theorem grows_putCplx (e : Entry) (z : Cplx) (s : State) : s.mem.Grows (s.putCplx e z).mem := by
  rw [putCplx_mem]
  exact (Memory.grows_writeBits64 _ _ _).trans (Memory.grows_writeBits64 _ _ _)

theorem grows_putCorr (i : Nat) (v : F64) (s : State) : s.mem.Grows (s.putCorr i v).mem := by
  rw [putCorr_mem]
  exact Memory.grows_writeBits64 _ _ _

/-- `t` has the configuration of `s`, and the entries that `s` has. -/
structure Extends (s t : State) : Prop where
  cfg : t.cfg = s.cfg
  mem : s.mem.Grows t.mem

variable {s t u : State}

theorem Extends.refl (s : State) : s.Extends s := ⟨rfl, .refl _⟩

theorem Extends.trans (h : s.Extends t) (h' : t.Extends u) : s.Extends u :=
  ⟨h'.cfg.trans h.cfg, h.mem.trans h'.mem⟩

/-- What a store to registers alone keeps. -/
theorem Extends.congr (h : s.Extends t) (he : (u.cfg, u.mem) = (t.cfg, t.mem)) : s.Extends u := by
  obtain ⟨hcfg, hmem⟩ := Prod.mk.inj he
  exact ⟨hcfg.trans h.cfg, hmem ▸ h.mem⟩

theorem Extends.putCplx (h : s.Extends t) (e : Entry) (z : Cplx) : s.Extends (t.putCplx e z) :=
  ⟨by simpa using h.cfg, h.mem.trans (grows_putCplx e z t)⟩

theorem tapClosed_extends (m n : Nat) : TapClosed m n s.Extends := fun _ _ _ _ z _ _ _ _ hx => hx.putCplx _ z

theorem searchClosed_extends (n : Nat) : SearchClosed n s.Extends where
  results _ _ _ hx := hx.congr rfl
  confInf _ _ hx := hx.congr rfl
  corr x i v _ hx := ⟨hx.cfg, hx.mem.trans (grows_putCorr i v x)⟩

theorem learn_extends {n : Int} {k : Nat} {ys targets : List Cplx} {dv : Option Divergence}
    (h : s.learn n k ys targets = .ok (t, dv)) : s.Extends t :=
  learn_keeps (tapClosed_extends _ _) (.refl s) h

theorem writeIdentity_extends (s : State) : s.Extends s.writeIdentity :=
  writeIdentity_keeps (tapClosed_extends _ _) (.refl s)

theorem trainPilots_extends {d : Nat} {b : Bool} (h : s.trainPilots d = .ok (t, b)) : s.Extends t :=
  trainPilots_keeps (tapClosed_extends _ _) (fun _ _ hx => hx.congr rfl) (.refl s) h

theorem search_extends {metric : Nat → Eng F64} {lo : Nat} {hi : Int} {r : Except SyncFailure Found}
    (h : s.search metric lo hi = .ok (t, r)) : s.Extends t :=
  search_keeps (searchClosed_extends _) (.refl s) h

theorem writeOutputs_extends {k : Nat} {ys : List Cplx} (hv : ∀ y ∈ ys, y.Valid) (s : State) :
    s.Extends (s.writeOutputs k ys) :=
  writeOutputs_keeps (ks := [k]) (fun _ _ _ z _ _ _ hx => hx.putCplx _ z) List.mem_cons_self hv (.refl s)

theorem equalizeLoop_extends {d : Nat} {ks : List Nat} {e : Option CmdError} (h : s.equalizeLoop d ks = .ok (t, e)) :
    s.Extends t :=
  equalizeLoop_keeps (tapClosed_extends _ _) (fun _ _ _ z _ _ _ hx => hx.putCplx _ z) (fun _ _ hx => hx.congr rfl)
    (.refl s) h

/-- The SYNC part of a command takes no entry away. -/
theorem syncBody_grows {seed : Bool} {e : Option CmdError} (hp : 1 ≤ s.pilotLen) (h : s.syncBody seed = .ok (t, e)) :
    s.mem.Grows t.mem := by
  refine syncBody_keeps (P := fun x => s.mem.Grows x.mem) hp ?_ (.refl _) h
  constructor
  case taps => exact fun _ x _ _ _ z _ _ _ _ hx => hx.trans (grows_putCplx _ z x)
  case search => exact ⟨fun _ _ _ hx => hx, fun _ _ hx => hx, fun x i v _ hx => hx.trans (grows_putCorr i v x)⟩
  all_goals intros; assumption

/-! ## The entries a command reads (R12) -/

/-- PILOT[0..M-1][0..L_P-1]. -/
def pilotEntries (c : ConfigRegs) (e : Entry) : Prop :=
  ∃ t k, t < c.layoutModes.toNat ∧ k < c.pilotLen.toNat ∧ e = .pilot t k

/-- SAMPLE[0..M-1][0..S-1]. -/
def sampleEntries (c : ConfigRegs) (e : Entry) : Prop :=
  ∃ r n, r < c.layoutModes.toNat ∧ n < c.sampleLen.toNat ∧ e = .sample r n

/-- TAP[0..M-1][0..M-1][0..N-1]. -/
def tapEntries (c : ConfigRegs) (e : Entry) : Prop :=
  ∃ t r j, t < c.layoutModes.toNat ∧ r < c.layoutModes.toNat ∧ j < c.numTaps.toNat ∧ e = .tap t r j

/-- CONST[0..Q-1]. -/
def constEntries (c : ConfigRegs) (e : Entry) : Prop := ∃ q, q < c.constSize.toNat ∧ e = .const q

/-- OUT[0..M-1][0..L_F-1]. -/
def frameEntries (c : ConfigRegs) (e : Entry) : Prop :=
  ∃ t k, t < c.layoutModes.toNat ∧ k < c.frameLen.toNat ∧ e = .out t k

/-- OUT[0..M-1][ES..ES+EL-1]. -/
def windowEntries (c : ConfigRegs) (e : Entry) : Prop :=
  ∃ t k, t < c.layoutModes.toNat ∧ c.estStart.toNat ≤ k ∧ k < c.estStart.toNat + c.estLen.toNat ∧ e = .out t k

/-- REF[0..M-1][0..RL-1]. -/
def refEntries (c : ConfigRegs) (e : Entry) : Prop :=
  ∃ t k, t < c.layoutModes.toNat ∧ k < c.refLen.toNat ∧ e = .ref t k

/-- `P` holds of every entry of the class `D` that is not written in `s`. -/
def Covers (P : Entry → Prop) (D : ConfigRegs → Entry → Prop) (s : State) : Prop :=
  ∀ e, D s.cfg e → s.isWritten e = false → P e

variable {P : Entry → Prop} {D : ConfigRegs → Entry → Prop}

/-- A class all of whose entries are written is covered by anything. -/
theorem covers_of_written (h : ∀ e, D s.cfg e → s.isWritten e = true) : s.Covers P D := fun e he hw => by
  rw [h e he] at hw
  cases hw

theorem Covers.of_grows (h : s.Covers P D) (hD : D t.cfg = D s.cfg) (hm : s.mem.Grows t.mem) : t.Covers P D := by
  intro e he hw
  refine h e (hD ▸ he) (Bool.eq_false_iff.2 fun hs => ?_)
  rw [isWritten_of_grows hm hs] at hw
  cases hw

theorem Covers.extend (h : s.Covers P D) (ht : s.Extends t) : t.Covers P D := h.of_grows (by rw [ht.cfg]) ht.mem

theorem Covers.readCplx {e : Entry} (h : s.Covers P D) (he : D s.cfg e) : StopsIn P (s.readCplx e) := by
  intro f hf
  cases hw : s.isWritten e with
  | true =>
    obtain ⟨z, hz, -⟩ := readCplx_of_isWritten hw
    rw [hz] at hf
    cases hf
  | false =>
    rw [readCplx_error hw] at hf
    cases hf
    exact h e he hw

theorem Covers.sampleAt (h : s.Covers P sampleEntries) {r : Nat} (hr : r < s.modes) (n : Int) :
    StopsIn P (s.sampleAt r n) := by
  unfold State.sampleAt
  split
  · next hn => exact h.readCplx ⟨r, n.toNat, hr, show n.toNat < s.sampleLen by omega, rfl⟩
  · exact .ok _

/-! ## Validation (R136, R139, R211) -/

theorem Covers.pilotEnergy (h : s.Covers P pilotEntries) {t : Nat} (ht : t < s.modes) :
    StopsIn P (s.pilotEnergy t) :=
  .sumReal fun k hk => (h.readCplx ⟨t, k, ht, List.mem_range.1 hk, rfl⟩).map _

theorem Covers.constPower (h : s.Covers P constEntries) : StopsIn P s.constPower :=
  StopsIn.map (.sumReal fun q hq => (h.readCplx ⟨q, List.mem_range.1 hq, rfl⟩).map _) _

/-- The class a check reads: two of them read memory at all (R137). -/
def checkEntries : Check → ConfigRegs → Entry → Prop
  | .pilotZeroEnergy => pilotEntries
  | .constZeroPower => constEntries
  | _ => fun _ _ => False

theorem Covers.checkFails {c : Check} (h : s.Covers P (checkEntries c)) : StopsIn P (s.checkFails c) := by
  cases c with
  | pilotZeroEnergy => exact .someMode fun t ht => (pilotEnergy h (List.mem_range.1 ht)).map _
  | constZeroPower => exact (constPower h).map _
  | _ => exact .ok _

/-- Validation stops at a check, all the checks before which pass. -/
theorem firstFailing_stopsIn {cs : List Check}
    (h : ∀ c ∈ cs, (∀ d ∈ cs.takeWhile (· ≠ c), s.checkFails d = .ok false) → StopsIn P (s.checkFails c)) :
    StopsIn P (s.firstFailing cs) := by
  induction cs with
  | nil => exact .ok none
  | cons d cs ih =>
    refine (h d List.mem_cons_self (by simp)).bind fun b hd => ?_
    cases b with
    | true => exact .ok _
    | false =>
      refine ih fun c hc hbefore => ?_
      by_cases hcd : d = c
      · rw [← hcd, hd]; exact .ok _
      · refine h c (List.mem_cons_of_mem d hc) ?_
        rw [List.takeWhile_cons_of_pos (by simpa using hcd), List.forall_mem_cons]
        exact ⟨hd, hbefore⟩

theorem validated_stopsIn {cs : List Check} {body : State → Eng Ending}
    (hc : ∀ c ∈ cs, (∀ d ∈ cs.takeWhile (· ≠ c), s.checkFails d = .ok false) → s.Covers P (checkEntries c))
    (hb : (∀ c ∈ cs, s.checkFails c = .ok false) → StopsIn P (body s)) : StopsIn P (s.validated cs body) := by
  refine (firstFailing_stopsIn fun c hmem hbefore => (hc c hmem hbefore).checkFails).bind fun r hr => ?_
  cases r with
  | some c => exact .ok _
  | none => exact hb fun c hmem => checkFails_of_firstFailing_none hr hmem

/-! ## The filter bank and its training (R202 to R209, R214) -/

/-- What the filter bank reads. -/
structure BankCovered (P : Entry → Prop) (s : State) : Prop where
  samples : s.Covers P sampleEntries
  taps : s.Covers P tapEntries

theorem BankCovered.extend (h : s.BankCovered P) (ht : s.Extends t) : t.BankCovered P :=
  ⟨h.samples.extend ht, h.taps.extend ht⟩

theorem BankCovered.tap (h : s.BankCovered P) {p : Nat × Nat × Nat} (hp : p ∈ triples s.modes s.numTaps) :
    StopsIn P (s.tap p.1 p.2.1 p.2.2) := by
  obtain ⟨ht, hr, hj⟩ := mem_triples.1 hp
  exact h.taps.readCplx ⟨_, _, _, ht, hr, hj, rfl⟩

theorem BankCovered.firOutput (h : s.BankCovered P) (n : Int) {t : Nat} (ht : t < s.modes) :
    StopsIn P (s.firOutput n t) := by
  refine .sumCplx fun p hp => ?_
  obtain ⟨hr, hj⟩ := mem_pairs.1 hp
  exact (h.taps.readCplx ⟨t, p.1, p.2, ht, hr, hj, rfl⟩).bind fun w _ => (h.samples.sampleAt hr _).map _

theorem BankCovered.outputs (h : s.BankCovered P) (n : Int) : StopsIn P (s.outputs n) :=
  .mapM fun _ ht => h.firOutput n (List.mem_range.1 ht)

theorem BankCovered.adapt (h : s.BankCovered P) (n : Int) (es : List Cplx) : StopsIn P (s.adapt n es) := by
  refine .foldlM (J := s.Extends) (fun x p hp hx => ?reads) (fun x p hp y hx hy => ?stores) (.refl s)
  case reads =>
    rw [← modes_congr hx.cfg, ← numTaps_congr hx.cfg] at hp
    have hbank := h.extend hx
    exact (hbank.tap hp).bind fun w _ => (hbank.samples.sampleAt (mem_triples.1 hp).2.1 _).map _
  case stores =>
    obtain ⟨w, -, hy⟩ := bind_eq_ok hy
    obtain ⟨v, -, hy⟩ := bind_eq_ok hy
    cases hy
    exact hx.putCplx _ _

theorem BankCovered.tapTestOver (h : s.BankCovered P) (k : Nat) {ps : List (Nat × Nat × Nat)}
    (hps : ∀ p ∈ ps, p ∈ triples s.modes s.numTaps) : StopsIn P (s.tapTestOver k ps) := by
  induction ps with
  | nil => exact .ok none
  | cons p ps ih =>
    rw [List.forall_mem_cons] at hps
    refine (h.tap hps.1).bind fun w _ => ?_
    split
    · exact .ok _
    · split
      · exact .ok _
      · exact ih hps.2

theorem BankCovered.learn (h : s.BankCovered P) (n : Int) (k : Nat) (ys targets : List Cplx) :
    StopsIn P (s.learn n k ys targets) := by
  refine (h.adapt n _).bind fun s1 hs1 => ?_
  have hext : s.Extends s1 := adapt_keeps (tapClosed_extends _ _) (.refl s) hs1
  exact ((h.extend hext).tapTestOver k fun _ hp => hp).map _

theorem trainLoop_stopsIn {d : Nat} {ks : List Nat} (hp : s.Covers P pilotEntries) (hb : s.BankCovered P)
    (hks : ∀ k ∈ ks, k - s.pilotPos < s.pilotLen) : StopsIn P (s.trainLoop d ks) := by
  induction ks generalizing s with
  | nil => exact .ok _
  | cons k ks ih =>
    rw [List.forall_mem_cons] at hks
    refine (hb.outputs _).bind fun ys _ => ?_
    refine StopsIn.bind (.mapM fun t ht => hp.readCplx ⟨t, _, List.mem_range.1 ht, hks.1, rfl⟩) fun targets _ => ?_
    refine (hb.learn _ _ _ _).bind fun ⟨s1, dv⟩ hlearn => ?_
    have hext := learn_extends hlearn
    cases dv with
    | some v => exact .ok _
    | none =>
      refine ih (hp.extend hext) (hb.extend hext) ?_
      rw [pilotPos_congr hext.cfg, pilotLen_congr hext.cfg]
      exact hks.2

theorem trainPilots_stopsIn (hp : s.Covers P pilotEntries) (hb : s.BankCovered P) (d : Nat) :
    StopsIn P (s.trainPilots d) := by
  refine trainLoop_stopsIn hp hb fun k hk => ?_
  obtain ⟨i, hi, rfl⟩ := List.mem_map.1 hk
  rw [Nat.add_sub_cancel_left]
  exact List.mem_range.1 hi

/-- WriteIdentity leaves no tap of the bank unwritten (R205). -/
theorem covers_taps_writeIdentity (hm : s.modes ≤ Config.mMax) (hn : s.numTaps ≤ Config.nMax) :
    s.writeIdentity.Covers P tapEntries := by
  refine covers_of_written ?_
  rw [writeIdentity_cfg]
  rintro _ ⟨t, r, j, ht, hr, hj, rfl⟩
  exact readCplx_eq_ok (writeIdentity_tap hm hn ht hr hj)

/-- The bank a command starts from: the identity, or with SEED the taps it finds. -/
theorem bankCovered_initial {seed : Bool} (hs : s.Covers P sampleEntries) (ht : seed = true → s.Covers P tapEntries)
    (hm : s.modes ≤ Config.mMax) (hn : s.numTaps ≤ Config.nMax) :
    BankCovered P (if seed = true then s else s.writeIdentity) := by
  split
  · next hseed => exact ⟨hs, ht hseed⟩
  · exact ⟨hs.extend s.writeIdentity_extends, covers_taps_writeIdentity hm hn⟩

theorem initialBank_extends (seed : Bool) (s : State) : s.Extends (if seed = true then s else s.writeIdentity) := by
  split
  · exact .refl s
  · exact s.writeIdentity_extends

/-! ## SYNC (R163 to R180) -/

theorem rawCorr_stopsIn (hp : s.Covers P pilotEntries) (hs : s.Covers P sampleEntries) (d : Nat) {t r : Nat}
    (ht : t < s.modes) (hr : r < s.modes) : StopsIn P (s.rawCorr d t r) :=
  .sumCplx fun k hk => (hp.readCplx ⟨t, k, ht, List.mem_range.1 hk, rfl⟩).bind fun _ _ => (hs.sampleAt hr _).map _

theorem eqCorr_stopsIn (hp : s.Covers P pilotEntries) (hb : s.BankCovered P) (d : Nat) {t u : Nat} (ht : t < s.modes)
    (hu : u < s.modes) : StopsIn P (s.eqCorr d t u) :=
  .sumCplx fun k hk => (hp.readCplx ⟨t, k, ht, List.mem_range.1 hk, rfl⟩).bind fun _ _ => (hb.firOutput _ hu).map _

theorem aggregate_stopsIn {c : Nat → Nat → Eng Cplx} (h : ∀ t r, t < s.modes → r < s.modes → StopsIn P (c t r)) :
    StopsIn P (s.aggregate c) := by
  have hpair : ∀ p ∈ pairs s.modes s.modes, StopsIn P (c p.1 p.2) := fun p hp =>
    h p.1 p.2 (mem_pairs.1 hp).1 (mem_pairs.1 hp).2
  unfold aggregate
  split
  · refine StopsIn.bind (.mapM fun p hp => (hpair p hp).map _) fun vs _ => ?_
    cases vs with
    | nil => exact .ok _
    | cons v rest => exact .ok _
  · split
    · exact .sumReal fun p hp => (hpair p hp).map _
    · exact .sumReal fun p hp => (hpair p hp).map _

theorem search_stopsIn {metric : Nat → Eng F64} (h : ∀ d, StopsIn P (metric d)) (lo : Nat) (hi : Int) (s : State) :
    StopsIn P (s.search metric lo hi) := by
  unfold search
  dsimp only
  split
  · exact .ok _
  · refine StopsIn.bind (.mapM fun i _ => h (lo + i)) fun es _ => ?_
    split
    · exact .ok _
    · exact .ok _

theorem refine_stopsIn {seed : Bool} {left i d : Nat} {final : SyncState} (hp : s.Covers P pilotEntries)
    (hs : s.Covers P sampleEntries) (ht : seed = true → s.Covers P tapEntries) (hm : s.modes ≤ Config.mMax)
    (hn : s.numTaps ≤ Config.nMax) : StopsIn P (s.refine seed left i d final) := by
  induction left generalizing i d final s with
  | zero => exact .ok _
  | succ left ih =>
    unfold refine
    dsimp only
    have h0 : s.Extends ((s.setSyncState .refine).setSyncIters i) := (Extends.refl s).congr rfl
    revert h0
    generalize (s.setSyncState .refine).setSyncIters i = s0
    intro h0
    have hb : BankCovered P (if seed = true then s0 else s0.writeIdentity) :=
      bankCovered_initial (hs.extend h0) (fun hseed => (ht hseed).extend h0) (modes_congr h0.cfg ▸ hm)
        (numTaps_congr h0.cfg ▸ hn)
    have h1 := h0.trans (initialBank_extends seed s0)
    refine (trainPilots_stopsIn (hp.extend h1) hb d).bind fun ⟨s2, trained⟩ htrain => ?_
    have h12 := trainPilots_extends htrain
    have h2 := h1.trans h12
    dsimp only
    split
    · exact .ok _
    · have hmetric : ∀ d, StopsIn P (s2.eqMetric d) := fun d =>
        aggregate_stopsIn fun _ _ => eqCorr_stopsIn (hp.extend h2) (hb.extend h12) d
      refine (search_stopsIn hmetric _ _ s2).bind fun ⟨s3, r⟩ hsearch => ?_
      have h3 := h2.trans (search_extends hsearch)
      cases r with
      | error f => exact .ok _
      | ok f =>
        dsimp only
        split
        · exact .ok _
        · split
          · exact .ok _
          · exact ih (hp.extend h3) (hs.extend h3) (fun hseed => (ht hseed).extend h3) (modes_congr h3.cfg ▸ hm)
              (numTaps_congr h3.cfg ▸ hn)

theorem writeChest_stopsIn (hp : s.Covers P pilotEntries) (hs : s.Covers P sampleEntries) (d : Nat) :
    StopsIn P (s.writeChest d) := by
  refine .foldlM (J := fun _ => True) (fun x p hmem _ => ?_) (fun _ _ _ _ _ _ => trivial) trivial
  obtain ⟨ht, hr⟩ := mem_pairs.1 hmem
  exact (rawCorr_stopsIn hp hs d ht hr).bind fun _ _ => (hp.pilotEnergy ht).map _

theorem syncBody_stopsIn {seed : Bool} (hpilot : 1 ≤ s.pilotLen) (hp : s.Covers P pilotEntries)
    (hs : s.Covers P sampleEntries) (ht : seed = true → 1 ≤ s.iterations → s.Covers P tapEntries)
    (hm : s.modes ≤ Config.mMax) (hn : 1 ≤ s.iterations → s.numTaps ≤ Config.nMax) :
    StopsIn P (s.syncBody seed) := by
  unfold syncBody
  dsimp only
  have h0 : s.Extends ((s.setSyncState .coarse).setSyncIters 0) := (Extends.refl s).congr rfl
  revert h0
  generalize (s.setSyncState .coarse).setSyncIters 0 = s0
  intro h0
  have hmetric : ∀ d, StopsIn P (s0.rawMetric d) := fun d =>
    aggregate_stopsIn fun _ _ => rawCorr_stopsIn (hp.extend h0) (hs.extend h0) d
  refine (search_stopsIn hmetric _ _ s0).bind fun ⟨s1, r⟩ hsearch => ?_
  have h1 := h0.trans (search_extends hsearch)
  cases r with
  | error f => exact .ok _
  | ok f =>
    have h2 : s.Extends { s1 with syncRes := { s1.syncRes with coarseOffset := word f.offset } } := h1.congr rfl
    dsimp only
    revert h2
    generalize ({ s1 with syncRes := { s1.syncRes with coarseOffset := word f.offset } } : State) = s2
    intro h2
    split
    · exact .ok _
    · have hrefine : StopsIn P (s2.refine seed s.iterations 1 f.offset .converged) := by
        rcases Nat.eq_zero_or_pos s.iterations with hzero | hpos
        · rw [hzero]; exact .ok _
        · exact refine_stopsIn (hp.extend h2) (hs.extend h2) (fun hseed => (ht hseed hpos).extend h2)
            (modes_congr h2.cfg ▸ hm) (numTaps_congr h2.cfg ▸ hn hpos)
      refine hrefine.bind fun ⟨s3, r3⟩ hr3 => ?_
      have h3 : s.Extends s3 := by
        refine refine_keeps ?_ (tapClosed_extends _ _) (fun _ _ hx => hx.congr rfl) (searchClosed_extends _)
          (fun _ _ hx => hx.congr rfl) h2 hr3
        rw [pilotLen_congr h2.cfg]
        exact hpilot
      cases r3 with
      | error f3 => exact .ok _
      | ok found => exact (writeChest_stopsIn (hp.extend h3) (hs.extend h3) found.1).map _

/-! ## EQUALIZE (R206 to R220) -/

theorem Covers.decideIndex (h : s.Covers P constEntries) (hsize : 1 ≤ s.constSize) (z : Cplx) :
    StopsIn P (s.decideIndex z) := by
  refine (h.readCplx ⟨0, hsize, rfl⟩).bind fun p0 _ => StopsIn.map ?_ _
  refine .foldlM (J := fun _ => True) (fun best q hq _ => ?_) (fun _ _ _ _ _ _ => trivial) trivial
  exact (h.readCplx ⟨q, List.mem_range.1 (List.mem_of_mem_drop hq), rfl⟩).map _

theorem target_stopsIn (hp : s.Covers P pilotEntries) (hc : s.Covers P constEntries) (hsize : 1 ≤ s.constSize)
    {i : Nat} (hi : i < s.modes) (k : Nat) (y : Cplx) : StopsIn P (s.target k i y) := by
  unfold target
  split
  · next hk => exact hp.readCplx ⟨i, k - s.pilotPos, hi, show k - s.pilotPos < s.pilotLen by omega, rfl⟩
  · refine (hc.decideIndex hsize y).bind fun q hq => hc.readCplx ⟨q, ?_, rfl⟩
    obtain ⟨d, hlt, -⟩ := nearestBelow_of_decideIndex hq
    change q < s.constSize
    dsimp only at hlt
    omega

/-- What EQUALIZE reads before its power test. -/
structure FrameCovered (P : Entry → Prop) (s : State) : Prop extends BankCovered P s where
  pilots : s.Covers P pilotEntries
  points : s.Covers P constEntries
  constSize : 1 ≤ s.constSize

theorem FrameCovered.extend (h : s.FrameCovered P) (ht : s.Extends t) : t.FrameCovered P :=
  ⟨h.toBankCovered.extend ht, h.pilots.extend ht, h.points.extend ht, constSize_congr ht.cfg ▸ h.constSize⟩

theorem FrameCovered.equalizeLoop {d : Nat} {ks : List Nat} (h : s.FrameCovered P) :
    StopsIn P (s.equalizeLoop d ks) := by
  induction ks generalizing s with
  | nil => exact .ok _
  | cons k ks ih =>
    refine (h.outputs _).bind fun ys hys => ?_
    have h1 := writeOutputs_extends (k := k) (fun y hy => outputs_valid hys hy) s
    refine StopsIn.bind (.mapM fun p hmem => ?_) fun targets _ => ?_
    · have hlt := (List.mem_zipIdx hmem).2.1
      have hlen := outputs_length hys
      have h2 := h.extend h1
      exact target_stopsIn h2.pilots h2.points h2.constSize (by rw [modes_congr h1.cfg]; omega) _ _
    · refine ((h.extend h1).learn _ _ _ _).bind fun ⟨s2, dv⟩ hlearn => ?_
      cases dv with
      | some v => exact .ok _
      | none => exact ih (h.extend (h1.trans (learn_extends hlearn)))

/-- A pass that goes to its end has stored an output for every symbol it visited (R213). -/
theorem isWritten_out_of_equalizeLoop {d : Nat} {ks : List Nat} (h : s.equalizeLoop d ks = .ok (t, none)) {i k : Nat}
    (hi : i < s.modes) (hk : k ∈ ks) : t.isWritten (.out i k) = true := by
  induction ks generalizing s with
  | nil => cases hk
  | cons k' ks ih =>
    obtain ⟨ys, targets, s2, dv, hys, -, hlearn, hrest, hdiv⟩ := equalizeLoop_cons h
    have hv : ∀ y ∈ ys, y.Valid := fun y hy => outputs_valid hys hy
    have hext := learn_extends hlearn
    cases dv with
    | some v => cases (hdiv v rfl).2
    | none =>
      have hloop := hrest rfl
      rcases List.mem_cons.1 hk with rfl | hk
      · have hlt : i < ys.length := by rw [outputs_length hys]; exact hi
        have hout := readCplx_eq_ok (outSym_writeOutputs (k := k) hv s (List.getElem?_eq_getElem hlt))
        exact isWritten_of_grows (hext.mem.trans (equalizeLoop_extends hloop).mem) hout
      · have hcfg := hext.cfg.trans (writeOutputs_extends (k := k') hv s).cfg
        exact ih hloop (modes_congr hcfg ▸ hi) hk

theorem powerTest_stopsIn (hc : s.Covers P constEntries) (hout : s.Covers P frameEntries) :
    StopsIn P s.powerTest := by
  refine hc.constPower.bind fun pc _ => ?_
  refine StopsIn.bind (.mapM fun t ht => StopsIn.map (.sumReal fun k hk => ?_) _) fun ps _ => ?_
  · exact (hout.readCplx ⟨t, k, List.mem_range.1 ht, List.mem_range.1 hk, rfl⟩).map _
  · dsimp only
    split
    · exact .ok _
    · exact .ok _

theorem equalizeBody_stopsIn {seed : Bool} (hb : s.EqualizeBounds) (hblock : s.pilotPos + s.pilotLen ≤ s.frameLen)
    (hsize : 1 ≤ s.constSize) (hp : s.Covers P pilotEntries) (hs : s.Covers P sampleEntries)
    (hc : s.Covers P constEntries) (ht : seed = true → s.Covers P tapEntries) : StopsIn P (s.equalizeBody seed) := by
  have hbank := bankCovered_initial hs ht hb.modes hb.numTaps
  have h0 := initialBank_extends seed s
  revert hbank h0
  unfold equalizeBody
  dsimp only
  generalize (if seed = true then s else s.writeIdentity) = s0
  intro hbank h0
  have hframe : s0.FrameCovered P := ⟨hbank, hp.extend h0, hc.extend h0, constSize_congr h0.cfg ▸ hsize⟩
  refine hframe.equalizeLoop.bind fun ⟨s1, e1⟩ hloop => ?_
  have h1 := h0.trans (equalizeLoop_extends hloop)
  cases e1 with
  | some e => exact .ok _
  | none =>
    have hout : s1.Covers P frameEntries := by
      refine covers_of_written ?_
      rw [h1.cfg]
      rintro _ ⟨t, k, ht, hk, rfl⟩
      refine isWritten_out_of_equalizeLoop hloop (modes_congr h0.cfg ▸ ht) ?_
      exact ((symbolOrderVisitsEachSymbolOnce s hblock).1.mem_iff).2 (List.mem_range.2 hk)
    refine (powerTest_stopsIn (hc.extend h1) hout).bind fun ⟨s2, e2⟩ _ => ?_
    cases e2 with
    | some e => exact .ok _
    | none => exact .ok _

/-! ## ESTIMATE (R243 to R249) -/

theorem scoreOf_stopsIn {synced : Bool} {al : Alignment} (hal : al ∈ s.alignments synced)
    (hc : s.Covers P constEntries) (hsize : 1 ≤ s.constSize) (ho : s.Covers P windowEntries)
    (hr : s.Covers P refEntries) : StopsIn P (s.scoreOf al) := by
  refine .foldlM (J := fun _ => True) (fun sc p hp _ => ?_) (fun _ _ _ _ _ _ => trivial) trivial
  obtain ⟨t, k⟩ := p
  simp only [List.mem_flatMap, List.mem_range, List.mem_map, Prod.mk.injEq] at hp
  obtain ⟨_, ht, _, hk, rfl, rfl⟩ := hp
  obtain ⟨-, -, hperm, -⟩ := mem_alignments.1 hal
  obtain ⟨hstart, hend, h0, hlen⟩ := mem_pairSet.1 hk
  have hmode := getD_perm_lt (List.mem_of_getElem? hperm) ht
  refine (ho.readCplx ⟨_, _, hmode, hstart, hend, rfl⟩).bind fun o _ => ?_
  refine StopsIn.bind (hr.readCplx ⟨_, _, ht, ?_, rfl⟩) fun ref _ => ?_
  · change _ < s.refLen
    omega
  · exact (hc.decideIndex hsize _).bind fun dz _ => (hc.decideIndex hsize _).map _

theorem bestAlignment_stopsIn {als : List Alignment} (h : ∀ al ∈ als, StopsIn P (s.scoreOf al))
    (best : Option (Score × Alignment)) : StopsIn P (s.bestAlignment als best) := by
  induction als generalizing best with
  | nil => exact .ok best
  | cons al als ih =>
    rw [List.forall_mem_cons] at h
    refine h.1.bind fun sc _ => ?_
    rcases best with _ | ⟨bs, ba⟩
    · exact ih h.2 _
    · dsimp only
      split
      · exact ih h.2 _
      · exact ih h.2 _

theorem estimateBody_stopsIn {synced acc : Bool} (hc : s.Covers P constEntries) (hsize : 1 ≤ s.constSize)
    (ho : s.Covers P windowEntries) (hr : s.Covers P refEntries) : StopsIn P (s.estimateBody synced acc) := by
  refine (bestAlignment_stopsIn (fun al hal => scoreOf_stopsIn hal hc hsize ho hr) none).bind fun best _ => ?_
  rcases best with _ | ⟨sc, al⟩
  · exact .ok _
  · exact .ok _

/-! ## The inputs of a command -/

/-- An implemented entry that is not written, of a command not all of whose inputs are. -/
structure MissingInput (i : Instr) (s : State) (e : Entry) : Prop where
  implemented : e.implemented = true
  unwritten : s.isWritten e = false
  input : ¬ s.inputsWritten i

/-- A class of implemented entries that the inputs of the command contain. -/
theorem covers_missingInput {i : Instr} (himpl : ∀ e, D s.cfg e → e.implemented = true)
    (hin : s.inputsWritten i → ∀ e, D s.cfg e → s.isWritten e = true) : s.Covers (MissingInput i s) D :=
  fun e he hw => ⟨himpl e he, hw, fun h => by rw [hin h e he] at hw; cases hw⟩

theorem pilotLen_le_of_checked (h : s.checkFails .pilotTooLong = .ok false) : s.pilotLen ≤ Config.pMax := by
  simp only [checkFails, Except.ok.injEq, decide_eq_false_iff_not] at h
  omega

theorem constSize_of_checked (h : s.checkFails .constSizeRange = .ok false) :
    1 ≤ s.constSize ∧ s.constSize ≤ Config.qMax := by
  simp only [checkFails, Except.ok.injEq, Bool.or_eq_false_iff, decide_eq_false_iff_not] at h
  omega

section
variable {i : Instr}

theorem covers_pilots (hm : s.checkFails .modesRange = .ok false) (hp : s.checkFails .pilotTooLong = .ok false)
    (hin : s.inputsWritten i → s.pilotsWritten) : s.Covers (MissingInput i s) pilotEntries := by
  refine covers_missingInput ?_ fun h => ?_
  · rintro _ ⟨t, k, ht, hk, rfl⟩
    have ht' : t < Config.mMax := lt_of_lt_of_le ht (modes_le_of_checked hm)
    have hk' : k < Config.pMax := lt_of_lt_of_le hk (pilotLen_le_of_checked hp)
    simp [Entry.implemented, ht', hk']
  · rintro _ ⟨t, k, ht, hk, rfl⟩
    exact hin h t k ht hk

theorem covers_samples (hm : s.checkFails .modesRange = .ok false) (hs : s.checkFails .sampleLenRange = .ok false)
    (hin : s.inputsWritten i → s.samplesWritten) : s.Covers (MissingInput i s) sampleEntries := by
  refine covers_missingInput ?_ fun h => ?_
  · rintro _ ⟨r, n, hr, hn, rfl⟩
    have hr' : r < Config.mMax := lt_of_lt_of_le hr (modes_le_of_checked hm)
    have hn' : n < Config.sMax := lt_of_lt_of_le hn (sampleLen_le_of_checked hs)
    simp [Entry.implemented, hr', hn']
  · rintro _ ⟨r, n, hr, hn, rfl⟩
    exact hin h r n hr hn

theorem covers_taps (hm : s.checkFails .modesRange = .ok false) (ht : s.checkFails .tapsInvalid = .ok false)
    (hin : s.inputsWritten i → s.tapsWritten) : s.Covers (MissingInput i s) tapEntries := by
  refine covers_missingInput ?_ fun h => ?_
  · rintro _ ⟨t, r, j, ht', hr, hj, rfl⟩
    have hmode : t < Config.mMax := lt_of_lt_of_le ht' (modes_le_of_checked hm)
    have hmode' : r < Config.mMax := lt_of_lt_of_le hr (modes_le_of_checked hm)
    have htap : j < Config.nMax := lt_of_lt_of_le hj (numTaps_le_of_checked ht)
    simp [Entry.implemented, hmode, hmode', htap]
  · rintro _ ⟨t, r, j, ht', hr, hj, rfl⟩
    exact hin h t r j ht' hr hj

theorem covers_points (hq : s.checkFails .constSizeRange = .ok false) (hin : s.inputsWritten i → s.constWritten) :
    s.Covers (MissingInput i s) constEntries := by
  refine covers_missingInput ?_ fun h => ?_
  · rintro _ ⟨q, hq', rfl⟩
    have hlt : q < Config.qMax := lt_of_lt_of_le hq' (constSize_of_checked hq).2
    simp [Entry.implemented, hlt]
  · rintro _ ⟨q, hq', rfl⟩
    exact hin h q hq'

theorem covers_window (hm : s.checkFails .modesRange = .ok false) (hf : s.checkFails .frameTooLong = .ok false)
    (hw : s.checkFails .estWindow = .ok false) (hin : s.inputsWritten i → s.outsWritten) :
    s.Covers (MissingInput i s) windowEntries := by
  refine covers_missingInput ?_ fun h => ?_
  · rintro _ ⟨t, k, ht, -, hk, rfl⟩
    have ht' : t < Config.mMax := lt_of_lt_of_le ht (modes_le_of_checked hm)
    have hk' : k < Config.lMax := by
      simp only [checkFails, Except.ok.injEq, Bool.or_eq_false_iff, decide_eq_false_iff_not] at hf hw
      change k < s.estStart + s.estLen at hk
      omega
    simp [Entry.implemented, ht', hk']
  · rintro _ ⟨t, k, ht, hstart, hk, rfl⟩
    exact hin h t k ht hstart hk

theorem covers_refs (hm : s.checkFails .modesRange = .ok false) (hr : s.checkFails .refLenRange = .ok false)
    (hin : s.inputsWritten i → s.refsWritten) : s.Covers (MissingInput i s) refEntries := by
  refine covers_missingInput ?_ fun h => ?_
  · rintro _ ⟨t, k, ht, hk, rfl⟩
    have ht' : t < Config.mMax := lt_of_lt_of_le ht (modes_le_of_checked hm)
    have hk' : k < Config.rMax := by
      simp only [checkFails, Except.ok.injEq, Bool.or_eq_false_iff, decide_eq_false_iff_not] at hr
      change k < s.refLen at hk
      omega
    simp [Entry.implemented, ht', hk']
  · rintro _ ⟨t, k, ht, hk, rfl⟩
    exact hin h t k ht hk

end

/-! ## The rules -/

/-- A check set that starts with checks 1 to 9 bounds the pilots before it reads them (R138). -/
theorem bounds_before_pilotZeroEnergy {cs : List Check} (h : ∃ rest, cs = layoutChecks ++ rest) :
    .modesRange ∈ cs.takeWhile (· ≠ .pilotZeroEnergy) ∧ .pilotTooLong ∈ cs.takeWhile (· ≠ .pilotZeroEnergy) := by
  obtain ⟨rest, rfl⟩ := h
  rw [show (layoutChecks ++ rest).takeWhile (· ≠ .pilotZeroEnergy) = sizeChecks from rfl]
  decide

/-- A command that checks the pilots' energy checks their bounds first, and the pilots are among its inputs. -/
theorem pilotZeroEnergy_mem_checkSet {i : Instr} (h : .pilotZeroEnergy ∈ s.checkSet i) :
    (∃ rest, s.checkSet i = layoutChecks ++ rest) ∧ (s.inputsWritten i → s.pilotsWritten) := by
  cases i with
  | nop | accClear => cases h
  | initTaps => exact absurd h (by decide : Check.pilotZeroEnergy ∉ initTapsChecks)
  | estimate synced acc =>
    exact absurd h ((by decide : ∀ b, Check.pilotZeroEnergy ∉ estimateChecks b) synced)
  | checkLayout => exact ⟨⟨[], rfl⟩, id⟩
  | equalize seed | recover seed => exact ⟨⟨_, rfl⟩, And.left⟩
  | sync seed =>
    refine ⟨?_, And.left⟩
    rw [checkSet, syncChecks]
    split
    · exact ⟨_, rfl⟩
    · exact ⟨_, rfl⟩

/-- A command that checks the constellation's power checks its size first, and the constellation is among its inputs. -/
theorem constZeroPower_mem_checkSet {i : Instr} (h : .constZeroPower ∈ s.checkSet i) :
    .constSizeRange ∈ (s.checkSet i).takeWhile (· ≠ .constZeroPower) ∧ (s.inputsWritten i → s.constWritten) := by
  cases i with
  | nop | accClear => cases h
  | checkLayout => exact absurd h (by decide : Check.constZeroPower ∉ layoutChecks)
  | initTaps => exact absurd h (by decide : Check.constZeroPower ∉ initTapsChecks)
  | estimate synced acc => exact absurd h ((by decide : ∀ b, Check.constZeroPower ∉ estimateChecks b) synced)
  | equalize seed =>
    exact ⟨(by decide : Check.constSizeRange ∈ equalizeChecks.takeWhile (· ≠ .constZeroPower)),
      fun ⟨_, _, hconst, _⟩ => hconst⟩
  | recover seed =>
    exact ⟨(by decide : Check.constSizeRange ∈ recoverChecks.takeWhile (· ≠ .constZeroPower)),
      fun ⟨_, _, hconst, _⟩ => hconst⟩
  | sync seed =>
    rw [checkSet, syncChecks] at h
    split at h
    · exact absurd h (by decide)
    · exact absurd h (by decide)

theorem pilotTooLong_mem_syncChecks (n : Nat) : .pilotTooLong ∈ syncChecks n := by
  unfold syncChecks
  split
  · decide
  · decide

/-- Validation stops only at an input of the command. -/
theorem covers_checkEntries {i : Instr} {c : Check} (hc : c ∈ s.checkSet i)
    (hbefore : ∀ d ∈ (s.checkSet i).takeWhile (· ≠ c), s.checkFails d = .ok false) :
    s.Covers (MissingInput i s) (checkEntries c) := by
  cases c with
  | pilotZeroEnergy =>
    obtain ⟨hlayout, hin⟩ := pilotZeroEnergy_mem_checkSet hc
    obtain ⟨hm, hp⟩ := bounds_before_pilotZeroEnergy hlayout
    exact covers_pilots (hbefore _ hm) (hbefore _ hp) hin
  | constZeroPower =>
    obtain ⟨hq, hin⟩ := constZeroPower_mem_checkSet hc
    exact covers_points (hbefore _ hq) hin
  | _ => exact fun e he => False.elim he

theorem recoverBody_stopsIn {seed : Bool} (hpass : ∀ c ∈ recoverChecks, s.checkFails c = .ok false)
    (hp : s.Covers P pilotEntries) (hs : s.Covers P sampleEntries) (hc : s.Covers P constEntries)
    (ht : seed = true → s.Covers P tapEntries) : StopsIn P (s.recoverBody seed) := by
  have hpilot := pilotLen_pos_of_checked (hpass .pilotLenZero (by decide))
  have hblock := hpass .pilotBlockOverrun (by decide)
  have hb := equalizeBounds_of_checked hblock (hpass _ (by decide)) (hpass _ (by decide)) (hpass _ (by decide))
  have hsize := (constSize_of_checked (hpass _ (by decide))).1
  refine (syncBody_stopsIn hpilot hp hs (fun hseed _ => ht hseed) hb.modes fun _ => hb.numTaps).bind
    fun ⟨u, e⟩ hsync => ?_
  cases e with
  | some x => exact .ok _
  | none =>
    have hcfg := syncBody_cfg hpilot hsync
    have hgrows := syncBody_grows hpilot hsync
    obtain ⟨-, -, hpos, hlen⟩ := equalizeSet_withFrameOffset hcfg
    have hblock' : u.pilotPos + u.pilotLen ≤ u.frameLen := by
      rw [hpos, hlen]; exact pilotBlock_le_of_checked hblock
    have hsize' : 1 ≤ u.constSize := by rw [constSize, hcfg]; exact hsize
    have hclass : ∀ D : ConfigRegs → Entry → Prop, (∀ c w, D { c with frameOffset := w } = D c) →
        D u.cfg = D s.cfg := fun D hD => by rw [hcfg, hD]
    refine validated_stopsIn (fun c hmem _ => ?_) fun _ =>
      equalizeBody_stopsIn (hb.withFrameOffset hcfg) hblock' hsize'
        (hp.of_grows (hclass _ fun _ _ => rfl) hgrows) (hs.of_grows (hclass _ fun _ _ => rfl) hgrows)
        (hc.of_grows (hclass _ fun _ _ => rfl) hgrows) fun hseed =>
          (ht hseed).of_grows (hclass _ fun _ _ => rfl) hgrows
    rw [List.mem_singleton.1 hmem]
    exact fun e he => False.elim he

/-- The rule of a command stops only at an input of the command. -/
theorem ruleBody_stopsIn {i : Instr} (hpass : s.passes i) : StopsIn (MissingInput i s) (ruleBody i s) := by
  cases i with
  | nop | checkLayout | initTaps | accClear => exact .ok _
  | sync seed =>
    have hm := hpass _ (modesRange_mem_syncChecks _)
    have htaps : 1 ≤ s.iterations → s.checkFails .tapsInvalid = .ok false := fun hi =>
      hpass _ (tapsInvalid_mem_syncChecks hi)
    refine syncBody_stopsIn (pilotLen_pos_of_checked (hpass _ (pilotLenZero_mem_syncChecks _)))
      (covers_pilots hm (hpass _ (pilotTooLong_mem_syncChecks _)) And.left)
      (covers_samples hm (hpass _ (sampleLenRange_mem_syncChecks _)) fun ⟨_, hsamples, _⟩ => hsamples)
      (fun hseed hi => covers_taps hm (htaps hi) fun ⟨_, _, hw⟩ => hw hseed hi) (modes_le_of_checked hm)
      fun hi => numTaps_le_of_checked (htaps hi)
  | equalize seed =>
    have hpass : ∀ c ∈ equalizeChecks, s.checkFails c = .ok false := hpass
    have hm := hpass .modesRange (by decide)
    have hq := hpass .constSizeRange (by decide)
    have hblock := hpass .pilotBlockOverrun (by decide)
    exact equalizeBody_stopsIn (equalizeBounds_of_checked hblock hm (hpass _ (by decide)) (hpass _ (by decide)))
      (pilotBlock_le_of_checked hblock) (constSize_of_checked hq).1
      (covers_pilots hm (hpass _ (by decide)) And.left)
      (covers_samples hm (hpass _ (by decide)) fun ⟨_, hsamples, _⟩ => hsamples)
      (covers_points hq fun ⟨_, _, hconst, _⟩ => hconst)
      fun hseed => covers_taps hm (hpass _ (by decide)) fun ⟨_, _, _, hw⟩ => hw hseed
  | recover seed =>
    have hpass : ∀ c ∈ recoverChecks, s.checkFails c = .ok false := hpass
    have hm := hpass .modesRange (by decide)
    exact recoverBody_stopsIn hpass (covers_pilots hm (hpass _ (by decide)) And.left)
      (covers_samples hm (hpass _ (by decide)) fun ⟨_, hsamples, _⟩ => hsamples)
      (covers_points (hpass _ (by decide)) fun ⟨_, _, hconst, _⟩ => hconst)
      fun hseed => covers_taps hm (hpass _ (by decide)) fun ⟨_, _, _, hw⟩ => hw hseed
  | estimate synced acc =>
    have hcheck : ∀ c ∈ [.frameLenZero, .modesRange, .frameTooLong, .constSizeRange, .rotOrderRange, .estWindow,
        .refLenRange], s.checkFails c = .ok false := fun c hc => hpass c (List.mem_append_left _ hc)
    have hm := hcheck .modesRange (by decide)
    have hq := hcheck .constSizeRange (by decide)
    exact estimateBody_stopsIn (covers_points hq And.left) (constSize_of_checked hq).1
      (covers_window hm (hcheck _ (by decide)) (hcheck _ (by decide)) fun ⟨_, houts, _⟩ => houts)
      (covers_refs hm (hcheck _ (by decide)) fun ⟨_, _, hrefs⟩ => hrefs)

/-- Clearing the valid bits leaves the inputs of the command. -/
theorem MissingInput.of_clearValid {i : Instr} {e : Entry} (h : MissingInput i (s.clearValid (.legal i)) e) :
    MissingInput i s e := by
  obtain ⟨himpl, hw, hin⟩ := h
  rw [clearValid_eq] at hw hin
  refine ⟨himpl, hw, fun h => hin ?_⟩
  cases i
  all_goals exact h

/-- A command stops only at one of its inputs that is not written (R288, R104). -/
theorem exec_fault {i : Instr} {e : Entry} (h : exec i s = .fault (.uninitRead e)) : MissingInput i s e := by
  have hchecks : (s.clearValid (.legal i)).checkSet i = s.checkSet i := (clearValid_writeSet i s).2.2
  rw [exec_eq_finish, ← hchecks] at h
  refine MissingInput.of_clearValid (validated_stopsIn ?_ ?_ e (finish_fault h))
  · exact fun c hc hbefore => covers_checkEntries hc hbefore
  · exact fun hpass => ruleBody_stopsIn hpass

/-- No command is refused. -/
theorem exec_ne_refused (i : Instr) (s : State) (x : Refusal) : exec i s ≠ .refused x := by
  rw [exec_eq_finish]
  exact finish_ne_refused _ x

/-- The engine's turn stops only in a command that runs without an abort request, at an input of it (R288). -/
theorem engineMove_fault {e : Entry} (h : engineMove s = .fault (.uninitRead e)) :
    ∃ i, s.engine = .running (.legal i) ∧ s.abortReq = false ∧ MissingInput i s e := by
  cases hs : s.engine with
  | idle => rw [engineMove_idle hs] at h; cases h
  | running c =>
    cases ha : s.abortReq with
    | true => rw [engineMove_abort hs ha] at h; cases h
    | false =>
      cases c with
      | illegal x => rw [engineMove_illegal hs ha] at h; cases h
      | legal i =>
        rw [engineMove_legal hs ha] at h
        exact ⟨i, rfl, rfl, exec_fault h⟩

theorem engineMove_ne_refused (s : State) (x : Refusal) : engineMove s ≠ .refused x := by
  unfold engineMove
  split
  · exact fun h => by cases h
  · split
    · exact fun h => by cases h
    · split
      · exact exec_ne_refused _ s x
      · exact finish_ne_refused _ x

theorem nextTurn_abortReq (s : State) : s.nextTurn.2.abortReq = s.abortReq := by
  unfold nextTurn
  split
  · rfl
  · rfl

end State

/-- Settles O54: a fault would name an input that is not written. -/
theorem writtenInputsNeverFault : Obligations.WrittenInputsNeverFault := by
  intro i s hw
  cases h : exec i s with
  | next t => exact ⟨t, rfl⟩
  | fault f =>
    obtain ⟨e⟩ := f
    exact absurd hw (State.exec_fault h).input
  | refused x => exact absurd h (State.exec_ne_refused i s x)

/-- Settles O55, by whose turn it is: only the engine's can stop. -/
theorem everyStopNamesAnUnwrittenEntry : Obligations.EveryStopNamesAnUnwrittenEntry := by
  intro s
  have hengine := State.nextTurn_engine s
  have habort := State.nextTurn_abortReq s
  have hmem := State.nextTurn_mem s
  refine ⟨fun x h => ?_, fun e h => ?_⟩
  · unfold step at h
    split at h
    · cases h
    · cases h
    · exact State.engineMove_ne_refused _ x h
  · unfold step at h
    split at h
    · cases h
    · cases h
    · next t ht =>
      rw [ht] at hengine habort hmem
      obtain ⟨i, hrun, ha, hmissing⟩ := State.engineMove_fault h
      refine ⟨State.busy_running (hengine.symm.trans hrun), habort.symm.trans ha, hmissing.implemented, ?_⟩
      have hunwritten := hmissing.unwritten
      rw [State.isWritten, hmem] at hunwritten
      exact hunwritten

end Sys2Proof.Machine
end

section
/-! PROOFS. Reset and progress (spec/70_reset_and_hazards.md R310 to R314, R331): what a reset of either kind leaves, and
that a running command ends when its schedule is used up. -/

namespace Sys2Proof.Machine

/-! ## What a reset leaves (R311, R313, R314) -/

/-- No register shows the memories, the host's side or the draw counter. -/
theorem Reg.read_reset_with (r : Reg) (m : Memory) (level : Bool) (qs : List Request) (ts : List Turn)
    (x : Option Response) (n : Nat) :
    r.read { State.reset with mem := m, rstN := level, requests := qs, schedule := ts, response := x, draws := n } =
      r.read State.reset := by
  cases r
  all_goals rfl

theorem Memory.grows_fillWords (f : Nat → Word) (n : Nat) (m : Memory) (base : Nat) :
    m.Grows (m.fillWords f base n) := by
  induction n generalizing m base with
  | zero => exact .refl m
  | succ n ih => exact (grows_writeWord m base (f base)).trans (ih _ _)

theorem Memory.Grows.read_ne_none {m m' : Memory} (h : m.Grows m') {a : Nat} (ha : m.read a ≠ none) :
    m'.read a ≠ none := by
  obtain ⟨b, hb⟩ := Option.ne_none_iff_exists'.1 ha
  obtain ⟨b', hb'⟩ := h a b hb
  rw [hb']
  exact Option.some_ne_none b'

namespace State

/-- A reset of either kind is the reset state but for the memories and the model's own fields (R311, R313). -/
theorem resetBlock_eq (s : State) :
    s.resetBlock =
      { State.reset with
        mem := s.resetBlock.mem
        rstN := s.rstN
        requests := s.requests
        schedule := s.schedule
        response := s.response
        draws := s.resetBlock.draws } := by
  unfold resetBlock
  split
  · rfl
  · rfl

theorem grows_drawMem (l : List (Nat × Nat)) (s : State) : s.mem.Grows (s.drawMem l).mem :=
  foldl_keeps (fun m : Memory => s.mem.Grows m) _ l (fun m _ _ hm => hm.trans (Memory.grows_fillWords _ _ m _))
    (.refl s.mem)

theorem grows_resetBlock (s : State) : s.mem.Grows s.resetBlock.mem := by
  rcases mem_resetBlock s with hm | ⟨l, hm⟩
  · rw [hm]; exact .refl s.mem
  · rw [hm]; exact grows_drawMem l s

theorem resetBlock_mem_idle {s : State} (hs : s.engine = .idle) : s.resetBlock.mem = s.mem := by
  rw [resetBlock, hs, resetRegisters_mem]

/-- A reset that ends a command keeps every byte outside the write set (R314). -/
theorem read_resetBlock_of_not_inRanges {s : State} {c : Decoded} (hs : s.engine = .running c) {a : Nat}
    (ha : ¬ inRanges (s.writeSetRanges c) a) : s.resetBlock.mem.read a = s.mem.read a := by
  rw [resetBlock, hs, resetRegisters_mem, nextDraw_mem, read_drawMem_of_not_inRanges ha]

theorem movePin_low (s : State) : s.movePin false = { s.resetBlock with rstN := false } := rfl

/-- Taking a turn off the schedule leaves what a reset of the memories depends on. -/
theorem nextTurn_reset_inputs {s t : State} {turn : Turn} (h : s.nextTurn = (turn, t)) :
    t.engine = s.engine ∧ t.mem = s.mem ∧ ∀ c, t.writeSetRanges c = s.writeSetRanges c := by
  have ht : t = { s with schedule := t.schedule } := by
    have hs := s.nextTurn_eq
    rwa [h] at hs
  rw [ht]
  exact ⟨rfl, rfl, fun _ => rfl⟩

end State

/-- A CTRL write with SOFT_RESET is a reset of the block (R313). -/
theorem State.transact_softReset (s : State) {w : Word} (h : w.getLsbD 2 = true) :
    s.transact (writeRequest 0x040 w) = { s.resetBlock with response := some (.write .okay) } := by
  rw [show 0x040 = Reg.ctrl.offset from rfl, transact_writeRegister, writeReg_ctrl, writeCtrl, if_pos h]

theorem step_of_pinTurn {s t : State} {level : Bool} (h : s.nextTurn = (.rstN level, t)) :
    step s = .next (t.movePin level) := by
  rw [step, h]

/-- Settles O19: the write is a reset of the block. -/
theorem softResetEndsTheCommandAndKeepsMemory : Obligations.SoftResetEndsTheCommandAndKeepsMemory := by
  intro s w hw
  rw [s.transact_softReset hw, s.resetBlock_eq]
  exact ⟨rfl, fun r => r.read_reset_with _ _ _ _ _ _, rfl, rfl, rfl, State.resetBlock_mem_idle,
    fun c hs a ha => State.read_resetBlock_of_not_inRanges hs ha, fun a ha => s.grows_resetBlock.read_ne_none ha⟩

/-- Settles O20: the falling pin is a reset of the block, in a state that differs from `s` in the schedule alone. -/
theorem hardResetSetsEveryRegister : Obligations.HardResetSetsEveryRegister := by
  refine ⟨fun s t hturn => ?_, fun s t hturn => step_of_pinTurn hturn⟩
  obtain ⟨hengine, hmem, hranges⟩ := State.nextTurn_reset_inputs hturn
  rw [step_of_pinTurn hturn, t.movePin_low, t.resetBlock_eq, ← hengine, ← hmem]
  simp only [← hranges]
  exact ⟨_, rfl, rfl, fun r => r.read_reset_with _ _ _ _ _ _, rfl, rfl, rfl, rfl, State.resetBlock_mem_idle,
    fun c hs a ha => State.read_resetBlock_of_not_inRanges hs ha, fun a ha => t.grows_resetBlock.read_ne_none ha⟩

/-! ## A running command ends (R133, R331) -/

theorem run_succ_of_next {M : Host.Core} {s t : M.State} (h : M.step s = .next t) (n : Nat) :
    M.run (n + 1) s = M.run n t := by
  rw [Host.Core.run, h]

theorem run_succ_of_fault {M : Host.Core} {s : M.State} {f : M.Fault} (h : M.step s = .fault f) (n : Nat) :
    M.run (n + 1) s = .fault f := by
  rw [Host.Core.run, h]

namespace State

theorem busWrite_schedule (s : State) (a : Nat) (w : Word) (x : Target) :
    (s.busWrite a w x).schedule = s.schedule := by
  cases busWrite_effect s a w x with
  | reset hu => rw [hu, resetBlock_eq]
  | nothing hu | control _ _ hu | command hu | flags _ hu | config _ hu | memory _ _ hu => simp [hu]

theorem transact_schedule (s : State) (q : Request) : (s.transact q).schedule = s.schedule := by
  by_cases h : q.Rejected
  · rw [transact_slverr h, slverr_schedule]
  · cases hk : q.kind with
    | read => rw [transact_of_read h hk]
    | write => rw [transact_of_write h hk]; exact busWrite_schedule s _ _ _

theorem hostMove_schedule (s : State) : s.hostMove.schedule = s.schedule := by
  unfold hostMove
  split
  · rfl
  · split
    · rfl
    · exact transact_schedule _ _

theorem movePin_schedule (level : Bool) (s : State) : (s.movePin level).schedule = s.schedule := by
  cases level with
  | true => rfl
  | false => rw [movePin_low, resetBlock_eq]

/-- The engine's turn ends a running command, or stops at an unwritten entry (R132, R288). -/
theorem engineMove_ends {s : State} {c : Decoded} (hs : s.engine = .running c) :
    (∃ t, engineMove s = .next t ∧ t.engine = .idle) ∨ ∃ e, engineMove s = .fault (.uninitRead e) := by
  cases h : engineMove s with
  | next t =>
    obtain ⟨u, code, sub, -, rfl, -, -⟩ := completedFrom_engineMove hs h
    exact .inl ⟨_, rfl, rfl⟩
  | fault f => obtain ⟨e⟩ := f; exact .inr ⟨e, rfl⟩
  | refused x => exact absurd h (engineMove_ne_refused s x)

/-- After `n` steps the engine is idle, or the run has stopped at an unwritten entry. -/
def EndsAt (s : State) (n : Nat) : Prop :=
  (∃ t : State, Host.Core.run Sys2Proof.core n s = .next t ∧ t.engine = .idle) ∨
    ∃ e, Host.Core.run Sys2Proof.core n s = .fault (Fault.uninitRead e)

theorem EndsAt.of_step {s t : State} {n : Nat} (h : t.EndsAt n) (hstep : step s = .next t) : s.EndsAt (n + 1) := by
  have hrun := run_succ_of_next (M := Sys2Proof.core) hstep n
  rcases h with ⟨u, hu, hidle⟩ | ⟨e, he⟩
  · exact .inl ⟨u, hrun.trans hu, hidle⟩
  · exact .inr ⟨e, hrun.trans he⟩

theorem endsAt_one_of_idle {s t : State} (hstep : step s = .next t) (ht : t.engine = .idle) : s.EndsAt 1 :=
  EndsAt.of_step (.inl ⟨t, rfl, ht⟩) hstep

theorem endsAt_one_of_fault {s : State} {e : Entry} (hstep : step s = .fault (.uninitRead e)) : s.EndsAt 1 :=
  .inr ⟨e, run_succ_of_fault hstep 0⟩

/-- A running command ends with the engine's turn. -/
theorem endsAt_one_of_engineTurn {s t : State} {c : Decoded} (hturn : s.nextTurn = (.engine, t))
    (hs : t.engine = .running c) : s.EndsAt 1 := by
  have hstep := step_of_engineTurn hturn
  rcases engineMove_ends hs with ⟨u, hu, hidle⟩ | ⟨e, he⟩
  · exact endsAt_one_of_idle (hstep.trans hu) hidle
  · exact endsAt_one_of_fault (hstep.trans he)

theorem nextTurn_of_cons {s : State} {turn : Turn} {rest : List Turn} (h : s.schedule = turn :: rest) :
    s.nextTurn = (turn, { s with schedule := rest }) := by
  rw [nextTurn, h]

theorem nextTurn_of_nil {s : State} {c : Decoded} (h : s.schedule = []) (hs : s.engine = .running c) :
    s.nextTurn = (.engine, s) := by
  rw [nextTurn, h, busy_running hs, if_pos rfl]

/-- A running command ends within its schedule and one more step: the host's and the pin's turns only use the schedule
up, and the engine's turn, at the latest when it is used up, ends the command. -/
theorem exists_endsAt (ts : List Turn) {s : State} {c : Decoded} (hts : s.schedule = ts)
    (hs : s.engine = .running c) : ∃ n, n ≤ ts.length + 1 ∧ s.EndsAt n := by
  induction ts generalizing s c with
  | nil => exact ⟨1, Nat.le_refl 1, endsAt_one_of_engineTurn (nextTurn_of_nil hts hs) hs⟩
  | cons turn rest ih =>
    have hturn := nextTurn_of_cons hts
    have hother : ∀ u : State, step s = .next u → u.schedule = rest →
        ∃ n, n ≤ (turn :: rest).length + 1 ∧ s.EndsAt n := by
      intro u hstep hrest
      cases hu : u.engine with
      | idle => exact ⟨1, Nat.le_add_left 1 _, endsAt_one_of_idle hstep hu⟩
      | running d =>
        obtain ⟨n, hn, hend⟩ := ih hrest hu
        exact ⟨n + 1, Nat.succ_le_succ hn, hend.of_step hstep⟩
    cases turn with
    | engine => exact ⟨1, Nat.le_add_left 1 _, endsAt_one_of_engineTurn hturn hs⟩
    | host => exact hother _ (step_of_hostTurn hturn) (hostMove_schedule _)
    | rstN level => exact hother _ (step_of_pinTurn hturn) (movePin_schedule level _)

end State

/-- Settles O7, by induction on the schedule. -/
theorem runningCommandEndsWithinTheSchedule : Obligations.RunningCommandEndsWithinTheSchedule := fun s _ hs =>
  State.exists_endsAt s.schedule rfl hs

end Sys2Proof.Machine
end
